-- ==== Sys2Proof/Word.lean ====
section
/-!
DEFINITION. Word.lean: the word, the slot and the byte of the Thaben T7 (spec/00_scope.md R1, R6).
-/
namespace Sys2Proof

/-- The native unit of execution, 256 bits (R6). -/
abbrev Word := BitVec 256

/-- One slot of a word (R6, R95). -/
abbrev SlotBits := BitVec 32

/-- A byte. -/
abbrev Byte := BitVec 8

/-- A 64-bit scalar (R68, R74). -/
abbrev Scalar := BitVec 64

/-- A 128-lane vector, lane i in bits [32i+31:32i] (R68, R146). -/
abbrev Vec := BitVec 4096

end Sys2Proof
end

