-- ==== Sys2Proof/Config.lean ====
section
/-!
DEFINITION. Config.lean: what an implementation fixes, and the free values: what the spec leaves open,
as constants nothing in Lean can evaluate.

Every free value is drawn by a key. The key comes from `State.fresh`, a counter every step advances,
so two draws never share one unless the model says so.
-/
namespace Sys2Proof.Config

/-- A value the spec leaves undefined (00_scope.md R10), cut to the width it is needed at: a ring read
inside the undefined window (R72), bytes being written (R445) or lost at a step (R386), a value from a
poisoned granule (R389). See notes/assumptions/7.md. -/
opaque freeBits : Nat → BitVec 32768

/-- The words of a Horser image's translation and its entry word (16_kernel.md R317), by key, where `translate`
finds no order of native words for some bundle. See notes/assumptions/8.md. -/
opaque horserWords : Nat → List Word
opaque horserEntry : Nat → Nat

/-- The numbers by which the failing-unit field names a core below the floor of R25 and a die whose L2 has lost too
many ways (23_startup.md R399). -/
opaque coreUnit : Nat → BitVec 16
opaque l2Unit : Nat → BitVec 16

/-- The identity key, a P-521 private key that never leaves newel (R402), and the secret number that ECDSA takes for each
digest it signs (R407), each from 0. -/
opaque identitySecret : BitVec 521
opaque signSecret : BitVec 512 → BitVec 521

/-- The digest of Clejor's signing public key in the newel ROM (R401). -/
opaque romDigest : BitVec 512

/-- What a service number 0x002 to 0xFFF of the runtime firmware returns in `s0` (16_kernel.md R312,
07_scalar.md R144), by key. -/
opaque serviceResult : Nat → BitVec 64

/-- The pod chip number of a rank from 20 on, which the runtime firmware defines by the PARAMS of a launch record
(20_link.md R360). -/
opaque podChip : BitVec 1024 → Nat → BitVec 16

/-- The LATs of the links of a route from a chip to another beyond the first link, which the tables of the chips on
the way hold (20_link.md R363). -/
opaque farLat : BitVec 16 → Nat → Nat

/-- The pod chip number of the pod's time root, where this chip does not run PTP itself: the chip that runs it, or the
lowest-numbered (20_link.md R354). -/
opaque timeRoot : BitVec 16

/-- TAG of a message that answers none, by its STAMP (20_link.md R358). -/
opaque ownTag : Nat → BitVec 16

/-- The address in a space of the byte of DRAM that a physical address of another space names (19_page.md R341). See
notes/assumptions/18.md. -/
opaque viewByte : Nat → Nat → Nat

/-- LEN of an X message and of a collective chunk, whose payloads have no layout in the spec (20_link.md R366, R373),
by the bytes of values. -/
opaque valueUnits : Nat → BitVec 8

/-- The instruction-store words that a runtime firmware image gives an agent (23_startup.md R399,
22_reliability.md R394): service cores 256 to 287, the management core 288. -/
opaque firmwareWords : List Byte → Nat → List Word

end Sys2Proof.Config
end

