-- ==== Sys2Proof/Machine/Crypto.lean ====
section
/-!
DEFINITION. Crypto.lean: SHA-512 and ECDSA over curve P-521 (23_startup.md R401, R407), as FIPS 180-4, SEC 2 and FIPS
186 define them: R401 names them and gives no definition of its own (see notes/assumptions/74.md).
-/
namespace Sys2Proof.Machine

/-! ### SHA-512 -/

/-- The round constants. -/
def shaK : List (BitVec 64) :=
  [0x428A2F98D728AE22#64, 0x7137449123EF65CD#64, 0xB5C0FBCFEC4D3B2F#64, 0xE9B5DBA58189DBBC#64,
   0x3956C25BF348B538#64, 0x59F111F1B605D019#64, 0x923F82A4AF194F9B#64, 0xAB1C5ED5DA6D8118#64,
   0xD807AA98A3030242#64, 0x12835B0145706FBE#64, 0x243185BE4EE4B28C#64, 0x550C7DC3D5FFB4E2#64,
   0x72BE5D74F27B896F#64, 0x80DEB1FE3B1696B1#64, 0x9BDC06A725C71235#64, 0xC19BF174CF692694#64,
   0xE49B69C19EF14AD2#64, 0xEFBE4786384F25E3#64, 0x0FC19DC68B8CD5B5#64, 0x240CA1CC77AC9C65#64] ++
  [0x2DE92C6F592B0275#64, 0x4A7484AA6EA6E483#64, 0x5CB0A9DCBD41FBD4#64, 0x76F988DA831153B5#64,
   0x983E5152EE66DFAB#64, 0xA831C66D2DB43210#64, 0xB00327C898FB213F#64, 0xBF597FC7BEEF0EE4#64,
   0xC6E00BF33DA88FC2#64, 0xD5A79147930AA725#64, 0x06CA6351E003826F#64, 0x142929670A0E6E70#64,
   0x27B70A8546D22FFC#64, 0x2E1B21385C26C926#64, 0x4D2C6DFC5AC42AED#64, 0x53380D139D95B3DF#64,
   0x650A73548BAF63DE#64, 0x766A0ABB3C77B2A8#64, 0x81C2C92E47EDAEE6#64, 0x92722C851482353B#64] ++
  [0xA2BFE8A14CF10364#64, 0xA81A664BBC423001#64, 0xC24B8B70D0F89791#64, 0xC76C51A30654BE30#64,
   0xD192E819D6EF5218#64, 0xD69906245565A910#64, 0xF40E35855771202A#64, 0x106AA07032BBD1B8#64,
   0x19A4C116B8D2D0C8#64, 0x1E376C085141AB53#64, 0x2748774CDF8EEB99#64, 0x34B0BCB5E19B48A8#64,
   0x391C0CB3C5C95A63#64, 0x4ED8AA4AE3418ACB#64, 0x5B9CCA4F7763E373#64, 0x682E6FF3D6B2B8A3#64,
   0x748F82EE5DEFB2FC#64, 0x78A5636F43172F60#64, 0x84C87814A1F0AB72#64, 0x8CC702081A6439EC#64] ++
  [0x90BEFFFA23631E28#64, 0xA4506CEBDE82BDE9#64, 0xBEF9A3F7B2C67915#64, 0xC67178F2E372532B#64,
   0xCA273ECEEA26619C#64, 0xD186B8C721C0C207#64, 0xEADA7DD6CDE0EB1E#64, 0xF57D4F7FEE6ED178#64,
   0x06F067AA72176FBA#64, 0x0A637DC5A2C898A6#64, 0x113F9804BEF90DAE#64, 0x1B710B35131C471B#64,
   0x28DB77F523047D84#64, 0x32CAAB7B40C72493#64, 0x3C9EBE0A15C9BEBC#64, 0x431D67C49C100D4C#64,
   0x4CC5D4BECB3E42B6#64, 0x597F299CFC657E2A#64, 0x5FCB6FAB3AD6FAEC#64, 0x6C44198C4A475817#64]

/-- The eight working words. -/
structure Sha where
  a : BitVec 64
  b : BitVec 64
  c : BitVec 64
  d : BitVec 64
  e : BitVec 64
  f : BitVec 64
  g : BitVec 64
  h : BitVec 64
  deriving DecidableEq, Repr

def Sha.start : Sha :=
  { a := 0x6A09E667F3BCC908#64, b := 0xBB67AE8584CAA73B#64, c := 0x3C6EF372FE94F82B#64, d := 0xA54FF53A5F1D36F1#64
    e := 0x510E527FADE682D1#64, f := 0x9B05688C2B3E6C1F#64, g := 0x1F83D9ABFB41BD6B#64, h := 0x5BE0CD19137E2179#64 }

/-- A number whose bytes come most significant first. -/
def ofBytesBE (l : List Byte) : Nat := l.foldl (fun v b => 256 * v + b.toNat) 0

/-- The next word of the message schedule, the words so far newest first. -/
def shaNext (l : List (BitVec 64)) : BitVec 64 :=
  let s0 (x : BitVec 64) := x.rotateRight 1 ^^^ x.rotateRight 8 ^^^ (x >>> 7)
  let s1 (x : BitVec 64) := x.rotateRight 19 ^^^ x.rotateRight 61 ^^^ (x >>> 6)
  s1 (l.getD 1 0) + l.getD 6 0 + s0 (l.getD 14 0) + l.getD 15 0

/-- `n` more words. -/
def shaExtend : Nat → List (BitVec 64) → List (BitVec 64)
  | 0, l => l
  | n + 1, l => shaExtend n (shaNext l :: l)

/-- One round, with its constant and its schedule word. -/
def shaRound (x : Sha) (k w : BitVec 64) : Sha :=
  let s1 := x.e.rotateRight 14 ^^^ x.e.rotateRight 18 ^^^ x.e.rotateRight 41
  let s0 := x.a.rotateRight 28 ^^^ x.a.rotateRight 34 ^^^ x.a.rotateRight 39
  let t1 := x.h + s1 + ((x.e &&& x.f) ^^^ (~~~x.e &&& x.g)) + k + w
  let t2 := s0 + ((x.a &&& x.b) ^^^ (x.a &&& x.c) ^^^ (x.b &&& x.c))
  { a := t1 + t2, b := x.a, c := x.b, d := x.c, e := x.d + t1, f := x.e, g := x.f, h := x.g }

/-- A block of 128 bytes. -/
def shaBlock (x : Sha) (blk : List Byte) : Sha :=
  let w := (List.range 16).map fun i => BitVec.ofNat 64 (ofBytesBE ((blk.drop (8 * i)).take 8))
  let y := (shaK.zip (shaExtend 64 w.reverse).reverse).foldl (fun x k => shaRound x k.1 k.2) x
  { a := x.a + y.a, b := x.b + y.b, c := x.c + y.c, d := x.d + y.d
    e := x.e + y.e, f := x.f + y.f, g := x.g + y.g, h := x.h + y.h }

/-- The message, padded to whole blocks. -/
def shaPad (m : List Byte) : List Byte :=
  m ++ (0x80#8 :: List.replicate ((239 - m.length % 128) % 128) 0#8) ++
    ((List.range 16).map fun i => BitVec.ofNat 8 ((8 * m.length) >>> (8 * (15 - i))) : List Byte)

/-- The digest, as one number, its first byte the most significant. -/
def sha512 (m : List Byte) : BitVec 512 :=
  let l := shaPad m
  let x := (List.range (l.length / 128)).foldl (fun x i => shaBlock x ((l.drop (128 * i)).take 128)) Sha.start
  x.a ++ x.b ++ x.c ++ x.d ++ x.e ++ x.f ++ x.g ++ x.h

/-! ### Curve P-521 -/

def fieldP : Nat := 2 ^ 521 - 1
def curveB : Nat := 0x51953EB9618E1C9A1F929A21A0B68540EEA2DA725B99B315F3B8B489918EF109E156193951EC7E937B1652C0BD3BB1BF073573DF883D2C34F1EF451FD46B503F00
def baseX : Nat := 0xC6858E06B70404E9CD9E3ECB662395B4429C648139053FB521F828AF606B4D3DBAA14B5E77EFE75928FE1DC127A2FFA8DE3348B3C1856A429BF97E7E31C2E5BD66
def baseY : Nat := 0x11839296A789A3BC0045C8A5FB42C7D1BD998F54449579B446817AFBD17273E662C97EE72995EF42640C550B9013FAD0761353C7086A272C24088BE94769FD16650
def orderN : Nat := 0x1FFFFFFFFFFFFFFFFFFFFFFFFFFFFFFFFFFFFFFFFFFFFFFFFFFFFFFFFFFFFFFFFFA51868783BF2F966B7FCC0148F709A5D03BB5C9B8899C47AEBB6FB71E91386409

/-- x to the power e, modulo m; `f` bits of e. -/
def powMod (m : Nat) : Nat → Nat → Nat → Nat
  | 0, _, _ => 1
  | f + 1, x, e => (if e % 2 = 1 then x else 1) * powMod m f (x * x % m) (e / 2) % m

/-- The inverse modulo a prime of at most 521 bits. -/
def invMod (m x : Nat) : Nat := powMod m 521 (x % m) (m - 2)

/-- Points of the curve; none is the point at infinity. -/
abbrev Point := Option (Nat × Nat)

def onCurve (x y : Nat) : Bool := x < fieldP && y < fieldP && (y * y + 3 * x) % fieldP == (x * x * x + curveB) % fieldP

/-- The sum of two points, on the line through them of slope l. -/
def chord (l : Nat) (a : Nat × Nat) (bx : Nat) : Point :=
  let x := (l * l + 2 * fieldP - a.1 - bx) % fieldP
  some (x, (l * (a.1 + fieldP - x) + fieldP - a.2) % fieldP)

def addPoint (p q : Point) : Point :=
  match p, q with
  | none, q => q
  | p, none => p
  | some a, some b =>
    if a.1 = b.1 then
      if (a.2 + b.2) % fieldP = 0 then none
      else chord ((3 * a.1 * a.1 + fieldP - 3) * invMod fieldP (2 * a.2)) a b.1
    else chord ((b.2 + fieldP - a.2) * invMod fieldP (b.1 + fieldP - a.1)) a b.1

/-- k times a point; `f` bits of k. -/
def mulPoint : Nat → Nat → Point → Point
  | 0, _, _ => none
  | f + 1, k, p =>
    let r := mulPoint f (k / 2) (addPoint p p)
    if k % 2 = 1 then addPoint p r else r

/-- Bytes of a number, most significant first. -/
def bytesBE (n v : Nat) : List Byte := (List.range n).map fun i => BitVec.ofNat 8 (v >>> (8 * (n - 1 - i)))

/-- A number from 1 to the order less 1. -/
def scalarOf (v : BitVec 521) : Nat := 1 + v.toNat % (orderN - 1)

/-- The public key of private key d, uncompressed. -/
def publicKey (d : Nat) : List Byte :=
  match mulPoint 521 d (some (baseX, baseY)) with
  | some p => 4#8 :: (bytesBE 66 p.1 ++ bytesBE 66 p.2)
  | none => List.replicate 133 0#8

/-- The ECDSA signature over a digest by private key d with secret number k: r then s. -/
def signatureOf (d k : Nat) (digest : BitVec 512) : List Byte :=
  let r := match mulPoint 521 k (some (baseX, baseY)) with | some p => p.1 % orderN | none => 0
  bytesBE 66 r ++ bytesBE 66 (invMod orderN k * (digest.toNat + r * d) % orderN)

/-- The device's identity (R402, R407): its public key, and its signature over a digest. -/
def identityKey : List Byte := publicKey (scalarOf Config.identitySecret)
def identitySign (digest : BitVec 512) : List Byte :=
  signatureOf (scalarOf Config.identitySecret) (scalarOf (Config.signSecret digest)) digest

/-- An ECDSA signature verifies: an uncompressed public key of 133 bytes, a digest, a signature of 132 bytes, r then
s. -/
def verifies (key : List Byte) (digest : BitVec 512) (sig : List Byte) : Bool :=
  let x := ofBytesBE ((key.drop 1).take 66)
  let y := ofBytesBE (key.drop 67)
  let r := ofBytesBE (sig.take 66)
  let t := ofBytesBE (sig.drop 66)
  let w := invMod orderN t
  key.length == 133 && sig.length == 132 && key.head? == some 4 && onCurve x y &&
    0 < r && r < orderN && 0 < t && t < orderN &&
    match addPoint (mulPoint 521 (digest.toNat * w % orderN) (some (baseX, baseY))) (mulPoint 521 (r * w % orderN) (some (x, y))) with
    | some p => p.1 % orderN == r
    | none => false

end Sys2Proof.Machine
end

