-- ==== Sys2Proof/Syntax.lean ====
section
/-!
DEFINITION. Syntax.lean: every row of spec/opcode_table.json as one constructor of Instr.

Slot operations carry their guard (R96, R81) together with the stair flags a mode 1 header gives
their slot (R94), and their source operands with the value a header lends already in place (R102,
R103). Micro-operations carry the fields of R213. The other rows are events: each carries what the
outside, the firmware or the unordered hardware chose.
-/
namespace Sys2Proof

/-- The eight units and their result rings, in the order of R99. -/
inductive RingId where
  | s | va | vb | m | ca | cb | x | k
  deriving DecidableEq, Repr

/-- A source operand: the selector of R99, with the header immediate it reads (R100, R102). -/
inductive Src where
  /-- 0x00-0x1F: `v`n in slots 1 and 2, `s`n elsewhere. -/
  | reg (n : Fin 32)
  /-- 0x20-0x5F: a ring latch. -/
  | latch (u : RingId) (n : Fin 8)
  /-- 0x60-0x6F: the selector's low four bits; the integer is that value minus 8. -/
  | small (v : BitVec 4)
  /-- 0x70 in a slot a mode 0 header names: the 25-bit immediate. -/
  | imm25 (v : BitVec 25)
  /-- 0x70 in a slot a mode 2 header names: the 18-bit immediate. -/
  | imm18 (v : BitVec 18)
  /-- 0x72: core logical index. -/
  | core
  /-- 0x73: lane index. -/
  | lane
  /-- 0x74-0x77: walk register. -/
  | walk (n : Fin 4)
  deriving DecidableEq, Repr

/-- The guard pair of R81 with the first-only and last-only flags of R94. -/
structure Guard where
  pred  : Fin 16
  sense : Bool
  first : Bool
  last  : Bool
  deriving DecidableEq, Repr

/-- Which vector slot (R95). -/
inductive VSlot where
  | va | vb
  deriving DecidableEq, Repr

/-- Which copy slot (R95). -/
inductive CSlot where
  | ca | cb
  deriving DecidableEq, Repr

/-- Rounding codes 0 to 4 (R42). -/
inductive Rm where
  | rn | rz | rd | ru | ro
  deriving DecidableEq, Repr

/-- Element formats, codes 0 to 7 (R162). -/
inductive Fmt where
  | fp32 | bf16 | e5m2 | e4m3 | e2m1 | int8 | int4 | int32
  deriving DecidableEq, Repr

/-- Where a `mov` writes (R121). -/
inductive MovDst where
  | s (n : Fin 32)
  | walk (n : Fin 4)
  deriving DecidableEq, Repr

/-- A predicate or mask operand of R125 and R158: a number and whether it is inverted. -/
structure PredOp where
  n   : Fin 16
  inv : Bool
  deriving DecidableEq, Repr

structure MaskOp where
  n   : Fin 8
  inv : Bool
  deriving DecidableEq, Repr

/-- Load sizes of `ldt` (R126). -/
inductive LdSize where
  | zb | sb | zh | sh | zw | sw | d
  deriving DecidableEq, Repr

/-- Condition codes of `vcmp.f32` (R157). -/
inductive FCond where
  | eq | ne | lt | le | gt | ge | un | ord
  deriving DecidableEq, Repr

/-- Condition codes of `vcmp.i32` (R157). -/
inductive ICond where
  | eq | ne | lt | le | ltu | leu
  deriving DecidableEq, Repr

/-- Operations of `tamo` (R241). -/
inductive AmoOp where
  | add | max | min | swap | cas | maxu | minu
  deriving DecidableEq, Repr

/-- Kinds of `waitc` (R237). -/
inductive WaitKind where
  | ld | st | ldst
  deriving DecidableEq, Repr

/-- An agent that runs words (R16, R278). -/
inductive Agent where
  | compute (n : Fin 256)
  | service (h : Fin 32)
  | mgmt
  deriving DecidableEq, Repr

/-- A tile descriptor of a micro-word (R213): field, view bit, block-row and block-column levels. -/
structure TileDesc where
  field : Fin 16
  view  : Bool
  rowLv : Fin 4
  colLv : Fin 4
  deriving DecidableEq, Repr

/-- One side of a PASS (R213). -/
inductive PassSrc where
  | plane (p : Fin 4)
  | tile (d : TileDesc)
  deriving DecidableEq, Repr

/-- An X-slot message (R366): sender and destination logical index, tag, kind and value. -/
structure XMsg where
  src  : Nat
  dst  : Nat
  tag  : Fin 64
  vec  : Bool
  val  : Vec
  deriving DecidableEq, Repr

/-- How a vendor message came: the port, and its header (R358). -/
structure Via where
  port : Fin 20
  hdr  : BitVec 128
  deriving DecidableEq, Repr

/-- An X message that reaches a core (R364): one on its way within the package, by its number, or one from
another chip of the pod (R366). -/
inductive MsgFrom where
  | own (flight : Nat)
  | chip (via : Via) (m : XMsg)
  deriving DecidableEq, Repr

/-- A unit of an `xput` that reaches a core (R368): one on its way within the package, by its number, or one
from another chip of the pod, for byte `off` of register `td` of the member with index `dst`, from the one with index `src`. -/
inductive UnitFrom where
  | own (flight : Nat)
  | chip (via : Via) (src dst : Nat) (td : Fin 64) (off : Nat) (data : List Byte)
  deriving DecidableEq, Repr

/-- A vendor message's sender: a host node, the scheduler node, the management core, which is on the package
(R359, R403). -/
inductive Sender where
  | host (v : Via) | scheduler (v : Via) | mgmt
  deriving DecidableEq, Repr

/-- A group-abort report of another chip: how it came, and the DOMID it names (R312, R359). -/
structure AbortMsg where
  via   : Via
  domid : BitVec 16
  deriving DecidableEq, Repr

/-- What a collective chunk carries: its number, the entry it answers, and partials by element (R372, R374). -/
structure ChunkMsg where
  chunk    : Nat
  entry    : Nat
  partials : List (Nat × BitVec 128)
  deriving DecidableEq, Repr

/-- A PTP message: its port, and the time it gives in nanoseconds (R357). -/
structure PtpMsg where
  port : Fin 20
  tau  : Nat
  deriving DecidableEq, Repr

/-- Whence a fabric access comes: the port, the requester's number, and its tag (R267). -/
structure FabSrc where
  port : Fin 20
  src  : BitVec 16
  tag  : BitVec 16
  deriving DecidableEq, Repr

/-- Bytes for memory from an address on. -/
structure FabData where
  pa    : Nat
  bytes : List Byte
  deriving DecidableEq, Repr

/-- A granule of memory: an address in it, and the granule code of its page (R345, R390). -/
structure GranuleRef where
  pa   : Nat
  gran : Fin 10
  deriving DecidableEq, Repr

/-- A copy of a core, by agent and copy number. -/
structure CopyRef where
  agent : Agent
  id    : Nat
  deriving DecidableEq, Repr

/-- A signed image as R401 lays it out. -/
structure SignedImage where
  key     : List Byte
  version : BitVec 32
  code    : List Byte
  sig     : List Byte
  deriving DecidableEq, Repr

/-- Every row of spec/opcode_table.json. -/
inductive Instr where
  -- nothing (R98, R101)
  | nop
  | knop
  -- slot 0, integer arithmetic and logic (R116)
  | add (g : Guard) (a b : Src)
  | sub (g : Guard) (a b : Src)
  | mul (g : Guard) (a b : Src)
  | mulh (g : Guard) (a b : Src)
  | mulhu (g : Guard) (a b : Src)
  | div (g : Guard) (a b : Src)
  | divu (g : Guard) (a b : Src)
  | rem (g : Guard) (a b : Src)
  | remu (g : Guard) (a b : Src)
  | and (g : Guard) (a b : Src)
  | or (g : Guard) (a b : Src)
  | xor (g : Guard) (a b : Src)
  | andn (g : Guard) (a b : Src)
  | shl (g : Guard) (a b : Src)
  | shr (g : Guard) (a b : Src)
  | sar (g : Guard) (a b : Src)
  | min (g : Guard) (a b : Src)
  | max (g : Guard) (a b : Src)
  | minu (g : Guard) (a b : Src)
  | maxu (g : Guard) (a b : Src)
  | clz (g : Guard) (a : Src)
  | ctz (g : Guard) (a : Src)
  | popc (g : Guard) (a : Src)
  -- immediates, moves, selects (R118 to R123)
  | limm (g : Guard) (i : BitVec 21)
  | limmh (g : Guard) (p : Fin 4) (c : BitVec 16)
  | pass (g : Guard) (a : Src)
  | mov (g : Guard) (d : MovDst) (a : Src)
  | sel (g : Guard) (a b : Src) (p : Fin 16)
  | sext (g : Guard) (a : Src) (k : Fin 64)
  -- compares and predicate logic (R124, R125)
  | cmpeq (g : Guard) (d : Fin 16) (a b : Src)
  | cmpne (g : Guard) (d : Fin 16) (a b : Src)
  | cmplt (g : Guard) (d : Fin 16) (a b : Src)
  | cmple (g : Guard) (d : Fin 16) (a b : Src)
  | cmpltu (g : Guard) (d : Fin 16) (a b : Src)
  | cmpleu (g : Guard) (d : Fin 16) (a b : Src)
  | pand (g : Guard) (d : Fin 16) (a b : PredOp)
  | por (g : Guard) (d : Fin 16) (a b : PredOp)
  | pxor (g : Guard) (d : Fin 16) (a b : PredOp)
  | pandn (g : Guard) (d : Fin 16) (a b : PredOp)
  -- scalar tile-store access (R126, R127)
  | ldt (g : Guard) (sz : LdSize) (t : Fin 64) (a : Src)
  | stt (g : Guard) (wide : Bool) (t : Fin 64) (a b : Src)
  -- branches (R129 to R134)
  | br (g : Guard) (off : BitVec 12)
  | brl (g : Guard) (off : BitVec 12)
  | jr (g : Guard) (a : Src)
  | brbank (g : Guard) (i : BitVec 11)
  | ifence (g : Guard)
  -- stairs (R135 to R140)
  | fdef (g : Guard) (k : Fin 6) (f n : BitVec 9)
  | fcnt (g : Guard) (k : Fin 6) (a : Src)
  | fstr (g : Guard) (k : Fin 6) (w : Fin 4) (a : Src)
  | fpipe (g : Guard) (n : Fin 5)
  | stair (g : Guard) (n : Fin 7)
  | sbrk (g : Guard)
  -- control registers, breakpoints, services (R141 to R144)
  | getc (g : Guard) (d : Fin 32) (n : Fin 26)
  | setc (g : Guard) (n : Fin 26) (b : Src)
  | brk (g : Guard) (c : BitVec 16)
  | svc (g : Guard) (n : BitVec 12)
  -- launches (R306, R307), handlers (R285, R289)
  | lnch (g : Guard) (h : Fin 16) (a : Src)
  | qstat (g : Guard) (a : Src)
  | qstatO (g : Guard) (a b : Src)
  | thaw (g : Guard) (a : Src) (skip : Bool)
  | rfh (g : Guard)
  -- vector floating point (R153, R154)
  | vaddF32 (u : VSlot) (g : Guard) (a b : Src) (mk : Fin 8) (rm : Rm)
  | vsubF32 (u : VSlot) (g : Guard) (a b : Src) (mk : Fin 8) (rm : Rm)
  | vmulF32 (u : VSlot) (g : Guard) (a b : Src) (mk : Fin 8) (rm : Rm)
  | vfmaF32 (u : VSlot) (g : Guard) (a b c : Src) (mk : Fin 8) (rm : Rm)
  | vfmsF32 (u : VSlot) (g : Guard) (a b c : Src) (mk : Fin 8) (rm : Rm)
  | vminF32 (u : VSlot) (g : Guard) (a b : Src) (mk : Fin 8)
  | vmaxF32 (u : VSlot) (g : Guard) (a b : Src) (mk : Fin 8)
  | vdivF32 (u : VSlot) (g : Guard) (a b : Src) (mk : Fin 8) (rm : Rm)
  | vsqrtF32 (u : VSlot) (g : Guard) (a : Src) (mk : Fin 8) (rm : Rm)
  | vabsF32 (u : VSlot) (g : Guard) (a : Src) (mk : Fin 8)
  | vnegF32 (u : VSlot) (g : Guard) (a : Src) (mk : Fin 8)
  -- vector integer and logic (R156)
  | vaddI32 (u : VSlot) (g : Guard) (a b : Src) (mk : Fin 8)
  | vsubI32 (u : VSlot) (g : Guard) (a b : Src) (mk : Fin 8)
  | vmulI32 (u : VSlot) (g : Guard) (a b : Src) (mk : Fin 8)
  | vminI32 (u : VSlot) (g : Guard) (a b : Src) (mk : Fin 8)
  | vmaxI32 (u : VSlot) (g : Guard) (a b : Src) (mk : Fin 8)
  | vand (u : VSlot) (g : Guard) (a b : Src) (mk : Fin 8)
  | vor (u : VSlot) (g : Guard) (a b : Src) (mk : Fin 8)
  | vxor (u : VSlot) (g : Guard) (a b : Src) (mk : Fin 8)
  | vshl (u : VSlot) (g : Guard) (a b : Src) (mk : Fin 8)
  | vshr (u : VSlot) (g : Guard) (a b : Src) (mk : Fin 8)
  | vsar (u : VSlot) (g : Guard) (a b : Src) (mk : Fin 8)
  | vsel (u : VSlot) (g : Guard) (a b : Src) (mk : Fin 8)
  -- compares, masks, moves (R157 to R161)
  | vcmpF32 (u : VSlot) (g : Guard) (cc : FCond) (d : Fin 8) (a b : Src)
  | vcmpI32 (u : VSlot) (g : Guard) (cc : ICond) (d : Fin 8) (a b : Src)
  | mand (u : VSlot) (g : Guard) (d : Fin 8) (a b : MaskOp)
  | mor (u : VSlot) (g : Guard) (d : Fin 8) (a b : MaskOp)
  | mxor (u : VSlot) (g : Guard) (d : Fin 8) (a b : MaskOp)
  | mandn (u : VSlot) (g : Guard) (d : Fin 8) (a b : MaskOp)
  | vmu (u : VSlot) (g : Guard) (d : Fin 16) (mk care : Fin 8)
  | vmov (u : VSlot) (g : Guard) (d : Fin 32) (a : Src)
  -- conversions, permutes, tile store (R163 to R169)
  | vcvt (u : VSlot) (g : Guard) (src dst : Fmt) (sat : Bool) (a : Src) (mk : Fin 8) (rm : Rm)
  | vperm (u : VSlot) (g : Guard) (a b : Src) (mk : Fin 8)
  | vslide (u : VSlot) (g : Guard) (rot : Bool) (a b : Src) (mk : Fin 8)
  | vldt (u : VSlot) (g : Guard) (t : Fin 64) (a : Src)
  | vstt (u : VSlot) (g : Guard) (masked : Bool) (t : Fin 64) (a b : Src)
  | vgath (u : VSlot) (g : Guard) (masked : Bool) (t : Fin 64) (a : Src)
  | vscat (u : VSlot) (g : Guard) (masked : Bool) (t : Fin 64) (a b : Src)
  -- reductions, scans, transcendentals, quantise (R171 to R178)
  | vredAdd (u : VSlot) (g : Guard) (int : Bool) (a : Src) (mk : Fin 8)
  | vredMax (u : VSlot) (g : Guard) (int : Bool) (a : Src) (mk : Fin 8)
  | vredMin (u : VSlot) (g : Guard) (int : Bool) (a : Src) (mk : Fin 8)
  | vscanAdd (u : VSlot) (g : Guard) (int : Bool) (a : Src) (mk : Fin 8)
  | vexp2 (u : VSlot) (g : Guard) (a : Src) (mk : Fin 8) (rm : Rm)
  | vlog2 (u : VSlot) (g : Guard) (a : Src) (mk : Fin 8) (rm : Rm)
  | vrcp (u : VSlot) (g : Guard) (a : Src) (mk : Fin 8) (rm : Rm)
  | vrsqrt (u : VSlot) (g : Guard) (a : Src) (mk : Fin 8) (rm : Rm)
  | vtanh (u : VSlot) (g : Guard) (a : Src) (mk : Fin 8) (rm : Rm)
  | vqnt (u : VSlot) (g : Guard) (f : Fmt) (col : Bool) (a : Src)
  | vdqnt (u : VSlot) (g : Guard) (f : Fmt) (col : Bool) (a : Src)
  -- matrix slot (R197 to R205)
  | mcall (g : Guard) (i : Fin 64)
  | mpset (g : Guard) (n : Fin 8) (a : Src)
  | mwait (g : Guard) (a : Src)
  | mstat (g : Guard)
  | mabort (g : Guard)
  | mlucode (g : Guard) (t : Fin 64) (a b : Src)
  | mlucodeEnt (g : Guard) (t : Fin 64) (a b : Src)
  | mlsf (g : Guard) (half : Bool)
  | mlsfT (g : Guard) (half : Bool) (t : Fin 64) (a : Src)
  -- K ops (R191 to R194)
  | kst (col : Bool) (i : Fin 16) (a : Src)
  | kcfg (w : Fin 8) (row col : Fmt) (sat : Bool)
  | klds (col : Bool) (t : Fin 64) (a : Src)
  -- copy slots (R233 to R249, R259)
  | tdef (u : CSlot) (g : Guard) (t : Fin 64) (a b : Src)
  | tld (u : CSlot) (g : Guard) (t : Fin 64) (h : Fin 16) (cl : Fin 16) (a : Src)
  | tst (u : CSlot) (g : Guard) (t : Fin 64) (h : Fin 16) (cl : Fin 16) (a : Src)
  | tamo (u : CSlot) (g : Guard) (op : AmoOp) (wide : Bool) (h : Fin 16) (cl : Fin 16) (a c : Src)
  | tlbk (u : CSlot) (g : Guard) (pn : Fin 64) (h : Fin 16) (cl : Fin 16) (a : Src)
  | tcpy (u : CSlot) (g : Guard) (td ts : Fin 64)
  | tfill (u : CSlot) (g : Guard) (t : Fin 64) (a b : Src)
  | tldi (u : CSlot) (g : Guard) (bank : Bool) (h : Fin 16) (cl : Fin 16) (a : Src)
  | bkc (u : CSlot) (g : Guard) (t : Fin 64) (h : Fin 16) (cl : Fin 16) (a : Src)
  | waitc (u : CSlot) (g : Guard) (kind : WaitKind) (a b : Src)
  | waitf (u : CSlot) (g : Guard) (any clr : Bool) (a : Src)
  -- pages and handles (R349), patches (R319), window and images (R288, R290)
  | rdcinv (u : CSlot) (g : Guard) (h : Fin 16) (a b : Src)
  | xlat (u : CSlot) (g : Guard) (h : Fin 16) (a : Src)
  | hstat (u : CSlot) (g : Guard) (va : Bool) (h : Fin 16)
  | hclr (u : CSlot) (g : Guard) (h : Fin 16)
  | hclrPn (u : CSlot) (g : Guard) (a : Src)
  | ipatch (u : CSlot) (g : Guard) (a b : Src)
  | frd (u : CSlot) (g : Guard) (a : Src)
  | fwr (u : CSlot) (g : Guard) (a b : Src)
  | csave (u : CSlot) (g : Guard) (h : Fin 16) (a b : Src)
  | crest (u : CSlot) (g : Guard) (h : Fin 16) (a b : Src)
  -- X slot (R362 to R369, R335 to R338)
  | xsend (g : Guard) (vec : Bool) (tag : Fin 64) (a b : Src)
  | xrecv (g : Guard) (tag : Fin 64) (a : Src)
  | xradd (g : Guard) (int : Bool) (tag : Fin 64) (a b : Src)
  | xrmax (g : Guard) (int : Bool) (tag : Fin 64) (a b : Src)
  | xput (g : Guard) (ts : Fin 64) (a b : Src)
  | xbegin (g : Guard) (h : Fin 16) (a b : Src)
  | xtrig (g : Guard) (k : Fin 4) (a : Src)
  | xstat (g : Guard)
  | land (g : Guard) (scope : Fin 5)
  | align (g : Guard) (a : Src)
  | seg (g : Guard)
  -- micro-operations (R217), of the routine of the agent whose turn it is
  | trapm (code : BitVec 12)
  | passMicroOp (keep : Bool) (row col : PassSrc) (kf : Bool) (kfLv : Fin 4)
  | prom (d e : Fin 4) (dg : Bool) (lvA lvB : Fin 4)
  | clra
  | ldpl (d : Fin 4) (tr : Bool) (td : TileDesc)
  | stpl (p : Fin 4) (td : TileDesc)
  | drain (td : TileDesc)
  | idpl (d : Fin 4)
  | coef (rst : Bool) (field : Fin 16)
  | loop (n : Fin 4) (param : Bool) (reg : Fin 8) (stop : BitVec 12) (count : BitVec 32)
  | endl (n : Fin 4)
  | brf (cond : Fin 8) (reg : Fin 8) (target : BitVec 12)
  | setw (w : Fin 8)
  | setf (p : Fin 4) (f : Fin 8)
  | rprc (field : Fin 16) (off : BitVec 16)
  | done
  -- traps and walks (R280, R284, R343)
  | trap (a : Agent)
  | handlerEntry (hall : Fin 32)
  | translationWalk (a : Agent)
  -- copies in progress (R263, R231, R242, R249, R246, R290)
  | lineRequestPerformed (c : CopyRef) (row line : Nat)
  | copyOutRead (c : CopyRef)
  | tamoPerformed (c : CopyRef)
  | tldiEnd (c : CopyRef)
  | tileCopyDone (c : CopyRef)
  | csaveDone (c : CopyRef)
  | crestDone (c : CopyRef)
  -- bank commands (R255 to R257)
  | vld (c : CopyRef)
  | gemv (c : CopyRef)
  | gemvAcc (c : CopyRef)
  | axpy (c : CopyRef)
  | fill (c : CopyRef)
  | sum (c : CopyRef)
  -- timetables (R371, R372)
  | timetableRunStart (run : Nat)
  | timetableCopy (run entry : Nat)
  | timetableReduce (run entry : Nat)
  | timetableReduceAndWrite (run entry : Nat)
  -- landings and triggers (R332, R334, R337)
  | landingConditionsHold (l : Nat)
  | landingRelease (l : Nat)
  | triggerFire (a : Agent) (k : Fin 4)
  -- messages (R364, R368, R372)
  | xMessage (m : MsgFrom)
  | xMessageEntry (n : Fin 256)
  | xputUnit (u : UnitFrom)
  | collectiveChunk (via : Via) (run : Nat) (m : ChunkMsg)
  -- fabric (R302, R312, R318, R267, R355)
  | launchPacket (scheduler : Bool) (via : Via) (payload : BitVec 1024)
  | groupAbort (m : AbortMsg)
  | patchWrite (via : Via) (ctx : Fin 32) (queue : Fin 16) (seq : BitVec 32) (word : Fin 2048) (pair : Fin 4) (value : BitVec 64)
  | fabricRead (from_ : FabSrc) (pa : Nat) (n : Nat)
  | fabricWrite (from_ : FabSrc) (data : FabData)
  | unsupportedRequest (from_ : FabSrc) (request : Bool)
  -- time and links (R353, R354, R357)
  | ptpMessage (m : PtpMsg)
  | probeSend (port : Fin 16)
  | alignmentProbe (port : Fin 20) (hdr : BitVec 128) (depth : Fin 16) (lat : BitVec 16)
  | probeAnswer (via : Via) (sent : BitVec 64)
  | portEnable (port : Fin 20)
  | portDisable (port : Fin 20)
  | linkTrained (port : Fin 20) (lanes : Fin 5) (peer : BitVec 16) (peerPort : BitVec 4)
  | trainingTimeout (port : Fin 20)
  | linkDegrade (port : Fin 20) (lanes : Fin 5) (lat : BitVec 16)
  | linkRetrained (port : Fin 20)
  | ackTimeout (port : Fin 20)
  -- contexts (R279)
  | contextCreate (root : BitVec 44)
  | setupDone (ctx : Fin 32)
  | destroy (ctx : Fin 32)
  | teardownComplete (ctx : Fin 32)
  | trapUnrecoverable (n : Fin 256)
  | faultDrainDone (ctx : Fin 32)
  -- queues and the scheduler (R294 to R305, R325 to R328)
  | queueCreate (ctx : Fin 32) (base : Fin 8)
  | suspend (ctx : Fin 32) (queue : Fin 16)
  | resume (ctx : Fin 32) (queue : Fin 16)
  | teardown (ctx : Fin 32) (queue : Fin 16)
  | supplyDeclaration (ctx : Fin 32) (record : BitVec 128)
  | choose
  | memberLoaded (kernel : Nat) (n : Fin 256)
  | t0Start (kernel : Nat)
  | kernelDone (kernel : Nat)
  -- pages (R344, R350, R351)
  | hintRecord (ctx : Fin 32) (record : BitVec 256)
  | map (ctx : Fin 32) (va : BitVec 48) (psz : Fin 3) (frame : BitVec 44) (rd wr : Bool)
  | replicate (ctx : Fin 32) (va : BitVec 48) (frames : List (BitVec 44))
  | move (ctx : Fin 32) (va : BitVec 48) (frame : BitVec 44)
  | unmap (ctx : Fin 32) (va : BitVec 48)
  | busyCountZero (ctx : Fin 32) (va : BitVec 48)
  | revocationComplete (ctx : Fin 32) (va : BitVec 48)
  -- operating points (R381 to R384)
  | stepRequest (request : BitVec 64)
  | stepDeadline (id : Nat)
  | stepWithdraw (id : Nat)
  | evacuation (id : Nat)
  | rowCopy (n : Fin 256) (row : Nat)
  | stepSwitch (id : Nat)
  -- reliability (R339, R394, R396, R398, R390, R29)
  | rewind (n : Fin 256)
  | pairMismatch (a : Agent)
  | beat (hall : Fin 32)
  | beatTimeout (hall : Fin 32)
  | scrub (g : GranuleRef) (uncorrectable : Bool)
  -- start-up and mailbox (R399 to R407)
  | powerGood (img : SignedImage)
  | selfTest (failing : Option (BitVec 16)) (classes : List (Nat × BitVec 3))
  | firmwareImageVerify (img : SignedImage)
  | thermalTrip
  | mailboxState (sender : Sender) (hdr : BitVec 64) (arg : BitVec 64)
  | negotiate (sender : Sender) (hdr : BitVec 64) (want : BitVec 64)
  | rowMap (sender : Sender) (hdr : BitVec 64) (arg : BitVec 64)
  | errorCounts (sender : Sender) (hdr : BitVec 64) (arg : BitVec 64)
  | attestation (sender : Sender) (hdr : BitVec 64) (arg : BitVec 64) (nonce : List Byte)
  | identity (sender : Sender) (hdr : BitVec 64) (arg : BitVec 64)
  | reset (sender : Sender) (hdr : BitVec 64) (arg : BitVec 64)
  | permit (sender : Sender) (hdr : BitVec 64) (arg : BitVec 64)
  -- encodings, caches, pairs, time (R108, R265, R394, R357)
  | illegalEncoding (slot : Fin 8)
  | eviction (die : Fin 4) (line : Nat)
  | servicePairRestart (hall : Fin 32)
  | epochWrite (v : BitVec 64)
  deriving DecidableEq, Repr

end Sys2Proof
end

