-- ==== Sys2Proof/WellFormed.lean ====
section
/-!
DEFINITION. WellFormed.lean: which terms of Instr an encoding of spec/06_encoding.md can hold.

A header serves one purpose (R102): a word whose header lends stair flags lends no immediate, and a
mode 2 header lends an 18-bit immediate. The checks that depend on the state of the machine are not
here: they are made at issue (Machine/Issue.lean).
-/
namespace Sys2Proof

/-- A latch of a unit whose ring a vector slot does not name (R74, R99). -/
def RingId.scalarOnly : RingId → Bool
  | .m | .ca | .cb | .k => true
  | .s | .va | .vb | .x => false

/-- A source that no header lends, legal in slots 1 and 2 when `vec`. -/
def Src.plain (vec : Bool) : Src → Bool
  | .imm25 _ | .imm18 _ => false
  | .latch u _ => !(vec && u.scalarOnly)
  | .reg _ | .small _ | .core | .lane | .walk _ => true

/-- The sources of one slot agree on the header: no stair flags beside a lent immediate, one immediate
value (R102, R103). -/
def Src.lent : Src → Option (Bool × Nat)
  | .imm25 v => some (false, v.toNat)
  | .imm18 v => some (true, v.toNat)
  | _ => none

def lentOk (g : Guard) (third : Bool) (l : List Src) : Bool :=
  match l.filterMap Src.lent with
  | [] => !third || !(g.first || g.last)
  | x :: r => !(g.first || g.last) && x.1 == third && r.all (· == x)

/-- A guarded slot with these sources is one an encoding holds. -/
def slotOk (vec : Bool) (g : Guard) (l : List Src) (third : Bool := false) : Bool :=
  lentOk g third l && l.all fun a => a.lent.isSome || a.plain vec

/-- Formats `vqnt` and `vdqnt` name (R177, R178); of `vdqnt` see notes/assumptions/89.md. -/
def Fmt.quant : Fmt → Bool
  | .e5m2 | .e4m3 | .e2m1 | .int8 | .int4 => true
  | .fp32 | .bf16 | .int32 => false

/-- The format pairs a pass accepts (R185, R192). -/
def Fmt.pairOk (r c : Fmt) : Bool :=
  match r, c with
  | .e2m1, .e2m1 => true
  | .e4m3, .e4m3 | .e4m3, .e5m2 | .e4m3, .int8 => true
  | .e5m2, .e4m3 | .e5m2, .e5m2 | .e5m2, .int8 => true
  | .int8, .e4m3 | .int8, .e5m2 | .int8, .int8 => true
  | .bf16, .bf16 | .fp32, .fp32 | .fp32, .bf16 | .bf16, .fp32 => true
  | _, _ => false

/-- A third source that `tamo.cas.d` may name: an even scalar register (R241). -/
def Src.evenReg : Src → Bool
  | .reg n => n.val % 2 == 0
  | _ => false

/-- A micro-word side that names a tile (R209, R213). -/
def PassSrc.ok : PassSrc → Bool
  | .plane _ => true
  | .tile d => d.field.val ≤ 9

/-- The instruction is one its encoding can hold. Events have no encoding: every one is well formed. -/
def Instr.wf : Instr → Bool
  | .add g a b | .sub g a b | .mul g a b | .mulh g a b | .mulhu g a b | .div g a b | .divu g a b
  | .rem g a b | .remu g a b | .and g a b | .or g a b | .xor g a b | .andn g a b | .shl g a b
  | .shr g a b | .sar g a b | .min g a b | .max g a b | .minu g a b | .maxu g a b => slotOk false g [a, b]
  | .clz g a | .ctz g a | .popc g a | .pass g a | .mov g _ a | .sext g a _ => slotOk false g [a]
  | .sel g a b _ => slotOk false g [a, b]
  | .cmpeq g _ a b | .cmpne g _ a b | .cmplt g _ a b | .cmple g _ a b | .cmpltu g _ a b
  | .cmpleu g _ a b => slotOk false g [a, b]
  | .ldt g _ _ a => slotOk false g [a]
  | .stt g _ _ a b => slotOk false g [a, b]
  | .jr g a | .fcnt g _ a | .fstr g _ _ a | .setc g _ a | .lnch g _ a | .qstat g a
  | .thaw g a _ => slotOk false g [a]
  | .fpipe _ n => n.val ≤ 4
  | .stair _ n => 1 ≤ n.val && n.val ≤ 6
  | .qstatO g a b => slotOk false g [a, b]
  | .vaddF32 _ g a b _ _ | .vsubF32 _ g a b _ _ | .vmulF32 _ g a b _ _ | .vdivF32 _ g a b _ _ =>
    slotOk true g [a, b]
  | .vfmaF32 _ g a b c _ _ | .vfmsF32 _ g a b c _ _ => slotOk true g [a, b, c] true
  | .vminF32 _ g a b _ | .vmaxF32 _ g a b _ | .vaddI32 _ g a b _ | .vsubI32 _ g a b _
  | .vmulI32 _ g a b _ | .vminI32 _ g a b _ | .vmaxI32 _ g a b _ | .vand _ g a b _ | .vor _ g a b _
  | .vxor _ g a b _ | .vshl _ g a b _ | .vshr _ g a b _ | .vsar _ g a b _ | .vsel _ g a b _
  | .vperm _ g a b _ | .vslide _ g _ a b _ | .vcmpF32 _ g _ _ a b | .vcmpI32 _ g _ _ a b
  | .vstt _ g _ _ a b | .vscat _ g _ _ a b => slotOk true g [a, b]
  | .vsqrtF32 _ g a _ _ | .vabsF32 _ g a _ | .vnegF32 _ g a _ | .vmov _ g _ a | .vcvt _ g _ _ _ a _ _
  | .vldt _ g _ a | .vgath _ g _ _ a | .vredAdd _ g _ a _ | .vredMax _ g _ a _ | .vredMin _ g _ a _
  | .vscanAdd _ g _ a _ | .vexp2 _ g a _ _ | .vlog2 _ g a _ _ | .vrcp _ g a _ _ | .vrsqrt _ g a _ _
  | .vtanh _ g a _ _ => slotOk true g [a]
  | .vqnt _ g f _ a | .vdqnt _ g f _ a => slotOk true g [a] && f.quant
  | .mpset g _ a | .mwait g a | .mlsfT g _ _ a => slotOk false g [a]
  | .mlucode g _ a b | .mlucodeEnt g _ a b => slotOk false g [a, b]
  | .kst _ _ a | .klds _ _ a => a.plain false
  | .kcfg _ r c _ => r.pairOk c
  | .tdef _ g _ a b | .tfill _ g _ a b | .waitc _ g _ a b | .rdcinv _ g _ a b | .ipatch _ g a b
  | .fwr _ g a b | .csave _ g _ a b | .crest _ g _ a b => slotOk false g [a, b]
  | .tld _ g _ _ _ a | .tst _ g _ _ _ a | .tlbk _ g _ _ _ a | .tldi _ g _ _ _ a | .bkc _ g _ _ _ a
  | .waitf _ g _ _ a | .xlat _ g _ a | .hclrPn _ g a | .frd _ g a => slotOk false g [a]
  | .tamo _ g op wide _ _ a c =>
    slotOk false g [a, c] true && !((op == .cas) && wide && !c.evenReg)
  | .xsend g _ _ a b | .xradd g _ _ a b | .xrmax g _ _ a b | .xput g _ a b | .xbegin g _ a b =>
    slotOk false g [a, b]
  | .xrecv g _ a | .xtrig g _ a | .align g a => slotOk false g [a]
  | .passMicroOp _ r c _ _ => r.ok && c.ok
  | .ldpl _ _ d | .stpl _ d | .drain d => d.field.val ≤ 9
  | .coef _ f | .rprc f _ => f.val ≤ 9
  | _ => true

end Sys2Proof
end

