-- ==== Sys2Proof/Decode.lean ====
section
/-!
DEFINITION. Decode.lean: from the bits of a word to instructions and back (spec/06_encoding.md), and
from a micro-word to a micro-operation (spec/10_microcode.md R213).
-/
namespace Sys2Proof

/-- What slot 7 lends the other slots (R101, R102): nothing, a mode 0 immediate, mode 1 stair flags, a
mode 2 third source. -/
inductive Header where
  | none
  | imm (target : BitVec 3) (v : BitVec 25)
  | flags (first last : BitVec 7)
  | third (target : BitVec 3) (sel : BitVec 7) (v : BitVec 18)
  deriving DecidableEq, Repr

/-- The low `w` bits of a number, as a field. -/
def fb {n : Nat} (w : Nat) (x : Fin n) : BitVec w := BitVec.ofNat w x.val

/-- The fields of a slot (R96). -/
def opOf (w : SlotBits) : BitVec 6 := w.extractLsb' 26 6
def gsOf (w : SlotBits) : BitVec 1 := w.extractLsb' 25 1
def gpOf (w : SlotBits) : BitVec 4 := w.extractLsb' 21 4
def aOf (w : SlotBits) : BitVec 7 := w.extractLsb' 14 7
def bOf (w : SlotBits) : BitVec 7 := w.extractLsb' 7 7
def zOf (w : SlotBits) : BitVec 7 := w.extractLsb' 0 7
def immOf (w : SlotBits) : BitVec 21 := w.extractLsb' 0 21
def hOf (w : SlotBits) : BitVec 4 := w.extractLsb' 10 4
def clOf (w : SlotBits) : BitVec 4 := w.extractLsb' 6 4
def tOf (w : SlotBits) : BitVec 6 := w.extractLsb' 0 6

/-- Slot k of a word (R95). -/
def slotBits (w : Word) (k : Nat) : SlotBits := w.extractLsb' (32 * k) 32

/-- The slots that decode the V map (R95). -/
def isVec (k : Nat) : Bool := k == 1 || k == 2

/-- The guard of slot k, with the stair flags the header gives it (R81, R94). -/
def decodeGuard (k : Nat) (h : Header) (w : SlotBits) : Guard :=
  { pred := (gpOf w).toFin, sense := gsOf w == 1
    first := match h with | .flags f _ => f.getLsbD k | _ => false
    last := match h with | .flags _ l => l.getLsbD k | _ => false }

/-- The unit a latch selector names: (value - 0x20) div 8 (R99). -/
def unitOf (n : Nat) : RingId :=
  match n with
  | 0 => .s | 1 => .va | 2 => .vb | 3 => .m | 4 => .ca | 5 => .cb | 6 => .x | _ => .k

def unitNo : RingId → Nat
  | .s => 0 | .va => 1 | .vb => 2 | .m => 3 | .ca => 4 | .cb => 5 | .x => 6 | .k => 7

/-- A source selector in slot k (R99, R100, R103). -/
def decodeSrc (k : Nat) (h : Header) (sel : BitVec 7) : Option Src :=
  let n := sel.toNat
  if n < 0x20 then some (.reg (sel.extractLsb' 0 5).toFin)
  else if n < 0x60 then
    let u := unitOf ((n - 0x20) / 8)
    if isVec k && u.scalarOnly then none else some (.latch u (sel.extractLsb' 0 3).toFin)
  else if n < 0x70 then some (.small (sel.extractLsb' 0 4))
  else if n = 0x70 then
    match h with
    | .imm t v => if t.toNat = k then some (.imm25 v) else none
    | .third t _ v => if t.toNat = k then some (.imm18 v) else none
    | _ => none
  else if n = 0x72 then some .core
  else if n = 0x73 then some .lane
  else if 0x74 ≤ n && n < 0x78 then some (.walk (sel.extractLsb' 0 2).toFin)
  else none

/-- The third source of slot k. A word whose header does not serve the slot is refused at slot 7
(`headerOk`); the slot itself then reads as if it named the integer 0 (R103). -/
def decodeThird (k : Nat) (h : Header) : Src :=
  match h with
  | .third t sel _ => if t.toNat = k then (decodeSrc k h sel).getD (.reg 0) else .reg 0
  | _ => .reg 0

def encodeSrc : Src → BitVec 7
  | .reg n => BitVec.ofNat 7 n.val
  | .latch u n => BitVec.ofNat 7 (0x20 + 8 * unitNo u + n.val)
  | .small v => BitVec.ofNat 7 (0x60 + v.toNat)
  | .imm25 _ | .imm18 _ => 0x70#7
  | .core => 0x72#7
  | .lane => 0x73#7
  | .walk n => BitVec.ofNat 7 (0x74 + n.val)

/-- Rounding codes (R42). -/
def decodeRm (v : BitVec 3) : Option Rm :=
  match v.toNat with
  | 0 => some .rn | 1 => some .rz | 2 => some .rd | 3 => some .ru | 4 => some .ro | _ => none

def encodeRm : Rm → BitVec 3
  | .rn => 0 | .rz => 1 | .rd => 2 | .ru => 3 | .ro => 4

/-- Format codes (R162). -/
def decodeFmt (v : BitVec 3) : Fmt :=
  match v.toNat with
  | 0 => .fp32 | 1 => .bf16 | 2 => .e5m2 | 3 => .e4m3 | 4 => .e2m1 | 5 => .int8 | 6 => .int4 | _ => .int32

def encodeFmt : Fmt → BitVec 3
  | .fp32 => 0 | .bf16 => 1 | .e5m2 => 2 | .e4m3 => 3 | .e2m1 => 4 | .int8 => 5 | .int4 => 6 | .int32 => 7

/-- A predicate operand (R125). -/
def decodePredOp (v : BitVec 7) : Option PredOp :=
  if v.extractLsb' 5 2 = 0 then some { n := (v.extractLsb' 0 4).toFin, inv := v.getLsbD 4 } else none

def encodePredOp (p : PredOp) : BitVec 7 := 0#2 ++ BitVec.ofBool p.inv ++ fb 4 p.n

/-- A mask operand (R158). -/
def decodeMaskOp (v : BitVec 7) : Option MaskOp :=
  if v.extractLsb' 4 3 = 0 then some { n := (v.extractLsb' 0 3).toFin, inv := v.getLsbD 3 } else none

def encodeMaskOp (p : MaskOp) : BitVec 7 := 0#3 ++ BitVec.ofBool p.inv ++ fb 3 p.n

/-- Size codes of `ldt` (R126). -/
def decodeLdSize (v : BitVec 3) : Option LdSize :=
  match v.toNat with
  | 0 => some .zb | 1 => some .sb | 2 => some .zh | 3 => some .sh | 4 => some .zw | 5 => some .sw
  | 6 => some .d | _ => none

def encodeLdSize : LdSize → BitVec 3
  | .zb => 0 | .sb => 1 | .zh => 2 | .sh => 3 | .zw => 4 | .sw => 5 | .d => 6

def decodeFCond (v : BitVec 4) : Option FCond :=
  match v.toNat with
  | 0 => some .eq | 1 => some .ne | 2 => some .lt | 3 => some .le | 4 => some .gt | 5 => some .ge
  | 6 => some .un | 7 => some .ord | _ => none

def encodeFCond : FCond → BitVec 4
  | .eq => 0 | .ne => 1 | .lt => 2 | .le => 3 | .gt => 4 | .ge => 5 | .un => 6 | .ord => 7

def decodeICond (v : BitVec 4) : Option ICond :=
  match v.toNat with
  | 0 => some .eq | 1 => some .ne | 2 => some .lt | 3 => some .le | 4 => some .ltu | 5 => some .leu
  | _ => none

def encodeICond : ICond → BitVec 4
  | .eq => 0 | .ne => 1 | .lt => 2 | .le => 3 | .ltu => 4 | .leu => 5

/-- Operations of `tamo` (R241). -/
def decodeAmo (v : BitVec 3) : Option AmoOp :=
  match v.toNat with
  | 0 => some .add | 1 => some .max | 2 => some .min | 3 => some .swap | 4 => some .cas
  | 5 => some .maxu | 6 => some .minu | _ => none

def encodeAmo : AmoOp → BitVec 3
  | .add => 0 | .max => 1 | .min => 2 | .swap => 3 | .cas => 4 | .maxu => 5 | .minu => 6

/-- Kinds of `waitc` (R237). -/
def decodeKind (v : BitVec 2) : Option WaitKind :=
  match v.toNat with
  | 0 => some .ld | 1 => some .st | 2 => some .ldst | _ => none

def encodeKind : WaitKind → BitVec 2
  | .ld => 0 | .st => 1 | .ldst => 2

/-- Destinations of `mov` (R121). -/
def decodeMovDst (z : BitVec 7) : Option MovDst :=
  if z.toNat < 0x20 then some (.s (z.extractLsb' 0 5).toFin)
  else if 0x74 ≤ z.toNat && z.toNat < 0x78 then some (.walk (z.extractLsb' 0 2).toFin)
  else none

def encodeMovDst : MovDst → BitVec 7
  | .s n => BitVec.ofNat 7 n.val
  | .walk n => BitVec.ofNat 7 (0x74 + n.val)

/-- A number below `n`, or none. -/
def finOf (n : Nat) (v : Nat) : Option (Fin n) := if h : v < n then some ⟨v, h⟩ else none

/-- `v` when the unused field is zero (R97). -/
def ifz {α : Type} (c : Bool) (v : Option α) : Option α := if c then v else none

/-- The S map (R104), for slot 0. `k` is the slot. -/
def decodeS (k : Nat) (h : Header) (w : SlotBits) : Option Instr :=
  let g := decodeGuard k h w
  match (opOf w).toNat with
  | 0x00 => ifz (w == 0) (some .nop)
  | 0x01 =>
    ifz (zOf w == 0) <| (decodeSrc k h (aOf w)).bind fun a => (decodeSrc k h (bOf w)).bind fun b => some (.add g a b)
  | 0x02 =>
    ifz (zOf w == 0) <| (decodeSrc k h (aOf w)).bind fun a => (decodeSrc k h (bOf w)).bind fun b => some (.sub g a b)
  | 0x03 =>
    ifz (zOf w == 0) <| (decodeSrc k h (aOf w)).bind fun a => (decodeSrc k h (bOf w)).bind fun b => some (.mul g a b)
  | 0x04 =>
    ifz (zOf w == 0) <| (decodeSrc k h (aOf w)).bind fun a => (decodeSrc k h (bOf w)).bind fun b => some (.mulh g a b)
  | 0x05 =>
    ifz (zOf w == 0) <| (decodeSrc k h (aOf w)).bind fun a => (decodeSrc k h (bOf w)).bind fun b => some (.mulhu g a b)
  | 0x06 =>
    ifz (zOf w == 0) <| (decodeSrc k h (aOf w)).bind fun a => (decodeSrc k h (bOf w)).bind fun b => some (.div g a b)
  | 0x07 =>
    ifz (zOf w == 0) <| (decodeSrc k h (aOf w)).bind fun a => (decodeSrc k h (bOf w)).bind fun b => some (.divu g a b)
  | 0x08 =>
    ifz (zOf w == 0) <| (decodeSrc k h (aOf w)).bind fun a => (decodeSrc k h (bOf w)).bind fun b => some (.rem g a b)
  | 0x09 =>
    ifz (zOf w == 0) <| (decodeSrc k h (aOf w)).bind fun a => (decodeSrc k h (bOf w)).bind fun b => some (.remu g a b)
  | 0x0A =>
    ifz (zOf w == 0) <| (decodeSrc k h (aOf w)).bind fun a => (decodeSrc k h (bOf w)).bind fun b => some (.and g a b)
  | 0x0B =>
    ifz (zOf w == 0) <| (decodeSrc k h (aOf w)).bind fun a => (decodeSrc k h (bOf w)).bind fun b => some (.or g a b)
  | 0x0C =>
    ifz (zOf w == 0) <| (decodeSrc k h (aOf w)).bind fun a => (decodeSrc k h (bOf w)).bind fun b => some (.xor g a b)
  | 0x0D =>
    ifz (zOf w == 0) <| (decodeSrc k h (aOf w)).bind fun a => (decodeSrc k h (bOf w)).bind fun b => some (.andn g a b)
  | 0x0E =>
    ifz (zOf w == 0) <| (decodeSrc k h (aOf w)).bind fun a => (decodeSrc k h (bOf w)).bind fun b => some (.shl g a b)
  | 0x0F =>
    ifz (zOf w == 0) <| (decodeSrc k h (aOf w)).bind fun a => (decodeSrc k h (bOf w)).bind fun b => some (.shr g a b)
  | 0x10 =>
    ifz (zOf w == 0) <| (decodeSrc k h (aOf w)).bind fun a => (decodeSrc k h (bOf w)).bind fun b => some (.sar g a b)
  | 0x11 =>
    ifz (zOf w == 0) <| (decodeSrc k h (aOf w)).bind fun a => (decodeSrc k h (bOf w)).bind fun b => some (.min g a b)
  | 0x12 =>
    ifz (zOf w == 0) <| (decodeSrc k h (aOf w)).bind fun a => (decodeSrc k h (bOf w)).bind fun b => some (.max g a b)
  | 0x13 =>
    ifz (zOf w == 0) <| (decodeSrc k h (aOf w)).bind fun a => (decodeSrc k h (bOf w)).bind fun b => some (.minu g a b)
  | 0x14 =>
    ifz (zOf w == 0) <| (decodeSrc k h (aOf w)).bind fun a => (decodeSrc k h (bOf w)).bind fun b => some (.maxu g a b)
  | 0x15 =>
    ifz ((bOf w == 0) && (zOf w == 0)) <| (decodeSrc k h (aOf w)).bind fun a => some (.clz g a)
  | 0x16 =>
    ifz ((bOf w == 0) && (zOf w == 0)) <| (decodeSrc k h (aOf w)).bind fun a => some (.ctz g a)
  | 0x17 =>
    ifz ((bOf w == 0) && (zOf w == 0)) <| (decodeSrc k h (aOf w)).bind fun a => some (.popc g a)
  | 0x18 =>
    some (.limm g (immOf w))
  | 0x19 =>
    ifz ((immOf w).extractLsb' 16 3 == 0) <| some (.limmh g ((immOf w).extractLsb' 19 2).toFin ((immOf w).extractLsb' 0 16))
  | 0x1A =>
    ifz ((bOf w == 0) && (zOf w == 0)) <| (decodeSrc k h (aOf w)).bind fun a => some (.pass g a)
  | 0x1B =>
    ifz (bOf w == 0) <| (decodeSrc k h (aOf w)).bind fun a => (decodeMovDst (zOf w)).bind fun d => some (.mov g d a)
  | 0x1C =>
    ifz ((zOf w).extractLsb' 4 3 == 0) <| (decodeSrc k h (aOf w)).bind fun a => (decodeSrc k h (bOf w)).bind fun b => some (.sel g a b ((zOf w).extractLsb' 0 4).toFin)
  | 0x1D =>
    ifz ((bOf w == 0) && ((zOf w).extractLsb' 6 1 == 0)) <| (decodeSrc k h (aOf w)).bind fun a => some (.sext g a ((zOf w).extractLsb' 0 6).toFin)
  | 0x20 =>
    ifz ((zOf w).extractLsb' 4 3 == 0) <| (decodeSrc k h (aOf w)).bind fun a => (decodeSrc k h (bOf w)).bind fun b => some (.cmpeq g ((zOf w).extractLsb' 0 4).toFin a b)
  | 0x21 =>
    ifz ((zOf w).extractLsb' 4 3 == 0) <| (decodeSrc k h (aOf w)).bind fun a => (decodeSrc k h (bOf w)).bind fun b => some (.cmpne g ((zOf w).extractLsb' 0 4).toFin a b)
  | 0x22 =>
    ifz ((zOf w).extractLsb' 4 3 == 0) <| (decodeSrc k h (aOf w)).bind fun a => (decodeSrc k h (bOf w)).bind fun b => some (.cmplt g ((zOf w).extractLsb' 0 4).toFin a b)
  | 0x23 =>
    ifz ((zOf w).extractLsb' 4 3 == 0) <| (decodeSrc k h (aOf w)).bind fun a => (decodeSrc k h (bOf w)).bind fun b => some (.cmple g ((zOf w).extractLsb' 0 4).toFin a b)
  | 0x24 =>
    ifz ((zOf w).extractLsb' 4 3 == 0) <| (decodeSrc k h (aOf w)).bind fun a => (decodeSrc k h (bOf w)).bind fun b => some (.cmpltu g ((zOf w).extractLsb' 0 4).toFin a b)
  | 0x25 =>
    ifz ((zOf w).extractLsb' 4 3 == 0) <| (decodeSrc k h (aOf w)).bind fun a => (decodeSrc k h (bOf w)).bind fun b => some (.cmpleu g ((zOf w).extractLsb' 0 4).toFin a b)
  | 0x26 =>
    ifz ((zOf w).extractLsb' 4 3 == 0) <| (decodePredOp (aOf w)).bind fun a => (decodePredOp (bOf w)).bind fun b => some (.pand g ((zOf w).extractLsb' 0 4).toFin a b)
  | 0x27 =>
    ifz ((zOf w).extractLsb' 4 3 == 0) <| (decodePredOp (aOf w)).bind fun a => (decodePredOp (bOf w)).bind fun b => some (.por g ((zOf w).extractLsb' 0 4).toFin a b)
  | 0x28 =>
    ifz ((zOf w).extractLsb' 4 3 == 0) <| (decodePredOp (aOf w)).bind fun a => (decodePredOp (bOf w)).bind fun b => some (.pxor g ((zOf w).extractLsb' 0 4).toFin a b)
  | 0x29 =>
    ifz ((zOf w).extractLsb' 4 3 == 0) <| (decodePredOp (aOf w)).bind fun a => (decodePredOp (bOf w)).bind fun b => some (.pandn g ((zOf w).extractLsb' 0 4).toFin a b)
  | 0x2A =>
    ifz (((bOf w).extractLsb' 3 4 == 0) && ((zOf w).extractLsb' 6 1 == 0)) <| (decodeSrc k h (aOf w)).bind fun a => (decodeLdSize ((bOf w).extractLsb' 0 3)).bind fun sz => some (.ldt g sz ((zOf w).extractLsb' 0 6).toFin a)
  | 0x2B =>
    (decodeSrc k h (aOf w)).bind fun a => (decodeSrc k h (bOf w)).bind fun b => some (.stt g ((zOf w).getLsbD 6) ((zOf w).extractLsb' 0 6).toFin a b)
  | 0x2C =>
    ifz ((immOf w).extractLsb' 12 9 == 0) <| some (.br g ((immOf w).extractLsb' 0 12))
  | 0x2D =>
    ifz ((immOf w).extractLsb' 12 9 == 0) <| some (.brl g ((immOf w).extractLsb' 0 12))
  | 0x2E =>
    ifz ((bOf w == 0) && (zOf w == 0)) <| (decodeSrc k h (aOf w)).bind fun a => some (.jr g a)
  | 0x2F =>
    ifz ((immOf w).extractLsb' 11 10 == 0) <| some (.brbank g ((immOf w).extractLsb' 0 11))
  | 0x30 =>
    ifz ((aOf w == 0) && (bOf w == 0) && (zOf w == 0)) <| some (.ifence g)
  | 0x31 =>
    (finOf 6 ((immOf w).extractLsb' 18 3).toNat).bind fun n => some (.fdef g n ((immOf w).extractLsb' 9 9) ((immOf w).extractLsb' 0 9))
  | 0x32 =>
    ifz ((bOf w == 0) && ((zOf w).extractLsb' 3 4 == 0)) <| (decodeSrc k h (aOf w)).bind fun a => (finOf 6 ((zOf w).extractLsb' 0 3).toNat).bind fun n => some (.fcnt g n a)
  | 0x33 =>
    ifz ((bOf w == 0) && ((zOf w).extractLsb' 5 2 == 0)) <| (decodeSrc k h (aOf w)).bind fun a => (finOf 6 ((zOf w).extractLsb' 0 3).toNat).bind fun n => some (.fstr g n ((zOf w).extractLsb' 3 2).toFin a)
  | 0x34 =>
    ifz ((aOf w == 0) && (bOf w == 0) && ((zOf w).extractLsb' 3 4 == 0)) <| (finOf 5 ((zOf w).extractLsb' 0 3).toNat).bind fun n => some (.fpipe g n)
  | 0x35 =>
    ifz ((aOf w == 0) && (bOf w == 0) && ((zOf w).extractLsb' 3 4 == 0) && ((zOf w).extractLsb' 0 3 != 0)) <| (finOf 7 ((zOf w).extractLsb' 0 3).toNat).bind fun n => some (.stair g n)
  | 0x36 =>
    ifz ((aOf w == 0) && (bOf w == 0) && (zOf w == 0)) <| some (.sbrk g)
  | 0x37 =>
    ifz ((bOf w == 0) && ((zOf w).extractLsb' 5 2 == 0)) <| (finOf 26 (aOf w).toNat).bind fun n => some (.getc g ((zOf w).extractLsb' 0 5).toFin n)
  | 0x38 =>
    ifz (zOf w == 0) <| (decodeSrc k h (bOf w)).bind fun b => (finOf 26 (aOf w).toNat).bind fun n => some (.setc g n b)
  | 0x39 =>
    ifz ((immOf w).extractLsb' 16 5 == 0) <| some (.brk g ((immOf w).extractLsb' 0 16))
  | 0x3A =>
    ifz ((immOf w).extractLsb' 12 9 == 0) <| some (.svc g ((immOf w).extractLsb' 0 12))
  | 0x3B =>
    ifz ((bOf w == 0) && ((zOf w).extractLsb' 4 3 == 0)) <| (decodeSrc k h (aOf w)).bind fun a => some (.lnch g ((zOf w).extractLsb' 0 4).toFin a)
  | 0x3C =>
    ifz ((zOf w).extractLsb' 1 6 == 0) <|
      if (zOf w).getLsbD 0 then
        (decodeSrc k h (aOf w)).bind fun a => (decodeSrc k h (bOf w)).bind fun b => some (.qstatO g a b)
      else ifz (bOf w == 0) <| (decodeSrc k h (aOf w)).bind fun a => some (.qstat g a)
  | 0x3D =>
    ifz ((bOf w == 0) && ((zOf w).extractLsb' 1 6 == 0)) <| (decodeSrc k h (aOf w)).bind fun a => some (.thaw g a ((zOf w).getLsbD 0))
  | 0x3E =>
    ifz ((aOf w == 0) && (bOf w == 0) && (zOf w == 0)) <| some (.rfh g)
  | _ => none

/-- The V map (R105), for slots 1 and 2. `k` is the slot. -/
def decodeV (k : Nat) (h : Header) (w : SlotBits) : Option Instr :=
  let g := decodeGuard k h w
  let u : VSlot := if k = 1 then .va else .vb
  match (opOf w).toNat with
  | 0x00 => ifz (w == 0) (some .nop)
  | 0x01 =>
    ifz ((zOf w).extractLsb' 6 1 == 0) <| (decodeSrc k h (aOf w)).bind fun a => (decodeSrc k h (bOf w)).bind fun b => (decodeRm ((zOf w).extractLsb' 0 3)).bind fun rm => some (.vaddF32 u g a b ((zOf w).extractLsb' 3 3).toFin rm)
  | 0x02 =>
    ifz ((zOf w).extractLsb' 6 1 == 0) <| (decodeSrc k h (aOf w)).bind fun a => (decodeSrc k h (bOf w)).bind fun b => (decodeRm ((zOf w).extractLsb' 0 3)).bind fun rm => some (.vsubF32 u g a b ((zOf w).extractLsb' 3 3).toFin rm)
  | 0x03 =>
    ifz ((zOf w).extractLsb' 6 1 == 0) <| (decodeSrc k h (aOf w)).bind fun a => (decodeSrc k h (bOf w)).bind fun b => (decodeRm ((zOf w).extractLsb' 0 3)).bind fun rm => some (.vmulF32 u g a b ((zOf w).extractLsb' 3 3).toFin rm)
  | 0x04 =>
    ifz ((zOf w).extractLsb' 6 1 == 0) <| (decodeSrc k h (aOf w)).bind fun a => (decodeSrc k h (bOf w)).bind fun b => (decodeRm ((zOf w).extractLsb' 0 3)).bind fun rm => some (.vfmaF32 u g a b (decodeThird k h) ((zOf w).extractLsb' 3 3).toFin rm)
  | 0x05 =>
    ifz ((zOf w).extractLsb' 6 1 == 0) <| (decodeSrc k h (aOf w)).bind fun a => (decodeSrc k h (bOf w)).bind fun b => (decodeRm ((zOf w).extractLsb' 0 3)).bind fun rm => some (.vfmsF32 u g a b (decodeThird k h) ((zOf w).extractLsb' 3 3).toFin rm)
  | 0x06 =>
    ifz (((zOf w).extractLsb' 6 1 == 0) && ((zOf w).extractLsb' 0 3 == 0)) <| (decodeSrc k h (aOf w)).bind fun a => (decodeSrc k h (bOf w)).bind fun b => some (.vminF32 u g a b ((zOf w).extractLsb' 3 3).toFin)
  | 0x07 =>
    ifz (((zOf w).extractLsb' 6 1 == 0) && ((zOf w).extractLsb' 0 3 == 0)) <| (decodeSrc k h (aOf w)).bind fun a => (decodeSrc k h (bOf w)).bind fun b => some (.vmaxF32 u g a b ((zOf w).extractLsb' 3 3).toFin)
  | 0x08 =>
    ifz ((zOf w).extractLsb' 6 1 == 0) <| (decodeSrc k h (aOf w)).bind fun a => (decodeSrc k h (bOf w)).bind fun b => (decodeRm ((zOf w).extractLsb' 0 3)).bind fun rm => some (.vdivF32 u g a b ((zOf w).extractLsb' 3 3).toFin rm)
  | 0x09 =>
    ifz ((bOf w == 0) && ((zOf w).extractLsb' 6 1 == 0)) <| (decodeSrc k h (aOf w)).bind fun a => (decodeRm ((zOf w).extractLsb' 0 3)).bind fun rm => some (.vsqrtF32 u g a ((zOf w).extractLsb' 3 3).toFin rm)
  | 0x0A =>
    ifz ((bOf w == 0) && ((zOf w).extractLsb' 6 1 == 0) && ((zOf w).extractLsb' 0 3 == 0)) <| (decodeSrc k h (aOf w)).bind fun a => some (.vabsF32 u g a ((zOf w).extractLsb' 3 3).toFin)
  | 0x0B =>
    ifz ((bOf w == 0) && ((zOf w).extractLsb' 6 1 == 0) && ((zOf w).extractLsb' 0 3 == 0)) <| (decodeSrc k h (aOf w)).bind fun a => some (.vnegF32 u g a ((zOf w).extractLsb' 3 3).toFin)
  | 0x0C =>
    ifz (((zOf w).extractLsb' 6 1 == 0) && ((zOf w).extractLsb' 0 3 == 0)) <| (decodeSrc k h (aOf w)).bind fun a => (decodeSrc k h (bOf w)).bind fun b => some (.vaddI32 u g a b ((zOf w).extractLsb' 3 3).toFin)
  | 0x0D =>
    ifz (((zOf w).extractLsb' 6 1 == 0) && ((zOf w).extractLsb' 0 3 == 0)) <| (decodeSrc k h (aOf w)).bind fun a => (decodeSrc k h (bOf w)).bind fun b => some (.vsubI32 u g a b ((zOf w).extractLsb' 3 3).toFin)
  | 0x0E =>
    ifz (((zOf w).extractLsb' 6 1 == 0) && ((zOf w).extractLsb' 0 3 == 0)) <| (decodeSrc k h (aOf w)).bind fun a => (decodeSrc k h (bOf w)).bind fun b => some (.vmulI32 u g a b ((zOf w).extractLsb' 3 3).toFin)
  | 0x0F =>
    ifz (((zOf w).extractLsb' 6 1 == 0) && ((zOf w).extractLsb' 0 3 == 0)) <| (decodeSrc k h (aOf w)).bind fun a => (decodeSrc k h (bOf w)).bind fun b => some (.vminI32 u g a b ((zOf w).extractLsb' 3 3).toFin)
  | 0x10 =>
    ifz (((zOf w).extractLsb' 6 1 == 0) && ((zOf w).extractLsb' 0 3 == 0)) <| (decodeSrc k h (aOf w)).bind fun a => (decodeSrc k h (bOf w)).bind fun b => some (.vmaxI32 u g a b ((zOf w).extractLsb' 3 3).toFin)
  | 0x11 =>
    ifz (((zOf w).extractLsb' 6 1 == 0) && ((zOf w).extractLsb' 0 3 == 0)) <| (decodeSrc k h (aOf w)).bind fun a => (decodeSrc k h (bOf w)).bind fun b => some (.vand u g a b ((zOf w).extractLsb' 3 3).toFin)
  | 0x12 =>
    ifz (((zOf w).extractLsb' 6 1 == 0) && ((zOf w).extractLsb' 0 3 == 0)) <| (decodeSrc k h (aOf w)).bind fun a => (decodeSrc k h (bOf w)).bind fun b => some (.vor u g a b ((zOf w).extractLsb' 3 3).toFin)
  | 0x13 =>
    ifz (((zOf w).extractLsb' 6 1 == 0) && ((zOf w).extractLsb' 0 3 == 0)) <| (decodeSrc k h (aOf w)).bind fun a => (decodeSrc k h (bOf w)).bind fun b => some (.vxor u g a b ((zOf w).extractLsb' 3 3).toFin)
  | 0x14 =>
    ifz (((zOf w).extractLsb' 6 1 == 0) && ((zOf w).extractLsb' 0 3 == 0)) <| (decodeSrc k h (aOf w)).bind fun a => (decodeSrc k h (bOf w)).bind fun b => some (.vshl u g a b ((zOf w).extractLsb' 3 3).toFin)
  | 0x15 =>
    ifz (((zOf w).extractLsb' 6 1 == 0) && ((zOf w).extractLsb' 0 3 == 0)) <| (decodeSrc k h (aOf w)).bind fun a => (decodeSrc k h (bOf w)).bind fun b => some (.vshr u g a b ((zOf w).extractLsb' 3 3).toFin)
  | 0x16 =>
    ifz (((zOf w).extractLsb' 6 1 == 0) && ((zOf w).extractLsb' 0 3 == 0)) <| (decodeSrc k h (aOf w)).bind fun a => (decodeSrc k h (bOf w)).bind fun b => some (.vsar u g a b ((zOf w).extractLsb' 3 3).toFin)
  | 0x17 =>
    ifz (((zOf w).extractLsb' 6 1 == 0) && ((zOf w).extractLsb' 0 3 == 0)) <| (decodeSrc k h (aOf w)).bind fun a => (decodeSrc k h (bOf w)).bind fun b => some (.vsel u g a b ((zOf w).extractLsb' 3 3).toFin)
  | 0x18 =>
    (decodeSrc k h (aOf w)).bind fun a => (decodeSrc k h (bOf w)).bind fun b => (decodeFCond ((zOf w).extractLsb' 3 4)).bind fun cc => some (.vcmpF32 u g cc ((zOf w).extractLsb' 0 3).toFin a b)
  | 0x19 =>
    (decodeSrc k h (aOf w)).bind fun a => (decodeSrc k h (bOf w)).bind fun b => (decodeICond ((zOf w).extractLsb' 3 4)).bind fun cc => some (.vcmpI32 u g cc ((zOf w).extractLsb' 0 3).toFin a b)
  | 0x1A =>
    ifz ((zOf w).extractLsb' 3 4 == 0) <| (decodeMaskOp (aOf w)).bind fun a => (decodeMaskOp (bOf w)).bind fun b => some (.mand u g ((zOf w).extractLsb' 0 3).toFin a b)
  | 0x1B =>
    ifz ((zOf w).extractLsb' 3 4 == 0) <| (decodeMaskOp (aOf w)).bind fun a => (decodeMaskOp (bOf w)).bind fun b => some (.mor u g ((zOf w).extractLsb' 0 3).toFin a b)
  | 0x1C =>
    ifz ((zOf w).extractLsb' 3 4 == 0) <| (decodeMaskOp (aOf w)).bind fun a => (decodeMaskOp (bOf w)).bind fun b => some (.mxor u g ((zOf w).extractLsb' 0 3).toFin a b)
  | 0x1D =>
    ifz ((zOf w).extractLsb' 3 4 == 0) <| (decodeMaskOp (aOf w)).bind fun a => (decodeMaskOp (bOf w)).bind fun b => some (.mandn u g ((zOf w).extractLsb' 0 3).toFin a b)
  | 0x1E =>
    ifz (((aOf w).extractLsb' 3 4 == 0) && ((bOf w).extractLsb' 3 4 == 0) && ((zOf w).extractLsb' 4 3 == 0)) <| some (.vmu u g ((zOf w).extractLsb' 0 4).toFin ((aOf w).extractLsb' 0 3).toFin ((bOf w).extractLsb' 0 3).toFin)
  | 0x1F =>
    ifz ((bOf w == 0) && ((zOf w).extractLsb' 5 2 == 0)) <| (decodeSrc k h (aOf w)).bind fun a => some (.vmov u g ((zOf w).extractLsb' 0 5).toFin a)
  | 0x20 =>
    ifz ((zOf w).extractLsb' 6 1 == 0) <| (decodeSrc k h (aOf w)).bind fun a => (decodeRm ((zOf w).extractLsb' 0 3)).bind fun rm => some (.vcvt u g (decodeFmt ((bOf w).extractLsb' 4 3)) (decodeFmt ((bOf w).extractLsb' 1 3)) ((bOf w).getLsbD 0) a ((zOf w).extractLsb' 3 3).toFin rm)
  | 0x21 =>
    ifz (((zOf w).extractLsb' 6 1 == 0) && ((zOf w).extractLsb' 0 3 == 0)) <| (decodeSrc k h (aOf w)).bind fun a => (decodeSrc k h (bOf w)).bind fun b => some (.vperm u g a b ((zOf w).extractLsb' 3 3).toFin)
  | 0x22 =>
    ifz (((zOf w).extractLsb' 6 1 == 0) && ((zOf w).extractLsb' 1 2 == 0)) <| (decodeSrc k h (aOf w)).bind fun a => (decodeSrc k h (bOf w)).bind fun b => some (.vslide u g ((zOf w).getLsbD 0) a b ((zOf w).extractLsb' 3 3).toFin)
  | 0x23 =>
    ifz ((bOf w == 0) && ((zOf w).extractLsb' 6 1 == 0)) <| (decodeSrc k h (aOf w)).bind fun a => some (.vldt u g ((zOf w).extractLsb' 0 6).toFin a)
  | 0x24 =>
    (decodeSrc k h (aOf w)).bind fun a => (decodeSrc k h (bOf w)).bind fun b => some (.vstt u g ((zOf w).getLsbD 6) ((zOf w).extractLsb' 0 6).toFin a b)
  | 0x25 =>
    ifz (bOf w == 0) <| (decodeSrc k h (aOf w)).bind fun a => some (.vgath u g ((zOf w).getLsbD 6) ((zOf w).extractLsb' 0 6).toFin a)
  | 0x26 =>
    (decodeSrc k h (aOf w)).bind fun a => (decodeSrc k h (bOf w)).bind fun b => some (.vscat u g ((zOf w).getLsbD 6) ((zOf w).extractLsb' 0 6).toFin a b)
  | 0x28 =>
    ifz ((bOf w == 0) && ((zOf w).extractLsb' 0 3 == 0)) <| (decodeSrc k h (aOf w)).bind fun a => some (.vredAdd u g ((zOf w).getLsbD 6) a ((zOf w).extractLsb' 3 3).toFin)
  | 0x29 =>
    ifz ((bOf w == 0) && ((zOf w).extractLsb' 0 3 == 0)) <| (decodeSrc k h (aOf w)).bind fun a => some (.vredMax u g ((zOf w).getLsbD 6) a ((zOf w).extractLsb' 3 3).toFin)
  | 0x2A =>
    ifz ((bOf w == 0) && ((zOf w).extractLsb' 0 3 == 0)) <| (decodeSrc k h (aOf w)).bind fun a => some (.vredMin u g ((zOf w).getLsbD 6) a ((zOf w).extractLsb' 3 3).toFin)
  | 0x2B =>
    ifz ((bOf w == 0) && ((zOf w).extractLsb' 0 3 == 0)) <| (decodeSrc k h (aOf w)).bind fun a => some (.vscanAdd u g ((zOf w).getLsbD 6) a ((zOf w).extractLsb' 3 3).toFin)
  | 0x2C =>
    ifz ((bOf w == 0) && ((zOf w).extractLsb' 6 1 == 0)) <| (decodeSrc k h (aOf w)).bind fun a => (decodeRm ((zOf w).extractLsb' 0 3)).bind fun rm => some (.vexp2 u g a ((zOf w).extractLsb' 3 3).toFin rm)
  | 0x2D =>
    ifz ((bOf w == 0) && ((zOf w).extractLsb' 6 1 == 0)) <| (decodeSrc k h (aOf w)).bind fun a => (decodeRm ((zOf w).extractLsb' 0 3)).bind fun rm => some (.vlog2 u g a ((zOf w).extractLsb' 3 3).toFin rm)
  | 0x2E =>
    ifz ((bOf w == 0) && ((zOf w).extractLsb' 6 1 == 0)) <| (decodeSrc k h (aOf w)).bind fun a => (decodeRm ((zOf w).extractLsb' 0 3)).bind fun rm => some (.vrcp u g a ((zOf w).extractLsb' 3 3).toFin rm)
  | 0x2F =>
    ifz ((bOf w == 0) && ((zOf w).extractLsb' 6 1 == 0)) <| (decodeSrc k h (aOf w)).bind fun a => (decodeRm ((zOf w).extractLsb' 0 3)).bind fun rm => some (.vrsqrt u g a ((zOf w).extractLsb' 3 3).toFin rm)
  | 0x30 =>
    ifz ((bOf w == 0) && ((zOf w).extractLsb' 6 1 == 0)) <| (decodeSrc k h (aOf w)).bind fun a => (decodeRm ((zOf w).extractLsb' 0 3)).bind fun rm => some (.vtanh u g a ((zOf w).extractLsb' 3 3).toFin rm)
  | 0x31 =>
    ifz ((bOf w == 0) && ((zOf w).extractLsb' 6 1 == 0) && ((zOf w).extractLsb' 4 2 == 0) && ((decodeFmt ((zOf w).extractLsb' 0 3)).quant)) <| (decodeSrc k h (aOf w)).bind fun a => some (.vqnt u g (decodeFmt ((zOf w).extractLsb' 0 3)) ((zOf w).getLsbD 3) a)
  | 0x32 =>
    ifz ((bOf w == 0) && ((zOf w).extractLsb' 6 1 == 0) && ((zOf w).extractLsb' 4 2 == 0) && ((decodeFmt ((zOf w).extractLsb' 0 3)).quant)) <| (decodeSrc k h (aOf w)).bind fun a => some (.vdqnt u g (decodeFmt ((zOf w).extractLsb' 0 3)) ((zOf w).getLsbD 3) a)
  | _ => none

/-- The M map (R107), for slot 3. `k` is the slot. -/
def decodeM (k : Nat) (h : Header) (w : SlotBits) : Option Instr :=
  let g := decodeGuard k h w
  match (opOf w).toNat with
  | 0x00 => ifz (w == 0) (some .nop)
  | 0x01 =>
    ifz ((aOf w == 0) && (bOf w == 0) && ((zOf w).extractLsb' 6 1 == 0)) <| some (.mcall g ((zOf w).extractLsb' 0 6).toFin)
  | 0x02 =>
    ifz ((bOf w == 0) && ((zOf w).extractLsb' 3 4 == 0)) <| (decodeSrc k h (aOf w)).bind fun a => some (.mpset g ((zOf w).extractLsb' 0 3).toFin a)
  | 0x03 =>
    ifz ((bOf w == 0) && (zOf w == 0)) <| (decodeSrc k h (aOf w)).bind fun a => some (.mwait g a)
  | 0x04 =>
    ifz ((aOf w == 0) && (bOf w == 0) && (zOf w == 0)) <| some (.mstat g)
  | 0x05 =>
    ifz ((aOf w == 0) && (bOf w == 0) && (zOf w == 0)) <| some (.mabort g)
  | 0x06 =>
    (decodeSrc k h (aOf w)).bind fun a => (decodeSrc k h (bOf w)).bind fun b =>
      some (if (zOf w).getLsbD 6 then .mlucodeEnt g ((zOf w).extractLsb' 0 6).toFin a b else .mlucode g ((zOf w).extractLsb' 0 6).toFin a b)
  | 0x07 =>
    if bOf w == 0 then ifz (aOf w == 0 && (zOf w).extractLsb' 0 6 == 0) <| some (.mlsf g ((zOf w).getLsbD 6))
    else ifz (bOf w == 1) <| (decodeSrc k h (aOf w)).bind fun a => some (.mlsfT g ((zOf w).getLsbD 6) ((zOf w).extractLsb' 0 6).toFin a)
  | _ => none

/-- The C map (R106), for slots 4 and 5. `k` is the slot. -/
def decodeC (k : Nat) (h : Header) (w : SlotBits) : Option Instr :=
  let g := decodeGuard k h w
  let u : CSlot := if k = 4 then .ca else .cb
  match (opOf w).toNat with
  | 0x00 => ifz (w == 0) (some .nop)
  | 0x01 =>
    ifz ((zOf w).extractLsb' 6 1 == 0) <| (decodeSrc k h (aOf w)).bind fun a => (decodeSrc k h (bOf w)).bind fun b => some (.tdef u g ((zOf w).extractLsb' 0 6).toFin a b)
  | 0x02 =>
    (decodeSrc k h (aOf w)).bind fun a => some (.tld u g (tOf w).toFin (hOf w).toFin (clOf w).toFin a)
  | 0x03 =>
    (decodeSrc k h (aOf w)).bind fun a => some (.tst u g (tOf w).toFin (hOf w).toFin (clOf w).toFin a)
  | 0x04 =>
    ifz (((tOf w).extractLsb' 0 2 == 0) && (!(decodeAmo ((tOf w).extractLsb' 3 3) == some .cas && (tOf w).getLsbD 2 && !(decodeThird k h).evenReg))) <| (decodeSrc k h (aOf w)).bind fun a => (decodeAmo ((tOf w).extractLsb' 3 3)).bind fun op => some (.tamo u g op ((tOf w).getLsbD 2) (hOf w).toFin (clOf w).toFin a (decodeThird k h))
  | 0x05 =>
    (decodeSrc k h (aOf w)).bind fun a => some (.tlbk u g (tOf w).toFin (hOf w).toFin (clOf w).toFin a)
  | 0x06 =>
    ifz (((aOf w).extractLsb' 6 1 == 0) && (bOf w == 0) && ((zOf w).extractLsb' 6 1 == 0)) <| some (.tcpy u g ((zOf w).extractLsb' 0 6).toFin ((aOf w).extractLsb' 0 6).toFin)
  | 0x07 =>
    ifz ((zOf w).extractLsb' 6 1 == 0) <| (decodeSrc k h (aOf w)).bind fun a => (decodeSrc k h (bOf w)).bind fun b => some (.tfill u g ((zOf w).extractLsb' 0 6).toFin a b)
  | 0x08 =>
    ifz ((tOf w).extractLsb' 1 5 == 0) <| (decodeSrc k h (aOf w)).bind fun a => some (.tldi u g ((tOf w).getLsbD 0) (hOf w).toFin (clOf w).toFin a)
  | 0x09 =>
    (decodeSrc k h (aOf w)).bind fun a => some (.bkc u g (tOf w).toFin (hOf w).toFin (clOf w).toFin a)
  | 0x0A =>
    ifz ((zOf w).extractLsb' 2 5 == 0) <| (decodeSrc k h (aOf w)).bind fun a => (decodeSrc k h (bOf w)).bind fun b => (decodeKind ((zOf w).extractLsb' 0 2)).bind fun kd => some (.waitc u g kd a b)
  | 0x0B =>
    ifz ((bOf w == 0) && ((zOf w).extractLsb' 2 5 == 0)) <| (decodeSrc k h (aOf w)).bind fun a => some (.waitf u g ((zOf w).getLsbD 0) ((zOf w).getLsbD 1) a)
  | 0x0C =>
    ifz ((zOf w).extractLsb' 4 3 == 0) <| (decodeSrc k h (aOf w)).bind fun a => (decodeSrc k h (bOf w)).bind fun b => some (.rdcinv u g ((zOf w).extractLsb' 0 4).toFin a b)
  | 0x0D =>
    ifz ((bOf w == 0) && ((zOf w).extractLsb' 4 3 == 0)) <| (decodeSrc k h (aOf w)).bind fun a => some (.xlat u g ((zOf w).extractLsb' 0 4).toFin a)
  | 0x0E =>
    ifz ((aOf w == 0) && (bOf w == 0) && ((zOf w).extractLsb' 5 2 == 0)) <| some (.hstat u g ((zOf w).getLsbD 4) ((zOf w).extractLsb' 0 4).toFin)
  | 0x0F =>
    ifz (bOf w == 0 && (zOf w).extractLsb' 5 2 == 0) <|
      if (zOf w).getLsbD 4 then
        ifz ((zOf w).extractLsb' 0 4 == 0) <| (decodeSrc k h (aOf w)).bind fun a => some (.hclrPn u g a)
      else ifz (aOf w == 0) <| some (.hclr u g ((zOf w).extractLsb' 0 4).toFin)
  | 0x10 =>
    ifz (zOf w == 0) <| (decodeSrc k h (aOf w)).bind fun a => (decodeSrc k h (bOf w)).bind fun b => some (.ipatch u g a b)
  | 0x11 =>
    ifz ((bOf w == 0) && (zOf w == 0)) <| (decodeSrc k h (aOf w)).bind fun a => some (.frd u g a)
  | 0x12 =>
    ifz (zOf w == 0) <| (decodeSrc k h (aOf w)).bind fun a => (decodeSrc k h (bOf w)).bind fun b => some (.fwr u g a b)
  | 0x13 =>
    ifz ((zOf w).extractLsb' 4 3 == 0) <| (decodeSrc k h (aOf w)).bind fun a => (decodeSrc k h (bOf w)).bind fun b => some (.csave u g ((zOf w).extractLsb' 0 4).toFin a b)
  | 0x14 =>
    ifz ((zOf w).extractLsb' 4 3 == 0) <| (decodeSrc k h (aOf w)).bind fun a => (decodeSrc k h (bOf w)).bind fun b => some (.crest u g ((zOf w).extractLsb' 0 4).toFin a b)
  | _ => none

/-- The X map (R107), for slot 6. `k` is the slot. -/
def decodeX (k : Nat) (h : Header) (w : SlotBits) : Option Instr :=
  let g := decodeGuard k h w
  match (opOf w).toNat with
  | 0x00 => ifz (w == 0) (some .nop)
  | 0x01 =>
    (decodeSrc k h (aOf w)).bind fun a => (decodeSrc k h (bOf w)).bind fun b => some (.xsend g ((zOf w).getLsbD 6) ((zOf w).extractLsb' 0 6).toFin a b)
  | 0x02 =>
    ifz ((bOf w == 0) && ((zOf w).extractLsb' 6 1 == 0)) <| (decodeSrc k h (aOf w)).bind fun a => some (.xrecv g ((zOf w).extractLsb' 0 6).toFin a)
  | 0x03 =>
    (decodeSrc k h (aOf w)).bind fun a => (decodeSrc k h (bOf w)).bind fun b => some (.xradd g ((zOf w).getLsbD 6) ((zOf w).extractLsb' 0 6).toFin a b)
  | 0x04 =>
    (decodeSrc k h (aOf w)).bind fun a => (decodeSrc k h (bOf w)).bind fun b => some (.xrmax g ((zOf w).getLsbD 6) ((zOf w).extractLsb' 0 6).toFin a b)
  | 0x05 =>
    ifz ((zOf w).extractLsb' 6 1 == 0) <| (decodeSrc k h (aOf w)).bind fun a => (decodeSrc k h (bOf w)).bind fun b => some (.xput g ((zOf w).extractLsb' 0 6).toFin a b)
  | 0x06 =>
    ifz ((zOf w).extractLsb' 4 3 == 0) <| (decodeSrc k h (aOf w)).bind fun a => (decodeSrc k h (bOf w)).bind fun b => some (.xbegin g ((zOf w).extractLsb' 0 4).toFin a b)
  | 0x07 =>
    ifz ((bOf w == 0) && ((zOf w).extractLsb' 2 5 == 0)) <| (decodeSrc k h (aOf w)).bind fun a => some (.xtrig g ((zOf w).extractLsb' 0 2).toFin a)
  | 0x08 =>
    ifz ((aOf w == 0) && (bOf w == 0) && (zOf w == 0)) <| some (.xstat g)
  | 0x09 =>
    ifz ((aOf w == 0) && (bOf w == 0) && ((zOf w).extractLsb' 3 4 == 0)) <| (finOf 5 ((zOf w).extractLsb' 0 3).toNat).bind fun n => some (.land g n)
  | 0x0A =>
    ifz ((bOf w == 0) && (zOf w == 0)) <| (decodeSrc k h (aOf w)).bind fun a => some (.align g a)
  | 0x0B =>
    ifz ((aOf w == 0) && (bOf w == 0) && (zOf w == 0)) <| some (.seg g)
  | _ => none

/-- The K ops (R101, R190, R191), for slot 7. -/
def decodeK (w : SlotBits) : Option Instr :=
  match (w.extractLsb' 24 6).toNat with
  | 0x00 => ifz (w.extractLsb' 0 24 == 0) (some .knop)
  | 0x01 =>
    ifz (w.extractLsb' 0 12 == 0) <| (decodeSrc 7 .none (w.extractLsb' 12 7)).bind fun a =>
      some (.kst (w.getLsbD 23) (w.extractLsb' 19 4).toFin a)
  | 0x02 =>
    let r := decodeFmt (w.extractLsb' 18 3)
    let c := decodeFmt (w.extractLsb' 15 3)
    ifz (w.extractLsb' 0 14 == 0 && r.pairOk c) <| some (.kcfg (w.extractLsb' 21 3).toFin r c (w.getLsbD 14))
  | 0x03 =>
    ifz (w.extractLsb' 0 10 == 0) <| (decodeSrc 7 .none (w.extractLsb' 10 7)).bind fun a =>
      some (.klds (w.getLsbD 23) (w.extractLsb' 17 6).toFin a)
  | _ => none

/-- The header slot 7 holds, `Header.none` for a K op; none where R101 or R102 refuses it. -/
def decodeHeader (w : SlotBits) : Option Header :=
  match (w.extractLsb' 30 2).toNat with
  | 0 => some .none
  | 1 =>
    match (w.extractLsb' 28 2).toNat with
    | 0 => some (.imm (w.extractLsb' 25 3) (w.extractLsb' 0 25))
    | 1 => ifz (w.extractLsb' 0 14 == 0) <| some (.flags (w.extractLsb' 21 7) (w.extractLsb' 14 7))
    | 2 => some (.third (w.extractLsb' 25 3) (w.extractLsb' 18 7) (w.extractLsb' 0 18))
    | _ => none
  | _ => none

/-- An instruction that takes a third source stands in slot k: `vfma.f32`, `vfms.f32`, `tamo` (R103). -/
def takesThird (k : Nat) (w : SlotBits) : Bool :=
  if isVec k then (opOf w).toNat == 4 || (opOf w).toNat == 5
  else if k == 4 || k == 5 then (opOf w).toNat == 4
  else false

/-- The header agrees with the slots it serves (R103, but for its third case). -/
def headerOk (w : Word) (h : Header) : Bool :=
  (match h with
   | .none | .flags _ _ => true
   | .imm t _ => t != 7
   | .third t sel _ => t != 7 && takesThird t.toNat (slotBits w t.toNat) && (decodeSrc t.toNat h sel).isSome) &&
  [1, 2, 4, 5].all fun k => !takesThird k (slotBits w k) ||
    (match h with | .third t _ _ => t.toNat == k | _ => false)

/-- Slot k decoded against its map (R95), beside the header `h`. -/
def decodeSlot (k : Nat) (h : Header) (w : SlotBits) : Option Instr :=
  match k with
  | 0 => decodeS 0 h w
  | 1 => decodeV 1 h w
  | 2 => decodeV 2 h w
  | 3 => decodeM 3 h w
  | 4 => decodeC 4 h w
  | 5 => decodeC 5 h w
  | 6 => decodeX 6 h w
  | _ => if w.extractLsb' 30 2 = 0 then decodeK w else some .knop

/-- The eight slots of a word; none for a slot that fails the static checks of fault 0x01 (R113). A
header is no operation: its slot reads as `knop`. -/
def decodeWord (w : Word) : List (Option Instr) :=
  let h := (decodeHeader (slotBits w 7)).getD .none
  let k7 := if (decodeHeader (slotBits w 7)).isSome && headerOk w h then decodeSlot 7 h (slotBits w 7) else none
  [decodeSlot 0 h (slotBits w 0), decodeSlot 1 h (slotBits w 1), decodeSlot 2 h (slotBits w 2),
   decodeSlot 3 h (slotBits w 3), decodeSlot 4 h (slotBits w 4), decodeSlot 5 h (slotBits w 5),
   decodeSlot 6 h (slotBits w 6), k7]

/-! ### The encoder -/

def encodeGuard (g : Guard) : BitVec 5 := BitVec.ofBool g.sense ++ fb 4 g.pred

/-- ABZ form (R96). -/
def abz (op : BitVec 6) (g : Guard) (a b z : BitVec 7) : SlotBits := op ++ encodeGuard g ++ a ++ b ++ z
/-- IMM form. -/
def imf (op : BitVec 6) (g : Guard) (i : BitVec 21) : SlotBits := op ++ encodeGuard g ++ i
/-- MEM form. -/
def memf (op : BitVec 6) (g : Guard) (a : BitVec 7) (h cl : BitVec 4) (t : BitVec 6) : SlotBits :=
  op ++ encodeGuard g ++ a ++ h ++ cl ++ t

/-- The slot bits of an instruction; zero for an event, which has no encoding. -/
def encodeSlot : Instr → SlotBits
  | .nop | .knop => 0
  | .add g a b => abz 0x01#6 g (encodeSrc a) (encodeSrc b) 0
  | .sub g a b => abz 0x02#6 g (encodeSrc a) (encodeSrc b) 0
  | .mul g a b => abz 0x03#6 g (encodeSrc a) (encodeSrc b) 0
  | .mulh g a b => abz 0x04#6 g (encodeSrc a) (encodeSrc b) 0
  | .mulhu g a b => abz 0x05#6 g (encodeSrc a) (encodeSrc b) 0
  | .div g a b => abz 0x06#6 g (encodeSrc a) (encodeSrc b) 0
  | .divu g a b => abz 0x07#6 g (encodeSrc a) (encodeSrc b) 0
  | .rem g a b => abz 0x08#6 g (encodeSrc a) (encodeSrc b) 0
  | .remu g a b => abz 0x09#6 g (encodeSrc a) (encodeSrc b) 0
  | .and g a b => abz 0x0A#6 g (encodeSrc a) (encodeSrc b) 0
  | .or g a b => abz 0x0B#6 g (encodeSrc a) (encodeSrc b) 0
  | .xor g a b => abz 0x0C#6 g (encodeSrc a) (encodeSrc b) 0
  | .andn g a b => abz 0x0D#6 g (encodeSrc a) (encodeSrc b) 0
  | .shl g a b => abz 0x0E#6 g (encodeSrc a) (encodeSrc b) 0
  | .shr g a b => abz 0x0F#6 g (encodeSrc a) (encodeSrc b) 0
  | .sar g a b => abz 0x10#6 g (encodeSrc a) (encodeSrc b) 0
  | .min g a b => abz 0x11#6 g (encodeSrc a) (encodeSrc b) 0
  | .max g a b => abz 0x12#6 g (encodeSrc a) (encodeSrc b) 0
  | .minu g a b => abz 0x13#6 g (encodeSrc a) (encodeSrc b) 0
  | .maxu g a b => abz 0x14#6 g (encodeSrc a) (encodeSrc b) 0
  | .clz g a => abz 0x15#6 g (encodeSrc a) 0 0
  | .ctz g a => abz 0x16#6 g (encodeSrc a) 0 0
  | .popc g a => abz 0x17#6 g (encodeSrc a) 0 0
  | .limm g i => imf 0x18#6 g i
  | .limmh g p c => imf 0x19#6 g (fb 2 p ++ 0#3 ++ c)
  | .pass g a => abz 0x1A#6 g (encodeSrc a) 0 0
  | .mov g d a => abz 0x1B#6 g (encodeSrc a) 0 (encodeMovDst d)
  | .sel g a b p => abz 0x1C#6 g (encodeSrc a) (encodeSrc b) (0#3 ++ fb 4 p)
  | .sext g a n => abz 0x1D#6 g (encodeSrc a) 0 (0#1 ++ fb 6 n)
  | .cmpeq g d a b => abz 0x20#6 g (encodeSrc a) (encodeSrc b) (0#3 ++ fb 4 d)
  | .cmpne g d a b => abz 0x21#6 g (encodeSrc a) (encodeSrc b) (0#3 ++ fb 4 d)
  | .cmplt g d a b => abz 0x22#6 g (encodeSrc a) (encodeSrc b) (0#3 ++ fb 4 d)
  | .cmple g d a b => abz 0x23#6 g (encodeSrc a) (encodeSrc b) (0#3 ++ fb 4 d)
  | .cmpltu g d a b => abz 0x24#6 g (encodeSrc a) (encodeSrc b) (0#3 ++ fb 4 d)
  | .cmpleu g d a b => abz 0x25#6 g (encodeSrc a) (encodeSrc b) (0#3 ++ fb 4 d)
  | .pand g d a b => abz 0x26#6 g (encodePredOp a) (encodePredOp b) (0#3 ++ fb 4 d)
  | .por g d a b => abz 0x27#6 g (encodePredOp a) (encodePredOp b) (0#3 ++ fb 4 d)
  | .pxor g d a b => abz 0x28#6 g (encodePredOp a) (encodePredOp b) (0#3 ++ fb 4 d)
  | .pandn g d a b => abz 0x29#6 g (encodePredOp a) (encodePredOp b) (0#3 ++ fb 4 d)
  | .ldt g sz t a => abz 0x2A#6 g (encodeSrc a) (0#4 ++ encodeLdSize sz) (0#1 ++ fb 6 t)
  | .stt g wide t a b => abz 0x2B#6 g (encodeSrc a) (encodeSrc b) (BitVec.ofBool wide ++ fb 6 t)
  | .br g off => imf 0x2C#6 g (0#9 ++ off)
  | .brl g off => imf 0x2D#6 g (0#9 ++ off)
  | .jr g a => abz 0x2E#6 g (encodeSrc a) 0 0
  | .brbank g i => imf 0x2F#6 g (0#10 ++ i)
  | .ifence g => abz 0x30#6 g 0 0 0
  | .fdef g n f l => imf 0x31#6 g (BitVec.ofNat 3 n.val ++ f ++ l)
  | .fcnt g n a => abz 0x32#6 g (encodeSrc a) 0 (0#4 ++ BitVec.ofNat 3 n.val)
  | .fstr g n v a => abz 0x33#6 g (encodeSrc a) 0 (0#2 ++ fb 2 v ++ BitVec.ofNat 3 n.val)
  | .fpipe g n => abz 0x34#6 g 0 0 (0#4 ++ BitVec.ofNat 3 n.val)
  | .stair g n => abz 0x35#6 g 0 0 (0#4 ++ BitVec.ofNat 3 n.val)
  | .sbrk g => abz 0x36#6 g 0 0 0
  | .getc g d n => abz 0x37#6 g (BitVec.ofNat 7 n.val) 0 (0#2 ++ fb 5 d)
  | .setc g n b => abz 0x38#6 g (BitVec.ofNat 7 n.val) (encodeSrc b) 0
  | .brk g c => imf 0x39#6 g (0#5 ++ c)
  | .svc g n => imf 0x3A#6 g (0#9 ++ n)
  | .lnch g hd a => abz 0x3B#6 g (encodeSrc a) 0 (0#3 ++ fb 4 hd)
  | .qstat g a => abz 0x3C#6 g (encodeSrc a) 0 0
  | .qstatO g a b => abz 0x3C#6 g (encodeSrc a) (encodeSrc b) 1
  | .thaw g a m => abz 0x3D#6 g (encodeSrc a) 0 (0#6 ++ BitVec.ofBool m)
  | .rfh g => abz 0x3E#6 g 0 0 0
  | .vaddF32 _ g a b mk rm => abz 0x01#6 g (encodeSrc a) (encodeSrc b) (0#1 ++ fb 3 mk ++ encodeRm rm)
  | .vsubF32 _ g a b mk rm => abz 0x02#6 g (encodeSrc a) (encodeSrc b) (0#1 ++ fb 3 mk ++ encodeRm rm)
  | .vmulF32 _ g a b mk rm => abz 0x03#6 g (encodeSrc a) (encodeSrc b) (0#1 ++ fb 3 mk ++ encodeRm rm)
  | .vfmaF32 _ g a b _ mk rm => abz 0x04#6 g (encodeSrc a) (encodeSrc b) (0#1 ++ fb 3 mk ++ encodeRm rm)
  | .vfmsF32 _ g a b _ mk rm => abz 0x05#6 g (encodeSrc a) (encodeSrc b) (0#1 ++ fb 3 mk ++ encodeRm rm)
  | .vminF32 _ g a b mk => abz 0x06#6 g (encodeSrc a) (encodeSrc b) (0#1 ++ fb 3 mk ++ 0#3)
  | .vmaxF32 _ g a b mk => abz 0x07#6 g (encodeSrc a) (encodeSrc b) (0#1 ++ fb 3 mk ++ 0#3)
  | .vdivF32 _ g a b mk rm => abz 0x08#6 g (encodeSrc a) (encodeSrc b) (0#1 ++ fb 3 mk ++ encodeRm rm)
  | .vsqrtF32 _ g a mk rm => abz 0x09#6 g (encodeSrc a) 0 (0#1 ++ fb 3 mk ++ encodeRm rm)
  | .vabsF32 _ g a mk => abz 0x0A#6 g (encodeSrc a) 0 (0#1 ++ fb 3 mk ++ 0#3)
  | .vnegF32 _ g a mk => abz 0x0B#6 g (encodeSrc a) 0 (0#1 ++ fb 3 mk ++ 0#3)
  | .vaddI32 _ g a b mk => abz 0x0C#6 g (encodeSrc a) (encodeSrc b) (0#1 ++ fb 3 mk ++ 0#3)
  | .vsubI32 _ g a b mk => abz 0x0D#6 g (encodeSrc a) (encodeSrc b) (0#1 ++ fb 3 mk ++ 0#3)
  | .vmulI32 _ g a b mk => abz 0x0E#6 g (encodeSrc a) (encodeSrc b) (0#1 ++ fb 3 mk ++ 0#3)
  | .vminI32 _ g a b mk => abz 0x0F#6 g (encodeSrc a) (encodeSrc b) (0#1 ++ fb 3 mk ++ 0#3)
  | .vmaxI32 _ g a b mk => abz 0x10#6 g (encodeSrc a) (encodeSrc b) (0#1 ++ fb 3 mk ++ 0#3)
  | .vand _ g a b mk => abz 0x11#6 g (encodeSrc a) (encodeSrc b) (0#1 ++ fb 3 mk ++ 0#3)
  | .vor _ g a b mk => abz 0x12#6 g (encodeSrc a) (encodeSrc b) (0#1 ++ fb 3 mk ++ 0#3)
  | .vxor _ g a b mk => abz 0x13#6 g (encodeSrc a) (encodeSrc b) (0#1 ++ fb 3 mk ++ 0#3)
  | .vshl _ g a b mk => abz 0x14#6 g (encodeSrc a) (encodeSrc b) (0#1 ++ fb 3 mk ++ 0#3)
  | .vshr _ g a b mk => abz 0x15#6 g (encodeSrc a) (encodeSrc b) (0#1 ++ fb 3 mk ++ 0#3)
  | .vsar _ g a b mk => abz 0x16#6 g (encodeSrc a) (encodeSrc b) (0#1 ++ fb 3 mk ++ 0#3)
  | .vsel _ g a b mk => abz 0x17#6 g (encodeSrc a) (encodeSrc b) (0#1 ++ fb 3 mk ++ 0#3)
  | .vcmpF32 _ g cc d a b => abz 0x18#6 g (encodeSrc a) (encodeSrc b) (encodeFCond cc ++ fb 3 d)
  | .vcmpI32 _ g cc d a b => abz 0x19#6 g (encodeSrc a) (encodeSrc b) (encodeICond cc ++ fb 3 d)
  | .mand _ g d a b => abz 0x1A#6 g (encodeMaskOp a) (encodeMaskOp b) (0#4 ++ fb 3 d)
  | .mor _ g d a b => abz 0x1B#6 g (encodeMaskOp a) (encodeMaskOp b) (0#4 ++ fb 3 d)
  | .mxor _ g d a b => abz 0x1C#6 g (encodeMaskOp a) (encodeMaskOp b) (0#4 ++ fb 3 d)
  | .mandn _ g d a b => abz 0x1D#6 g (encodeMaskOp a) (encodeMaskOp b) (0#4 ++ fb 3 d)
  | .vmu _ g d mk care => abz 0x1E#6 g (0#4 ++ fb 3 mk) (0#4 ++ fb 3 care) (0#3 ++ fb 4 d)
  | .vmov _ g d a => abz 0x1F#6 g (encodeSrc a) 0 (0#2 ++ fb 5 d)
  | .vcvt _ g sf df sat a mk rm => abz 0x20#6 g (encodeSrc a) (encodeFmt sf ++ encodeFmt df ++ BitVec.ofBool sat) (0#1 ++ fb 3 mk ++ encodeRm rm)
  | .vperm _ g a b mk => abz 0x21#6 g (encodeSrc a) (encodeSrc b) (0#1 ++ fb 3 mk ++ 0#3)
  | .vslide _ g rot a b mk => abz 0x22#6 g (encodeSrc a) (encodeSrc b) (0#1 ++ fb 3 mk ++ 0#2 ++ BitVec.ofBool rot)
  | .vldt _ g t a => abz 0x23#6 g (encodeSrc a) 0 (0#1 ++ fb 6 t)
  | .vstt _ g m t a b => abz 0x24#6 g (encodeSrc a) (encodeSrc b) (BitVec.ofBool m ++ fb 6 t)
  | .vgath _ g m t a => abz 0x25#6 g (encodeSrc a) 0 (BitVec.ofBool m ++ fb 6 t)
  | .vscat _ g m t a b => abz 0x26#6 g (encodeSrc a) (encodeSrc b) (BitVec.ofBool m ++ fb 6 t)
  | .vredAdd _ g int a mk => abz 0x28#6 g (encodeSrc a) 0 (BitVec.ofBool int ++ fb 3 mk ++ 0#3)
  | .vredMax _ g int a mk => abz 0x29#6 g (encodeSrc a) 0 (BitVec.ofBool int ++ fb 3 mk ++ 0#3)
  | .vredMin _ g int a mk => abz 0x2A#6 g (encodeSrc a) 0 (BitVec.ofBool int ++ fb 3 mk ++ 0#3)
  | .vscanAdd _ g int a mk => abz 0x2B#6 g (encodeSrc a) 0 (BitVec.ofBool int ++ fb 3 mk ++ 0#3)
  | .vexp2 _ g a mk rm => abz 0x2C#6 g (encodeSrc a) 0 (0#1 ++ fb 3 mk ++ encodeRm rm)
  | .vlog2 _ g a mk rm => abz 0x2D#6 g (encodeSrc a) 0 (0#1 ++ fb 3 mk ++ encodeRm rm)
  | .vrcp _ g a mk rm => abz 0x2E#6 g (encodeSrc a) 0 (0#1 ++ fb 3 mk ++ encodeRm rm)
  | .vrsqrt _ g a mk rm => abz 0x2F#6 g (encodeSrc a) 0 (0#1 ++ fb 3 mk ++ encodeRm rm)
  | .vtanh _ g a mk rm => abz 0x30#6 g (encodeSrc a) 0 (0#1 ++ fb 3 mk ++ encodeRm rm)
  | .vqnt _ g f col a => abz 0x31#6 g (encodeSrc a) 0 (0#3 ++ BitVec.ofBool col ++ encodeFmt f)
  | .vdqnt _ g f col a => abz 0x32#6 g (encodeSrc a) 0 (0#3 ++ BitVec.ofBool col ++ encodeFmt f)
  | .mcall g i => abz 0x01#6 g 0 0 (0#1 ++ fb 6 i)
  | .mpset g n a => abz 0x02#6 g (encodeSrc a) 0 (0#4 ++ fb 3 n)
  | .mwait g a => abz 0x03#6 g (encodeSrc a) 0 0
  | .mstat g => abz 0x04#6 g 0 0 0
  | .mabort g => abz 0x05#6 g 0 0 0
  | .mlucode g t a b => abz 0x06#6 g (encodeSrc a) (encodeSrc b) (0#1 ++ fb 6 t)
  | .mlucodeEnt g t a b => abz 0x06#6 g (encodeSrc a) (encodeSrc b) (1#1 ++ fb 6 t)
  | .mlsf g half => abz 0x07#6 g 0 0 (BitVec.ofBool half ++ 0#6)
  | .mlsfT g half t a => abz 0x07#6 g (encodeSrc a) 1 (BitVec.ofBool half ++ fb 6 t)
  | .tdef _ g t a b => abz 0x01#6 g (encodeSrc a) (encodeSrc b) (0#1 ++ fb 6 t)
  | .tld _ g t hd cl a => memf 0x02#6 g (encodeSrc a) (fb 4 hd) (fb 4 cl) (fb 6 t)
  | .tst _ g t hd cl a => memf 0x03#6 g (encodeSrc a) (fb 4 hd) (fb 4 cl) (fb 6 t)
  | .tamo _ g op wide hd cl a _ => memf 0x04#6 g (encodeSrc a) (fb 4 hd) (fb 4 cl) (encodeAmo op ++ BitVec.ofBool wide ++ 0#2)
  | .tlbk _ g t hd cl a => memf 0x05#6 g (encodeSrc a) (fb 4 hd) (fb 4 cl) (fb 6 t)
  | .tcpy _ g td ts => abz 0x06#6 g (0#1 ++ fb 6 ts) 0 (0#1 ++ fb 6 td)
  | .tfill _ g t a b => abz 0x07#6 g (encodeSrc a) (encodeSrc b) (0#1 ++ fb 6 t)
  | .tldi _ g bank hd cl a => memf 0x08#6 g (encodeSrc a) (fb 4 hd) (fb 4 cl) (0#5 ++ BitVec.ofBool bank)
  | .bkc _ g t hd cl a => memf 0x09#6 g (encodeSrc a) (fb 4 hd) (fb 4 cl) (fb 6 t)
  | .waitc _ g kd a b => abz 0x0A#6 g (encodeSrc a) (encodeSrc b) (0#5 ++ encodeKind kd)
  | .waitf _ g any clr a => abz 0x0B#6 g (encodeSrc a) 0 (0#5 ++ BitVec.ofBool clr ++ BitVec.ofBool any)
  | .rdcinv _ g hd a b => abz 0x0C#6 g (encodeSrc a) (encodeSrc b) (0#3 ++ fb 4 hd)
  | .xlat _ g hd a => abz 0x0D#6 g (encodeSrc a) 0 (0#3 ++ fb 4 hd)
  | .hstat _ g va hd => abz 0x0E#6 g 0 0 (0#2 ++ BitVec.ofBool va ++ fb 4 hd)
  | .hclr _ g hd => abz 0x0F#6 g 0 0 (0#3 ++ fb 4 hd)
  | .hclrPn _ g a => abz 0x0F#6 g (encodeSrc a) 0 0x10#7
  | .ipatch _ g a b => abz 0x10#6 g (encodeSrc a) (encodeSrc b) 0
  | .frd _ g a => abz 0x11#6 g (encodeSrc a) 0 0
  | .fwr _ g a b => abz 0x12#6 g (encodeSrc a) (encodeSrc b) 0
  | .csave _ g hd a b => abz 0x13#6 g (encodeSrc a) (encodeSrc b) (0#3 ++ fb 4 hd)
  | .crest _ g hd a b => abz 0x14#6 g (encodeSrc a) (encodeSrc b) (0#3 ++ fb 4 hd)
  | .xsend g v tag a b => abz 0x01#6 g (encodeSrc a) (encodeSrc b) (BitVec.ofBool v ++ fb 6 tag)
  | .xrecv g tag a => abz 0x02#6 g (encodeSrc a) 0 (0#1 ++ fb 6 tag)
  | .xradd g v tag a b => abz 0x03#6 g (encodeSrc a) (encodeSrc b) (BitVec.ofBool v ++ fb 6 tag)
  | .xrmax g v tag a b => abz 0x04#6 g (encodeSrc a) (encodeSrc b) (BitVec.ofBool v ++ fb 6 tag)
  | .xput g ts a b => abz 0x05#6 g (encodeSrc a) (encodeSrc b) (0#1 ++ fb 6 ts)
  | .xbegin g hd a b => abz 0x06#6 g (encodeSrc a) (encodeSrc b) (0#3 ++ fb 4 hd)
  | .xtrig g n a => abz 0x07#6 g (encodeSrc a) 0 (0#5 ++ fb 2 n)
  | .xstat g => abz 0x08#6 g 0 0 0
  | .land g n => abz 0x09#6 g 0 0 (0#4 ++ BitVec.ofNat 3 n.val)
  | .align g a => abz 0x0A#6 g (encodeSrc a) 0 0
  | .seg g => abz 0x0B#6 g 0 0 0
  | .kst col i a => 0x01#8 ++ BitVec.ofBool col ++ fb 4 i ++ encodeSrc a ++ 0#12
  | .kcfg n r c sat => 0x02#8 ++ fb 3 n ++ encodeFmt r ++ encodeFmt c ++ BitVec.ofBool sat ++ 0#14
  | .klds col t a => 0x03#8 ++ BitVec.ofBool col ++ fb 6 t ++ encodeSrc a ++ 0#10
  | _ => 0

/-- The slot an instruction stands in (R95); 8 for an event. -/
def slotNo : Instr → Nat
  | .nop => 0
  | .add _ _ _ | .sub _ _ _ | .mul _ _ _ | .mulh _ _ _ | .mulhu _ _ _
  | .div _ _ _ | .divu _ _ _ | .rem _ _ _ | .remu _ _ _ | .and _ _ _
  | .or _ _ _ | .xor _ _ _ | .andn _ _ _ | .shl _ _ _ | .shr _ _ _
  | .sar _ _ _ | .min _ _ _ | .max _ _ _ | .minu _ _ _ | .maxu _ _ _
  | .clz _ _ | .ctz _ _ | .popc _ _ | .limm _ _ | .limmh _ _ _
  | .pass _ _ | .mov _ _ _ | .sel _ _ _ _ | .sext _ _ _ | .cmpeq _ _ _ _
  | .cmpne _ _ _ _ | .cmplt _ _ _ _ | .cmple _ _ _ _ | .cmpltu _ _ _ _ | .cmpleu _ _ _ _
  | .pand _ _ _ _ | .por _ _ _ _ | .pxor _ _ _ _ | .pandn _ _ _ _ | .ldt _ _ _ _
  | .stt _ _ _ _ _ | .br _ _ | .brl _ _ | .jr _ _ | .brbank _ _
  | .ifence _ | .fdef _ _ _ _ | .fcnt _ _ _ | .fstr _ _ _ _ | .fpipe _ _
  | .stair _ _ | .sbrk _ | .getc _ _ _ | .setc _ _ _ | .brk _ _
  | .svc _ _ | .lnch _ _ _ | .qstat _ _ | .qstatO _ _ _ | .thaw _ _ _
  | .rfh _ => 0
  | .mcall _ _ | .mpset _ _ _ | .mwait _ _ | .mstat _ | .mabort _
  | .mlucode _ _ _ _ | .mlucodeEnt _ _ _ _ | .mlsf _ _ | .mlsfT _ _ _ _ => 3
  | .xsend _ _ _ _ _ | .xrecv _ _ _ | .xradd _ _ _ _ _ | .xrmax _ _ _ _ _ | .xput _ _ _ _
  | .xbegin _ _ _ _ | .xtrig _ _ _ | .xstat _ | .land _ _ | .align _ _
  | .seg _ => 6
  | .vaddF32 u _ _ _ _ _ | .vsubF32 u _ _ _ _ _ | .vmulF32 u _ _ _ _ _ | .vfmaF32 u _ _ _ _ _ _ | .vfmsF32 u _ _ _ _ _ _
  | .vminF32 u _ _ _ _ | .vmaxF32 u _ _ _ _ | .vdivF32 u _ _ _ _ _ | .vsqrtF32 u _ _ _ _ | .vabsF32 u _ _ _
  | .vnegF32 u _ _ _ | .vaddI32 u _ _ _ _ | .vsubI32 u _ _ _ _ | .vmulI32 u _ _ _ _ | .vminI32 u _ _ _ _
  | .vmaxI32 u _ _ _ _ | .vand u _ _ _ _ | .vor u _ _ _ _ | .vxor u _ _ _ _ | .vshl u _ _ _ _
  | .vshr u _ _ _ _ | .vsar u _ _ _ _ | .vsel u _ _ _ _ | .vcmpF32 u _ _ _ _ _ | .vcmpI32 u _ _ _ _ _
  | .mand u _ _ _ _ | .mor u _ _ _ _ | .mxor u _ _ _ _ | .mandn u _ _ _ _ | .vmu u _ _ _ _
  | .vmov u _ _ _ | .vcvt u _ _ _ _ _ _ _ | .vperm u _ _ _ _ | .vslide u _ _ _ _ _ | .vldt u _ _ _
  | .vstt u _ _ _ _ _ | .vgath u _ _ _ _ | .vscat u _ _ _ _ _ | .vredAdd u _ _ _ _ | .vredMax u _ _ _ _
  | .vredMin u _ _ _ _ | .vscanAdd u _ _ _ _ | .vexp2 u _ _ _ _ | .vlog2 u _ _ _ _ | .vrcp u _ _ _ _
  | .vrsqrt u _ _ _ _ | .vtanh u _ _ _ _ | .vqnt u _ _ _ _ | .vdqnt u _ _ _ _ => if u = .va then 1 else 2
  | .tdef u _ _ _ _ | .tld u _ _ _ _ _ | .tst u _ _ _ _ _ | .tamo u _ _ _ _ _ _ _ | .tlbk u _ _ _ _ _
  | .tcpy u _ _ _ | .tfill u _ _ _ _ | .tldi u _ _ _ _ _ | .bkc u _ _ _ _ _ | .waitc u _ _ _ _
  | .waitf u _ _ _ _ | .rdcinv u _ _ _ _ | .xlat u _ _ _ | .hstat u _ _ _ | .hclr u _ _
  | .hclrPn u _ _ | .ipatch u _ _ _ | .frd u _ _ | .fwr u _ _ _ | .csave u _ _ _ _
  | .crest u _ _ _ _ => if u = .ca then 4 else 5
  | .knop | .kst _ _ _ | .kcfg _ _ _ _ | .klds _ _ _ => 7
  | _ => 8

/-- The sources of an instruction, in the order source A, source B, third source. -/
def srcsOf : Instr → List Src
  | .add _ a b | .sub _ a b | .mul _ a b | .mulh _ a b
  | .mulhu _ a b | .div _ a b | .divu _ a b | .rem _ a b
  | .remu _ a b | .and _ a b | .or _ a b | .xor _ a b
  | .andn _ a b | .shl _ a b | .shr _ a b | .sar _ a b
  | .min _ a b | .max _ a b | .minu _ a b | .maxu _ a b
  | .sel _ a b _ | .cmpeq _ _ a b | .cmpne _ _ a b | .cmplt _ _ a b
  | .cmple _ _ a b | .cmpltu _ _ a b | .cmpleu _ _ a b | .stt _ _ _ a b
  | .qstatO _ a b | .vaddF32 _ _ a b _ _ | .vsubF32 _ _ a b _ _ | .vmulF32 _ _ a b _ _
  | .vminF32 _ _ a b _ | .vmaxF32 _ _ a b _ | .vdivF32 _ _ a b _ _ | .vaddI32 _ _ a b _
  | .vsubI32 _ _ a b _ | .vmulI32 _ _ a b _ | .vminI32 _ _ a b _ | .vmaxI32 _ _ a b _
  | .vand _ _ a b _ | .vor _ _ a b _ | .vxor _ _ a b _ | .vshl _ _ a b _
  | .vshr _ _ a b _ | .vsar _ _ a b _ | .vsel _ _ a b _ | .vcmpF32 _ _ _ _ a b
  | .vcmpI32 _ _ _ _ a b | .vperm _ _ a b _ | .vslide _ _ _ a b _ | .vstt _ _ _ _ a b
  | .vscat _ _ _ _ a b | .mlucode _ _ a b | .mlucodeEnt _ _ a b | .tdef _ _ _ a b
  | .tfill _ _ _ a b | .waitc _ _ _ a b | .rdcinv _ _ _ a b | .ipatch _ _ a b
  | .fwr _ _ a b | .csave _ _ _ a b | .crest _ _ _ a b | .xsend _ _ _ a b
  | .xradd _ _ _ a b | .xrmax _ _ _ a b | .xput _ _ a b | .xbegin _ _ a b => [a, b]
  | .clz _ a | .ctz _ a | .popc _ a | .pass _ a
  | .mov _ _ a | .sext _ a _ | .ldt _ _ _ a | .jr _ a
  | .fcnt _ _ a | .fstr _ _ _ a | .lnch _ _ a | .qstat _ a
  | .thaw _ a _ | .vsqrtF32 _ _ a _ _ | .vabsF32 _ _ a _ | .vnegF32 _ _ a _
  | .vmov _ _ _ a | .vcvt _ _ _ _ _ a _ _ | .vldt _ _ _ a | .vgath _ _ _ _ a
  | .vredAdd _ _ _ a _ | .vredMax _ _ _ a _ | .vredMin _ _ _ a _ | .vscanAdd _ _ _ a _
  | .vexp2 _ _ a _ _ | .vlog2 _ _ a _ _ | .vrcp _ _ a _ _ | .vrsqrt _ _ a _ _
  | .vtanh _ _ a _ _ | .vqnt _ _ _ _ a | .vdqnt _ _ _ _ a | .mpset _ _ a
  | .mwait _ a | .mlsfT _ _ _ a | .tld _ _ _ _ _ a | .tst _ _ _ _ _ a
  | .tlbk _ _ _ _ _ a | .tldi _ _ _ _ _ a | .bkc _ _ _ _ _ a | .waitf _ _ _ _ a
  | .xlat _ _ _ a | .hclrPn _ _ a | .frd _ _ a | .xrecv _ _ a
  | .xtrig _ _ a | .align _ a => [a]
  | .setc _ _ b => [b]
  | .vfmaF32 _ _ a b c _ _ | .vfmsF32 _ _ a b c _ _ => [a, b, c]
  | .tamo _ _ _ _ _ _ a c => [a, c]
  | .kst _ _ a | .klds _ _ a => [a]
  | _ => []

/-- The guard of an instruction; K ops and NOPs have none (R101). -/
def guardOf : Instr → Option Guard
  | .add g _ _ | .sub g _ _ | .mul g _ _ | .mulh g _ _ | .mulhu g _ _
  | .div g _ _ | .divu g _ _ | .rem g _ _ | .remu g _ _ | .and g _ _
  | .or g _ _ | .xor g _ _ | .andn g _ _ | .shl g _ _ | .shr g _ _
  | .sar g _ _ | .min g _ _ | .max g _ _ | .minu g _ _ | .maxu g _ _
  | .clz g _ | .ctz g _ | .popc g _ | .limm g _ | .limmh g _ _
  | .pass g _ | .mov g _ _ | .sel g _ _ _ | .sext g _ _ | .cmpeq g _ _ _
  | .cmpne g _ _ _ | .cmplt g _ _ _ | .cmple g _ _ _ | .cmpltu g _ _ _ | .cmpleu g _ _ _
  | .pand g _ _ _ | .por g _ _ _ | .pxor g _ _ _ | .pandn g _ _ _ | .ldt g _ _ _
  | .stt g _ _ _ _ | .br g _ | .brl g _ | .jr g _ | .brbank g _
  | .ifence g | .fdef g _ _ _ | .fcnt g _ _ | .fstr g _ _ _ | .fpipe g _
  | .stair g _ | .sbrk g | .getc g _ _ | .setc g _ _ | .brk g _
  | .svc g _ | .lnch g _ _ | .qstat g _ | .qstatO g _ _ | .thaw g _ _
  | .rfh g => some g
  | .mcall g _ | .mpset g _ _ | .mwait g _ | .mstat g | .mabort g
  | .mlucode g _ _ _ | .mlucodeEnt g _ _ _ | .mlsf g _ | .mlsfT g _ _ _ => some g
  | .xsend g _ _ _ _ | .xrecv g _ _ | .xradd g _ _ _ _ | .xrmax g _ _ _ _ | .xput g _ _ _
  | .xbegin g _ _ _ | .xtrig g _ _ | .xstat g | .land g _ | .align g _
  | .seg g => some g
  | .vaddF32 _ g _ _ _ _ | .vsubF32 _ g _ _ _ _ | .vmulF32 _ g _ _ _ _ | .vfmaF32 _ g _ _ _ _ _ | .vfmsF32 _ g _ _ _ _ _
  | .vminF32 _ g _ _ _ | .vmaxF32 _ g _ _ _ | .vdivF32 _ g _ _ _ _ | .vsqrtF32 _ g _ _ _ | .vabsF32 _ g _ _
  | .vnegF32 _ g _ _ | .vaddI32 _ g _ _ _ | .vsubI32 _ g _ _ _ | .vmulI32 _ g _ _ _ | .vminI32 _ g _ _ _
  | .vmaxI32 _ g _ _ _ | .vand _ g _ _ _ | .vor _ g _ _ _ | .vxor _ g _ _ _ | .vshl _ g _ _ _
  | .vshr _ g _ _ _ | .vsar _ g _ _ _ | .vsel _ g _ _ _ | .vcmpF32 _ g _ _ _ _ | .vcmpI32 _ g _ _ _ _
  | .mand _ g _ _ _ | .mor _ g _ _ _ | .mxor _ g _ _ _ | .mandn _ g _ _ _ | .vmu _ g _ _ _
  | .vmov _ g _ _ | .vcvt _ g _ _ _ _ _ _ | .vperm _ g _ _ _ | .vslide _ g _ _ _ _ | .vldt _ g _ _
  | .vstt _ g _ _ _ _ | .vgath _ g _ _ _ | .vscat _ g _ _ _ _ | .vredAdd _ g _ _ _ | .vredMax _ g _ _ _
  | .vredMin _ g _ _ _ | .vscanAdd _ g _ _ _ | .vexp2 _ g _ _ _ | .vlog2 _ g _ _ _ | .vrcp _ g _ _ _
  | .vrsqrt _ g _ _ _ | .vtanh _ g _ _ _ | .vqnt _ g _ _ _ | .vdqnt _ g _ _ _ => some g
  | .tdef _ g _ _ _ | .tld _ g _ _ _ _ | .tst _ g _ _ _ _ | .tamo _ g _ _ _ _ _ _ | .tlbk _ g _ _ _ _
  | .tcpy _ g _ _ | .tfill _ g _ _ _ | .tldi _ g _ _ _ _ | .bkc _ g _ _ _ _ | .waitc _ g _ _ _
  | .waitf _ g _ _ _ | .rdcinv _ g _ _ _ | .xlat _ g _ _ | .hstat _ g _ _ | .hclr _ g _
  | .hclrPn _ g _ | .ipatch _ g _ _ | .frd _ g _ | .fwr _ g _ _ | .csave _ g _ _ _
  | .crest _ g _ _ _ => some g
  | _ => none

/-- The third source, for the instructions that take one. -/
def thirdOf : Instr → Option Src
  | .vfmaF32 _ _ _ _ c _ _ | .vfmsF32 _ _ _ _ c _ _ | .tamo _ _ _ _ _ _ _ c => some c
  | _ => none

/-- The header an instruction needs when it stands alone in its word. -/
def headerOf (i : Instr) : Header :=
  let k := BitVec.ofNat 3 (slotNo i)
  let lent := (srcsOf i).findSome? Src.lent
  match thirdOf i with
  | some c => .third k (encodeSrc c) (BitVec.ofNat 18 ((lent.map (·.2)).getD 0))
  | none =>
    match lent with
    | some (_, v) => .imm k (BitVec.ofNat 25 v)
    | none =>
      match guardOf i with
      | some g => if g.first || g.last then
          .flags (BitVec.ofNat 7 (if g.first then 2 ^ slotNo i else 0))
            (BitVec.ofNat 7 (if g.last then 2 ^ slotNo i else 0))
        else .none
      | none => .none

def encodeHeader : Header → SlotBits
  | .none => 0
  | .imm t v => 0b0100#4 ++ t ++ v
  | .flags f l => 0b0101#4 ++ f ++ l ++ 0#14
  | .third t s v => 0b0110#4 ++ t ++ s ++ v

/-- The word that holds `w` in slot `k`, and nothing else. -/
def slotWord (k : Nat) (w : SlotBits) : Word := (w.zeroExtend 256) <<< (32 * k)

/-- The word that holds just this instruction, with the header it needs. -/
def encode (i : Instr) : Word :=
  slotWord (slotNo i) (encodeSlot i) ||| slotWord 7 (encodeHeader (headerOf i))

/-! ### Micro-words (R213) -/

def decodeTD (v : BitVec 9) : TileDesc :=
  { field := (v.extractLsb' 5 4).toFin, view := v.getLsbD 4
    rowLv := (v.extractLsb' 2 2).toFin, colLv := (v.extractLsb' 0 2).toFin }

def encodeTD (d : TileDesc) : BitVec 9 :=
  fb 4 d.field ++ BitVec.ofBool d.view ++ fb 2 d.rowLv ++ fb 2 d.colLv

/-- A PASS side: a plane with a zero descriptor, or a tile with a zero plane field. -/
def decodeSide (kind : Bool) (p : BitVec 2) (td : BitVec 9) : Option PassSrc :=
  if kind then ifz (p == 0) (some (.tile (decodeTD td))) else ifz (td == 0) (some (.plane p.toFin))

def encodeSide : PassSrc → BitVec 12
  | .plane p => 0#1 ++ fb 2 p ++ 0#9
  | .tile d => 1#1 ++ 0#2 ++ encodeTD d

/-- The micro-operation a micro-word holds; none where an unused bit is nonzero (R214). -/
def decodeMicro (w : BitVec 64) : Option Instr :=
  match (w.extractLsb' 60 4).toNat with
  | 0x0 => ifz (w.extractLsb' 0 48 == 0) <| some (.trapm (w.extractLsb' 48 12))
  | 0x1 =>
    ifz (w.extractLsb' 0 32 == 0) <|
      (decodeSide (w.getLsbD 58) (w.extractLsb' 56 2) (w.extractLsb' 47 9)).bind fun r =>
      (decodeSide (w.getLsbD 46) (w.extractLsb' 44 2) (w.extractLsb' 35 9)).bind fun c =>
      some (.passMicroOp (w.getLsbD 59) r c (w.getLsbD 34) (w.extractLsb' 32 2).toFin)
  | 0x2 =>
    ifz (w.extractLsb' 0 51 == 0) <| some (.prom (w.extractLsb' 58 2).toFin (w.extractLsb' 56 2).toFin
      (w.getLsbD 55) (w.extractLsb' 53 2).toFin (w.extractLsb' 51 2).toFin)
  | 0x3 => ifz (w.extractLsb' 0 60 == 0) <| some .clra
  | 0x4 =>
    ifz (w.extractLsb' 0 48 == 0) <|
      some (.ldpl (w.extractLsb' 58 2).toFin (w.getLsbD 57) (decodeTD (w.extractLsb' 48 9)))
  | 0x5 =>
    ifz (w.extractLsb' 0 48 == 0 && w.extractLsb' 57 1 == 0) <|
      some (.stpl (w.extractLsb' 58 2).toFin (decodeTD (w.extractLsb' 48 9)))
  | 0x6 =>
    ifz (w.extractLsb' 0 48 == 0 && w.extractLsb' 57 3 == 0) <| some (.drain (decodeTD (w.extractLsb' 48 9)))
  | 0x7 => ifz (w.extractLsb' 0 58 == 0) <| some (.idpl (w.extractLsb' 58 2).toFin)
  | 0x8 => ifz (w.extractLsb' 0 55 == 0) <| some (.coef (w.getLsbD 59) (w.extractLsb' 55 4).toFin)
  | 0x9 =>
    ifz (w.extractLsb' 32 10 == 0) <| some (.loop (w.extractLsb' 58 2).toFin (w.getLsbD 57)
      (w.extractLsb' 54 3).toFin (w.extractLsb' 42 12) (w.extractLsb' 0 32))
  | 0xA => ifz (w.extractLsb' 0 58 == 0) <| some (.endl (w.extractLsb' 58 2).toFin)
  | 0xB =>
    ifz (w.extractLsb' 12 42 == 0) <|
      some (.brf (w.extractLsb' 57 3).toFin (w.extractLsb' 54 3).toFin (w.extractLsb' 0 12))
  | 0xC => ifz (w.extractLsb' 0 57 == 0) <| some (.setw (w.extractLsb' 57 3).toFin)
  | 0xD =>
    ifz (w.extractLsb' 0 55 == 0) <| some (.setf (w.extractLsb' 58 2).toFin (w.extractLsb' 55 3).toFin)
  | 0xE =>
    ifz (w.extractLsb' 0 32 == 0 && w.extractLsb' 48 8 == 0) <|
      some (.rprc (w.extractLsb' 56 4).toFin (w.extractLsb' 32 16))
  | _ => ifz (w.extractLsb' 0 60 == 0) <| some .done

/-- The micro-word of a micro-operation; zero for any other instruction. -/
def encodeMicro : Instr → BitVec 64
  | .trapm c => 0x0#4 ++ c ++ 0#48
  | .passMicroOp keep r c kf lv =>
    0x1#4 ++ BitVec.ofBool keep ++ encodeSide r ++ encodeSide c ++ BitVec.ofBool kf ++ fb 2 lv ++ 0#32
  | .prom d e dg a b =>
    0x2#4 ++ fb 2 d ++ fb 2 e ++ BitVec.ofBool dg ++ fb 2 a ++ fb 2 b ++ 0#51
  | .clra => 0x3#4 ++ 0#60
  | .ldpl d tr td => 0x4#4 ++ fb 2 d ++ BitVec.ofBool tr ++ encodeTD td ++ 0#48
  | .stpl p td => 0x5#4 ++ fb 2 p ++ 0#1 ++ encodeTD td ++ 0#48
  | .drain td => 0x6#4 ++ 0#3 ++ encodeTD td ++ 0#48
  | .idpl d => 0x7#4 ++ fb 2 d ++ 0#58
  | .coef rst f => 0x8#4 ++ BitVec.ofBool rst ++ fb 4 f ++ 0#55
  | .loop n par r stop count =>
    0x9#4 ++ fb 2 n ++ BitVec.ofBool par ++ fb 3 r ++ stop ++ 0#10 ++ count
  | .endl n => 0xA#4 ++ fb 2 n ++ 0#58
  | .brf c r t => 0xB#4 ++ fb 3 c ++ fb 3 r ++ 0#42 ++ t
  | .setw v => 0xC#4 ++ fb 3 v ++ 0#57
  | .setf p f => 0xD#4 ++ fb 2 p ++ fb 3 f ++ 0#55
  | .rprc f off => 0xE#4 ++ fb 4 f ++ 0#8 ++ off ++ 0#32
  | .done => 0xF#4 ++ 0#60
  | _ => 0

/-! ### The opcode table's words

The table gives each slot instruction 32 bits and no class, and one word of bits is an instruction of
several maps. It is read against the S map first, then V, M, C, X and K: see notes/assumptions/9.md. -/

/-- The header that lets `w` stand alone in slot k: a third source of the integer 0 where its
instruction takes one. -/
def tableHeader (k : Nat) (w : SlotBits) : Header :=
  if takesThird k w then .third (BitVec.ofNat 3 k) 0x68#7 0 else .none

/-- The slot whose map reads the bits `w`, if any. -/
def tableSlot (w : SlotBits) : Option Nat :=
  [0, 1, 3, 4, 6, 7].find? fun k => (decodeHeader w == some .none || k != 7) && (decodeSlot k (tableHeader k w) w).isSome

/-- The instruction the decoder reads from the table's bits. -/
def decodeTableWord (nbits w : Nat) : Option Instr :=
  if nbits = 32 then
    let b := BitVec.ofNat 32 w
    (tableSlot b).bind fun k => decodeSlot k (tableHeader k b) b
  else none

end Sys2Proof
end

