-- ==== Sys2Proof/Machine/State.lean ====
section
/-!
DEFINITION. State.lean: all the state the spec gives the T7, as plain data, and the state right after
device reset. INVENTORY.md lists each field with its rule and its reset value.

Large register arrays that are mostly zero (memory, tile store, instruction store, planes,
accumulators) are lists of (key, value) pairs, keys strictly rising and no value zero.
-/
namespace Sys2Proof.Machine

/-- Why the machine stops. -/
inductive Fault where
  /-- A slot instruction was executed for an agent that issues nothing: it is vacant, frozen or halted
  (05_word.md R66), or every core is halted (22_reliability.md R29, R394). Raised by `runWord`.
  Safe: the hardware issues nothing there either. -/
  | notIssuing
  deriving DecidableEq, Repr

/-- Why an instruction has no meaning. -/
inductive Refusal where
  /-- The instruction is not modelled. Raised by an arm of `exec`. Safe. -/
  | notModelled (mnemonic : String)
  deriving DecidableEq, Repr

/-- The sparse array of words of width `w`: see the head of this file. -/
abbrev Sparse (w : Nat) := List (Nat × BitVec w)

/-! ### Rings (05_word.md R68 to R72) -/

/-- One result latch: its value, the cycle from which it is defined, and the copy whose end
makes it defined, when its operation has no fixed latency (R242). -/
structure Latch where
  val  : BitVec 4096
  due  : Nat
  wait : Option Nat
  deriving DecidableEq, Repr

/-- One ring: `ptr` is the physical latch that `u.q0` names (R286). -/
structure Ring where
  ptr     : Fin 8
  latches : Vector Latch 8
  deriving DecidableEq, Repr

/-! ### Tile registers (11_tile.md R228, R231) -/

/-- Scoreboard states (R231). -/
inductive TileSt where
  | free | defined | loading | ready | writing | storing
  deriving DecidableEq, Repr

/-- A tile register: its descriptor words, its state, the state Storing remembers, and the word B
that `fwr` left in a Free register (R288). -/
structure TileReg where
  a    : BitVec 64
  b    : BitVec 64
  st   : TileSt
  mem  : TileSt
  kept : BitVec 64
  deriving DecidableEq, Repr

/-- A handle register, two words (R346). -/
structure Handle where
  w0 : BitVec 64
  w1 : BitVec 64
  deriving DecidableEq, Repr

/-! ### Stair sequencer (R88) -/

structure Flight where
  first  : BitVec 12
  last   : BitVec 12
  count  : BitVec 33
  idx    : BitVec 33
  stride : Vector (BitVec 64) 4
  deriving DecidableEq, Repr

structure Stair where
  flights : Vector Flight 6
  stages  : BitVec 3
  /-- Flights of the running stair; 0 when none runs. -/
  running : BitVec 3
  deriving DecidableEq, Repr

/-- The delay words of a taken branch still to issue, and its target (R129, R286). -/
structure Delay where
  left   : BitVec 2
  target : BitVec 12
  deriving DecidableEq, Repr

/-! ### Numbers (03_numbers.md) -/

/-- An exact value: NaN (signalling or not), infinity, or (-1)^neg * m * 2^e. -/
inductive Ext where
  | nan (signalling : Bool)
  | inf (neg : Bool)
  | num (neg : Bool) (m : Nat) (e : Int)
  deriving DecidableEq, Repr

/-! ### Matrix unit (R180, R211) -/

structure LoopLevel where
  active : Bool
  count  : BitVec 32
  idx    : BitVec 32
  top    : BitVec 12
  stop   : BitVec 12
  deriving DecidableEq, Repr

/-- The operands of a step as the feed buffers hold them: row by row, the values of the row side and of the
column side (R223). -/
structure Feed where
  rows : List (List Ext)
  cols : List (List Ext)
  deriving DecidableEq, Repr

/-- A running routine (R211). `phase` counts the cycles spent in the micro-op at `upc`, `start` is its
first cycle, `entry` the routine entry it was called through, `tries` the re-executions spent on the
step in progress (R224), `mism` how many of its next executions mismatch, `feed` the operands held for its
re-execution (R223), `scales` the scale indices that the pass in progress has read, row by row, of its row side and of its
column side (R217), `halted` that its retries are used up and the handler has not resumed it (R225), `owe` the
cycles of an operation that a freeze carried to its end and that the core has not counted yet (R66, R207). -/
structure Routine where
  cfg    : BitVec 24
  rowT   : BitVec 128
  colT   : BitVec 128
  mp     : Vector (BitVec 64) 8
  win    : BitVec 3
  upc    : BitVec 12
  loops  : Vector LoopLevel 4
  ci     : BitVec 16
  alpha  : BitVec 32
  beta   : BitVec 32
  gamma  : BitVec 32
  entry  : BitVec 64
  start  : Nat
  phase  : Nat
  tries  : Nat
  mism   : Nat
  feed   : Option Feed
  scales : Option (List (List Nat) × List (List Nat))
  halted : Bool
  abort  : Bool
  owe    : Nat
  deriving DecidableEq, Repr

structure Matrix where
  /-- Row i of plane p at key 128p + i, cell j in bits [32j+31:32j]. -/
  planes   : Sparse 4096
  pf       : Vector (BitVec 3) 4
  /-- Row i of the accumulators, the XA image of cell j in bits [128j+127:128j]. -/
  acc      : Sparse 16384
  /-- Row i of the lost-significance flags. -/
  ls       : Sparse 128
  cfg      : BitVec 24
  rowT     : BitVec 128
  colT     : BitVec 128
  status   : BitVec 64
  /-- DETAIL of the held cause (R219). -/
  heldDet  : BitVec 32
  progress : BitVec 64
  ustore   : Sparse 64
  entries  : Sparse 64
  run      : Option Routine
  /-- What the window shows of a routine's own registers while none runs (R287): those of the last one, or as
  `fwr` left them. -/
  last     : Routine
  /-- Re-executions that the die's residue count has not taken yet (R391). -/
  reruns   : Nat
  /-- The last cycle in which an `mlucode` writes (R204). -/
  ucodeEnd : Nat
  deriving DecidableEq, Repr

/-! ### The copy queue (R234 to R260) -/

/-- What a pending copy does. -/
inductive CopyKind where
  | tld (t : Fin 64)
  | tst (t : Fin 64)
  | tamo (op : AmoOp) (wide : Bool) (c d : BitVec 64)
  | tlbk (pn : Fin 64) (n : Nat)
  | tldi (bank : Bool)
  | bkc (t : Fin 64)
  | tcpy (td ts : Fin 64)
  | tfill (t : Fin 64) (a : BitVec 64) (b : BitVec 4)
  | ipatch (word : Fin 2048) (pair : Fin 4) (val : BitVec 64)
  | csave (target : Nat)
  | crest (target : Nat)
  | xput (ts : Fin 64) (dst : Nat) (td : Fin 64) (off : Nat)
  deriving DecidableEq, Repr

/-- A bank command in progress (R254 to R261): its record, the units (segments, or engines of a VLD) still to
act, the partials of the units that have acted as (unit, engine, XA image, sticky), a VLD's vector, OVF, and whether
poison was read. -/
structure BankWork where
  record : BitVec 512
  left  : List Nat
  parts : List (Nat × Nat × BitVec 128 × Bool)
  vec   : List Byte
  ovf   : Bool
  bad   : Bool
  deriving DecidableEq, Repr

/-- One pending copy. `a`, `b` are the descriptor captured at issue (R232), `h` the binding captured
(R346), `off` its byte offset, `unit`/`latch` the latch its result lands in, `done` the line requests
performed as (element row, line), `data` the bytes a copy-out has read, `until_` the last cycle of a
copy of fixed length (R246). `raised` says that it holds its page's busy count (R351), `absent` that
its page was unmapped while it waited. -/
structure Copy where
  id     : Nat
  kind   : CopyKind
  cls    : Option (Fin 16)
  issued : Nat
  a      : BitVec 64
  b      : BitVec 64
  h      : Handle
  off    : Nat
  slot   : Option (RingId × Fin 8)
  done   : List (Nat × Nat)
  data   : Option (List Byte)
  until_ : Nat
  raised : Bool
  absent : Bool
  bank   : Option BankWork
  deriving DecidableEq, Repr

/-! ### Messages and triggers (18_barrier.md R337, 20_link.md R364) -/

/-- A message on its way: a value of `xsend`, or a unit of an `xput`: `len` bytes, 512 but for the last
unit, for byte `at_` of the destination's `td`, from copy `copy` of the sender. -/
inductive Payload where
  | msg (m : XMsg)
  | unit (td : Fin 64) (at_ len : Nat) (bytes : Vec) (copy num : Nat)
  deriving DecidableEq, Repr

inductive Trigger where
  | idle
  | armed (tick : BitVec 64)
  /-- The message waits in the core as flight `flight`. -/
  | holding (tick : BitVec 64) (flight : Nat)
  deriving DecidableEq, Repr

/-- A message from core `src` for core `dst` of the package, on time from `due` on (R363). -/
structure XFlight where
  id   : Nat
  /-- Its place in the sender's issue order: the identifier of the `xput`, or the one that the sender's next copy
  would have taken (R270). -/
  ord  : Nat
  src  : Nat
  dst  : Nat
  due  : Nat
  /-- When it set out: at its `xsend`, or when its trigger let it go (R337). -/
  posted : Nat
  /-- The sender's kernel. -/
  kernel : Option Nat
  /-- It has left for another chip and is not performed there yet (R269, R270). -/
  sent : Bool
  body : Payload
  deriving DecidableEq, Repr

/-! ### What has issued and not landed -/

/-- A write or tile-store access that takes effect at the end of a later cycle (R76, R82). -/
inductive Act where
  | s (n : Fin 32) (v : BitVec 64)
  | v (n : Fin 32) (v : Vec)
  | p (n : Fin 16) (v : Bool)
  | mk (n : Fin 8) (v : BitVec 128)
  | walk (n : Fin 4) (v : BitVec 64)
  | mp (n : Fin 8) (v : BitVec 64)
  | hnd (n : Fin 16) (h : Handle)
  /-- `xlat` in flight: lands revoked when its binding was revoked meanwhile (R351). -/
  | xlat (n : Fin 16) (h : Handle) (revoked : Bool)
  | tdef (t : Fin 64) (a b : BitVec 64)
  | flags (f : BitVec 6)
  | blocks (sat zer : Nat)
  /-- `kst` and `kcfg`: the value replaced goes to latch `l` of the `k` ring (R190). -/
  | entry (col : Bool) (i : Fin 16) (v : BitVec 8) (l : Fin 8)
  | cfg (v : BitVec 24) (l : Fin 8)
  | table (col : Bool) (v : BitVec 128)
  /-- Reads in cycle c + 1: `n` bytes at each (row, byte) address, of lane width 4 for vectors. -/
  | load (u : RingId) (l : Fin 8) (t : Fin 64) (addrs : List (Option Nat)) (n : Nat) (sign : Bool)
  | tload (col : Bool) (t : Fin 64) (addr : Nat) (land : Nat)
  | uload (ent : Bool) (t : Fin 64) (addr : Nat) (first n : Nat)
  /-- Stores through tile register `t` at the end of the cycle: bytes at addresses. -/
  | store (t : Fin 64) (bytes : List (Nat × Byte))
  /-- An arriving `xput` unit, for tile register `t` (R270). -/
  | arrive (t : Fin 64) (bytes : List (Nat × Byte))
  /-- `mlsf.t` writes the flag plane and leaves Writing (R205). -/
  | lsf (t : Fin 64) (bytes : List (Nat × Byte))
  deriving DecidableEq, Repr

/-- `when` is the cycle at whose end it takes effect, `by_` the cycle of its issue. -/
structure Pend where
  when_ : Nat
  by_   : Nat
  act   : Act
  deriving DecidableEq, Repr

/-! ### The core (05_word.md R79) -/

/-- A commit signature of a pair's leading core: the cycle, whether a word committed in it, and the signature, held until
the trailing core's is compared with it (R392). -/
structure Sig where
  cycle : Nat
  word  : Bool
  lead  : BitVec 32
  deriving DecidableEq, Repr

/-- What an agent is doing (R66, R280, R290, R394). -/
inductive Run where
  /-- Vacant: no kernel, frozen (R290). -/
  | vacant
  /-- Issues words. -/
  | running
  /-- Loaded, waiting for its domain to start (R325). -/
  | loaded
  /-- Frozen with the trap record `rec`, held by its hall's handler once taken (R281). -/
  | trapped (rec : BitVec 64)
  /-- Frozen for a translation walk (R343). -/
  | walking (va : BitVec 48)
  /-- Its freeze has ended; it issues once every copy in flight at the freeze is performed (R66, R238). -/
  | resuming
  /-- Frozen by an operating-point step up at its landing (R384). -/
  | stepping
  /-- Copies being performed after `svc 0x000` (R312). -/
  | exiting
  /-- Halted: a pair after a mismatch (R394), or every core in Safe (R400). -/
  | halted
  /-- A service or management core whose word was refused: it stands at that word. -/
  | refused (rec : BitVec 64)
  /-- The trailing core of a compute pair: it runs its leader's words, two cycles behind (R392). -/
  | trailing
  deriving DecidableEq, Repr

/-- The shadow of a segment (R338). -/
structure Shadow where
  s      : Vector (BitVec 64) 32
  v      : Vector Vec 32
  p      : BitVec 16
  msk    : Vector (BitVec 128) 8
  rings  : Vector Ring 8
  walk   : Vector (BitVec 64) 4
  stair  : Stair
  vflags : BitVec 6
  bsat   : BitVec 32
  bzero  : BitVec 32
  pc     : BitVec 12
  delay  : Option Delay
  deriving DecidableEq, Repr

/-- Where a party waits (R331): its effective scope, the number of the landing, its arrival tick, the
release tick once fixed, and the latch its `land` took. -/
structure Arrival where
  scope : Fin 5
  num   : BitVec 32
  tick  : Nat
  latch : Option (Fin 8)
  deriving DecidableEq, Repr

/-- A core's asynchronous causes pending (R112, R283): each as (cause, DETAIL, held for a landing). -/
structure Cause where
  code   : BitVec 8
  detail : BitVec 32
  held   : Bool
  deriving DecidableEq, Repr

structure Core where
  run     : Run
  /-- Start of its next cycle, in units of 1/252 tick. -/
  next    : Nat
  pc      : BitVec 12
  delay   : Option Delay
  s       : Vector (BitVec 64) 32
  v       : Vector Vec 32
  p       : BitVec 16
  msk     : Vector (BitVec 128) 8
  t       : Vector TileReg 64
  h       : Vector Handle 16
  mp      : Vector (BitVec 64) 8
  walk    : Vector (BitVec 64) 4
  pn      : BitVec 64
  ldcnt   : Vector (BitVec 32) 16
  stcnt   : Vector (BitVec 32) 16
  rings   : Vector Ring 8
  /-- Control registers that are the core's own: CORE, DOMAIN, SBASE, SEXT, FEAT, VFLAGS, BSATCNT,
  BZEROCNT, PROFILE, CHKLAT.EN, HBEAT (R83). -/
  coreIdx : BitVec 32
  domain  : BitVec 64
  sbase   : Vector (BitVec 64) 6
  sext    : Vector (BitVec 64) 6
  feat    : BitVec 64
  vflags  : BitVec 6
  bsat    : BitVec 32
  bzero   : BitVec 32
  profile : BitVec 2
  chklat  : Bool
  beats   : BitVec 32
  words   : BitVec 32
  traprec : BitVec 64
  /-- CYCLE, the cycles since placement (R141). -/
  cyc     : Nat
  stair   : Stair
  pend    : List Pend
  copies  : List Copy
  nextId  : Nat
  /-- Instruction-store word PC (R65), and its poisoned 8-byte granules, granule k of word PC as
  4 PC + k (R388). -/
  istore  : Sparse 256
  iPoison : List Nat
  /-- The last fabric patch write, as (cycle, word, pair) (R318). -/
  patched : Option (Nat × Nat × Nat)
  /-- Words that placement loaded, and the declared patch slots as (word, pair) (R318). -/
  protect : Nat
  patches : List (Nat × Nat)
  /-- Logical tile-store row q, 4096 bytes (R20), the bytes of it that are undefined (R386), and its
  poisoned 8-byte granules by byte address (R388). -/
  tile    : Sparse 32768
  undef   : Sparse 4096
  /-- Bytes written while an access that is writing them was in progress, and those of them that two accesses
  write (R232, R445). -/
  wrote   : Sparse 4096
  mixed   : Sparse 4096
  tPoison : List Nat
  /-- Classes of the 2176 physical rows that differ from Good-at-all (R375), the capacities CAP_0 to
  CAP_5 measured by self-test (R376), the live map where it is not the placement map (R377), rows
  under evacuation, and rows' busy counts (R383). -/
  rowCls  : List (Nat × BitVec 3)
  caps    : Vector (BitVec 12) 6
  live    : List (Nat × Nat)
  evac    : List Nat
  rowBusy : List (Nat × Nat)
  mx      : Matrix
  causes  : List Cause
  seg     : Option Shadow
  lands   : Vector (BitVec 32) 5
  arrival : Option Arrival
  /-- The word after the landing it waits at is to be skipped (R289, R446). -/
  skip    : Bool
  trig    : Vector Trigger 4
  abuf    : List XMsg
  /-- Messages that wait at the core's fabric interface for an entry, by their flights, in the order in which they reached
  it (R364). -/
  await   : List Nat
  xerr    : Bool
  tterr   : Bool
  /-- Leaves walked, as (VA of the page, word 0 of the binding) (R343), and the result of the last walk
  that a frozen word waited for, as (VA, handle words). -/
  tcache  : List (BitVec 48 × BitVec 64)
  walked  : List (BitVec 48 × Handle)
  /-- Heartbeat: PROG and the declared wait since the last beat, consecutive misses (R396, R397). -/
  prog    : Bool
  waited  : Bool
  misses  : Nat
  /-- Service core: return state, in a handler, an `rfh` in its delay words, queued records (R284, R285),
  a service in progress (R144). -/
  ret     : Option (BitVec 12 × Option Delay)
  handler : Bool
  returning : Bool
  queue   : List (BitVec 64)
  /-- When the newest records were queued, and how many of them were queued then (R284). -/
  qTime   : Nat
  qNew    : Nat
  request : Option (BitVec 12)
  /-- The firmware's answer to the request of the `svc` at the PC, with what it leaves in `s0` (R144, R385). -/
  reply   : Option (Option (BitVec 64))
  /-- A member of a pair that leaves by the abort service once its word's signatures have matched (R312, R393). -/
  aborting : Bool
  /-- Commit signatures of a pair's leading core that its trailing core has not matched yet, what an error makes of the
  trailing core's next one, and the cycle of a word whose signatures differed (R392, R394). -/
  sigs    : List Sig
  upset   : BitVec 32
  differs : Option Nat
  /-- Bytes of words whose signatures have been compared already, which join the next word's (R392). -/
  owed    : List Byte
  ctx     : Option (Fin 32)
  kernel  : Option Nat
  deriving DecidableEq, Repr

/-! ### Contexts, queues, kernels (14_context.md to 17_group.md) -/

inductive CtxSt where
  | free | creating | ready | running | draining | preempted | faulted | destroyed
  deriving DecidableEq, Repr

structure Context where
  st    : CtxSt
  root  : BitVec 44
  hints : List (BitVec 256)
  decls : List (BitVec 128)
  deriving DecidableEq, Repr

/-- What a launch packet carries for a pod group (R360). -/
structure Pod where
  domid : BitVec 16
  rank  : BitVec 16
  chips : BitVec 16
  t0    : BitVec 64
  nums  : List (BitVec 16)
  deriving DecidableEq, Repr

structure Launch where
  seq      : BitVec 32
  desc     : BitVec 512
  tag      : BitVec 16
  /-- SRCCHIP of its sender (R358). -/
  src      : BitVec 16
  pod      : Option Pod
  accepted : Nat
  /-- The issuing core and its kernel, for `lnch`. -/
  issuer   : Option (Nat × Nat)
  /-- The kernel's number, once its record is read. -/
  kernel   : Option Nat
  deriving DecidableEq, Repr

inductive QueueSt where
  | empty | active | blocked | suspended | torn
  deriving DecidableEq, Repr

inductive KernelSt where
  | queued | waiting | capWait | placed | running | landing | done | aborted | faulted
  deriving DecidableEq, Repr

structure Queue where
  ctx      : Fin 32
  num      : Fin 16
  base     : Fin 8
  st       : QueueSt
  pending  : List Launch
  nextSeq  : BitVec 32
  /-- Outcomes of its last sequence numbers (R301), 1 to 5, and those that a pending launch depends on. -/
  outcomes : List (BitVec 32 × BitVec 3)
  /-- The states in which the kernels of its launches ended, and whether they were ever placed (R308, R327). -/
  ends     : List (BitVec 32 × KernelSt × Bool)
  deriving DecidableEq, Repr

inductive GroupSt where
  | free | held | starting | running | vacating
  deriving DecidableEq, Repr

structure Kernel where
  id      : Nat
  ctx     : Fin 32
  queue   : Nat
  launch  : Launch
  st      : KernelSt
  record  : BitVec 1024
  /-- The chosen image: its words, entry word, profile, REQ OR OPT mask and patch slots. -/
  code    : List Word
  entry   : Nat
  profile : BitVec 2
  mask    : BitVec 64
  patches : List (Nat × Nat)
  /-- Placed before and pre-empted: its members come back by `crest` (R308). -/
  saved   : Bool
  /-- The cause of a Faulted end, the effective level it was placed at, whether its pre-emption has been
  requested (R293). -/
  code_   : BitVec 8
  eff     : Nat
  preempt : Bool
  domid   : BitVec 16
  group   : GroupSt
  /-- Package positions of its members, in order position (R321). -/
  members : List Nat
  loaded  : List Nat
  exited  : List Nat
  t0      : Option Nat
  /-- Answers of `svc 0x011` to the step in progress: (core, accepts) (R385). -/
  answers : List (Nat × Bool)
  /-- Cores whose members were saved for a cause the handler has still to report, with the cause (R397). -/
  captured : List (Nat × BitVec 8)
  deriving DecidableEq, Repr

/-- One landing in progress (R334). -/
structure Landing where
  id      : Nat
  kernel  : Nat
  scope   : Fin 5
  unit    : Nat
  num     : BitVec 32
  arrived : List (Nat × Nat)
  /-- For a pod group: the members on other chips have arrived and meet the conditions, at this tick, and the largest
  LAT of the landing's alignment paths there (R330, R332). -/
  remote  : Option (Nat × Nat)
  ta      : Option Nat
  tr      : Option Nat
  deriving DecidableEq, Repr

/-- A run of a timetable (R371 to R373). -/
structure TRun where
  id       : Nat
  kernel   : Nat
  /-- Members whose `xbegin` has issued, with the copies each had outstanding then. -/
  joined   : List (Nat × List (Nat × Nat))
  handle   : Handle
  offset   : Nat
  tick     : Nat
  start    : Option Nat
  /-- The header and the entries, as read at the start (R370). -/
  header   : BitVec 512
  entries  : List (BitVec 256)
  done     : List Nat
  /-- Partials by (chunk, element): XA images. -/
  partials : List (Nat × Nat × BitVec 128)
  /-- Transfers to other chips that are not acknowledged, oldest first: chip, entry, partials (R374). -/
  unacked  : List (BitVec 16 × Nat × List (Nat × BitVec 128))
  /-- The members on other chips have begun it too. -/
  others   : Bool
  ended    : Bool
  deriving DecidableEq, Repr

/-! ### Dies, links, pages, steps, start-up -/

structure RdcLine where
  line  : Nat
  bytes : BitVec 1024
  deriving DecidableEq, Repr

structure Die where
  op       : Fin 6
  rdc      : List RdcLine
  /-- Load-blocks of its RDC and of its L2, each by its lines (R244). -/
  rdcBlocks : List (List Nat)
  l2Blocks : List (List Nat)
  rdcPoison : List Nat
  /-- Corrected and uncorrectable errors of stores 0 to 3 (R390), and the residue count (R391). -/
  errs     : Vector (BitVec 32 × BitVec 32) 4
  residue  : BitVec 32
  /-- Classes of the L2 and RDC ways that differ from Good-at-all (R378). -/
  l2Cls    : List (Nat × BitVec 3)
  rdcCls   : List (Nat × BitVec 3)
  deriving DecidableEq, Repr

/-- A link entry (R352) and the link's own progress (R353, R354). -/
structure Link where
  entry    : BitVec 64
  attempts : Nat
  /-- Ticks at which probes have left, and the round trips of those answered. -/
  sent     : List Nat
  probes   : List Nat
  deriving DecidableEq, Repr

/-- A page in Moving or Rebound (R350, R351). -/
structure PageMove where
  ctx     : Fin 32
  va      : BitVec 48
  psz     : Fin 3
  old     : BitVec 44
  frame   : Option (BitVec 44)
  rebound : Bool
  held    : Bool
  deriving DecidableEq, Repr

/-- A step between operating points in progress (R381 to R384). -/
structure OpStep where
  id       : Nat
  dies     : BitVec 4
  target   : Fin 6
  deadline : Nat
  up       : Bool
  /-- The deadline has passed, or every group has answered: the refusing dies are fixed. -/
  judged   : Bool
  refused  : BitVec 4
  evacuated : Bool
  deriving DecidableEq, Repr

/-- Start-up states (R399). -/
inductive Boot where
  | reset | newel | selfTest | firmwareLoad | negotiating | operational | safe
  deriving DecidableEq, Repr

/-- What leaves the package or is reported to the firmware. -/
inductive Out where
  /-- A report to chip `dst`: kind, code, context, queue, SEQ and the further payload (R359). -/
  | report (dst tag : BitVec 16) (kind code : BitVec 8) (ctx : Fin 32) (queue : Fin 16) (seq : BitVec 32) (more : BitVec 128)
  | groupAbort (chip : BitVec 16) (domid : BitVec 16)
  | mailbox (dest : Sender) (op status : BitVec 8) (data : List Byte)
  /-- The answer to a firmware request: 0 accepted, or a refusal code. -/
  | firmware (code : BitVec 8) (value : BitVec 64)
  /-- The answers to a fabric access of `dst` through a port. -/
  | readData (port : Fin 20) (dst tag : BitVec 16) (data : List Byte)
  | errorCompletion (port : Fin 20) (dst tag : BitVec 16)
  | xmessage (chip : BitVec 16) (m : XMsg)
  /-- A unit of an `xput` for another chip: the members' indices, the destination's register, the byte. -/
  | xunit (chip : BitVec 16) (src dst td at_ : Nat) (data : List Byte)
  | chunk (chip : BitVec 16) (run chunk entry : Nat) (partials : List (Nat × BitVec 128))
  /-- A probe for the chip at the far end of a port, or the answer to one, with its TAG. -/
  | probe (port : Fin 20) (chip : BitVec 16) (answers : Option (BitVec 16))
  | beat (hall : Fin 32) (words : List (BitVec 32)) (prog : List Bool)
  deriving DecidableEq, Repr

/-- What leaves the package, with the tick at which it leaves (R358). -/
structure Posted where
  stamp : Nat
  out   : Out
  deriving DecidableEq, Repr

/-- What happens at a moment no rule fixes and is no row of the opcode table: an error of the hardware, the next part
of something in progress, what other chips do. -/
inductive Soft where
  /-- The next `times` executions of a step or a promotion of core `n` mismatch (R223). -/
  | mismatch (n : Fin 256) (times : Nat)
  /-- A single-bit error of a store of a die is corrected (R388, R390). -/
  | corrected (die store : Fin 4)
  /-- A granule is uncorrectable (R388): 8 bytes of the tile store of agent `n` at a byte address, a quarter of
  an instruction-store word of agent `n`, 32 bytes of a die's RDC at an address. Memory's are the scrubber's. -/
  | tileByte (n : Fin 288) (at_ : Nat)
  | wordPart (n : Fin 289) (pc : BitVec 12) (part : Fin 4)
  | rdcByte (die : Fin 4) (at_ : Nat)
  /-- The `k`-th unit left of fabric access `id` is performed, or its launch packet acted on (R267, R268). -/
  | fabric (id k : Nat)
  /-- A fabric patch write reaches its `k`-th core left (R318). -/
  | patch (id k : Nat)
  /-- The runtime firmware completes the service request of a service core (R144). -/
  | served (n : Fin 289)
  /-- The keep list of a page is cleared (R350). -/
  | keepCleared (ctx : Fin 32) (va : BitVec 48)
  /-- A context grants a service or management core a handle on its page (R278). -/
  | grant (n : Fin 289) (h : Fin 16) (ctx : Fin 32) (va : BitVec 48)
  /-- The runtime firmware reaches `n` bytes of DRAM at `pa` through this view from now on, having reached them through
  space `space` (R341). -/
  | reused (pa n : Nat) (space : Fin 6)
  /-- The runtime firmware says that a kernel of a Ready context is placed (R279, event 3). -/
  | place (ctx : Fin 32)
  /-- The runtime firmware says that every image of a Draining context is saved (R279, event 6). -/
  | saved (ctx : Fin 32)
  /-- A retry of the link layer (R352). -/
  | retry (port : Fin 20)
  /-- A message to another chip is performed there (R270). -/
  | delivered (flight : Nat)
  /-- The members of a pod kernel on other chips have arrived at its landing `num` and meet R269, at a tick; the
  largest LAT of the alignment paths among them (R332). -/
  | others (kernel : Nat) (num : BitVec 32) (tick lat : Nat)
  /-- No route to a chip of the pod remains, by the tables of the other chips (R364). -/
  | noRoute (chip : BitVec 16)
  /-- The chip of logical index 0 sends the record and the start tick of a run (R371). -/
  | podRun (run : Nat) (header : BitVec 512) (entries : List (BitVec 256)) (start : Nat)
  /-- The members of a pod kernel on other chips have issued the `xbegin`s of a run, and the stores that it waits for
  are performed there (R371). -/
  | podJoined (run : Nat)
  /-- A chip has acknowledged the transfer of entry `entry` of a run (R374). -/
  | acked (run entry : Nat) (chip : BitVec 16)
  /-- A link beyond this chip's own fails on the route to a chip; another route remains (R374). -/
  | lostLink (chip : BitVec 16)
  /-- A run whose header names pennant `pn` ended in error on another chip (R373). -/
  | podFail (run : Nat) (pn : Fin 64)
  /-- An error in the trailing core of a pair changes these bits of its next commit signature (R392). -/
  | upset (n : Fin 289) (bits : BitVec 32)
  /-- The ROM stage has verified the signed stage, or failed it (R399). -/
  | stageVerified
  /-- The pair of a hall stops sending beats (R398). -/
  | mute (hall : Fin 32)
  deriving DecidableEq, Repr

/-- What the machine does next: run an event or a hardware step, or issue the next cycle; or what befalls it. -/
inductive Sched where
  | ev (i : Instr)
  | issue
  | soft (x : Soft)
  deriving DecidableEq, Repr

/-- A read of one vector buffer of one bank engine (R253). -/
structure Buffer where
  engine : Nat
  num    : Nat
  ctx    : Option (Fin 32)
  bytes  : BitVec 16384
  deriving DecidableEq, Repr

/-- What a fabric access asks (R267). -/
inductive FabBody where
  | read
  | write
  | packet (sender : Sender) (payload : BitVec 1024)
  /-- The engine reads the source of entry `j` of a run, or writes its destination; `tell`: it is to send `parts` to the
  other chips (R372). -/
  | entryRead (run j : Nat)
  | entryWrite (run j : Nat) (tell : Bool) (parts : List (Nat × BitVec 128))
  deriving DecidableEq, Repr

/-- A fabric access on its way: the port and the SRCCHIP it came from, the units still to be performed as (address,
bytes, place in the data), the data, whether poison or an absent page was met, and whether it counts as busy
(R267, R268, R351). -/
structure FabReq where
  id     : Nat
  port   : Fin 20
  src    : BitVec 16
  tag    : BitVec 16
  body   : FabBody
  units  : List (Nat × Nat × Nat)
  data   : List Byte
  covers : List Nat
  bad    : Bool
  raised : Bool
  deriving DecidableEq, Repr

/-- A fabric patch write on its way to the cores of a kernel (R318). -/
structure Patching where
  id   : Nat
  kernel : Nat
  word : Nat
  pair : Nat
  val  : BitVec 64
  left : List Nat
  /-- The report that answers it. -/
  answer : Out
  deriving DecidableEq, Repr

structure State where
  /-- Time since reset in units of 1/252 tick: every cycle length of R5 is a whole number of them. -/
  now      : Nat
  agenda   : List Sched
  /-- Agents that issue before others whose cycles begin in the same tick, the first of them first. -/
  ties     : List Nat
  fresh    : Nat
  /-- The agent whose cycle it is, for `exec` of a slot instruction or a micro-operation. -/
  turn     : Agent
  outbox   : List Posted
  boot     : Boot
  bootCause : BitVec 8
  bootUnit : BitVec 16
  offer    : BitVec 64
  neg      : BitVec 64
  negSet   : Bool
  permit   : Option (Fin 6)
  fusedMin : Vector (BitVec 32) 2
  /-- The signed stage that the ROM stage is verifying, and the one that runs. -/
  rom      : Option SignedImage
  stage    : List Byte
  firmware : List Byte
  /-- Cores that differ from a core at reset, by agent number: compute cores 0 to 255, service
  cores 256 to 287, the management core 288. -/
  cores    : List (Nat × Core)
  /-- Memory bytes by 44-bit physical address. -/
  mem      : List Host.Cell
  poison   : List Nat
  busy     : List (Nat × Nat)
  moves    : List PageMove
  /-- Replicated pages: frame, size, and the address of the leaf entry (R350). -/
  replicas : List (Nat × Nat × Nat)
  dies     : Vector Die 4
  contexts : Vector Context 32
  queues   : Vector (Option Queue) 256
  rr       : Vector (BitVec 8) 8
  kernels  : List Kernel
  nextKernel : Nat
  /-- Cores a pre-empting head reserves: (device index of its queue, its SEQ, cores) (R299, R323). -/
  reserved : List (Nat × BitVec 32 × List Nat)
  landings : List Landing
  nextLanding : Nat
  runs     : List TRun
  flights  : List XFlight
  nextFlight : Nat
  fabric   : List FabReq
  patching : List Patching
  nextReq  : Nat
  steps    : List OpStep
  nextStep : Nat
  links    : Vector Link 20
  chip     : BitVec 16
  epoch    : BitVec 64
  epochSet : Bool
  slew     : Int
  /-- This chip's hops from the time root (R354), and the tick of each hall's last beat (R396). -/
  depth    : Nat
  /-- The port over which this chip was aligned (R354). -/
  upLink   : Option (Fin 20)
  beatAt   : Vector Nat 32
  /-- Halls whose pair has stopped sending beats (R398). -/
  muted    : List (Fin 32)
  buffers  : List Buffer
  deriving DecidableEq, Repr

/-! ### The state at device reset -/

def Latch.zero : Latch := { val := 0, due := 0, wait := none }

def Ring.zero : Ring := { ptr := 0, latches := Vector.replicate 8 Latch.zero }

def TileReg.zero : TileReg := { a := 0, b := 0, st := .free, mem := .free, kept := 0 }

def Handle.zero : Handle := { w0 := 0, w1 := 0 }

def Flight.zero : Flight :=
  { first := 0, last := 0, count := 1, idx := 0, stride := Vector.replicate 4 0 }

/-- R88: the sequencer at placement; also its state at reset. -/
def Stair.zero : Stair := { flights := Vector.replicate 6 Flight.zero, stages := 0, running := 0 }

/-- Every entry 127, a factor of 1 (R50). -/
def scaleOnes : BitVec 128 := 0x7F7F7F7F7F7F7F7F7F7F7F7F7F7F7F7F#128

/-- The standard micro-words of R226 and R227, as (micro-address, word). -/
def stdMicro : Sparse 64 :=
  [
  (0x000, 0x1400410000000000#64), (0x001, 0x6040000000000000#64), (0x002, 0xF000000000000000#64),
  (0x020, 0x1C00410000000000#64), (0x021, 0x6040000000000000#64), (0x022, 0xF000000000000000#64),
  (0x040, 0x4000000000000000#64), (0x041, 0xD780000000000000#64), (0x042, 0x7400000000000000#64),
  (0x043, 0x3000000000000000#64), (0x044, 0x8880000000000000#64), (0x045, 0x2500000000000000#64),
  (0x046, 0x9241280000000000#64), (0x047, 0x1100000000000000#64), (0x048, 0x8080000000000000#64),
  (0x049, 0x2500000000000000#64), (0x04A, 0xA000000000000000#64), (0x04B, 0x5440000000000000#64),
  (0x04C, 0xF000000000000000#64)] ++
  [
  (0x060, 0xD780000000000000#64), (0x061, 0x7400000000000000#64), (0x062, 0xDB80000000000000#64),
  (0x063, 0x4000000000000000#64), (0x064, 0x3000000000000000#64), (0x065, 0x8880000000000000#64),
  (0x066, 0x2900000000000000#64), (0x067, 0x9241B40000000000#64), (0x068, 0x1000100000000000#64),
  (0x069, 0x8080000000000000#64), (0x06A, 0x2500000000000000#64), (0x06B, 0x8080000000000000#64),
  (0x06C, 0x2A00000000000000#64), (0x06D, 0xA000000000000000#64), (0x06E, 0x5840000000000000#64),
  (0x06F, 0xF000000000000000#64)] ++
  [
  (0x080, 0x4000000000000000#64), (0x081, 0x4420000000000000#64), (0x082, 0xDB80000000000000#64),
  (0x083, 0x9242300000000000#64), (0x084, 0x8980000000000000#64), (0x085, 0x1000100000000000#64),
  (0x086, 0x2A00000000000000#64), (0x087, 0x8180000000000000#64), (0x088, 0x1100200000000000#64),
  (0x089, 0x2500000000000000#64), (0x08A, 0xB00000000000008F#64), (0x08B, 0xB280000000000090#64),
  (0x08C, 0xA000000000000000#64), (0x08D, 0x5440000000000000#64), (0x08E, 0xF000000000000000#64),
  (0x08F, 0x0001000000000000#64), (0x090, 0x0002000000000000#64)] ++
  [
  (0x0A0, 0x4000000000000000#64), (0x0A1, 0xD780000000000000#64), (0x0A2, 0x7400000000000000#64),
  (0x0A3, 0xDB80000000000000#64), (0x0A4, 0x9242BC0000000000#64), (0x0A5, 0x8980000000000000#64),
  (0x0A6, 0x1100000000000000#64), (0x0A7, 0x2A00000000000000#64), (0x0A8, 0x8180000000000000#64),
  (0x0A9, 0x1000200000000000#64), (0x0AA, 0x2000000000000000#64), (0x0AB, 0x1200100000000000#64),
  (0x0AC, 0x2500000000000000#64), (0x0AD, 0xB0000000000000B3#64), (0x0AE, 0xB2800000000000B4#64),
  (0x0AF, 0xA000000000000000#64), (0x0B0, 0x5040000000000000#64), (0x0B1, 0x5480000000000000#64),
  (0x0B2, 0xF000000000000000#64), (0x0B3, 0x0001000000000000#64), (0x0B4, 0x0002000000000000#64)] ++
  [
  (0x0C0, 0xD780000000000000#64), (0x0C1, 0x8A00000000000000#64), (0x0C2, 0x96C3200000000000#64),
  (0x0C3, 0x9AC31C0000000000#64), (0x0C4, 0x3000000000000000#64), (0x0C5, 0x25B0000000000000#64),
  (0x0C6, 0x5456000000000000#64), (0x0C7, 0xA800000000000000#64), (0x0C8, 0xA400000000000000#64),
  (0x0C9, 0x9303780000000000#64), (0x0CA, 0x8200000000000000#64), (0x0CB, 0x96C34C0000000000#64),
  (0x0CC, 0x9AC3480000000000#64), (0x0CD, 0x9EC33C0000000000#64), (0x0CE, 0x142BC1DF00000000#64),
  (0x0CF, 0xAC00000000000000#64), (0x0D0, 0x25B0000000000000#64), (0x0D1, 0x5476000000000000#64),
  (0x0D2, 0xA800000000000000#64), (0x0D3, 0xA400000000000000#64), (0x0D4, 0x8200000000000000#64),
  (0x0D5, 0x96C3740000000000#64), (0x0D6, 0x9AC3700000000000#64), (0x0D7, 0x9EC3640000000000#64),
  (0x0D8, 0x143BC1DF00000000#64), (0x0D9, 0xAC00000000000000#64), (0x0DA, 0x25B0000000000000#64),
  (0x0DB, 0x5456000000000000#64), (0x0DC, 0xA800000000000000#64), (0x0DD, 0xA400000000000000#64),
  (0x0DE, 0xA000000000000000#64), (0x0DF, 0xF000000000000000#64)] ++
  [
  (0x0E0, 0x4200000000000000#64), (0x0E1, 0x5040000000000000#64), (0x0E2, 0xF000000000000000#64)]

/-- The entries of routines 0 to 7: V, RETRY 3, START 0x020n and the roles of R226. -/
def stdEntries : Sparse 64 := [
  (0, 0xB000000000000111#64), (1, 0xB020000000000111#64), (2, 0xB04000000000011B#64)
 , (3, 0xB06000000000011B#64), (4, 0xB08000000000071B#64), (5, 0xB0A0000000004703#64)
 , (6, 0xB0C0000000003910#64), (7, 0xB0E0000000000103#64)]

/-- No routine has run. -/
def Routine.zero : Routine :=
  { cfg := 0, rowT := 0, colT := 0, mp := Vector.replicate 8 0, win := 0, upc := 0,
    loops := Vector.replicate 4 ⟨false, 0, 0, 0, 0⟩, ci := 0, alpha := 0, beta := 0, gamma := 0, entry := 0,
    start := 0, phase := 0, tries := 0, mism := 0, feed := none, scales := none, halted := false, abort := false, owe := 0 }

/-- R180: the matrix unit at placement; also its state at reset. -/
def Matrix.zero : Matrix :=
  { planes := [], pf := Vector.replicate 4 0, acc := [], ls := [], cfg := 0xC00000#24,
    rowT := scaleOnes, colT := scaleOnes, status := 0x800#64, heldDet := 0, progress := 0,
    ustore := stdMicro, entries := stdEntries, run := none, last := Routine.zero,
    reruns := 0, ucodeEnd := 0 }

/-- A core at device reset. -/
def Core.zero : Core :=
  { run := .vacant, next := 0, pc := 0, delay := none, s := Vector.replicate 32 0,
    v := Vector.replicate 32 0, p := 0, msk := Vector.replicate 8 0,
    t := Vector.replicate 64 TileReg.zero, h := Vector.replicate 16 Handle.zero,
    mp := Vector.replicate 8 0, walk := Vector.replicate 4 0, pn := 0,
    ldcnt := Vector.replicate 16 0, stcnt := Vector.replicate 16 0,
    rings := Vector.replicate 8 Ring.zero, coreIdx := 0, domain := 0,
    sbase := Vector.replicate 6 0, sext := Vector.replicate 6 0, feat := 0, vflags := 0,
    bsat := 0, bzero := 0, profile := 0, chklat := false, beats := 0, words := 0, traprec := 0,
    cyc := 0, stair := Stair.zero, pend := [], copies := [], nextId := 0, istore := [],
    iPoison := [], patched := none, protect := 0, patches := [], tile := [], undef := [], wrote := [], mixed := [],
    tPoison := [],
    rowCls := [], caps := Vector.replicate 6 0, live := [], evac := [], rowBusy := [],
    mx := Matrix.zero, causes := [], seg := none, lands := Vector.replicate 5 0, arrival := none, skip := false,
    trig := Vector.replicate 4 .idle, abuf := [], await := [], xerr := false, tterr := false,
    tcache := [], walked := [], prog := false, waited := false, misses := 0, ret := none,
    handler := false, returning := false, queue := [], qTime := 0, qNew := 0, request := none
    reply := none, aborting := false, sigs := [], upset := 0, differs := none, owed := [], ctx := none, kernel := none }

def Die.zero : Die :=
  { op := 0, rdc := [], rdcBlocks := [], l2Blocks := [], rdcPoison := [], errs := Vector.replicate 4 (0, 0),
    residue := 0, l2Cls := [], rdcCls := [] }

def Context.zero : Context := { st := .free, root := 0, hints := [], decls := [] }

/-- STATE Down, PEER 0xFFFF, all else 0 (R352). -/
def Link.zero : Link := { entry := 0x00FFFF0000000000#64, attempts := 0, sent := [], probes := [] }

/-- The machine right after device reset. -/
def State.reset : State :=
  { now := 0, agenda := [], ties := [], fresh := 0, turn := .compute 0, outbox := [],
    boot := .reset, bootCause := 0, bootUnit := 0, offer := 0, neg := 0, negSet := false,
    permit := none, fusedMin := Vector.replicate 2 0, rom := none, stage := [], firmware := [], cores := [],
    mem := [], poison := [], busy := [], moves := [], replicas := [],
    dies := Vector.replicate 4 Die.zero, contexts := Vector.replicate 32 Context.zero,
    queues := Vector.replicate 256 none, rr := Vector.replicate 8 255, kernels := [],
    nextKernel := 0, reserved := [], landings := [], nextLanding := 0, runs := [],
    flights := [], nextFlight := 0, fabric := [], patching := [], nextReq := 0, steps := [], nextStep := 0,
    links := Vector.replicate 20 Link.zero, chip := 0, epoch := 0, epochSet := false, slew := 0, depth := 0, upLink := none,
    beatAt := Vector.replicate 32 0, muted := [], buffers := [] }

end Sys2Proof.Machine
end

