-- ==== Sys2Proof/Machine/Bits.lean ====
section
/-!
DEFINITION. Bits.lean: bit fields, bytes and sparse arrays.
-/
namespace Sys2Proof.Machine

/-- Bits [hi:lo] of `x` (R1). -/
def bits (x : BitVec n) (hi lo : Nat) : BitVec (hi - lo + 1) := x.extractLsb hi lo

/-- Bits [hi:lo] as a number. -/
def fld (x : BitVec n) (hi lo : Nat) : Nat := (x.toNat >>> lo) % 2 ^ (hi + 1 - lo)

/-- `x` with bits [hi:lo] replaced by the low bits of `v`. -/
def putFld (x : BitVec n) (hi lo v : Nat) : BitVec n :=
  let m := ((2 ^ (hi + 1 - lo) - 1) <<< lo)
  BitVec.ofNat n ((x.toNat - (x.toNat &&& m)) + ((v % 2 ^ (hi + 1 - lo)) <<< lo))

/-- A number from its bytes, least significant first (R1). -/
def ofBytes : List Byte → Nat
  | [] => 0
  | b :: r => b.toNat + 256 * ofBytes r

/-- The low `n` bytes of a number, least significant first (R1). -/
def toBytes : Nat → Nat → List Byte
  | 0, _ => []
  | n + 1, v => BitVec.ofNat 8 v :: toBytes n (v / 256)

/-- `n` elements of `w` bits packed into one number, element i from `f i`. -/
def packN (w : Nat) (f : Nat → Nat) : Nat → Nat
  | 0 => 0
  | n + 1 => packN w f n + ((f n % 2 ^ w) <<< (w * n))

/-- Lane i of a vector (R68). -/
def lane (v : Vec) (i : Nat) : BitVec 32 := BitVec.ofNat 32 (v.toNat >>> (32 * i))

/-- The vector whose lane i is `f i`. -/
def vecOf (f : Nat → BitVec 32) : Vec := BitVec.ofNat 4096 (packN 32 (fun i => (f i).toNat) 128)

/-- Every lane `x` (R74). -/
def splat (x : BitVec 32) : Vec := vecOf fun _ => x

/-- The 128-bit mask whose bit i is `f i`. -/
def maskOf (f : Nat → Bool) : BitVec 128 :=
  BitVec.ofNat 128 (packN 1 (fun i => (f i).toNat) 128)

/-! ### Sparse arrays -/

/-- The word at key `k`; an unlisted key reads zero. -/
def spGet {w : Nat} : Sparse w → Nat → BitVec w
  | [], _ => 0
  | (a, v) :: r, k => if a = k then v else spGet r k

/-- The array with `v` put at a key it does not list; a zero is not listed. -/
def spPut {w : Nat} : Sparse w → Nat → BitVec w → Sparse w
  | [], k, v => if v = 0 then [] else [(k, v)]
  | (a, u) :: r, k, v =>
    if k < a then (if v = 0 then (a, u) :: r else (k, v) :: (a, u) :: r) else (a, u) :: spPut r k v

/-- The array with `v` at key `k`, whatever it held there. -/
def spSet {w : Nat} (m : Sparse w) (k : Nat) (v : BitVec w) : Sparse w := spPut (m.filter fun e => e.1 != k) k v

/-- Keys strictly rising above `lo` (if any), no zero listed. -/
def spWfFrom {w : Nat} : Option Nat → Sparse w → Bool
  | _, [] => true
  | lo, (a, v) :: r => (match lo with | none => true | some l => l < a) && v != 0 && spWfFrom (some a) r

/-- The canonical form of a sparse array. -/
def spWf {w : Nat} (m : Sparse w) : Bool := spWfFrom none m

/-- The canonical array with `f k` at keys `k < n`. -/
def spOf {w : Nat} (n : Nat) (f : Nat → BitVec w) : Sparse w :=
  (List.range n).filterMap fun k => if f k = 0 then none else some (k, f k)

/-- An association list updated at one key (kept in first-written order). -/
def alSet {α : Type} (m : List (Nat × α)) (k : Nat) (v : α) : List (Nat × α) :=
  match m with
  | [] => [(k, v)]
  | (a, u) :: r => if a = k then (k, v) :: r else (a, u) :: alSet r k v

def alGet {α : Type} (m : List (Nat × α)) (k : Nat) : Option α :=
  match m with
  | [] => none
  | (a, u) :: r => if a = k then some u else alGet r k

/-- A count kept by key; an unlisted key counts zero. -/
def countOf (m : List (Nat × Nat)) (k : Nat) : Nat := (alGet m k).getD 0

def countAdd (m : List (Nat × Nat)) (k n : Nat) : List (Nat × Nat) := alSet m k (countOf m k + n)

def countSub (m : List (Nat × Nat)) (k n : Nat) : List (Nat × Nat) :=
  let v := countOf m k - n
  if v = 0 then m.filter fun e => e.1 != k else alSet m k v

/-! ### Memory (19_page.md R341) -/

/-- The canonical form of memory: addresses strictly rising, no byte equal to the 0 an unlisted
address reads as. -/
def Memory.wf (m : List Host.Cell) : Bool := spWf (w := 8) m

/-- The byte at physical address `a`. -/
def memByte (m : List Host.Cell) (a : Nat) : Byte := spGet (w := 8) m a

/-- Memory with byte `b` at `a`. -/
def memSet (m : List Host.Cell) (a : Nat) (b : Byte) : List Host.Cell := spSet (w := 8) m a b

/-- `n` bytes from `a`. -/
def memRead (m : List Host.Cell) (a n : Nat) : List Byte := (List.range n).map fun i => memByte m (a + i)

/-- Memory with the listed (address, byte) pairs written in order. -/
def memWrite (m : List Host.Cell) (l : List (Nat × Byte)) : List Host.Cell :=
  l.foldl (fun m e => memSet m e.1 e.2) m

/-- Bytes at consecutive addresses. -/
def at_ (a : Nat) : List Byte → List (Nat × Byte)
  | [] => []
  | b :: r => (a, b) :: at_ (a + 1) r

end Sys2Proof.Machine
end

