-- ==== Sys2Proof/Machine/Num.lean ====
section
/-!
DEFINITION. Num.lean: the number formats, CVT, exact arithmetic, window summation and quantisation
(spec/03_numbers.md, spec/04_window.md).

A number is exact: a signed dyadic, or an infinity, or a NaN. Every rounding is `cvt` (R44) or `wstep`
(R55). Flag bits are those of VFLAGS (R85): LS 5, NV 4, DZ 3, OF 2, UF 1, NX 0.
-/
namespace Sys2Proof.Machine

abbrev Flags := BitVec 6
def fLS : Flags := 0x20
def fNV : Flags := 0x10
def fDZ : Flags := 0x08
def fOF : Flags := 0x04
def fUF : Flags := 0x02
def fNX : Flags := 0x01

/-- The shape of a floating-point format: width, exponent bits, fraction bits, bias (R32). -/
structure Shape where
  width : Nat
  ebits : Nat
  fbits : Nat
  bias  : Nat
  deriving DecidableEq, Repr

/-- Element width in bits (R229). -/
def fmtWidth : Fmt → Nat
  | .fp32 | .int32 => 32
  | .bf16 => 16
  | .e5m2 | .e4m3 | .int8 => 8
  | .e2m1 | .int4 => 4

def fmtShape : Fmt → Shape
  | .fp32 => ⟨32, 8, 23, 127⟩
  | .bf16 => ⟨16, 8, 7, 127⟩
  | .e5m2 => ⟨8, 5, 2, 15⟩
  | .e4m3 => ⟨8, 4, 3, 7⟩
  | _ => ⟨4, 2, 1, 1⟩

def fmtInt : Fmt → Bool
  | .int8 | .int4 | .int32 => true
  | _ => false

/-- MAXFIN as an exact magnitude m * 2^e (R33). -/
def maxFin : Fmt → Nat × Int
  | .fp32 => (2 ^ 24 - 1, 104)
  | .bf16 => (2 ^ 8 - 1, 120)
  | .e5m2 => (7, 13)
  | .e4m3 => (7, 6)
  | _ => (3, 1)

/-- The encoding of MAXFIN, +Inf and the canonical NaN (R33). -/
def maxFinBits : Fmt → Nat
  | .fp32 => 0x7F7FFFFF
  | .bf16 => 0x7F7F
  | .e5m2 => 0x7B
  | .e4m3 => 0x7E
  | _ => 0x7

def infBits : Fmt → Nat
  | .fp32 => 0x7F800000
  | .bf16 => 0x7F80
  | _ => 0x7C

def nanBits : Fmt → Nat
  | .fp32 => 0x7FC00000
  | .bf16 => 0x7FC0
  | .e5m2 => 0x7E
  | _ => 0x7F

/-- The value of the low bits of `x` in format `f` (R32, R35, R36). -/
def elemVal (f : Fmt) (x : Nat) : Ext :=
  let w := fmtWidth f
  let x := x % 2 ^ w
  if fmtInt f then
    if 2 ^ (w - 1) ≤ x then .num true (2 ^ w - x) 0 else .num false x 0
  else
    let sh := fmtShape f
    let neg := (x >>> (w - 1)) == 1
    let e := (x >>> sh.fbits) % 2 ^ sh.ebits
    let fr := x % 2 ^ sh.fbits
    if f == .e4m3 && e == 15 && fr == 7 then .nan false
    else if (f == .fp32 || f == .bf16 || f == .e5m2) && e == 2 ^ sh.ebits - 1 then
      if fr == 0 then .inf neg
      else .nan (f != .e5m2 && fr < 2 ^ (sh.fbits - 1))
    else if e == 0 then .num neg fr (1 - (sh.bias + sh.fbits : Int))
    else .num neg (fr + 2 ^ sh.fbits) ((e : Int) - (sh.bias + sh.fbits : Int))

/-- `m * 2^sh`, rounding toward zero for negative `sh`. -/
def shiftNat (m : Nat) (sh : Int) : Nat :=
  match sh with
  | .ofNat n => m <<< n
  | .negSucc n => m >>> (n + 1)

/-- Magnitudes m1 * 2^e1 and m2 * 2^e2 compared: m1 * 2^e1 ≤ m2 * 2^e2. -/
def magLe (m1 : Nat) (e1 : Int) (m2 : Nat) (e2 : Int) : Bool :=
  if e1 ≤ e2 then m1 ≤ shiftNat m2 (e2 - e1) else shiftNat m1 (e1 - e2) ≤ m2

/-- m * 2^e as an integer multiple k of 2^q, rounded by `rm` (R42), and whether bits were lost. -/
def roundAt (rm : Rm) (neg : Bool) (m : Nat) (e q : Int) : Nat × Bool :=
  if q ≤ e then (shiftNat m (e - q), false)
  else
    let sh := (q - e).toNat
    let k := m >>> sh
    let r := m - (k <<< sh)
    let half := (1 <<< sh) >>> 1
    let up := match rm with
      | .rn => half < r || (r == half && k % 2 == 1)
      | .rz => false
      | .rd => neg && r != 0
      | .ru => !neg && r != 0
      | .ro => r != 0 && k % 2 == 0
    (if up then k + 1 else k, r != 0)

/-- The exponent of the leading bit of m * 2^e. -/
def leadExp (m : Nat) (e : Int) : Int := (Nat.log2 m : Int) + e

/-- The encoding of (-1)^neg * k * 2^q, which `f` holds exactly. -/
def packFloat (f : Fmt) (neg : Bool) (k : Nat) (q : Int) : Nat :=
  let sh := fmtShape f
  let sgn := if neg then 2 ^ (sh.width - 1) else 0
  if k = 0 then sgn
  else
    let ee := leadExp k q
    let emin : Int := 1 - (sh.bias : Int)
    if ee < emin then sgn + shiftNat k (q - (emin - sh.fbits))
    else sgn + ((ee + sh.bias).toNat <<< sh.fbits) + (shiftNat k (q - (ee - sh.fbits)) - 2 ^ sh.fbits)

/-- A converted element: its encoding, its flags, and whether the conversion met an infinity or NaN or
left the format's finite range (R186, R256). -/
structure Cvt where
  val   : Nat
  flags : Flags
  left  : Bool
  deriving DecidableEq, Repr

/-- CVT(x, F, rm, sat) of R44. -/
def cvt (x : Ext) (f : Fmt) (rm : Rm) (sat : Bool) : Cvt :=
  let w := fmtWidth f
  let sgn (neg : Bool) := if neg then 2 ^ (w - 1) else 0
  if fmtInt f then
    let mx := 2 ^ (w - 1) - 1
    let mn := 2 ^ (w - 1)
    match x with
    | .nan _ => ⟨0, fNV, true⟩
    | .inf neg => ⟨if neg then mn else mx, fNV, true⟩
    | .num neg m e =>
      let (k, lost) := roundAt rm neg m e 0
      if neg && mn < k then ⟨mn, fNV, true⟩
      else if !neg && mx < k then ⟨mx, fNV, true⟩
      else ⟨if neg then (2 ^ w - k) % 2 ^ w else k, if lost then fNX else 0, false⟩
  else
    match x with
    | .nan sig =>
      if f == .e2m1 then ⟨0, fNV, true⟩ else ⟨nanBits f, if sig then fNV else 0, true⟩
    | .inf neg =>
      if f == .e2m1 || sat then ⟨sgn neg + maxFinBits f, fNV, true⟩
      else if f == .e4m3 then ⟨nanBits f, fNV, true⟩
      else ⟨sgn neg + infBits f, 0, true⟩
    | .num neg m e =>
      if m = 0 then ⟨sgn neg, 0, false⟩
      else
        let sh := fmtShape f
        let emin : Int := 1 - (sh.bias : Int)
        let q0 := leadExp m e - sh.fbits
        let q := max q0 (emin - sh.fbits)
        let (k, lost) := roundAt rm neg m e q
        let (mm, me) := maxFin f
        if !magLe k q mm me then
          let fl := fOF ||| fNX
          if f == .e2m1 || sat then ⟨sgn neg + maxFinBits f, fl, true⟩
          else if f == .e4m3 then ⟨nanBits f, fl, true⟩
          else
            let toInf := match rm with
              | .rn => true | .rz | .ro => false | .rd => neg | .ru => !neg
            ⟨sgn neg + (if toInf then infBits f else maxFinBits f), fl, true⟩
        else
          let (k1, _) := roundAt rm neg m e q0
          let tiny := leadExp k1 q0 < emin
          ⟨packFloat f neg k q, if lost then (if tiny then fNX ||| fUF else fNX) else 0, false⟩

/-! ### Exact arithmetic -/

def Ext.neg' : Ext → Ext
  | .nan s => .nan s
  | .inf n => .inf !n
  | .num n m e => .num (!n) m e

def Ext.isZero : Ext → Bool
  | .num _ 0 _ => true
  | _ => false

def Ext.sig : Ext → Bool
  | .nan s => s
  | _ => false

def Ext.isNan : Ext → Bool
  | .nan _ => true
  | _ => false

/-- The sign of a value; a NaN counts as positive. -/
def Ext.negative : Ext → Bool
  | .nan _ => false
  | .inf n => n
  | .num n _ _ => n

/-- The signed integer m at the quantum 2^q, for q ≤ e. -/
def intAt (n : Bool) (m : Nat) (e q : Int) : Int :=
  let k : Int := (shiftNat m (e - q) : Nat)
  if n then -k else k

def ofIntAt (k q : Int) : Ext := .num (k < 0) k.natAbs q

/-- The exact product, and whether 0 * Inf was formed. -/
def mulExt (a b : Ext) : Ext × Bool :=
  match a, b with
  | .nan _, _ | _, .nan _ =>
    (.nan false, match a, b with
      | .inf _, .num _ 0 _ | .num _ 0 _, .inf _ => true
      | _, _ => false)
  | .inf s, .inf t => (.inf (s != t), false)
  | .inf s, .num t m _ => if m = 0 then (.nan false, true) else (.inf (s != t), false)
  | .num s m _, .inf t => if m = 0 then (.nan false, true) else (.inf (s != t), false)
  | .num s m e, .num t k f => (.num (s != t) (m * k) (e + f), false)

/-- The exact sum, and whether Inf - Inf was formed. A zero sum of opposite signs is +0, or -0 under
`down` (R153). -/
def addExt (down : Bool) (a b : Ext) : Ext × Bool :=
  match a, b with
  | .nan _, _ | _, .nan _ => (.nan false, false)
  | .inf s, .inf t => if s = t then (.inf s, false) else (.nan false, true)
  | .inf s, .num _ _ _ => (.inf s, false)
  | .num _ _ _, .inf t => (.inf t, false)
  | .num s m e, .num t k f =>
    let q := min e f
    let r := intAt s m e q + intAt t k f q
    if r = 0 then
      (if m = 0 && k = 0 && s = t then .num s 0 0 else .num down 0 0, false)
    else (ofIntAt r q, false)

/-- Integer square root, from the bit `b` down. -/
def isqrtGo : Nat → Nat → Nat → Nat
  | 0, _, r => r
  | b + 1, n, r =>
    let c := r + 2 ^ b
    if c * c ≤ n then isqrtGo b n c else isqrtGo b n r

def isqrt (n : Nat) : Nat := isqrtGo (Nat.log2 n / 2 + 1) n 0

/-- `m * 2^e` to 64 leading bits and a last bit that marks what was lost: enough to round to any
format of R32 (R42's round to odd). -/
def oddOf (k : Nat) (exact : Bool) (e : Int) (neg : Bool) : Ext :=
  .num neg (2 * k + (if exact then 0 else 1)) (e - 1)

/-- m1 * 2^e1 / (m2 * 2^e2) for nonzero m2, to odd. -/
def divOdd (neg : Bool) (m1 : Nat) (e1 : Int) (m2 : Nat) (e2 : Int) : Ext :=
  let s := 64 + Nat.log2 m2
  let n := m1 <<< s
  oddOf (n / m2) (n % m2 == 0) (e1 - e2 - s) neg

/-- The square root of m * 2^e, to odd. -/
def sqrtOdd (m : Nat) (e : Int) : Ext :=
  let (m, e) := if e % 2 = 0 then (m, e) else (2 * m, e - 1)
  let n := m <<< 128
  let r := isqrt n
  oddOf r (r * r == n) ((e - 128) / 2) false

/-- 1 / sqrt(m * 2^e) for nonzero m, to odd. -/
def rsqrtOdd (m : Nat) (e : Int) : Ext :=
  let (m, e) := if e % 2 = 0 then (m, e) else (2 * m, e - 1)
  let s := 2 * (Nat.log2 m + 72)
  let n := 1 <<< s
  let r := isqrt (n / m)
  oddOf r (r * r * m == n) ((-e - s) / 2) false

/-! ### Transcendentals (08_vector.md R174): fixed point with 320 fraction bits

Each series leaves an error far below 2^-250, and no result but the exact cases below is
representable, so the last bit of `oddOf` stands for the rest: see notes/assumptions/10.md. -/

def fpBits : Nat := 320
def fpOne : Nat := 1 <<< fpBits

/-- Sum of z^(2k+1)/(2k+1) in fixed point: `z` is the power of term k, z2 = z * z advances it. -/
def atanhSum (z z2 : Nat) : Nat → Nat → Nat → Nat
  | 0, _, acc => acc
  | n + 1, k, acc =>
    if z = 0 then acc else atanhSum ((z * z2) >>> fpBits) z2 n (k + 1) (acc + z / (2 * k + 1))

def atanhFp (z : Nat) : Nat := atanhSum z ((z * z) >>> fpBits) 210 0 0

/-- ln 2 = 2 atanh(1/3). -/
def ln2Fp : Nat := 2 * atanhFp (fpOne / 3)

/-- The series of e^x from its k-th term `t` on, added to `acc`. -/
def expGo (x : Nat) : Nat → Nat → Nat → Nat → Nat
  | 0, _, _, acc => acc
  | n + 1, k, t, acc => if t = 0 then acc else expGo x n (k + 1) (((t * x) >>> fpBits) / (k + 1)) (acc + t)

/-- e^x for 0 ≤ x < 1. -/
def expFp (x : Nat) : Nat := expGo x 90 0 fpOne 0

/-- 2^f for 0 ≤ f < 1, in fixed point. -/
def exp2Fp (f : Nat) : Nat := expFp ((f * ln2Fp) >>> fpBits)

/-- 2^x of a finite x that is no integer (R174), to odd; a |x| beyond 2^12 is cut there, where every
format has long overflowed or underflowed. -/
def exp2Odd (neg : Bool) (m : Nat) (e : Int) : Ext :=
  if 12 ≤ leadExp m e then .num false 1 (if neg then -4096 else 4096)
  else
    let x : Int := if neg then -(shiftNat m (e + fpBits) : Nat) else (shiftNat m (e + fpBits) : Nat)
    let n := x / (fpOne : Int)
    let f := (x % (fpOne : Int)).toNat
    oddOf (exp2Fp f) false (n - fpBits) false

/-- log2 of m * 2^e for m not a power of two, to odd. -/
def log2Odd (m : Nat) (e : Int) : Ext :=
  let ee := leadExp m e
  let l := Nat.log2 m
  let d := 1 <<< l
  let z := ((m - d) <<< fpBits) / (m + d)
  let frac := ((2 * atanhFp z) <<< fpBits) / ln2Fp
  let y : Int := ee * (fpOne : Int) + frac
  -- the true value lies above `y`: for a negative result the magnitude lies below
  if 0 ≤ y then oddOf y.toNat false (-(fpBits : Int)) false
  else oddOf (y.natAbs - 1) false (-(fpBits : Int)) true

/-- tanh of a nonzero magnitude m * 2^e, to odd. -/
def tanhOdd (neg : Bool) (m : Nat) (e : Int) : Ext :=
  if leadExp m e < -40 then oddOf ((m <<< 64) - 1) false (e - 64) neg
  else if 7 ≤ leadExp m e then oddOf ((1 <<< 64) - 1) false (-64) neg
  else
    -- e^(2x) = 2^(2x / ln 2)
    let y := (shiftNat m (e + fpBits + 1) <<< fpBits) / ln2Fp
    let t := exp2Fp (y % fpOne) <<< (y / fpOne)
    oddOf (((t - fpOne) <<< fpBits) / (t + fpOne)) false (-(fpBits : Int)) neg

/-! ### XA and window summation -/

/-- The value of an XA image (R38, R39). -/
def xaVal (x : BitVec 128) : Ext :=
  let s := x.getLsbD 76
  let e := fld x 75 64
  let m := fld x 63 0
  if e = 4095 then (if m = 0 then .inf s else .nan false)
  else if e = 0 then .num s m (1 - 2047 - 63)
  else .num s m ((e : Int) - 2047 - 63)

/-- The XA image of a value (R39, R40); the value has at most 64 significant bits. -/
def xaOf : Ext → BitVec 128
  | .nan _ => BitVec.ofNat 128 ((4095 <<< 64) + (0xC <<< 60))
  | .inf s => BitVec.ofNat 128 ((if s then 1 <<< 76 else 0) + (4095 <<< 64))
  | .num s m e =>
    let sg := if s then 1 <<< 76 else 0
    if m = 0 then BitVec.ofNat 128 sg
    else
      let ee := leadExp m e
      if 2048 ≤ ee then BitVec.ofNat 128 (sg + (4095 <<< 64))
      else if ee < -2109 then BitVec.ofNat 128 sg
      else if ee < -2046 then BitVec.ofNat 128 (sg + shiftNat m (e + 2046 + 63))
      else BitVec.ofNat 128 (sg + ((ee + 2047).toNat <<< 64) + shiftNat m (e - ee + 63))

/-- Window widths (R54); code 7 has none. -/
def windowOf (code : Nat) : Nat := 16 + 8 * code

/-- The nonzero finite terms, as (sign, m, e). -/
def finiteTerms (t : List Ext) : List (Bool × Nat × Int) :=
  t.filterMap fun x => match x with
    | .num s m e => if m = 0 then none else some (s, m, e)
    | _ => none

/-- WSTEP of R55 over a list of terms: the new value and the sticky bit. -/
def wstep (w : Nat) (t : List Ext) : Ext × Bool :=
  if t.any Ext.isNan then (.nan false, false)
  else
    let pInf := t.any (· == .inf false)
    let nInf := t.any (· == .inf true)
    if pInf && nInf then (.nan false, false)
    else if pInf then (.inf false, false)
    else if nInf then (.inf true, false)
    else
      match finiteTerms t with
      | [] => (.num (!t.isEmpty && t.all Ext.negative) 0 0, false)
      | (s0, m0, e0) :: r =>
        let ts := (s0, m0, e0) :: r
        let emax := r.foldl (fun a x => max a (leadExp x.2.1 x.2.2)) (leadExp m0 e0)
        let q := emax - w + 1
        let sticky := ts.any fun x => (roundAt .rz false x.2.1 x.2.2 q).2
        let sum : Int := ts.foldl (fun a x =>
          let k : Int := (roundAt .rz false x.2.1 x.2.2 q).1
          if x.1 then a - k else a + k) 0
        if sum = 0 then (.num false 0 0, sticky)
        else
          let neg := sum < 0
          let e2 := leadExp sum.natAbs q
          let q2 := e2 - w + 1
          let (k, lost) := roundAt .rz neg sum.natAbs q (max q q2)
          let sticky := sticky || lost
          -- at quantum q2 from here
          let k2 := shiftNat k (max q q2 - q2)
          (.num neg (if sticky then k2 ||| 1 else k2) q2, sticky)

/-- The product of two elements with the zero-sign rule of R55: a zero product of two integer factors
is +0, and an integer zero counts as +0. -/
def prodExt (fa fb : Fmt) (a b : Ext) : Ext :=
  let p := (mulExt a b).1
  if p.isZero && fmtInt fa && fmtInt fb then .num false 0 0 else p

/-- An element scaled by E8M0 entry t (R41, R49). -/
def scaleExt (x : Ext) (t : Nat) : Ext :=
  match x with
  | .num s m e => .num s m (e + t - 127)
  | y => y

/-! ### Quantisation (R52) -/

/-- QMAX_F as m * 2^e. -/
def qmax : Fmt → Nat × Int
  | .e4m3 => (7, 6)
  | .e5m2 => (7, 13)
  | .e2m1 => (3, 1)
  | .int8 => (127, 0)
  | _ => (7, 0)

/-- Round to nearest even at F's precision, exponent unbounded above: as k * 2^q. -/
def rneu (f : Fmt) (m : Nat) (e : Int) : Nat × Int :=
  if fmtInt f then ((roundAt .rn false m e 0).1, 0)
  else if m = 0 then (0, 0)
  else
    let sh := fmtShape f
    let q := max (leadExp m e - sh.fbits) (1 - (sh.bias : Int) - sh.fbits)
    ((roundAt .rn false m e q).1, q)

/-- The result of QUANT: index, elements, blocksat, blockzero, and NV. -/
structure Quant where
  idx  : Nat
  q    : List Nat
  sat  : Bool
  zer  : Bool
  nv   : Bool
  deriving DecidableEq, Repr

/-- Entry j of a table image (R50). -/
def tabEntry (t : BitVec 128) (j : Nat) : Nat := fld t (8 * j + 7) (8 * j)

/-- Some entry of the table is valid (R41). -/
def tabValid (t : BitVec 128) : Bool := (List.range 16).any fun j => tabEntry t j != 255

/-- The best of a list of indices by `better`, the first of equals. -/
def bestBy (better : Nat → Nat → Bool) : List Nat → Option Nat
  | [] => none
  | j :: r => some (r.foldl (fun b k => if better k b then k else b) j)

/-- QUANT of R52, for a table with a valid entry; of R53 where an Inf saturates, see notes/assumptions/87.md. -/
def quant (xs : List Ext) (f : Fmt) (t : BitVec 128) : Quant :=
  let amax := xs.foldl (fun (a : Nat × Int) x => match x with
    | .num _ m e => if magLe m e a.1 a.2 then a else (m, e)
    | _ => a) (0, 0)
  let valid := (List.range 16).filter fun j => tabEntry t j != 255
  let (qm, qe) := qmax f
  let fit := valid.filter fun j =>
    let (k, q) := rneu f amax.1 (amax.2 + 127 - tabEntry t j)
    magLe k q qm qe
  let anyInf := xs.any fun x => match x with | .inf _ => true | _ => false
  let (j, sat) := match bestBy (fun a b => tabEntry t a < tabEntry t b) fit with
    | some j => (j, anyInf)
    | none => ((bestBy (fun a b => tabEntry t b < tabEntry t a) valid).getD 0, true)
  let w := fmtWidth f
  let enc (neg : Bool) (k : Nat) (q : Int) : Nat :=
    if k = 0 then 0
    else if fmtInt f then (if neg then (2 ^ w - shiftNat k q) % 2 ^ w else shiftNat k q)
    else packFloat f neg k q
  let one (x : Ext) : Nat := match x with
    | .nan _ => if f == .e4m3 || f == .e5m2 then nanBits f else 0
    | .inf neg => enc neg qm qe
    | .num neg m e =>
      let (k, q) := rneu f m (e + 127 - tabEntry t j)
      if magLe k q qm qe then enc neg k q else enc neg qm qe
  let qs := xs.map one
  { idx := j, q := qs, sat := sat, zer := amax.1 != 0 && qs.all (· == 0)
    nv := xs.any Ext.isNan && !(f == .e4m3 || f == .e5m2) }

/-! ### CRC-32C (11_tile.md R248) -/

def crcBit (c : Nat) : Nat := if c % 2 = 1 then (c >>> 1) ^^^ 0x82F63B78 else c >>> 1

def crcByte (c : Nat) (b : Byte) : Nat :=
  let c := c ^^^ b.toNat
  crcBit (crcBit (crcBit (crcBit (crcBit (crcBit (crcBit (crcBit c)))))))

def crcUpdate (c : Nat) (l : List Byte) : Nat := l.foldl crcByte c

def crc32c (l : List Byte) : Nat := (crcUpdate 0xFFFFFFFF l) ^^^ 0xFFFFFFFF

end Sys2Proof.Machine
end

