-- ==== Sys2Proof/Machine/Base.lean ====
section
/-!
DEFINITION. Base.lean: the named operations over the package and a core: cores by number, time, rings,
physical addresses, page walks, the tile store, the stair sequencer, what lands at the end of a cycle.
-/
namespace Sys2Proof.Machine

/-! ### Agents and cores (02_device.md R17) -/

def agentNo : Agent → Nat
  | .compute n => n.val
  | .service h => 256 + h.val
  | .mgmt => 288

def agentOf (n : Nat) : Agent :=
  if h : n < 256 then .compute ⟨n, h⟩
  else if h : n - 256 < 32 then .service ⟨n - 256, h⟩
  else .mgmt

/-- A compute core's number. -/
def isCompute (n : Nat) : Bool := n < 256

/-- The hall of a compute or service core. -/
def hallOf (n : Nat) : Nat := if n < 256 then n / 8 else n - 256

/-- The compute die an agent belongs to; the management pair is on an I/O die, here 4, which holds no RDC (R16). -/
def dieOf (n : Nat) : Nat := if n < 256 then n / 64 else if n < 288 then (n - 256) / 8 else 4

/-- The list with `v` at key `k`, keys rising. -/
def insertCore (l : List (Nat × Core)) (k : Nat) (v : Core) : List (Nat × Core) :=
  match l with
  | [] => [(k, v)]
  | (a, u) :: r =>
    if k < a then (k, v) :: (a, u) :: r
    else if a = k then (k, v) :: r
    else (a, u) :: insertCore r k v

/-- Core `n`; one that is not listed is as at reset. -/
def coreOf (s : State) (n : Nat) : Core := (alGet s.cores n).getD Core.zero

def setCore (s : State) (n : Nat) (c : Core) : State := { s with cores := insertCore s.cores n c }

def modCore (s : State) (n : Nat) (f : Core → Core) : State := setCore s n (f (coreOf s n))

/-- The number of the kernel that core `n` runs; one no kernel has yet for a core without one. -/
def kernelNo (s : State) (n : Nat) : Nat := (coreOf s n).kernel.getD s.nextKernel

/-- The privilege level is H or above (R278). -/
def privileged (n : Nat) : Bool := !isCompute n

/-! ### Time (00_scope.md R5) -/

/-- One cycle in units of 1/252 tick. -/
def period (op : Nat) : Nat :=
  match op with
  | 0 => 252 | 1 => 280 | 2 => 315 | 3 => 360 | 4 => 420 | _ => 504

/-- GTC in ticks. -/
def tickOf (s : State) : Nat := s.now / 252

/-- The operating point of an agent's clock (R380); the management core runs at the lowest-numbered one
in force. -/
def opOf' (s : State) (n : Nat) : Nat :=
  if n < 288 then (s.dies.toList.getD (dieOf n) Die.zero).op.val
  else s.dies.toList.foldl (fun a d => min a d.op.val) 5

def periodOf (s : State) (n : Nat) : Nat := period (opOf' s n)

/-- The first cycle boundary of `p` at or after `t`, and the first after it. -/
def boundaryAt (t p : Nat) : Nat := (t + p - 1) / p * p
def boundaryAfter (t p : Nat) : Nat := (t / p + 1) * p

/-- The grain of R332 in ticks. -/
def grain (op : Nat) : Nat :=
  match op with
  | 0 => 1 | 1 => 10 | 2 => 5 | 3 => 10 | 4 => 5 | _ => 2

/-- CAP_n of core `n` at its operating point (R376). -/
def ownCap (s : State) (n : Nat) : Nat := ((coreOf s n).caps.toList.getD (opOf' s n) 0).toNat

/-- Core `n` is one of a pair: its kernel runs paired (R309, R321). -/
def inPair (s : State) (n : Nat) : Bool :=
  match (coreOf s n).kernel with
  | none => false
  | some k => s.kernels.any fun x => x.id == k && x.record.getLsbD 74

/-- Core `n` leads a pair. -/
def leadsPair (s : State) (n : Nat) : Bool := n % 2 == 0 && inPair s n

/-- Two cores run the words of agent `n`: a compute pair, a service core pair, the management core pair (R392). -/
def isPaired (s : State) (n : Nat) : Bool := !isCompute n || leadsPair s n

/-- CAPROWS of an agent: CAP_n, for a pair the lesser of its two cores' (R376, R393), 64 on a service core. -/
def capRows (s : State) (n : Nat) : Nat :=
  if !isCompute n then 64
  else if inPair s n then min (ownCap s (n / 2 * 2)) (ownCap s (n / 2 * 2 + 1))
  else ownCap s n

/-! ### The link table's entries (20_link.md R352) -/

def linkAt (s : State) (p : Nat) : Link := s.links.toList.getD p Link.zero

def modLink (s : State) (p : Nat) (f : Link → Link) : State :=
  { s with links := s.links.setIfInBounds p (f (linkAt s p)) }

def setField (l : Link) (hi lo v : Nat) : Link := { l with entry := putFld l.entry hi lo v }

/-- ERRS rises, stopping at 0xFFFF. -/
def countErr (l : Link) : Link := setField l 15 0 (min (fld l.entry 15 0 + 1) 0xFFFF)

def lState (s : State) (p : Nat) : Nat := fld (linkAt s p).entry 63 61
def lPeer (s : State) (p : Nat) : Nat := fld (linkAt s p).entry 55 40
def lLat (s : State) (p : Nat) : Nat := fld (linkAt s p).entry 31 16

/-- A UALink port; the others are Ultra Ethernet ports (R352). -/
def isUaLink (p : Nat) : Bool := p < 16

/-- The I/O die of a port (R19). -/
def ioDieOf (p : Nat) : Nat := if p < 8 || p == 16 || p == 17 then 0 else 1

/-- A state in which a link carries traffic: Up, Aligned or Degraded. -/
def carries (l : Link) : Bool := let st := fld l.entry 63 61; st == 2 || st == 3 || st == 4

/-! ### Free values -/

/-- The `i`-th value the spec leaves open that this step draws. -/
def freeVal (s : State) (i w : Nat) : BitVec w := (Config.freeBits (s.fresh * 2 ^ 64 + i)).setWidth w

/-- The free values of place `i`, each of its own. -/
def freeDraw (s : State) (i : Nat) (j : Nat) : BitVec 32768 := freeVal s (2 ^ 50 * (j + 1) + i) 32768

/-! ### Result rings (05_word.md R68 to R73) -/

/-- The ring of a unit. -/
def ringOf (c : Core) (u : RingId) : Ring := c.rings.toList.getD (unitNo u) Ring.zero

def setRing (c : Core) (u : RingId) (r : Ring) : Core :=
  { c with rings := c.rings.setIfInBounds (unitNo u) r }

/-- The physical latch that `u.qn` names. -/
def physical (r : Ring) (n : Fin 8) : Fin 8 := r.ptr + n

def latchAt (r : Ring) (p : Fin 8) : Latch := r.latches[p]

/-- The latch `u.qn` names. -/
def latchOf (c : Core) (u : RingId) (n : Fin 8) : Latch :=
  let r := ringOf c u
  latchAt r (physical r n)

/-- R72: the content is defined from its landing bound, or once the copy it waits for has ended. -/
def latchReady (c : Core) (l : Latch) : Bool := l.wait.isNone && l.due ≤ c.cyc

/-- R71: the ring turns by one latch, so that what was `u.q7` becomes `u.q0`. -/
def rotate (c : Core) (u : RingId) : Core :=
  let r := ringOf c u
  setRing c u { r with ptr := r.ptr - 1 }

/-- The width of a unit's latches (R68). -/
def ringWidth : RingId → Nat
  | .va | .vb | .x => 4096
  | _ => 64

/-- A result in `u.q0`, defined from `due`, replacing what was there or on its way (R71, R73). -/
def depositAt (c : Core) (u : RingId) (v : Vec) (due : Nat) (wait : Option Nat) : Core :=
  let r := ringOf c u
  let v := if ringWidth u = 64 then (v.setWidth 64).setWidth 4096 else v
  setRing c u { r with latches := r.latches.set r.ptr { val := v, due := due, wait := wait } }

/-- A result of latency `lat` (R72). -/
def deposit (c : Core) (u : RingId) (v : Vec) (lat : Nat) : Core := depositAt c u v (c.cyc + lat) none

def deposit64 (c : Core) (u : RingId) (v : BitVec 64) (lat : Nat) : Core :=
  deposit c u (v.setWidth 4096) lat

/-- The value of a latch already taken. -/
def fillLatch (c : Core) (u : RingId) (p : Fin 8) (v : Vec) : Core :=
  let r := ringOf c u
  setRing c u { r with latches := r.latches.set p { latchAt r p with val := v } }

/-- What the word of cycle `k` writes or sends joins that cycle's signature, or, once that has been compared, the next
word's (R392). A core that forms no signatures holds none. See notes/assumptions/71.md. -/
def signMore (c : Core) (k : Nat) (l : List Byte) : Core :=
  if c.sigs.any fun x => x.cycle == k && x.word then
    { c with sigs := c.sigs.map fun x =>
        if x.cycle == k && x.word then { x with lead := BitVec.ofNat 32 (crc32c (toBytes 4 x.lead.toNat ++ l)) } else x }
  else if c.sigs.isEmpty then c
  else { c with owed := c.owed ++ l }

/-- The value of a copy's result lands in its latch, unless the latch was taken (R73, R242). -/
def landIn (c : Core) (slot : Option (RingId × Fin 8)) (id : Nat) (v : BitVec 64) : Core :=
  match slot with
  | none => c
  | some (u, p) =>
    let r := ringOf c u
    if (latchAt r p).wait = some id then
      setRing (signMore c c.cyc (toBytes 8 v.toNat)) u { r with latches := r.latches.set p { val := v.setWidth 4096, due := c.cyc, wait := none } }
    else c

/-! ### Physical addresses (19_page.md R341) -/

def gib : Nat := 2 ^ 30

/-- The space of an address, and its offset. -/
def spaceOf (pa : Nat) : Nat := pa / 2 ^ 40
def offsetOf (pa : Nat) : Nat := pa % 2 ^ 40

/-- Bytes populated in a space. -/
def populated (sp : Nat) : Nat := if sp < 4 then 96 * gib else if sp < 6 then 384 * gib else 0

/-- The package pseudo-channel of segment g (R251). -/
def pseudoOf (g : Nat) : Nat := 384 * (g % 8) + ((g / 8) % 384)

def isPcLocal (pa : Nat) : Bool := spaceOf pa == 5

/-- The home die of a byte (R341, R251), for granule code `gran`. -/
def homeDie (pa gran : Nat) : Nat :=
  match spaceOf pa with
  | 4 => offsetOf pa / (4096 * 2 ^ gran) % 4
  | 5 => offsetOf pa / 2048 % 8 / 2
  | sp => sp

/-! ### Handles (19_page.md R346) -/

def hValid (h : Handle) : Bool := h.w0.getLsbD 63
def hRevoked (h : Handle) : Bool := h.w0.getLsbD 62
def hPsz (h : Handle) : Nat := fld h.w0 61 60
def hRead (h : Handle) : Bool := h.w0.getLsbD 59
def hWrite (h : Handle) : Bool := h.w0.getLsbD 58
def hAbsent (h : Handle) : Bool := h.w0.getLsbD 57
def hGran (h : Handle) : Nat := fld h.w0 56 53
def hBase (h : Handle) : Nat := fld h.w0 43 16 * 65536
def hVa (h : Handle) : Nat := fld h.w1 47 16 * 65536
def pageSize (psz : Nat) : Nat := match psz with | 0 => 65536 | 1 => 2 ^ 21 | _ => 2 ^ 30
def hSize (h : Handle) : Nat := pageSize (hPsz h)

/-- A Present handle (R346). -/
def hPresent (h : Handle) : Bool := hValid h && !hAbsent h

def mkHandle (psz : Nat) (rd wr : Bool) (gran pa va : Nat) : Handle :=
  { w0 := BitVec.ofNat 64 ((1 <<< 63) + (psz <<< 60) + (rd.toNat <<< 59) + (wr.toNat <<< 58)
      + (gran <<< 53) + pa / 65536 * 65536)
    w1 := BitVec.ofNat 64 (va / 65536 % 2 ^ 32 * 65536) }

def absentHandle (va : Nat) : Handle :=
  { w0 := BitVec.ofNat 64 ((1 <<< 63) + (1 <<< 57)), w1 := BitVec.ofNat 64 (va / 65536 % 2 ^ 32 * 65536) }

/-! ### Page walks (19_page.md R342 to R345) -/

/-- The hint record whose range holds `va` (R344). -/
def hintOf (s : State) (ctx : Fin 32) (va : Nat) : Option (BitVec 256) :=
  s.contexts[ctx].hints.find? fun r =>
    fld r 47 0 ≤ va && va < fld r 47 0 + fld r 127 64

/-- What a walk finds: the leaf's address, its level 1 to 3 and its content. -/
structure Leaf where
  at_   : Nat
  psz   : Nat
  entry : BitVec 64
  deriving DecidableEq, Repr

/-- A page frame lies wholly in populated space and is aligned to its size (R341, R342). -/
def frameOk (frame psz : Nat) : Bool :=
  frame % pageSize psz == 0 && offsetOf frame + pageSize psz ≤ populated (spaceOf frame)

/-- One entry, read at its home. -/
def readEntry (s : State) (a : Nat) : BitVec 64 := BitVec.ofNat 64 (ofBytes (memRead s.mem a 8))

/-- An entry is present and well formed (R343). -/
def entryOk (e : BitVec 64) : Bool :=
  e.getLsbD 63 && fld e 62 61 ≤ 1 && fld e 58 56 ≤ 4 && fld e 55 44 == 0 && fld e 7 0 == 0

/-- The walk from the table at `base`, levels still to go (R342, R343); `none`: not present. -/
def walkFrom (s : State) (va : Nat) : Nat → Nat → Nat → Option Leaf
  | 0, _, _ => none
  | fuel + 1, level, base =>
    let idx := match level with | 1 => va / 2 ^ 30 % 2 ^ 18 | 2 => va / 2 ^ 21 % 512 | _ => va / 2 ^ 16 % 32
    let a := base + 8 * idx
    let e := readEntry s a
    let addr := fld e 43 8 * 256
    if !entryOk e then none
    else if fld e 62 61 = 1 then
      let psz := 3 - level
      if frameOk addr psz then some { at_ := a, psz := psz, entry := e } else none
    else if level = 3 then none
    else
      let size := if level = 1 then 4096 else 256
      if addr % size = 0 && offsetOf addr + size ≤ populated (spaceOf addr) then walkFrom s va fuel (level + 1) addr
      else none

/-! ### The fields of page-table entries are RW-F (R8, R342) -/

/-- The tables that the entries of a table of `n` bytes at `base` name, each of `size` bytes. -/
def tablesOf (s : State) (base n size : Nat) : List (Nat × Nat) :=
  s.mem.filterMap fun c =>
    let e := readEntry s (c.1 - 7)
    if base + 7 ≤ c.1 && c.1 < base + n && (c.1 - base) % 8 == 7 && entryOk e && fld e 62 61 == 0 then
      some (fld e 43 8 * 256, size)
    else none

/-- The page tables of a context, as (address, bytes). -/
def ctxTables (s : State) (x : Context) : List (Nat × Nat) :=
  let l2 := tablesOf s x.root.toNat (2 ^ 21) 4096
  (x.root.toNat, 2 ^ 21) :: l2 ++ l2.flatMap fun t => tablesOf s t.1 4096 256

/-- `n` bytes at an address meet a page table of a context: only privilege F writes them. -/
def inTables (s : State) (pa n : Nat) : Bool :=
  s.contexts.toList.any fun x => x.st != .free && (ctxTables s x).any fun t => pa < t.1 + t.2 && t.1 < pa + n

def walk (s : State) (ctx : Fin 32) (va : Nat) : Option Leaf :=
  walkFrom s va 3 1 s.contexts[ctx].root.toNat

/-- The granule code a binding of `va` carries (R345). -/
def granOf (s : State) (ctx : Fin 32) (va : Nat) : Nat :=
  match hintOf s ctx va with
  | some r => if fld r 165 164 = 1 then fld r 171 168 else 0
  | none => 0

/-- The handle a walk of `va` leaves (R343, R349). -/
def bindOf (s : State) (ctx : Fin 32) (va : Nat) : Handle :=
  match walk s ctx va with
  | none => absentHandle va
  | some l =>
    mkHandle l.psz (l.entry.getLsbD 60) (l.entry.getLsbD 59) (granOf s ctx va) (fld l.entry 43 8 * 256)
      (va / pageSize l.psz * pageSize l.psz)

/-- A core's cached leaf that covers `va` (R343), as the handle it gives. -/
def cached (c : Core) (va : Nat) : Option Handle :=
  ((c.tcache.find? fun e =>
      let sz := pageSize (fld e.2 61 60)
      e.1.toNat ≤ va && va < e.1.toNat + sz).map fun e => ⟨e.2, BitVec.ofNat 64 (e.1.toNat)⟩)

/-- The result of the walk a frozen word waited for. -/
def walkedAt (c : Core) (va : Nat) : Option Handle :=
  (c.walked.find? fun e => e.1.toNat == va / 65536 * 65536).map (·.2)

/-- The context a compute core's copies belong to; context 0 for one without. -/
def ctxOf (c : Core) : Fin 32 := c.ctx.getD 0

/-- The context whose pages agent `n` walks: a compute core its own; a service core in its handler the one of the core
whose record it holds; otherwise none (R278, R402). See notes/assumptions/27.md. -/
def walkCtx (s : State) (n : Nat) : Option (Fin 32) :=
  let c := coreOf s n
  if isCompute n then some (ctxOf c)
  else if n < 288 && c.handler then (coreOf s (8 * (n - 256) + fld c.traprec 42 40)).ctx
  else none

/-- What agent `n`'s walk of `va` leaves. -/
def bindFor (s : State) (n va : Nat) : Handle :=
  match walkCtx s n with
  | some x => bindOf s x va
  | none => absentHandle va

/-! ### Dies -/

def dieAt (s : State) (d : Nat) : Die := s.dies.toList.getD d Die.zero

def setDie (s : State) (d : Nat) (x : Die) : State := { s with dies := s.dies.setIfInBounds d x }

/-! ### Tile store (02_device.md R20, 11_tile.md R229) -/

/-- A descriptor's fields (R228). -/
def tBase (a : BitVec 64) : Nat := fld a 11 0
def tRows (a : BitVec 64) : Nat := fld a 23 12
def tErows (a : BitVec 64) : Nat := fld a 35 24
def tElems (a : BitVec 64) : Nat := fld a 49 36
def tFmt (a : BitVec 64) : Fmt := decodeFmt (BitVec.ofNat 3 (fld a 52 50))
def tScaled (a : BitVec 64) : Bool := a.getLsbD 53
/-- Its elements have scale factors: FP32, BF16 and INT32 elements never do (R47). -/
def tFactors (a : BitVec 64) : Bool := tScaled a && !(tFmt a == .fp32 || tFmt a == .bf16 || tFmt a == .int32)
def tStride (b : BitVec 64) : Nat := fld b 31 0
def tScoff (b : BitVec 64) : Nat := fld b 43 32
/-- RB, P, SP and MB of R229. -/
def tRB (a : BitVec 64) : Nat := tElems a * fmtWidth (tFmt a) / 8
def tP (a : BitVec 64) : Nat := (tRB a + 31) / 32 * 32
def tSP (a : BitVec 64) : Nat := if tScaled a then 4 * ((tElems a + 255) / 256) else 0
def tMB (a : BitVec 64) : Nat := tRB a + tSP a

/-- A tile-store address is 4096 * row + byte. -/
def tileAddr (a : BitVec 64) (off : Nat) : Nat := 4096 * tBase a + off

def tileByte (c : Core) (x : Nat) : Byte :=
  BitVec.ofNat 8 ((spGet c.tile (x / 4096)).toNat >>> (8 * (x % 4096)))

def tileUndef (c : Core) (x : Nat) : Bool := (spGet c.undef (x / 4096)).getLsbD (x % 4096)

/-- The tile register a copy is writing, if any. -/
def copyWrites (k : CopyKind) : Option (Fin 64) :=
  match k with
  | .tld t | .bkc t | .tfill t _ _ => some t
  | .tcpy td _ => some td
  | _ => none

/-- Result tile registers of the running routine: (register) (R209). -/
def resultTiles (r : Routine) : List Nat :=
  ((List.range 10).filter fun f => fld r.entry (3 * f + 2) (3 * f) == 4).map fun f =>
    fld (r.mp[0]) (6 * f + 5) (6 * f)

/-- Declared tile registers of a routine entry, as (tile field, register, role). -/
def declared (entry mp0 : BitVec 64) : List (Nat × Nat × Nat) :=
  ((List.range 10).filter fun f => fld entry (3 * f + 2) (3 * f) != 0).map fun f =>
    (f, fld mp0 (6 * f + 5) (6 * f), fld entry (3 * f + 2) (3 * f))

/-- A descriptor's data and scale areas as (address, length) (R229). -/
def areasOf (a b : BitVec 64) : List (Nat × Nat) :=
  (tileAddr a 0, tErows a * tP a) ::
    (if tScaled a then [(tileAddr a (4096 * tScoff b), tErows a * tSP a)] else [])

/-- An access in progress: the tile register it writes through, and the areas that it is writing (R445). -/
abbrev Open := Nat × List (Nat × Nat)

/-- The copies that write the tile store, as accesses in progress. -/
def openCopies (c : Core) : List Open :=
  c.copies.filterMap fun k => (copyWrites k.kind).map fun u => (u.val, areasOf k.a k.b)

/-- Every access in progress (R445): copies, the routine for its result tiles, `mlsf.t`, and an `xput` unit in the
cycle in which it is written. -/
def openOf (c : Core) : List Open :=
  openCopies c ++
  (match c.mx.run with
   | some r => (resultTiles r).map fun u => let d := c.t.toList.getD u TileReg.zero; (u, areasOf d.a d.b)
   | none => []) ++
  c.pend.filterMap fun e => match e.act with
    | .lsf u bs | .arrive u bs => some (u.val, [((bs.map (·.1)).headD 0, bs.length)])
    | _ => none

/-- The bits, of `n` bytes from `x`, of those that the accesses through registers that `p` picks are writing. -/
def coverOf (l : List Open) (p : Nat → Bool) (x n : Nat) : Nat :=
  (l.filter fun o => p o.1).foldl (fun m o => o.2.foldl (fun m r =>
    let lo := max x r.1
    let hi := min (x + n) (r.1 + r.2)
    if lo < hi then m ||| ((2 ^ (hi - lo) - 1) <<< (lo - x)) else m) m) 0

/-- A read through register `t` of tile-store address `x` meets bytes that another access writes
(R128, R232, R445). -/
def beingWritten (c : Core) (t : Nat) (x : Nat) : Bool := coverOf (openOf c) (· != t) x 1 != 0

/-- Of `n` bytes, those marked and chosen stay as they were. -/
def mixBytes (marks free old new : Nat) : Nat → Nat
  | 0 => 0
  | n + 1 => mixBytes marks free old new n +
      ((if marks.testBit n && free.testBit (8 * n) then old else new) >>> (8 * n) % 256) <<< (8 * n)

/-- The marks of `k` bytes from `x`, within one row. -/
def marksAt (m : Sparse 4096) (x k : Nat) : Nat := (spGet m (x / 4096)).toNat >>> (x % 4096) % 2 ^ k

/-- Those marks replaced; a list that does not change stays as it is. -/
def setMarks (m : Sparse 4096) (x k v : Nat) : Sparse 4096 :=
  if marksAt m x k = v then m
  else spSet m (x / 4096) (putFld (spGet m (x / 4096)) (x % 4096 + k - 1) (x % 4096) v)

/-- The parts of `n` bytes from `x` that lie in one row each, as (address, length). -/
def rowPieces (x n : Nat) : List (Nat × Nat) :=
  if n = 0 then []
  else (List.range ((x % 4096 + n + 4095) / 4096)).map fun i =>
    let lo := max x (4096 * (x / 4096 + i))
    (lo, min (x + n) (4096 * (x / 4096 + i + 1)) - lo)

/-- `k` bytes written at `x`, within one row, through register `t`, `l` being the accesses in progress. A byte that
another access has written while both were in progress keeps its byte or takes the new one, as `fv` chooses
(R232, R445). -/
def putPiece (l : List Open) (t : Nat) (fv : BitVec 32768) (c : Core) (x k v : Nat) : Core :=
  let q := x / 4096
  let o := x % 4096
  let here := coverOf l (fun _ => true) x k
  let others := coverOf l (· != t) x k
  let both := (marksAt c.mixed x k ||| (marksAt c.wrote x k &&& others)) &&& here
  let w := if both = 0 then v
    else mixBytes both (fv.toNat >>> (8 * o)) ((spGet c.tile q).toNat >>> (8 * o)) v k
  { c with
    tile := spSet c.tile q (putFld (spGet c.tile q) (8 * (o + k) - 1) (8 * o) w)
    undef := setMarks c.undef x k 0
    wrote := setMarks c.wrote x k here
    mixed := setMarks c.mixed x k ((marksAt c.mixed x k &&& here) ||| others)
    tPoison := c.tPoison.filter fun g => !(x ≤ g && g + 8 ≤ x + k) }

/-- `n` bytes written at tile-store address `x`. -/
def putRun (l : List Open) (t : Nat) (fv : BitVec 32768) (c : Core) (x n v : Nat) : Core :=
  (rowPieces x n).foldl (fun c p => putPiece l t fv c p.1 p.2 (v >>> (8 * (p.1 - x)))) c

/-- Bytes written at addresses; a granule they overwrite whole is no longer poisoned. -/
def putBytes (l : List Open) (t : Nat) (fv : BitVec 32768) (c : Core) (bs : List (Nat × Byte)) : Core :=
  let c := bs.foldl (fun c e => putPiece l t fv c e.1 1 e.2.toNat) c
  { c with tPoison := c.tPoison.filter fun g => !(List.range 8).all fun i => bs.any fun e => e.1 == g + i }

/-- The marks of `n` bytes from `x` in `undef` become `v`. -/
def markUndef (c : Core) (v : Bool) (x n : Nat) : Core :=
  { c with undef := (rowPieces x n).foldl (fun m p => setMarks m p.1 p.2 (if v then 2 ^ p.2 - 1 else 0)) c.undef }

/-- A store of the core's own through register `t` (R82): a byte that another access is writing becomes
undefined until it is next written (R128). -/
def tileStoreBytes (t : Nat) (fv : BitVec 32768) (c : Core) (bs : List (Nat × Byte)) : Core :=
  let l := openOf c
  let clash := bs.filter fun e => coverOf l (· != t) e.1 1 != 0
  clash.foldl (fun c e => { c with undef := setMarks c.undef e.1 1 1 }) (putBytes l t fv c bs)

/-- An access through register `t` to `n` bytes from `x` begins: what earlier accesses wrote there is past, but what an
access still in progress has written there is written by both (R445). -/
def openPiece (l : List Open) (t : Nat) (c : Core) (x k : Nat) : Core :=
  let others := coverOf l (· != t) x k
  { c with wrote := setMarks c.wrote x k (marksAt c.wrote x k &&& others)
           mixed := setMarks c.mixed x k ((marksAt c.mixed x k ||| marksAt c.wrote x k) &&& others) }

def openRun (t : Nat) (c : Core) (x n : Nat) : Core :=
  let l := openOf c
  (rowPieces x n).foldl (fun c p => openPiece l t c p.1 p.2) c

/-- The areas of a descriptor are opened. -/
def openArea (c : Core) (t : Nat) (a b : BitVec 64) : Core := (areasOf a b).foldl (fun c m => openRun t c m.1 m.2) c

/-- A byte as a tile-store access of register `t` reads it; `fv` supplies what is undefined, one value for bytes at one
offset of different rows: see notes/assumptions/7.md. -/
def readTile (c : Core) (t : Nat) (fv : BitVec 32768) (x : Nat) : Byte :=
  if tileUndef c x || beingWritten c t x || c.tPoison.contains (x / 8 * 8) then
    BitVec.ofNat 8 (fv.toNat >>> (8 * (x % 4096)))
  else tileByte c x

/-! ### Asynchronous causes (14_context.md R282, R283) -/

/-- The order in which pending causes are taken. -/
def asyncOrder : List Nat := [0x0F, 0x0E, 0x0D, 0x12, 0x10, 0x11]

/-- The pending cause taken next, of those not held for a landing. -/
def nextCause (l : List Cause) : Option Cause :=
  asyncOrder.findSome? fun k => l.find? fun x => x.code.toNat == k && !x.held

/-- A cause becomes pending; one that is pending already stays, and is held only while both are. -/
def addCause (c : Core) (code : Nat) (detail : BitVec 32) (held : Bool) : Core :=
  if c.causes.any fun x => x.code.toNat == code then
    { c with causes := c.causes.map fun x =>
        if x.code.toNat == code && x.held && !held then { x with detail := detail, held := false } else x }
  else { c with causes := c.causes ++ [{ code := BitVec.ofNat 8 code, detail := detail, held := held }] }

/-- Consumption of a poisoned granule (22_reliability.md R389). -/
def consume (c : Core) (store : Nat) : Core := addCause c 0x0E (BitVec.ofNat 32 store) false

/-! ### Stair sequencer (05_word.md R88 to R94) -/

def flightAt (st : Stair) (k : Nat) : Flight := st.flights.toList.getD k Flight.zero

/-- iters_k (R88). -/
def iters (st : Stair) (k : Nat) : Nat :=
  (flightAt st k).count.toNat + (if k = 0 && st.stages != 0 then st.stages.toNat - 1 else 0)

/-- The value of walk register w (R89). -/
def walkVal (c : Core) (w : Fin 4) : BitVec 64 :=
  (List.range c.stair.running.toNat).foldl (fun a k =>
    let f := flightAt c.stair k
    a + (f.idx.setWidth 64) * f.stride[w]) c.walk[w]

/-- A pipelined stair runs. -/
def pipelined (c : Core) : Bool := c.stair.running != 0 && c.stair.stages != 0

/-- Predicate `p`n as a word reads it (R80, R93). -/
def predVal (c : Core) (n : Fin 16) : Bool :=
  if n.val = 0 then true
  else if 12 ≤ n.val && pipelined c then
    let f := flightAt c.stair 0
    let j := n.val - 12
    j < c.stair.stages.toNat && j ≤ f.idx.toNat && f.idx.toNat + 1 ≤ j + f.count.toNat
  else c.p.getLsbD n.val

/-- Mask `mk`n as a word reads it (R79). -/
def maskVal (c : Core) (n : Fin 8) : BitVec 128 := if n.val = 0 then BitVec.allOnes 128 else c.msk[n]

/-- A predicate is written, unless it is `p0`, or a stage predicate while a pipelined stair runs (R79, R93). Whether the
stair runs is judged as the write lands, in the choice of notes/assumptions/15.md. -/
def writePred (c : Core) (n : Fin 16) (b : Bool) : Core :=
  if n.val = 0 || (12 ≤ n.val && pipelined c) then c else { c with p := putFld c.p n.val n.val b.toNat }

def writeMask (c : Core) (n : Fin 8) (v : BitVec 128) : Core :=
  if n.val = 0 then c else { c with msk := c.msk.set n v }

/-- The stair ends: bases take the walk registers' values, indices become 0, stage predicates false
(R89, R93). -/
def endStair (c : Core) : Core :=
  if c.stair.running = 0 then c
  else
    let w := Vector.ofFn fun i => walkVal c i
    { c with walk := w
             p := if pipelined c then c.p &&& 0x0FFF#16 else c.p
             stair := { c.stair with running := 0, flights := c.stair.flights.map fun f => { f with idx := 0 } } }

def setIdx (st : Stair) (k : Nat) (v : BitVec 33) : Stair :=
  { st with flights := st.flights.setIfInBounds k { flightAt st k with idx := v } }

/-- L + 1 in the word's bank (R65). -/
def pcNext (pc : BitVec 12) : BitVec 12 := pc.extractLsb' 11 1 ++ (pc.extractLsb' 0 11 + 1)

/-- `pc` plus an offset, in its bank. -/
def pcPlus (pc : BitVec 12) (off : BitVec 11) : BitVec 12 := pc.extractLsb' 11 1 ++ (pc.extractLsb' 0 11 + off)

/-- NEXT of R91: the flight that loops back, from flight k on. -/
def loopBack (st : Stair) (pc : BitVec 12) (n : Nat) : Nat → Nat → Option Nat
  | 0, _ => none
  | fuel + 1, k =>
    if k < n then
      if (flightAt st k).last = pc && (flightAt st k).idx.toNat + 1 < iters st k then some k
      else loopBack st pc n fuel (k + 1)
    else none

/-- How a committed word moves the sequencer. -/
inductive Ctl where
  | seq
  | branch (target : BitVec 12)
  | stair (n : Nat)
  | sbrk
  | ret
  deriving DecidableEq, Repr

/-- The handler ends: the saved PC and branch state are restored (R285). -/
def leaveHandler (c : Core) : Core :=
  { c with pc := (c.ret.map (·.1)).getD c.pc, delay := (c.ret.map (·.2)).getD none, ret := none
           handler := false, returning := false, tcache := [], walked := [] }

/-- The PC state after a committed word (R65, R91, R92, R129). -/
def advance (c : Core) (k : Ctl) : Core :=
  match c.delay with
  | some d =>
    if d.left.toNat ≤ 1 then
      if c.returning then leaveHandler c else { c with pc := d.target, delay := none }
    else { c with pc := pcNext c.pc, delay := some { d with left := 1 } }
  | none =>
    match k with
    | .branch t => { endStair c with pc := pcNext c.pc, delay := some { left := 2, target := t } }
    | .ret =>
      { endStair c with pc := pcNext c.pc, returning := true
                        delay := some { left := 2, target := (c.ret.map (·.1)).getD 0 } }
    | .stair n =>
      { c with pc := pcNext c.pc
               stair := { c.stair with running := BitVec.ofNat 3 n
                                       flights := c.stair.flights.map fun f => { f with idx := 0 } } }
    | .sbrk => { endStair c with pc := pcNext c.pc }
    | .seq =>
      let n := c.stair.running.toNat
      if n = 0 then { c with pc := pcNext c.pc }
      else
        match loopBack c.stair c.pc n 6 0 with
        | some k =>
          let st := (List.range k).foldl (fun st j => setIdx st j 0)
            (setIdx c.stair k ((flightAt c.stair k).idx + 1))
          { c with stair := st, pc := (flightAt c.stair k).first }
        | none =>
          if (flightAt c.stair (n - 1)).last = c.pc then { endStair c with pc := pcNext c.pc }
          else { c with pc := pcNext c.pc }

/-! ### What lands at the end of a cycle (R76, R82, R51) -/

def satAdd32 (a : BitVec 32) (n : Nat) : BitVec 32 := BitVec.ofNat 32 (min (a.toNat + n) 0xFFFFFFFF)

/-- `n` bytes as a lane value, sign-extended to 64 bits or not. -/
def extend (bs : List Byte) (sign : Bool) : BitVec 64 :=
  let w := 8 * bs.length
  let v := ofBytes bs
  if sign && v ≥ 2 ^ (w - 1) && w > 0 then BitVec.ofNat 64 (2 ^ 64 + v - 2 ^ w) else BitVec.ofNat 64 v

/-- The value a tile-store load delivers (R126, R166, R168): a scalar of `n` bytes, or 4 bytes a lane. -/
def loadVal (c : Core) (u : RingId) (t : Fin 64) (addrs : List (Option Nat)) (n : Nat) (sign : Bool)
    (fv : BitVec 32768) : Vec :=
  let word (o : Option Nat) (n : Nat) : List Byte := match o with
    | none => []
    | some a => (List.range n).map fun i => readTile c t.val fv (a + i)
  if u = .s then (extend (word (addrs.headD none) n) sign).setWidth 4096
  else BitVec.ofNat 4096 (packN 32 (fun i => ofBytes (word (addrs.getD i none) 4)) 128)

/-- Whether the bytes of a load hold a poisoned granule (R388). -/
def loadPoison (c : Core) (addrs : List (Option Nat)) (n : Nat) : Bool :=
  addrs.any fun o => match o with
    | none => false
    | some a => (List.range n).any fun i => c.tPoison.contains ((a + i) / 8 * 8)

/-- A load of `n` bytes at `x` that the matrix unit makes consumes the poison it meets (R388). -/
def consumeRead (c : Core) (x n : Nat) : Core := if c.tPoison.any (fun g => g < x + n && x < g + 8) then consume c 0 else c


/-- The reads of cycle c + 1 (R82), before its writes. -/
def applyRead (fv : BitVec 32768) (c : Core) (e : Pend) : Core :=
  match e.act with
  | .load u l t addrs n sign =>
    let r := ringOf c u
    let old := latchAt r l
    let c := if loadPoison c addrs n then consume c 0 else c
    let v := loadVal c u t addrs n sign fv
    signMore (setRing c u { r with latches := r.latches.set l { old with val := v } }) e.by_ (toBytes 512 v.toNat)
  | .tload col t addr land =>
    let c := consumeRead c addr 16
    let v := ofBytes ((List.range 16).map fun i => readTile c t.val fv (addr + i))
    signMore { c with pend := c.pend ++ [{ when_ := land, by_ := e.by_, act := .table col (BitVec.ofNat 128 v) }] } e.by_ (toBytes 16 v)
  | .uload ent t addr first n =>
    let c := consumeRead c addr (8 * n)
    let one (i : Nat) : BitVec 64 :=
      BitVec.ofNat 64 (ofBytes ((List.range 8).map fun j => readTile c t.val fv (addr + 8 * i + j)))
    let put (m : Sparse 64) : Sparse 64 := (List.range n).foldl (fun m i => spSet m (first + i) (one i)) m
    { c with mx := if ent then { c.mx with entries := put c.mx.entries } else { c.mx with ustore := put c.mx.ustore } }
  | _ => c

/-- A write landing at the end of a cycle; `fv` chooses where two accesses write a byte. -/
def applyWrite (fv : BitVec 32768) (c : Core) (e : Pend) : Core :=
  match e.act with
  | .s n v => { c with s := c.s.set n v }
  | .v n v => { c with v := c.v.set n v }
  | .p n b => writePred c n b
  | .mk n v => writeMask c n v
  | .walk n v => { c with walk := c.walk.set n v }
  | .mp n v => { c with mp := c.mp.set n v }
  | .hnd n h => { c with h := c.h.set n h }
  | .xlat n h rv => { c with h := c.h.set n (if rv then { h with w0 := (putFld h.w0 63 62 1) } else h) }
  | .tdef t a b =>
    { c with t := c.t.set t (if tRows a = 0 then TileReg.zero
        else { a := a, b := b, st := .defined, mem := .free, kept := 0 }) }
  | .flags f => { c with vflags := c.vflags ||| f }
  | .blocks sat zer => { c with bsat := satAdd32 c.bsat sat, bzero := satAdd32 c.bzero zer }
  | .entry col i v l =>
    let put (t : BitVec 128) := putFld t (8 * i.val + 7) (8 * i.val) v.toNat
    let old := tabEntry (if col then c.mx.colT else c.mx.rowT) i.val
    let c := signMore (fillLatch c .k l (BitVec.ofNat 4096 old)) e.by_ (toBytes 8 old)
    { c with mx := if col then { c.mx with colT := put c.mx.colT } else { c.mx with rowT := put c.mx.rowT } }
  | .cfg v l =>
    let c := signMore (fillLatch c .k l (c.mx.cfg.setWidth 4096)) e.by_ (toBytes 8 c.mx.cfg.toNat)
    { c with mx := { c.mx with cfg := v } }
  | .table col v => { c with mx := if col then { c.mx with colT := v } else { c.mx with rowT := v } }
  | .store t bs => tileStoreBytes t.val fv c bs
  | .lsf t bs =>
    let c := putBytes (openOf c) t.val fv c bs
    { c with t := c.t.set t { c.t[t] with st := .ready } }
  | _ => c

/-- An arriving unit is written. -/
def applyArrive (fv : BitVec 32768) (c : Core) (e : Pend) : Core :=
  match e.act with
  | .arrive t bs =>
    let c := putBytes (openOf c) t.val fv c bs
    { c with rowBusy := ((bs.map fun b => b.1 / 4096).eraseDups).foldl (fun l r => countSub l r 1) c.rowBusy }
  | _ => c

/-- Free values, by place. -/
abbrev Draw := Nat → BitVec 32768

/-- The end of cycle `k`: reads, then arrivals, then the other writes in issue order (R82, R270). What lands in the
cycle is still in progress while it does (R445): see notes/assumptions/19.md. -/
def landCycle (fv : Draw) (k : Nat) (c : Core) : Core :=
  let now := c.pend.filter fun e => e.when_ == k
  let c := now.foldl (applyRead (fv 0)) c
  let c := now.foldl (applyArrive (fv 1)) c
  let c := now.foldl (applyWrite (fv 2)) c
  { c with pend := c.pend.filter fun e => e.when_ != k }

/-- The last cycle anything in flight lands. -/
def lastPend (c : Core) : Nat := c.pend.foldl (fun a e => max a e.when_) 0

/-- Everything in flight lands, cycle by cycle, from cycle `k` on (R66). -/
def landAll (fv : Draw) : Nat → Nat → Core → Core
  | 0, _, c => c
  | n + 1, k, c => landAll fv n (k + 1) (landCycle fv k c)

/-- R66, R77: what was in flight at a freeze completes, and counts as landed. That this ends the wait of R78 as well is
the model's choice: see notes/assumptions/76.md. -/
def settle (fv : Draw) (c : Core) : Core :=
  let c := landAll fv (lastPend c + 7 - c.cyc) c.cyc c
  { c with mx := { c.mx with ucodeEnd := 0 }
           rings := c.rings.map fun r =>
      { r with latches := r.latches.map fun l => { l with due := min l.due c.cyc } } }

end Sys2Proof.Machine
end

