-- ==== Sys2Proof/Machine/Operands.lean ====
section
/-!
DEFINITION. Operands.lean: reading a source operand in every form (05_word.md R74, 06_encoding.md R99,
R100, 08_vector.md R147).

`vec` says that the slot is VA or VB; `fp` that the instruction reads the operand as FP32; `fv` supplies
a ring read inside the undefined window (R72).
-/
namespace Sys2Proof.Machine

/-- A small integer as a signed value: the field less 8 (R99). -/
def smallInt (v : BitVec 4) : Int := (v.toNat : Int) - 8

/-- A small integer exactly converted to FP32 (R100). -/
def smallFp (v : BitVec 4) : BitVec 32 :=
  let i := smallInt v
  BitVec.ofNat 32 (cvt (.num (i < 0) i.natAbs 0) .fp32 .rn false).val

/-- A latch as it reads now. -/
def latchVal (c : Core) (u : RingId) (n : Fin 8) (fv : BitVec 32768) : Vec :=
  let l := latchOf c u n
  if latchReady c l then l.val
  else if ringWidth u = 64 then (fv.setWidth 64).setWidth 4096 else fv.setWidth 4096

/-- A scalar operand as a 64-bit integer (R74, R100, R147). -/
def scalarVal (vec : Bool) (c : Core) (fv : BitVec 32768) : Src → BitVec 64
  | .reg n => if vec then c.v[n].setWidth 64 else c.s[n]
  | .latch u n => (latchVal c u n fv).setWidth 64
  | .small v => BitVec.ofInt 64 (smallInt v)
  | .imm25 v => v.signExtend 64
  | .imm18 v => v.signExtend 64
  | .core => c.coreIdx.setWidth 64
  | .lane => 0
  | .walk n => walkVal c n

/-- A vector operand (R74, R100). -/
def vectorVal (vec fp : Bool) (c : Core) (fv : BitVec 32768) : Src → Vec
  | .reg n => if vec then c.v[n] else splat (c.s[n].setWidth 32)
  | .latch u n =>
    let x := latchVal c u n fv
    if ringWidth u = 64 then splat (x.setWidth 32) else x
  | .small v => splat (if fp then smallFp v else BitVec.ofInt 32 (smallInt v))
  | .imm25 v => splat (if fp then v ++ 0#7 else v.signExtend 32)
  | .imm18 v => splat (if fp then v ++ 0#14 else v.signExtend 32)
  | .core => splat c.coreIdx
  | .lane => if vec then vecOf (fun i => BitVec.ofNat 32 i) else 0
  | .walk n => splat ((walkVal c n).setWidth 32)

/-- The selector as encoded, for DETAIL of fault 0x0B (R282). -/
def selectorOf (a : Src) : BitVec 7 := encodeSrc a

/-- The read of `a` meets a latch that is not yet defined (R72, R77, R78). -/
def srcEarly (c : Core) : Src → Bool
  | .latch u n => !latchReady c (latchOf c u n)
  | _ => false

/-- The predicate operand of R125. -/
def predOpVal (c : Core) (a : PredOp) : Bool := predVal c a.n != a.inv

/-- The mask operand of R158. -/
def maskOpVal (c : Core) (a : MaskOp) : BitVec 128 := if a.inv then ~~~ maskVal c a.n else maskVal c a.n

end Sys2Proof.Machine
end

