-- ==== Sys2Proof/Machine/Flags.lean ====
section
/-!
DEFINITION. Flags.lean: what each vector lane computes, with the sticky flags it raises
(03_numbers.md R43, R44; 08_vector.md R149 to R178).
-/
namespace Sys2Proof.Machine

/-- A lane's result and flags. -/
abbrev LaneRes := BitVec 32 × Flags

def fp (x : BitVec 32) : Ext := elemVal .fp32 x.toNat

def flagIf (b : Bool) (f : Flags) : Flags := if b then f else 0

def nan32 : BitVec 32 := 0x7FC00000#32

/-- CVT(x, FP32, rm, 0) with the flags raised before it. -/
def deliver (x : Ext) (rm : Rm) (f : Flags) : LaneRes :=
  let r := cvt x .fp32 rm false
  (BitVec.ofNat 32 r.val, f ||| r.flags)

/-- NV for a signalling operand (R151). -/
def sigs (l : List Ext) : Flags := flagIf (l.any Ext.sig) fNV

/-- A quiet NaN result, or the value (the signalling operand has set NV already). -/
def quiet : Ext → Ext
  | .nan _ => .nan false
  | x => x

def fAdd (rm : Rm) (a b : BitVec 32) : LaneRes :=
  let (x, inv) := addExt (rm == .rd) (fp a) (fp b)
  deliver (quiet x) rm (sigs [fp a, fp b] ||| flagIf inv fNV)

def fSub (rm : Rm) (a b : BitVec 32) : LaneRes :=
  let (x, inv) := addExt (rm == .rd) (fp a) (fp b).neg'
  deliver (quiet x) rm (sigs [fp a, fp b] ||| flagIf inv fNV)

def fMul (rm : Rm) (a b : BitVec 32) : LaneRes :=
  let (x, inv) := mulExt (fp a) (fp b)
  deliver (quiet x) rm (sigs [fp a, fp b] ||| flagIf inv fNV)

/-- A * B + C, rounded once; C negated first for `vfms.f32` (R153). -/
def fFma (sub : Bool) (rm : Rm) (a b c : BitVec 32) : LaneRes :=
  let cx := if sub then (fp c).neg' else fp c
  let (p, inv1) := mulExt (fp a) (fp b)
  let (x, inv2) := addExt (rm == .rd) p cx
  deliver (quiet x) rm (sigs [fp a, fp b, fp c] ||| flagIf (inv1 || inv2) fNV)

def fDiv (rm : Rm) (a b : BitVec 32) : LaneRes :=
  let x := fp a
  let y := fp b
  let s := x.negative != y.negative
  let f := sigs [x, y]
  match x, y with
  | .nan _, _ | _, .nan _ => (nan32, f)
  | .inf _, .inf _ => (nan32, f ||| fNV)
  | .inf _, .num _ _ _ => deliver (.inf s) rm f
  | .num _ _ _, .inf _ => deliver (.num s 0 0) rm f
  | .num _ m e, .num _ k g =>
    if k = 0 then (if m = 0 then (nan32, f ||| fNV) else deliver (.inf s) rm (f ||| fDZ))
    else if m = 0 then deliver (.num s 0 0) rm f
    else deliver (divOdd s m e k g) rm f

def fSqrt (rm : Rm) (a : BitVec 32) : LaneRes :=
  match fp a with
  | .nan s => (nan32, flagIf s fNV)
  | .inf s => if s then (nan32, fNV) else deliver (.inf false) rm 0
  | .num s m e =>
    if m = 0 then deliver (.num s 0 0) rm 0
    else if s then (nan32, fNV)
    else deliver (sqrtOdd m e) rm 0

/-- The order of R154: -0 below +0. A key that rises with the value. -/
def orderKey (x : BitVec 32) : Int := if x.msb then -(x.setWidth 31).toNat - 1 else (x.setWidth 31).toNat

def fMinMax (mx : Bool) (a b : BitVec 32) : LaneRes :=
  if (fp a).isNan || (fp b).isNan then (nan32, sigs [fp a, fp b])
  else
    let le := orderKey a ≤ orderKey b
    (if le != mx then a else b, 0)

/-- `vcmp.f32` of one lane (R157). -/
def fCmp (cc : FCond) (a b : BitVec 32) : Bool × Flags :=
  let un := (fp a).isNan || (fp b).isNan
  let z := (fp a).isZero && (fp b).isZero
  let eq := !un && (a == b || z)
  let lt := !un && !eq && orderKey a < orderKey b
  let r := match cc with
    | .eq => eq | .ne => !eq | .lt => lt | .le => lt || eq
    | .gt => !un && !lt && !eq | .ge => !un && !lt | .un => un | .ord => !un
  let ordered := match cc with | .lt | .le | .gt | .ge => true | _ => false
  (r, if ordered && un then fNV else sigs [fp a, fp b])

def iCmp (cc : ICond) (a b : BitVec 32) : Bool :=
  match cc with
  | .eq => a == b | .ne => a != b | .lt => a.slt b | .le => a.sle b | .ltu => a.ult b | .leu => a.ule b

/-- `vcvt` of one lane (R163). -/
def fCvt (src dst : Fmt) (sat : Bool) (rm : Rm) (a : BitVec 32) : LaneRes :=
  if src = dst && fmtInt src then (BitVec.ofNat 32 (a.toNat % 2 ^ fmtWidth src), 0)
  else
    let r := cvt (elemVal src a.toNat) dst rm sat
    (BitVec.ofNat 32 r.val, r.flags)

/-- A transcendental that is not exactly representable sets NX whatever its rounding shows (R174). -/
def fExp2 (rm : Rm) (a : BitVec 32) : LaneRes :=
  match fp a with
  | .nan s => (nan32, flagIf s fNV)
  | .inf s => if s then (0, 0) else deliver (.inf false) rm 0
  | .num s m e =>
    if m = 0 then deliver (.num false 1 0) rm 0
    else if 0 ≤ e || m % 2 ^ e.natAbs = 0 then
      if 12 ≤ leadExp m e then deliver (.num false 1 (if s then -4096 else 4096)) rm 0
      else
        let k : Int := (shiftNat m e : Nat)
        deliver (.num false 1 (if s then -k else k)) rm 0
    else deliver (exp2Odd s m e) rm 0

def fLog2 (rm : Rm) (a : BitVec 32) : LaneRes :=
  match fp a with
  | .nan s => (nan32, flagIf s fNV)
  | .inf s => if s then (nan32, fNV) else deliver (.inf false) rm 0
  | .num s m e =>
    if m = 0 then deliver (.inf true) rm fDZ
    else if s then (nan32, fNV)
    else if m = 2 ^ Nat.log2 m then
      let k := leadExp m e
      deliver (.num (k < 0) k.natAbs 0) rm 0
    else deliver (log2Odd m e) rm 0

def fRcp (rm : Rm) (a : BitVec 32) : LaneRes :=
  match fp a with
  | .nan s => (nan32, flagIf s fNV)
  | .inf s => deliver (.num s 0 0) rm 0
  | .num s m e => if m = 0 then deliver (.inf s) rm fDZ else deliver (divOdd s 1 0 m e) rm 0

def fRsqrt (rm : Rm) (a : BitVec 32) : LaneRes :=
  match fp a with
  | .nan s => (nan32, flagIf s fNV)
  | .inf s => if s then (nan32, fNV) else deliver (.num false 0 0) rm 0
  | .num s m e =>
    if m = 0 then deliver (.inf s) rm fDZ
    else if s then (nan32, fNV)
    else deliver (rsqrtOdd m e) rm 0

def fTanh (rm : Rm) (a : BitVec 32) : LaneRes :=
  match fp a with
  | .nan s => (nan32, flagIf s fNV)
  | .inf s => deliver (.num s 1 0) rm 0
  | .num s m e => if m = 0 then deliver (.num s 0 0) rm 0 else deliver (tanhOdd s m e) rm 0

/-! ### Lanes of a vector -/

/-- The lane mask bit of lane i (R149). -/
def active (mk : BitVec 128) (i : Nat) : Bool := mk.getLsbD i

/-- A two-source lane operation under a mask: an inactive lane keeps lane i of A (R149). -/
def map2 (f : BitVec 32 → BitVec 32 → LaneRes) (mk : BitVec 128) (a b : Vec) : Vec × Flags :=
  (vecOf fun i => if active mk i then (f (lane a i) (lane b i)).1 else lane a i,
   (List.range 128).foldl (fun x i => if active mk i then x ||| (f (lane a i) (lane b i)).2 else x) 0)

def map1 (f : BitVec 32 → LaneRes) (mk : BitVec 128) (a : Vec) : Vec × Flags := map2 (fun x _ => f x) mk a a

def map3 (f : BitVec 32 → BitVec 32 → BitVec 32 → LaneRes) (mk : BitVec 128) (a b c : Vec) : Vec × Flags :=
  (vecOf fun i => if active mk i then (f (lane a i) (lane b i) (lane c i)).1 else lane a i,
   (List.range 128).foldl
     (fun x i => if active mk i then x ||| (f (lane a i) (lane b i) (lane c i)).2 else x) 0)

/-- A lane operation without flags. -/
def pure2 (f : BitVec 32 → BitVec 32 → BitVec 32) (mk : BitVec 128) (a b : Vec) : Vec :=
  vecOf fun i => if active mk i then f (lane a i) (lane b i) else lane a i

/-- The values of the lanes `p` picks. -/
def picked (p : Nat → Bool) (a : Vec) : List Ext :=
  ((List.range 128).filter p).map fun i => fp (lane a i)

/-- The FP32 sum of some lanes in one window step, with its flags (R171). -/
def sumLanes (l : List Ext) : LaneRes :=
  if l.isEmpty then (0, 0)
  else
    let (v, sticky) := wstep 64 l
    let r := cvt (quiet v) .fp32 .rn false
    let inv := l.any (· == .inf false) && l.any (· == .inf true)
    (BitVec.ofNat 32 r.val,
     (r.flags &&& (fOF ||| fUF ||| fNX)) ||| flagIf sticky (fLS ||| fNX) ||| sigs l ||| flagIf inv fNV)

def sumInts (p : Nat → Bool) (a : Vec) : BitVec 32 :=
  ((List.range 128).filter p).foldl (fun x i => x + lane a i) 0

/-- `vred.max` and `vred.min` (R172). -/
def redMinMax (mx int : Bool) (p : Nat → Bool) (a : Vec) : LaneRes :=
  let l := ((List.range 128).filter p).map (lane a)
  if int then
    (l.foldl (fun x y => if (x.slt y) == mx then y else x) (if mx then 0x80000000#32 else 0x7FFFFFFF#32), 0)
  else if l.any fun x => (fp x).isNan then (nan32, sigs (l.map fp))
  else
    (l.foldl (fun x y => if (orderKey x < orderKey y) == mx then y else x)
      (if mx then 0xFF800000#32 else 0x7F800000#32), 0)

end Sys2Proof.Machine
end

