-- ==== Sys2Proof/Machine/Tile.lean ====
section
/-!
DEFINITION. Tile.lean: runs of tile-store bytes and the elements of a tile (11_tile.md R228 to R232,
R445).
-/
namespace Sys2Proof.Machine

/-- `n` bytes from `x` meet the areas of a descriptor (R229). -/
def areaMeets (a b : BitVec 64) (x n : Nat) : Bool :=
  let o := tileAddr a 0
  let p := o + 4096 * tScoff b
  (x < o + tErows a * tP a && o < x + n) || (tScaled a && x < p + tErows a * tSP a && p < x + n)

/-- `n` bytes from tile-store address `x`, as stored. -/
def rawNat (c : Core) : Nat → Nat → Nat → Nat
  | 0, _, _ => 0
  | f + 1, x, n =>
    if n = 0 then 0
    else
      let k := min n (4096 - x % 4096)
      let v := ((spGet c.tile (x / 4096)).toNat >>> (8 * (x % 4096))) % 2 ^ (8 * k)
      v + (rawNat c f (x + k) (n - k) <<< (8 * k))

/-- The rows that `n` bytes from `x` meet. -/
def rowsOf (x n : Nat) : List Nat := (List.range ((x % 4096 + n + 4095) / 4096)).map (x / 4096 + ·)

/-- `n` bytes from `x` read through register `t`; `fv` supplies what is undefined. -/
def tileNat (c : Core) (t : Nat) (fv : BitVec 32768) (x n : Nat) : Nat :=
  if coverOf (openOf c) (· != t) x n != 0 || (rowsOf x n).any (fun q => spGet c.undef q != 0)
      || c.tPoison.any (fun g => g < x + n && x < g + 8) then
    ofBytes ((List.range n).map fun i => readTile c t fv (x + i))
  else rawNat c ((n + 4095) / 4096 + 1) x n

/-- Poisoned granules that `n` bytes from `x` meet. -/
def poisonIn (c : Core) (x n : Nat) : Bool := c.tPoison.any fun g => g < x + n && x < g + 8

/-- `n` bytes written through register `t` at tile-store address `x` (R445). -/
def tileStore (t : Nat) (fv : BitVec 32768) (c : Core) (x n v : Nat) : Core := putRun (openOf c) t fv c x n v

/-! ### An operand of a matrix operation: a tile register, whole or a block view (10_microcode.md R216) -/

structure Operand where
  t      : Nat
  a      : BitVec 64
  b      : BitVec 64
  row0   : Nat
  col0   : Nat
  rows   : Nat
  elems  : Nat
  view   : Bool
  deriving DecidableEq, Repr

def Operand.isFree (o : Operand) : Bool := tRows o.a == 0
def Operand.format (o : Operand) : Fmt := tFmt o.a
/-- Its descriptor names a scale-index area (R228). -/
def Operand.hasScales (o : Operand) : Bool := tScaled o.a

/-- Its elements have scale factors (R47). -/
def Operand.isScaled (o : Operand) : Bool := tFactors o.a

/-- The element (i, j) lies in the tile itself. -/
def Operand.inside (o : Operand) (i j : Nat) : Bool :=
  o.row0 + i < tErows o.a && o.col0 + j < tElems o.a

/-- The bits of elements j0 to j0 + n - 1 of row i, packed. -/
def rowBits (c : Core) (fv : BitVec 32768) (o : Operand) (i j0 n : Nat) : Nat :=
  if o.isFree || tErows o.a ≤ o.row0 + i then 0
  else
    let w := fmtWidth o.format
    let first := o.col0 + j0
    let m := min n (tElems o.a - first)
    let lo := first * w / 8
    let hi := (first + m) * w
    let x := tileAddr o.a ((o.row0 + i) * tP o.a + lo)
    ((tileNat c o.t fv x ((hi + 7) / 8 - lo)) >>> (first * w % 8)) % 2 ^ (m * w)

/-- The scale index of element j of row i (R48, R229). -/
def scaleIdx (c : Core) (fv : BitVec 32768) (o : Operand) (i j : Nat) : Nat :=
  let blk := (o.col0 + j) / 32
  let x := tileAddr o.a (4096 * tScoff o.b + (o.row0 + i) * tSP o.a + 4 * (blk / 8))
  (tileNat c o.t fv x 4 >>> (4 * (blk % 8))) % 16

/-- The scale indices of the blocks of every row that lie in the tile, none where it has no factors (R47, R48). -/
def scaleIndices (c : Core) (fv : BitVec 32768) (o : Operand) : List (List Nat) :=
  if o.isFree || !o.isScaled then []
  else (List.range (min 128 (tErows o.a - o.row0))).map fun i =>
    (List.range ((min o.elems (tElems o.a - o.col0) + 31) / 32)).map fun b => scaleIdx c fv o i (32 * b)

/-- Elements j0 to j0 + n - 1 of row i as exact values, scaled by the table through the indices `sc` (R49, R182). -/
def rowVals (c : Core) (fv : BitVec 32768) (o : Operand) (tab : BitVec 128) (sc : List (List Nat)) (i j0 n : Nat) : List Ext :=
  let w := fmtWidth o.format
  let b := rowBits c fv o i j0 n
  (List.range n).map fun g =>
    if !o.isFree && o.inside i (j0 + g) then
      let v := elemVal o.format (b >>> (w * g))
      if o.isScaled then scaleExt v (tabEntry tab ((sc.getD i []).getD ((j0 + g) / 32) 0)) else v
    else .num false 0 0

/-- Elements j0 on of row i replaced by the low `n * w` bits of `v`. -/
def putRow (fv : BitVec 32768) (c : Core) (o : Operand) (i n v : Nat) : Core :=
  let w := fmtWidth o.format
  if o.isFree || tErows o.a ≤ o.row0 + i || tElems o.a ≤ o.col0 then c
  else
    let m := min n (tElems o.a - o.col0)
    tileStore o.t fv c (tileAddr o.a ((o.row0 + i) * tP o.a + o.col0 * w / 8)) (m * w / 8) v

end Sys2Proof.Machine
end

