-- ==== Sys2Proof/Machine/Matrix.lean ====
section
/-!
DEFINITION. Matrix.lean: the state of the matrix array and what each array operation does to it
(09_plane.md R180 to R188, R202).
-/
namespace Sys2Proof.Machine

/-! ### Fields of the matrix status (R202) -/

def mSeq (c : Core) : Nat := fld c.mx.status 63 32
def mState (c : Core) : Nat := fld c.mx.status 31 29
def mHeldIn (m : Matrix) : Bool := m.status.getLsbD 28
def mHeld (c : Core) : Bool := mHeldIn c.mx
def mCause (c : Core) : Nat := fld c.mx.status 27 20

def setStatus (c : Core) (hi lo v : Nat) : Core :=
  { c with mx := { c.mx with status := putFld c.mx.status hi lo v } }

/-- GRW as a signed number. -/
def mGrw (c : Core) : Int := ((c.mx.status.setWidth 12).toInt)

/-! ### Planes and accumulators -/

def planeRow (m : Matrix) (p i : Nat) : Vec := spGet m.planes (128 * p + i)
def planeElem (m : Matrix) (p i j : Nat) : BitVec 32 := lane (planeRow m p i) j
def accRow (m : Matrix) (i : Nat) : BitVec 16384 := spGet m.acc i
def accImg (r : BitVec 16384) (j : Nat) : BitVec 128 := BitVec.ofNat 128 (r.toNat >>> (128 * j))
def lsRow (m : Matrix) (i : Nat) : BitVec 128 := spGet m.ls i

/-- The format of plane p. -/
def planeFmt (m : Matrix) (p : Nat) : Fmt := decodeFmt (m.pf.toList.getD p 0)

/-- A format a plane may hold (R181). -/
def isPlaneFmt (f : Fmt) : Bool := !fmtInt f

/-- Plane p with row i given by `f i`. -/
def setPlane (m : Matrix) (p : Nat) (f : Nat → Vec) : Matrix :=
  { m with planes := (m.planes.filter fun e => e.1 / 128 < p)
      ++ (spOf 128 f).map (fun e => (128 * p + e.1, e.2))
      ++ m.planes.filter fun e => p < e.1 / 128 }

/-- Rows 0 to 127 of the accumulators and their flags, each by `f`. -/
def setAcc (m : Matrix) (f : Nat → BitVec 16384) (l : Nat → BitVec 128) : Matrix :=
  { m with acc := spOf 128 f, ls := spOf 128 l }

/-! ### A side of a pass (R182) -/

inductive Side where
  | plane (p : Nat)
  | tile (o : Operand)
  deriving DecidableEq, Repr

/-- K of a side where it has one of its own: a Free tile takes the other side's (R182). -/
def sideK : Side → Option Nat
  | .plane _ => some 128
  | .tile o => if o.isFree then none else some o.elems

def passK (r c : Side) : Nat := (sideK r).getD ((sideK c).getD 128)

/-- G and cycles a step for the captured formats (R185). -/
def stepG (r c : Fmt) : Nat :=
  if r == .e2m1 && c == .e2m1 then 4
  else if r == .fp32 || c == .fp32 || r == .bf16 then 1
  else 2

def stepCycles (r c : Fmt) : Nat := if r == .fp32 || c == .fp32 then 4 else 1

/-- R183: the pass fails; no pass takes INT4 operands (R37). -/
def passFails (m : Matrix) (rf cf : Fmt) (r c : Side) : Bool :=
  let one (f : Fmt) : Side → Bool
    | .plane p => planeFmt m p != f || f == .int8
    | .tile o => !o.isFree && (o.format != f || 128 < o.rows || (o.isScaled && o.elems % 32 != 0))
  one rf r || one cf c || rf == .int4 || cf == .int4 ||
  (match sideK r, sideK c with
   | some a, some b => a != b
   | _, _ => false)

/-- The scale indices that a pass uses of a side (R217). -/
def sideScales (c : Core) (fv : BitVec 32768) : Side → List (List Nat)
  | .plane _ => []
  | .tile o => scaleIndices c fv o

/-- The operands row i of a side gives for k0 to k0 + g - 1, its scale indices being `sc`; `col` says it drives column
buses. -/
def sideVals (c : Core) (fv : BitVec 32768) (tab : BitVec 128) (sc : List (List Nat)) (col : Bool) (s : Side) (i k0 g : Nat) : List Ext :=
  match s with
  | .plane p =>
    (List.range g).map fun x =>
      elemVal (planeFmt c.mx p) (if col then planeElem c.mx p (k0 + x) i else planeElem c.mx p i (k0 + x)).toNat
  | .tile o => if o.isFree || o.rows ≤ i then List.replicate g (.num false 0 0) else rowVals c fv o tab sc i k0 g

/-- Some scale entry the pass will use is 255 (R217). -/
def badScale (tab : BitVec 128) (sc : List (List Nat)) : Bool := sc.any fun l => l.any fun x => tabEntry tab x == 255

/-- Elements of `w` bits packed, the first lowest. -/
def packList (w : Nat) : List Nat → Nat
  | [] => 0
  | x :: r => x % 2 ^ w + (packList w r <<< w)

/-- The operands of step n of a pass, as they enter the feed buffers, with the scale indices that the pass has read
(R182, R217, R223). -/
def passFeed (c : Core) (fv : BitVec 32768) (rf cf : Fmt) (rowT colT : BitVec 128) (sc : List (List Nat) × List (List Nat))
    (r cs : Side) (n : Nat) : Feed :=
  let g := stepG rf cf
  { rows := (List.range 128).map fun i => sideVals c fv rowT sc.1 false r i (n * g) g
    cols := (List.range 128).map fun j => sideVals c fv colT sc.2 true cs j (n * g) g }

/-- One k-group of R184 in every cell: a step of a pass over the operands `d`. A pass without keep clears LS with its first
step: see notes/assumptions/93.md. -/
def passStep (c : Core) (rf cf : Fmt) (w : Nat) (d : Feed) (fresh : Bool) : Core :=
  let row (i : Nat) : List (Ext × Bool) :=
    let a := d.rows.getD i []
    let ar := accRow c.mx i
    (d.cols.zip (List.range 128)).map fun e =>
      let p := (a.zip e.1).map fun x => prodExt rf cf x.1 x.2
      wstep w (if fresh then p else xaVal (accImg ar e.2) :: p)
  let rows := (List.range 128).map row
  let packed := rows.map fun l => (packList 128 (l.map fun x => (xaOf x.1).toNat), packList 1 (l.map fun x => x.2.toNat))
  let m := setAcc c.mx (fun i => BitVec.ofNat 16384 (packed.getD i (0, 0)).1)
    (fun i => (if fresh then 0 else lsRow c.mx i) ||| BitVec.ofNat 128 (packed.getD i (0, 0)).2)
  { c with mx := m }

/-! ### Promotion (R186) -/

/-- α·acc + β·[i = j] + γ·e, exact, with the specials of R186. -/
def promExact (al be ga : Ext) (acc e : Ext) (diag : Bool) : Ext :=
  let x := (mulExt al acc).1
  let y := (mulExt be (.num false (if diag then 1 else 0) 0)).1
  let z := (mulExt ga e).1
  (addExt false (addExt false x y).1 z).1

/-- PROM(d, e) with the triple given. -/
def promote (c : Core) (d e : Nat) (al be ga : BitVec 32) (sat : Bool) : Core :=
  let fd := planeFmt c.mx d
  let fe := planeFmt c.mx e
  let cell (i j : Nat) (ar : BitVec 16384) (er : Vec) : Cvt × Bool :=
    let x := promExact (fp al) (fp be) (fp ga) (xaVal (accImg ar j)) (elemVal fe (lane er j).toNat) (i == j)
    let y := cvt x fd .rn sat
    (y, y.left)
  let rows := (List.range 128).map fun i =>
    let ar := accRow c.mx i
    let er := planeRow c.mx e i
    (List.range 128).map fun j => cell i j ar er
  let ovf := rows.any fun r => r.any (·.2)
  let grw := rows.foldl (fun g r => r.foldl (fun (g : Int) y =>
    match elemVal fd y.1.val with
    | .num _ m ex => if m = 0 then g else max g (leadExp m ex)
    | _ => g) g) (mGrw c)
  let ls := c.mx.ls.any fun e => e.2 != 0
  let m := setPlane c.mx d fun i => BitVec.ofNat 4096 (packList 32 ((rows.getD i []).map fun y => y.1.val))
  let c := { c with mx := m }
  let c := setStatus c 11 0 ((BitVec.ofInt 12 grw).toNat)
  let c := if ovf then setStatus c 13 13 1 else c
  if ls then setStatus c 12 12 1 else c

/-! ### Loads, stores and drains (R188) -/

def ident (c : Core) (d : Nat) : Core :=
  let one := (cvt (.num false 1 0) (planeFmt c.mx d) .rn false).val
  { c with mx := setPlane c.mx d fun i => BitVec.ofNat 4096 (one <<< (32 * i)) }

/-- Plane load of d from an operand; `tr` transposes. -/
def planeLoad (c : Core) (fv : BitVec 32768) (d : Nat) (tr : Bool) (o : Operand) : Core :=
  if o.isFree then { c with mx := setPlane c.mx d fun _ => 0 }
  else
    let w := fmtWidth o.format
    let src := (List.range 128).map fun i => rowBits c fv o i 0 128
    let el (i j : Nat) : Nat := if o.inside i j then (src.getD i 0 >>> (w * j)) % 2 ^ w else 0
    let m := setPlane c.mx d fun i => BitVec.ofNat 4096 (packN 32 (fun j => if tr then el j i else el i j) 128)
    { c with mx := { m with pf := m.pf.setIfInBounds d (encodeFmt o.format) } }

def planeStore (fv : BitVec 32768) (c : Core) (p : Nat) (o : Operand) : Core :=
  let w := fmtWidth o.format
  (List.range 128).foldl (fun c i => putRow fv c o i 128 (packN w (fun j => (planeElem c.mx p i j).toNat) 128)) c

def drainTo (fv : BitVec 32768) (c : Core) (o : Operand) (sat : Bool) : Core :=
  let w := fmtWidth o.format
  (List.range 128).foldl (fun c i =>
    let ar := accRow c.mx i
    putRow fv c o i 128 (packN w (fun j => (cvt (xaVal (accImg ar j)) o.format .rn sat).val) 128)) c

/-- Clear: accumulators and flags (R188). -/
def clearAcc (c : Core) : Core := { c with mx := { c.mx with acc := [], ls := [] } }

end Sys2Proof.Machine
end

