-- ==== Sys2Proof/Machine/Micro.lean ====
section
/-!
DEFINITION. Micro.lean: the matrix unit's running routine: what each micro-operation costs, when it is
refused and what it does (10_microcode.md R208 to R227).
-/
namespace Sys2Proof.Machine

/-- Where a routine goes after a micro-operation (R199, R217). -/
inductive After where
  /-- It continues at a micro-address. -/
  | go (upc : Nat)
  /-- It ends Failed with a cause held, and the code of a TRAPM. -/
  | fail (cause code : Nat)
  | done
  deriving DecidableEq, Repr

/-- A micro-operation as it stands in a running routine: refused under R214, its cost (R218), what
follows it, what it does in its `phase`-th cycle, what it does in its last, whether the routine may
stop after `phase` cycles (R203), the cycles of the step or promotion whose residues are checked at the
end of its `phase`-th cycle, 0 where none is (R222), and the reading of its operands into the feed buffers (R223). -/
structure Micro where
  refused : Core → Routine → Bool
  cost    : BitVec 32768 → Core → Routine → Nat
  after   : BitVec 32768 → Core → Routine → After
  mid     : BitVec 32768 → Core → Routine → Core
  eff     : BitVec 32768 → Core → Routine → Core
  stop    : Core → Routine → Bool
  check   : BitVec 32768 → Core → Routine → Nat
  feeds   : BitVec 32768 → Core → Routine → Core

def setRun (c : Core) (r : Option Routine) : Core := { c with mx := { c.mx with run := r } }

/-! ### The entry and its tiles (R208 to R210) -/

/-- The role of tile field f. -/
def roleOf (r : Routine) (f : Nat) : Nat := if f ≤ 9 then fld r.entry (3 * f + 2) (3 * f) else 0

/-- The tile register that field f names. -/
def fieldTile (r : Routine) (f : Nat) : Nat := fld r.mp[0] (6 * f + 5) (6 * f)

/-- The entry holds a routine that may run (R208, R210). -/
def entryValid (e mp0 : BitVec 64) : Bool :=
  let d := declared e mp0
  e.getLsbD 63 && fld e 47 30 == 0 && d.all (fun x => x.2.2 ≤ 4) &&
    d.all fun x => d.all fun y => x.1 == y.1 || x.2.1 != y.2.1 || (x.2.2 != 4 && y.2.2 != 4)

/-- idx of a loop level for a block view; an inactive level gives 0 (R216). Elsewhere idx is the one that stands there:
see notes/assumptions/79.md. -/
def levelIdx (r : Routine) (n : Fin 4) : Nat := let l := r.loops[n]; if l.active then l.idx.toNat else 0

/-- The operand a tile descriptor names: the tile or its block view (R216). -/
def operandOf (c : Core) (r : Routine) (d : TileDesc) : Operand :=
  let t := fieldTile r d.field.val
  let x := c.t.toList.getD t TileReg.zero
  if d.view then
    { t := t, a := x.a, b := x.b, row0 := 128 * levelIdx r d.rowLv, col0 := 128 * levelIdx r d.colLv
      rows := 128, elems := 128, view := true }
  else
    { t := t, a := x.a, b := x.b, row0 := 0, col0 := 0, rows := tErows x.a, elems := tElems x.a, view := false }

/-- The snapshot's formats, saturation and tables (R192, R211). -/
def rowFmt (r : Routine) : Fmt := decodeFmt (r.cfg.extractLsb' 18 3)
def colFmt (r : Routine) : Fmt := decodeFmt (r.cfg.extractLsb' 15 3)
def satOf (r : Routine) : Bool := r.cfg.getLsbD 14

/-! ### Endings (R199, R200, R219) -/

/-- The routine ends: STATE, and its result tiles leave Writing for Ready. -/
def endRoutine (c : Core) (state : Nat) : Core :=
  match c.mx.run with
  | none => c
  | some r =>
    let c := { c with mx := { c.mx with last := { r with phase := 0 } } }
    let c := (resultTiles r).foldl (fun c t =>
      let x := c.t.toList.getD t TileReg.zero
      { c with t := c.t.setIfInBounds t (if x.st == .writing then { x with st := .ready } else x) }) c
    setStatus (setRun c none) 31 29 state

/-- It ends Failed, its cause held with the DETAIL of R219. -/
def failRoutine (c : Core) (cause : Nat) (upc code : Nat) : Core :=
  let c := setStatus (setStatus (endRoutine c 3) 28 28 1) 27 20 cause
  { c with mx := { c.mx with heldDet := BitVec.ofNat 32 (code <<< 16 + upc) } }

/-- It ends Aborted, HELD cleared (R199). -/
def abortRoutine (c : Core) : Core := setStatus (endRoutine c 4) 28 28 0

/-! ### Progress (R212) -/

def progressOf (upc done active : Nat) : BitVec 64 := BitVec.ofNat 64 (upc <<< 52 + done <<< 32 + active)
def kdone (c : Core) : Nat := fld c.mx.progress 51 32

/-- The granule at `g` holds bytes of the `n` bytes at `x`. -/
def granuleMeets (g x n : Nat) : Bool := g < x + n && x < g + 8

/-- The element rows of an operand that lie in its tile, and the elements of each. -/
def rowsInside (o : Operand) : Nat := min o.rows (tErows o.a - o.row0)
def elemsInside (o : Operand) : Nat := min o.elems (tElems o.a - o.col0)

/-- Granule `g` holds bytes of elements k0 to k0 + n - 1 of some row of an operand. -/
def dataMeets (o : Operand) (k0 n g : Nat) : Bool :=
  let w := fmtWidth o.format
  let lo := (o.col0 + k0) * w / 8
  let hi := ((o.col0 + min (k0 + n) (elemsInside o)) * w + 7) / 8
  k0 < elemsInside o && (List.range (rowsInside o)).any fun i => granuleMeets g (tileAddr o.a ((o.row0 + i) * tP o.a + lo)) (hi - lo)

/-- Granule `g` holds a scale index of an operand. -/
def scaleMeets (o : Operand) (g : Nat) : Bool :=
  let lo := o.col0 / 32 / 8
  let hi := ((o.col0 + elemsInside o + 31) / 32 + 7) / 8
  o.isScaled && (List.range (rowsInside o)).any fun i =>
    granuleMeets g (tileAddr o.a (4096 * tScoff o.b + (o.row0 + i) * tSP o.a + 4 * lo)) (4 * (hi - lo))

/-- The poisoned granules of a tile that a routine reads, those that `p` picks, are consumed (R389). -/
def consumeOperand (c : Core) (o : Operand) (p : Nat → Bool) : Core :=
  if !o.isFree && c.tPoison.any p then consume c 0 else c

/-! ### The micro-operations -/

/-- The common case: one effect in the last of `n` cycles, then the next micro-address. -/
def plainMicro (n : Nat) (eff : BitVec 32768 → Core → Routine → Core) : Micro :=
  { refused := fun _ _ => false, cost := fun _ _ _ => n, after := fun _ _ r => .go (r.upc.toNat + 1)
    mid := fun _ c _ => c, eff := eff, stop := fun _ _ => false, check := fun _ _ _ => 0, feeds := fun _ c _ => c }

def modRun (c : Core) (f : Routine → Routine) : Core := setRun c (c.mx.run.map f)

def sideOf (c : Core) (r : Routine) : PassSrc → Side
  | .plane p => .plane p.val
  | .tile d => .tile (operandOf c r d)

/-- The role of a streamed tile fits its side (R215). -/
def sideFits (r : Routine) (role : Nat) : PassSrc → Bool
  | .plane _ => true
  | .tile d => let x := roleOf r d.field.val; x == role || x == 4

def passSetupFails (c : Core) (r : Routine) (a b : PassSrc) : Bool :=
  passFails c.mx (rowFmt r) (colFmt r) (sideOf c r a) (sideOf c r b)

/-- The scale indices of a pass: those that it has read, or what they are now (R217). -/
def passScales (fv : BitVec 32768) (c : Core) (r : Routine) (a b : PassSrc) : List (List Nat) × List (List Nat) :=
  r.scales.getD (sideScales c fv (sideOf c r a), sideScales c fv (sideOf c r b))

def passBadScale (fv : BitVec 32768) (c : Core) (r : Routine) (a b : PassSrc) : Bool :=
  badScale r.rowT (passScales fv c r a b).1 || badScale r.colT (passScales fv c r a b).2

/-- What a pass reads of a side: its scale indices in the setup, elements k0 to k0 + n - 1 in a step. -/
def consumeScales (c : Core) : Side → Core
  | .plane _ => c
  | .tile o => consumeOperand c o (scaleMeets o)

def consumeData (k0 n : Nat) (c : Core) : Side → Core
  | .plane _ => c
  | .tile o => consumeOperand c o (dataMeets o k0 n)

/-- Step n of a pass reads its operands, unless they are held for a re-execution; a pass that has been taken up from an
image reads its scale indices first (R217, R223). -/
def readStep (fv : BitVec 32768) (c : Core) (r : Routine) (a b : PassSrc) (n : Nat) : Core :=
  if r.feed.isSome then c
  else
    let A := sideOf c r a
    let B := sideOf c r b
    let g := stepG (rowFmt r) (colFmt r)
    let sc := passScales fv c r a b
    let c := if r.scales.isSome then c else consumeScales (consumeScales c A) B
    let c := consumeData (n * g) g (consumeData (n * g) g c A) B
    modRun c fun r => { r with feed := some (passFeed c fv (rowFmt r) (colFmt r) r.rowT r.colT sc A B n), scales := some sc }

/-- PASS (R184, R185, R217): setup in two cycles, which makes the checks and reads the scale indices, then K/G steps. What
a pass that fails leaves is the model's choice: see notes/assumptions/93.md. -/
def microPass (keep : Bool) (a b : PassSrc) (kf : Bool) (kfLv : Fin 4) : Micro :=
  let cps (r : Routine) : Nat := stepCycles (rowFmt r) (colFmt r)
  let steps (c : Core) (r : Routine) : Nat := passK (sideOf c r a) (sideOf c r b) / stepG (rowFmt r) (colFmt r)
  let setup (r : Routine) : Bool := r.phase ≤ 2
  let bad (fv : BitVec 32768) (c : Core) (r : Routine) : Bool := setup r && (passSetupFails c r a b || passBadScale fv c r a b)
  let ends (fv : BitVec 32768) (c : Core) (r : Routine) : Bool :=
    !bad fv c r && 2 < r.phase && (r.phase - 2) % cps r = 0 && kdone c < (r.phase - 2) / cps r
  { refused := fun _ r => !sideFits r 1 a || !sideFits r 2 b
    cost := fun fv c r => if bad fv c r then 2 else 2 + cps r * steps c r
    after := fun fv c r =>
      if setup r && passSetupFails c r a b then .fail 0x01 0
      else if setup r && passBadScale fv c r a b then .fail 0x13 0
      else .go (r.upc.toNat + 1)
    mid := fun fv c r =>
      if r.phase = 2 then
        if passSetupFails c r a b then c
        else
          let c' := consumeScales (consumeScales c (sideOf c r a)) (sideOf c r b)
          if bad fv c r then c'
          else
            let sc := passScales fv c r a b
            modRun { c' with mx := { c'.mx with progress := progressOf r.upc.toNat 0 1 } } fun r => { r with scales := some sc }
      else
        match r.feed with
        | none => c
        | some d =>
          let n := kdone c
          let fresh := n = 0 && !(keep || (kf && r.loops[kfLv].idx != 0))
          let c := passStep c (rowFmt r) (colFmt r) (windowOf r.win.toNat) d fresh
          modRun { c with mx := { c.mx with progress := progressOf r.upc.toNat (n + 1) (if n + 1 < steps c r then 1 else 0) } }
            fun r => { r with feed := none }
    eff := fun _ c _ => c
    stop := fun _ r => 2 ≤ r.phase && (r.phase - 2) % cps r = 0
    check := fun fv c r => if ends fv c r then cps r else 0
    feeds := fun fv c r => if ends fv c r then readStep fv c r a b (kdone c) else c }

/-- PROM (R186, R217). -/
def microProm (d e : Fin 4) (dg : Bool) (lvA lvB : Fin 4) : Micro :=
  { plainMicro 4 (fun _ c r =>
      promote c d.val e.val r.alpha (if dg && r.loops[lvA].idx != r.loops[lvB].idx then 0 else r.beta) r.gamma (satOf r)) with
    check := fun _ _ r => if r.phase = 4 then 4 else 0 }

def microClra : Micro := plainMicro 1 fun _ c _ => clearAcc c

def microIdpl (d : Fin 4) : Micro := plainMicro 1 fun _ c _ => ident c d.val

/-- LDPL (R188, R215). -/
def microLdpl (d : Fin 4) (tr : Bool) (td : TileDesc) : Micro :=
  { plainMicro 16 (fun fv c r => let o := operandOf c r td; planeLoad (consumeOperand c o (dataMeets o 0 128)) fv d.val tr o) with
    refused := fun c r =>
      let o := operandOf c r td
      let x := roleOf r td.field.val
      !(1 ≤ x && x ≤ 4) || (!o.isFree && (!isPlaneFmt o.format || o.hasScales || 128 < o.rows || 128 < o.elems)) }

/-- STPL (R188, R215). -/
def microStpl (p : Fin 4) (td : TileDesc) : Micro :=
  { plainMicro 16 (fun fv c r => planeStore fv c p.val (operandOf c r td)) with
    refused := fun c r =>
      let o := operandOf c r td
      roleOf r td.field.val != 4 || (!o.isFree && (o.format != planeFmt c.mx p.val || o.hasScales)) }

/-- DRAIN (R188, R215). -/
def microDrain (td : TileDesc) : Micro :=
  { plainMicro 16 (fun fv c r => drainTo fv c (operandOf c r td) (satOf r)) with
    refused := fun c r =>
      let o := operandOf c r td
      roleOf r td.field.val != 4 || (!o.isFree && (o.format == .int4 || o.format == .int32 || o.hasScales)) }

/-- The operand a field names whole, for COEF and RPRC. -/
def fieldOperand (c : Core) (r : Routine) (f : Fin 16) : Operand :=
  operandOf c r { field := f, view := false, rowLv := 0, colLv := 0 }

def nextCI (rst : Bool) (r : Routine) : BitVec 16 := if rst then 0 else r.ci + 1

/-- COEF (R217); one that fails leaves CI: see notes/assumptions/93.md. -/
def microCoef (rst : Bool) (f : Fin 16) : Micro :=
  { plainMicro 2 (fun fv c r =>
      let o := fieldOperand c r f
      let ci := nextCI rst r
      let x := tileAddr o.a (16 * ci.toNat)
      let w (k : Nat) : BitVec 32 := BitVec.ofNat 32 (tileNat c o.t fv (x + 4 * k) 4)
      let c := if poisonIn c x 12 then consume c 0 else c
      modRun c fun r => { r with ci := ci, alpha := w 0, beta := w 1, gamma := w 2 }) with
    refused := fun _ r => let x := roleOf r f.val; !(1 ≤ x && x ≤ 4)
    after := fun _ c r =>
      if tRows (fieldOperand c r f).a * 4096 < 16 * (nextCI rst r).toNat + 16 then .fail 0x07 0
      else .go (r.upc.toNat + 1) }

/-- RPRC (R217). -/
def microRprc (f : Fin 16) (off : BitVec 16) : Micro :=
  { plainMicro 2 (fun fv c r =>
      let o := fieldOperand c r f
      let v := c.mx.progress.toNat + r.ci.toNat <<< 64
        + packN 32 (fun i => (r.loops.toList.getD i ⟨false, 0, 0, 0, 0⟩).idx.toNat) 4 <<< 128
      tileStore o.t fv c (tileAddr o.a (32 * off.toNat)) 32 v) with
    refused := fun _ r => roleOf r f.val != 4
    after := fun _ c r =>
      if tRows (fieldOperand c r f).a * 4096 < 32 * off.toNat + 32 then .fail 0x07 0
      else .go (r.upc.toNat + 1) }

/-- LOOP (R217). -/
def microLoop (n : Fin 4) (param : Bool) (reg : Fin 8) (stop : BitVec 12) (count : BitVec 32) : Micro :=
  let cnt (r : Routine) : BitVec 32 := if param then r.mp[reg].setWidth 32 else count
  { plainMicro 1 (fun _ c _ => modRun c fun r => { r with
      loops := r.loops.set n { active := cnt r != 0, count := cnt r, idx := 0, top := r.upc + 1, stop := stop } }) with
    after := fun _ _ r => .go (if cnt r = 0 then stop.toNat + 1 else r.upc.toNat + 1) }

/-- ENDL (R214, R217). -/
def microEndl (n : Fin 4) : Micro :=
  { plainMicro 1 (fun _ c _ => modRun c fun r =>
      let l := r.loops[n]
      { r with loops := r.loops.set n { l with idx := l.idx + 1, active := l.idx + 1 < l.count } }) with
    refused := fun _ r => !r.loops[n].active
    after := fun _ _ r =>
      let l := r.loops[n]
      .go (if l.idx + 1 < l.count then l.top.toNat else r.upc.toNat + 1) }

/-- The condition of BRF (R217). -/
def brfHolds (c : Core) (r : Routine) (cond : Fin 8) (reg : Fin 8) : Bool :=
  let ovf := c.mx.status.getLsbD 13
  let grw := decide ((r.mp[reg].setWidth 12).toInt < mGrw c)
  match cond.val with
  | 0 => ovf | 1 => grw | 2 => c.mx.status.getLsbD 12 | 3 => true
  | 4 => !ovf | 5 => !grw | _ => !c.mx.status.getLsbD 12

def microBrf (cond : Fin 8) (reg : Fin 8) (target : BitVec 12) : Micro :=
  { plainMicro 1 (fun _ c _ => c) with
    after := fun _ c r =>
      if cond = 7 then .fail 0x01 0
      else .go (if brfHolds c r cond reg then target.toNat else r.upc.toNat + 1) }

def microSetw (w : Fin 8) : Micro :=
  { plainMicro 1 (fun _ c _ => modRun c fun r => { r with win := BitVec.ofNat 3 w.val }) with
    after := fun _ _ r => if w = 7 then .fail 0x01 0 else .go (r.upc.toNat + 1) }

/-- The format SETF sets: code 7 is the snapshot's row format. -/
def setfCode (r : Routine) (f : Fin 8) : BitVec 3 := if f = 7 then encodeFmt (rowFmt r) else BitVec.ofNat 3 f.val

def microSetf (p : Fin 4) (f : Fin 8) : Micro :=
  { plainMicro 1 (fun _ c r => { c with mx := { c.mx with pf := c.mx.pf.set p (setfCode r f) } }) with
    after := fun _ _ r => if 4 < (setfCode r f).toNat then .fail 0x01 0 else .go (r.upc.toNat + 1) }

def microTrapm (code : BitVec 12) : Micro :=
  { plainMicro 1 (fun _ c _ => c) with after := fun _ _ _ => .fail 0x01 code.toNat }

def microDone : Micro := { plainMicro 1 (fun _ c _ => c) with after := fun _ _ _ => .done }

/-- The micro-operation an instruction stands for. -/
def microOf : Instr → Option Micro
  | .trapm code => some (microTrapm code)
  | .passMicroOp keep a b kf lv => some (microPass keep a b kf lv)
  | .prom d e dg a b => some (microProm d e dg a b)
  | .clra => some microClra
  | .ldpl d tr td => some (microLdpl d tr td)
  | .stpl p td => some (microStpl p td)
  | .drain td => some (microDrain td)
  | .idpl d => some (microIdpl d)
  | .coef rst f => some (microCoef rst f)
  | .loop n par r stop count => some (microLoop n par r stop count)
  | .endl n => some (microEndl n)
  | .brf c r t => some (microBrf c r t)
  | .setw w => some (microSetw w)
  | .setf p f => some (microSetf p f)
  | .rprc f off => some (microRprc f off)
  | .done => some microDone
  | _ => none

/-! ### One cycle of a routine -/

/-- The micro-word at its micro-address is refused (R214): a role or use that does not fit, or a
continuation past micro-address 0xFFF. Which of two causes a micro-word at 0xFFF is given is the model's choice: see
notes/assumptions/78.md. -/
def microRefused (m : Micro) (fv : BitVec 32768) (c : Core) (r : Routine) : Bool :=
  m.refused c r || (match m.after fv c r with | .go n => 0xFFF < n | _ => false)

/-- The step or promotion that ends in this cycle and takes `d` cycles mismatches (R223 to R225): no cell
changes; it is executed again from the operands that are still held, or, its retries used up, the routine halts before it
and the cause is pending. -/
def mismatched (c : Core) (d : Nat) : Core :=
  match c.mx.run with
  | none => c
  | some r =>
    if r.tries < fld r.entry 62 60 then
      { c with mx := { c.mx with
        run := some { r with phase := r.phase - d, tries := r.tries + 1, mism := r.mism - 1 } } }
    else
      addCause (setRun c (some { r with phase := r.phase - d, tries := 0, mism := 0, feed := none, halted := true })) 0x0D
        (r.upc.setWidth 32) false

/-- The residues match: the next step has its retries afresh. -/
def matched (c : Core) : Core := modRun c fun r => { r with tries := 0 }

/-- The `r.phase`-th cycle of micro-operation `m`, nothing mismatching (R199, R203, R218). -/
def microGo (m : Micro) (fv : BitVec 32768) (c : Core) (r : Routine) : Core :=
  let c := m.mid fv c r
  if r.phase < m.cost fv c r then
    if r.abort && m.stop c r then
      abortRoutine { c with mx := { c.mx with progress := putFld c.mx.progress 0 0 0 } }
    else c
  else
    match m.after fv c r with
    | .fail cause code => failRoutine c cause r.upc.toNat code
    | .done => endRoutine c 2
    | .go n =>
      let c := modRun (m.eff fv c r) fun r => { r with upc := BitVec.ofNat 12 n, phase := 0, scales := none }
      if r.abort then abortRoutine c else c

/-- The step or promotion that ends in this cycle was a re-execution: the residue count counts it, whether or not it
matches (R391). -/
def countRerun (c : Core) (r : Routine) : Core :=
  if r.tries = 0 then c else { c with mx := { c.mx with reruns := c.mx.reruns + 1 } }

/-- The `r.phase`-th cycle of micro-operation `m`, `r` being the running routine (R214, R223). -/
def microCycle (m : Micro) (fv : BitVec 32768) (c : Core) (r : Routine) : Core :=
  let d := m.check fv c r
  if microRefused m fv c r then failRoutine c 0x01 r.upc.toNat 0
  else if d = 0 then microGo m fv c r
  else
    let c := countRerun (m.feeds fv c r) r
    if r.mism != 0 then mismatched c d
    else
      let c := matched c
      microGo m fv c (c.mx.run.getD r)

/-- One cycle of routine `r`, which `go` is if nothing holds it back: one halted by a mismatch waits (R225), and one that
owes cycles to a freeze counts them first. -/
def holdBack (c : Core) (r : Routine) (go : Core) : Core :=
  if r.halted then (if r.abort then abortRoutine c else c)
  else if r.owe != 0 then setRun c (some { r with owe := r.owe - 1 })
  else go

/-- The routine spends one more cycle in micro-operation `m`. -/
def microTick (m : Micro) (fv : BitVec 32768) (c : Core) : Core :=
  match c.mx.run with
  | none => c
  | some r =>
    let r' := { r with phase := r.phase + 1 }
    holdBack c r (microCycle m fv (setRun c (some r')) r')

/-- One core cycle of the matrix unit (R218): an empty entry ends at once (R210); a micro-word with a
nonzero unused bit is refused (R214). -/
def routineTick (fv : BitVec 32768) (c : Core) : Core :=
  match c.mx.run with
  | none => c
  | some r =>
    if c.cyc < r.start then c
    else if !entryValid r.entry r.mp[0] then failRoutine c 0x01 0 0
    else
      match (decodeMicro (spGet c.mx.ustore r.upc.toNat)).bind microOf with
      | none => holdBack c r (failRoutine c 0x01 r.upc.toNat 0)
      | some m => microTick m fv c

/-- Micro-operation `m` at the routine's micro-address, from where it stands to its end. -/
def microAll (m : Micro) (fv : BitVec 32768) : Nat → Core → Core
  | 0, c => c
  | n + 1, c =>
    let c' := microTick m fv c
    match c'.mx.run with
    | none => c'
    | some r => if r.phase = 0 then c' else microAll m fv n c'

/-- The routine stands where it may halt: between micro-operations, at a k-group boundary of a pass, or halted by
a mismatch (R203, R207). -/
def atBoundary (m : Micro) (c : Core) (r : Routine) : Bool := r.halted || r.phase = 0 || m.stop c r

/-- Micro-operation `m` from where it stands to the next boundary, and the cycles that it takes. -/
def toBoundary (m : Micro) (fv : BitVec 32768) : Nat → Core → Core × Nat
  | 0, c => (c, 0)
  | n + 1, c =>
    match c.mx.run with
    | none => (c, 0)
    | some r =>
      if atBoundary m c r then (c, 0)
      else
        let x := toBoundary m fv n (microTick m fv c)
        (x.1, x.2 + 1)

/-- An `mabort` that waits for the boundary takes effect at it (R203). -/
def abortHere (c : Core) : Core :=
  match c.mx.run with
  | some r => if r.abort then abortRoutine { c with mx := { c.mx with progress := putFld c.mx.progress 0 0 0 } } else c
  | none => c

/-- A freeze halts the routine at its next k-group boundary, or at the end of the operation in progress if that has
no k-groups: what is in progress is carried out, and the cycles that it takes are counted when the core issues again
(R66, R207). See notes/assumptions/67.md. -/
def haltRoutine (fv : BitVec 32768) (c : Core) : Core :=
  match c.mx.run with
  | none => c
  | some r =>
    if c.cyc < r.start || !entryValid r.entry r.mp[0] then abortHere c
    else
      match (decodeMicro (spGet c.mx.ustore r.upc.toNat)).bind microOf with
      | none => abortHere c
      | some m =>
        let x := toBoundary m fv 80 (modRun c fun r => { r with owe := 0 })
        abortHere (modRun x.1 fun y => { y with owe := r.owe + x.2 })

/-- A running routine stops as `mabort` stops it, the core being frozen (R339). -/
def stopRoutine (fv : BitVec 32768) (c : Core) : Core :=
  let c := haltRoutine fv (modRun c fun r => { r with abort := true })
  if c.mx.run.isSome then abortRoutine { c with mx := { c.mx with progress := putFld c.mx.progress 0 0 0 } } else c

end Sys2Proof.Machine
end

