-- ==== Sys2Proof/Machine/Copies.lean ====
section
/-!
DEFINITION. Copies.lean: the copy queue, its counts and classes, where a line request is served, and the
copies of fixed length (11_tile.md R231 to R249, 13_ordering.md R263 to R271, 20_link.md R368).
-/
namespace Sys2Proof.Machine

/-! ### Where an access is served (R263 to R267) -/

/-- The frame at `base` is of a Replicated page. -/
def isReplicated (s : State) (base : Nat) : Bool := s.replicas.any fun e => e.1 == base

/-- The page at frame `base` is Moving or Rebound: its old frame, and once rebound its new one (R350). -/
def isMoving (s : State) (base : Nat) : Bool :=
  s.moves.any fun m => m.old.toNat == base || (m.rebound && m.frame.map BitVec.toNat == some base)

/-- Loads of die `d` of this line go through its RDC. -/
def throughRdc (s : State) (d : Nat) (h : Handle) (pa : Nat) : Bool :=
  !isPcLocal pa && homeDie pa (hGran h) != d && !isReplicated s (hBase h)

def rdcFind (x : Die) (line : Nat) : Option RdcLine := x.rdc.find? fun l => l.line == line

/-- The poisoned granules among `n` bytes from `pa`. -/
def poisonedIn (l : List Nat) (pa n : Nat) : List Nat := l.filter fun g => g < pa + n && pa < g + 32

/-- A class's row, way or array works at operating point n (R375). -/
def goodAt (code n : Nat) : Bool := code == 0 || (n + 1 ≤ code && code ≤ 5)

/-- Lines that one way of an RDC holds: 64 MiB in 16 ways of 128-byte lines (R21; see notes/assumptions/45.md). -/
def wayLines : Nat := 32768

/-- Lines that the RDC of a die holds at operating point `op`: ways not good there hold none (R24, R378). -/
def rdcLimit (x : Die) (op : Nat) : Nat := wayLines * (16 - x.rdcCls.countP fun e => !goodAt e.2.toNat op)

/-- Lines that the L2 of a die holds at operating point `op`: 1024 MiB in 16 ways (R21, R22, R378). -/
def l2Limit (x : Die) (op : Nat) : Nat := 524288 * (16 - x.l2Cls.countP fun e => !goodAt e.2.toNat op)

/-- Load-blocks, of which those that `fv` picks go until `room` lines are left (R22, R24, R244). -/
def shrinkBlocks (room : Nat) (fv : Draw) : Nat → List (List Nat) → List (List Nat)
  | 0, l => l
  | f + 1, l =>
    if l.foldl (fun a b => a + b.length) 0 ≤ room then l
    else shrinkBlocks room fv f (l.eraseIdx ((fv f).toNat % max 1 l.length))

/-- The RDC of die `d` loses the lines that `p` picks; a load-block that meets them goes whole (R244, R271). -/
def dropLines (s : State) (d : Nat) (p : Nat → Bool) : State :=
  let x := dieAt s d
  let blocks := x.rdcBlocks.filter (·.any p)
  let gone (l : Nat) : Bool := p l || blocks.any (·.contains l)
  setDie s d { x with rdc := x.rdc.filter fun l => !gone l.line
                      rdcBlocks := x.rdcBlocks.filter fun b => !b.any p
                      rdcPoison := x.rdcPoison.filter fun g => !gone (g / 128) }

/-- A full RDC gives up a line to make room, which one is not fixed (R21, R265). -/
def makeRoom (s : State) (d : Nat) : State :=
  let x := dieAt s d
  if x.rdc.length < rdcLimit x x.op.val then s
  else
    match x.rdc[(freeVal s 4021 64).toNat % max 1 x.rdc.length]? with
    | some v => dropLines s d fun l => l == v.line
    | none => s

/-- A fill: the line as home has it joins the RDC of die `d` (R263). -/
def fillLine (s : State) (d line : Nat) : State :=
  match rdcFind (dieAt s d) line with
  | some _ => s
  | none =>
    let s := makeRoom s d
    let x := dieAt s d
    let bytes := ofBytes (memRead s.mem (128 * line) 128)
    if rdcLimit x x.op.val = 0 then s
    else setDie s d { x with rdc := x.rdc ++ [{ line := line, bytes := BitVec.ofNat 1024 bytes }]
                             rdcPoison := x.rdcPoison ++ poisonedIn s.poison (128 * line) 128 }

/-- A load-block is declared, by its lines (R244). -/
def addBlock (l : List (List Nat)) (b : List Nat) : List (List Nat) := if l.contains b then l else l ++ [b]

/-- `n` bytes from `pa`, within one line, as a load of die `d` is served; and the store whose poisoned
granule it consumes, if any (R263, R388, R389). -/
def loadBytes (s : State) (d : Nat) (h : Handle) (pa n : Nat) : State × Nat × Option Nat :=
  let home := (ofBytes (memRead s.mem pa n), if (poisonedIn s.poison pa n).isEmpty then none else some 1)
  if throughRdc s d h pa then
    match rdcFind (dieAt s d) (pa / 128) with
    | some l =>
      (s, (l.bytes.toNat >>> (8 * (pa % 128))) % 2 ^ (8 * n),
       if (poisonedIn (dieAt s d).rdcPoison pa n).isEmpty then none else some 2)
    | none => (fillLine s d (pa / 128), home.1, home.2)
  else (s, home.1, home.2)

/-- Bytes of one line written at home by an agent of die `d`; its RDC's copy takes them (R265), and a
granule that is wholly overwritten loses its poison (R389). -/
def storeBytes (s : State) (d : Option Nat) (pa : Nat) (l : List Byte) : State :=
  let n := l.length
  let covered (g : Nat) : Bool := pa ≤ g && g + 32 ≤ pa + n
  let s := { s with mem := memWrite s.mem (at_ pa l), poison := s.poison.filter fun g => !covered g }
  match d with
  | none => s
  | some d =>
    let x := dieAt s d
    if x.rdc.any fun r => r.line == pa / 128 then
      setDie s d { x with
        rdc := x.rdc.map fun r =>
          if r.line == pa / 128 then
            { r with bytes := putFld r.bytes (8 * (pa % 128 + n) - 1) (8 * (pa % 128)) (ofBytes l) }
          else r
        rdcPoison := x.rdcPoison.filter fun g => !covered g }
    else s

/-- Bytes written at home, line by line. -/
def storeLines (s : State) (d pa : Nat) (l : List Byte) : State :=
  (List.range ((pa % 128 + l.length + 127) / 128)).foldl (fun s i =>
    let lo := max pa (128 * (pa / 128 + i))
    storeBytes s (some d) lo ((l.drop (lo - pa)).take (128 * (pa / 128 + i + 1) - lo))) s

/-! ### Counts, classes and the queue (R234 to R236) -/

def addCounts (c : Core) (cl : Fin 16) (ld st : Nat) : Core :=
  { c with ldcnt := c.ldcnt.set cl (c.ldcnt[cl] + BitVec.ofNat 32 ld)
           stcnt := c.stcnt.set cl (c.stcnt[cl] + BitVec.ofNat 32 st) }

def subCounts (c : Core) (cl : Fin 16) (ld st : Nat) : Core :=
  { c with ldcnt := c.ldcnt.set cl (c.ldcnt[cl] - BitVec.ofNat 32 ld)
           stcnt := c.stcnt.set cl (c.stcnt[cl] - BitVec.ofNat 32 st) }

def findCopy (c : Core) (id : Nat) : Option Copy := c.copies.find? fun k => k.id == id

def modCopy (c : Core) (id : Nat) (f : Copy → Copy) : Core :=
  { c with copies := c.copies.map fun k => if k.id == id then f k else k }

/-- A copy of core `n` joins the queue; a copy that names a handle raises its page's busy count, unless
the page is moving (R351). -/
def enqueue (s : State) (n : Nat) (kind : CopyKind) (cls : Option (Fin 16)) (a b : BitVec 64) (h : Handle)
    (off : Nat) (slot : Option (RingId × Fin 8)) (until_ : Nat) (names : Bool) : State :=
  let raised := names && !isMoving s (hBase h)
  let s := if raised then { s with busy := countAdd s.busy (hBase h) 1 } else s
  modCore s n fun c => { c with
    nextId := c.nextId + 1
    copies := c.copies ++ [{ id := c.nextId, kind := kind, cls := cls, issued := c.cyc, a := a, b := b, h := h
                             off := off, slot := slot, done := [], data := none, until_ := until_
                             raised := raised || !names, absent := false, bank := none }] }

/-- A copy leaves the queue, and its busy count falls. -/
def copyEnd (s : State) (n id : Nat) : State :=
  match findCopy (coreOf s n) id with
  | none => s
  | some k =>
    let names := match k.kind with | .tcpy _ _ | .tfill _ _ _ | .ipatch _ _ _ | .xput _ _ _ _ => false | _ => true
    let s := if names && k.raised && !k.absent then { s with busy := countSub s.busy (hBase k.h) 1 } else s
    modCore s n fun c => { c with copies := c.copies.filter fun k => k.id != id }

/-- The signatures of every word of a pair's leading core have matched (R393). -/
def wordsMatched (c : Core) : Bool := c.sigs.all fun e => !e.word

/-- Core `n`, which has stopped issuing, is no pair, or its trailing core has caught up with it (R392, R393). -/
def pairRested (s : State) (n : Nat) : Bool := !isPaired s n || (coreOf s n).next + 2 * periodOf s n ≤ s.now

/-- Every earlier copy of the same class has been performed (R235). -/
def firstOfClass (c : Core) (k : Copy) : Bool :=
  k.cls.isNone || ((c.copies.takeWhile fun j => j.id != k.id).all fun j => j.cls != k.cls)

/-- A request of copy `k` of agent `n` may be performed: class order, no page move in its way (R351), and once cycle c + 2
of its issue (R240), or the cycle after the one that matches a pair's signatures of its word (R393), has ended: what a
cycle performs the word of the next cycle sees (R4, R237). -/
def mayPerform (s : State) (n : Nat) (k : Copy) : Bool :=
  let c := coreOf s n
  firstOfClass c k && (k.raised || k.absent) &&
    (k.issued + (if isPaired s n then 4 else 3) ≤ c.cyc || (c.run != .running && pairRested s n))

def setTileSt (c : Core) (t : Nat) (f : TileReg → TileReg) : Core :=
  { c with t := c.t.setIfInBounds t (f (c.t.toList.getD t TileReg.zero)) }

/-! ### Line requests of `tld`, `tst`, `tlbk` (R234, R239) -/

/-- Element row r of a copy in memory, as (offset, length) (R230). -/
def rowSpan (k : Copy) (r : Nat) : Nat × Nat := (k.off + r * tStride k.b, tMB k.a)

/-- The lines, by offset div 128, that a span meets. -/
def spanLines (x : Nat × Nat) : List Nat :=
  if x.2 = 0 then [] else (List.range ((x.1 + x.2 - 1) / 128 - x.1 / 128 + 1)).map (x.1 / 128 + ·)

/-- The line requests of a tile copy: (element row, line). -/
def tileLines (k : Copy) : List (Nat × Nat) :=
  (List.range (tErows k.a)).foldr (fun r l => ((spanLines (rowSpan k r)).map fun x => (r, x)) ++ l) []

def lineCount (off : Nat) (a b : BitVec 64) : Nat :=
  ((List.range (tErows a)).map fun r =>
    let x := off + r * tStride b
    if tMB a = 0 then 0 else (x + tMB a - 1) / 128 - x / 128 + 1).foldl (· + ·) 0

/-- The bytes of row r that lie in a line: first byte of the row's MB bytes, and how many. -/
def rowPart (k : Copy) (r line : Nat) : Nat × Nat :=
  let x := rowSpan k r
  let lo := max x.1 (128 * line)
  let hi := min (x.1 + x.2) (128 * line + 128)
  (lo - x.1, hi - lo)

/-- Row bytes `m` to `m + n - 1` go to their place in the tile, element bytes and index bytes (R229,
R230); padding becomes 0. Bytes from a poisoned granule are undefined. -/
def landRow (fv : BitVec 32768) (t : Nat) (c : Core) (k : Copy) (r m n v : Nat) (undef : Bool) : Core :=
  let rb := tRB k.a
  let e := min (m + n) rb - min m rb
  let x := tileAddr k.a (r * tP k.a + m)
  let c := tileStore t fv c x e v
  let c := if undef then markUndef c true x e else c
  let i := n - e
  let y := tileAddr k.a (4096 * tScoff k.b + r * tSP k.a + (max m rb - rb))
  let c := tileStore t fv c y i (v >>> (8 * e))
  let c := if undef then markUndef c true y i else c
  tileStore t fv c (tileAddr k.a (r * tP k.a + rb)) (tP k.a - rb) 0

/-- One line request of a `tld` of core `n`. -/
def performLoad (s : State) (n : Nat) (k : Copy) (t : Fin 64) (r line : Nat) : State :=
  let p := rowPart k r line
  let (s, v, bad) := if k.absent then (s, 0, none)
    else loadBytes s (dieOf n) k.h (hBase k.h + k.off + r * tStride k.b + p.1) p.2
  let fv := freeVal s 4012 32768
  let s := modCore s n fun c =>
    let c := landRow fv t.val c k r p.1 p.2 v bad.isSome
    let c := match bad with | some st => consume c st | none => c
    let c := match k.cls with | some cl => subCounts c cl 1 0 | none => c
    modCopy c k.id fun k => { k with done := (r, line) :: k.done }
  if k.done.length + 1 < lineCount k.off k.a k.b then s
  else copyEnd (modCore s n fun c => setTileSt c t.val fun x => { x with st := .ready }) n k.id

/-- The lines `b` become one load-block of the L2 of die `d`; others go to make room, which ones is not fixed (R21, R22,
R24). -/
def addL2 (s : State) (d : Nat) (b : List Nat) : State :=
  let x := dieAt s d
  if x.l2Blocks.contains b || l2Limit x x.op.val < b.length then s
  else
    let l := shrinkBlocks (l2Limit x x.op.val - b.length) (freeDraw s 4024) x.l2Blocks.length x.l2Blocks ++ [b]
    setDie s d { x with l2Blocks := l }

/-- The cores' cached leaves and walk results of the page at a frame are purged (R343, R350). -/
def purgeLeaf (s : State) (base : Nat) : State :=
  let l := s.cores.map fun e =>
    (e.1, { e.2 with tcache := e.2.tcache.filter fun x => fld x.2 43 16 * 65536 != base
                     walked := e.2.walked.filter fun x => hBase x.2 != base })
  { s with cores := l }

/-- A leaf entry's word is written at its home. -/
def writeEntry (s : State) (a : Nat) (e : BitVec 64) : State := storeBytes s none a (toBytes 8 e.toNat)

/-- STATE of a leaf entry becomes `st` (R342). -/
def setLeafState (s : State) (a st : Nat) : State := writeEntry s a (putFld (readEntry s a) 58 56 st)

/-- Every die's RDC drops its lines and load-blocks of `n` bytes from `base` (R350, R351). -/
def dropRange (s : State) (base n : Nat) : State :=
  [0, 1, 2, 3].foldl (fun s d => dropLines s d fun l => base < 128 * l + 128 && 128 * l < base + n) s

/-- A store to a Replicated page returns it to Resident first, its replicas dropped, and the caches of it purged: the
cores' leaves and the dies' RDC lines (R266, R350). -/
def unreplicate (s : State) (base : Nat) : State :=
  match s.replicas.find? fun e => e.1 == base with
  | some e =>
    setLeafState (dropRange (purgeLeaf { s with replicas := s.replicas.filter fun x => x.1 != base } base) base e.2.1) e.2.2 0
  | none => s

/-- The MB bytes of element row r, read through register `t`. -/
def tileRowData (c : Core) (t : Nat) (fv : BitVec 32768) (a b : BitVec 64) (r : Nat) : List Byte :=
  toBytes (tRB a) (tileNat c t fv (tileAddr a (r * tP a)) (tRB a)) ++
    toBytes (tSP a) (tileNat c t fv (tileAddr a (4096 * tScoff b + r * tSP a)) (tSP a))

/-- The tile register's poisoned bytes that a copy-out reads are consumed. -/
def consumeAreas (c : Core) (a b : BitVec 64) : Core :=
  if c.tPoison.any (fun g => areaMeets a b g 8) then consume c 0 else c

/-- A register leaves Storing for the state it remembers. -/
def endStoring (c : Core) (t : Nat) : Core :=
  setTileSt c t fun x => if x.st == .storing then { x with st := x.mem } else x

/-- One line request of a `tst` of core `n`. Its bytes are those that the copy unit read when it put the copy's
requests in flight; a request put in flight by itself reads its row now (R236). -/
def performStore (s : State) (n : Nat) (k : Copy) (t : Fin 64) (r line : Nat) : State :=
  let p := rowPart k r line
  let row := match k.data with
    | some d => (d.drop (r * tMB k.a)).take (tMB k.a)
    | none => tileRowData (coreOf s n) t.val (freeVal s 4008 32768) k.a k.b r
  let data := (row.drop p.1).take p.2
  let s := if k.absent then s
    else storeBytes (unreplicate s (hBase k.h)) (some (dieOf n)) (hBase k.h + k.off + r * tStride k.b + p.1) data
  let s := modCore s n fun c =>
    let c := if k.data.isNone then consumeRead (consumeRead (signMore c k.issued data) (tileAddr k.a (r * tP k.a)) (tRB k.a))
        (tileAddr k.a (4096 * tScoff k.b + r * tSP k.a)) (tSP k.a) else c
    let c := match k.cls with | some cl => subCounts c cl 0 1 | none => c
    modCopy c k.id fun k => { k with done := (r, line) :: k.done }
  if k.done.length + 1 < lineCount k.off k.a k.b then s
  else copyEnd (if k.data.isNone || (coreOf s n).cyc ≤ k.until_ then modCore s n fun c => endStoring c t.val else s) n k.id

/-- One line of a `tlbk` is present (R244): its block is of the lines that the same cache serves, the RDC of the core's die
or, for lines homed there and for the die's own replica, that die's L2. -/
def performBlock (s : State) (n : Nat) (k : Copy) (pn : Fin 64) (lines line : Nat) : State :=
  let pa := hBase k.h + 128 * line
  let d := dieOf n
  let s :=
    if k.absent || isPcLocal pa then s
    else
      let through (l : Nat) : Bool := throughRdc s d k.h (128 * l)
      let block := ((List.range lines).map ((hBase k.h + k.off) / 128 + ·)).filter fun l => through l == through (pa / 128)
      if through (pa / 128) then
        let s := fillLine s d (pa / 128)
        let x := dieAt s d
        setDie s d { x with rdcBlocks := addBlock x.rdcBlocks block }
      else addL2 s d block
  let s := modCore s n fun c =>
    let c := match k.cls with | some cl => subCounts c cl 1 0 | none => c
    modCopy c k.id fun k => { k with done := (0, line) :: k.done }
  if k.done.length + 1 < lines then s
  else copyEnd (modCore s n fun c => { c with pn := putFld c.pn pn.val pn.val 1 }) n k.id

/-! ### Reading a tile register for a copy-out (R240, R246) -/

/-- The MB bytes of every element row, in order. -/
def tileRowsData (c : Core) (t : Nat) (fv : BitVec 32768) (a b : BitVec 64) : List Byte :=
  (List.range (tErows a)).foldr (fun r l => tileRowData c t fv a b r ++ l) []

/-- Line requests of core `c`'s `tst`s that have been read and not performed: they are in flight. -/
def storesInFlight (c : Core) : Nat :=
  c.copies.foldl (fun n k => match k.kind with
    | .tst _ => if k.data.isSome then n + (lineCount k.off k.a k.b - k.done.length) else n
    | _ => n) 0

/-- The line requests a core keeps in flight (R20, R236). -/
def lineLimit : Nat := 1024

/-- All requests left of copy `k` can be in flight at once. -/
def fitsInFlight (c : Core) (k : Copy) : Bool :=
  storesInFlight c + (lineCount k.off k.a k.b - k.done.length) ≤ lineLimit

/-- The copy length X. -/
def copyLength (a : BitVec 64) : Nat := tErows a * tP a + (if tScaled a then tErows a * tSP a else 0)

/-- `n` bytes from byte `i` of a tile's copied bytes: the data area, then the scale area. -/
def areaNat (c : Core) (t : Nat) (fv : BitVec 32768) (a b : BitVec 64) (i n : Nat) : Nat :=
  let d := tErows a * tP a
  let e := min (i + n) d - min i d
  tileNat c t fv (tileAddr a i) e +
    (tileNat c t fv (tileAddr a (4096 * tScoff b + (max i d - d))) (n - e) <<< (8 * e))

/-- `n` bytes from byte `i` of a tile's copied bytes written through register `t`. -/
def areaStore (t : Nat) (fv : BitVec 32768) (c : Core) (a b : BitVec 64) (i n v : Nat) : Core :=
  let d := tErows a * tP a
  let e := min (i + n) d - min i d
  let c := tileStore t fv c (tileAddr a i) e (v % 2 ^ (8 * e))
  tileStore t fv c (tileAddr a (4096 * tScoff b + (max i d - d))) (n - e) (v >>> (8 * e))

/-- The poison that a read of those bytes meets is consumed (R388, R389). -/
def consumeArea (c : Core) (a b : BitVec 64) (i n : Nat) : Core :=
  let d := tErows a * tP a
  let e := min (i + n) d - min i d
  consumeRead (consumeRead c (tileAddr a i) e) (tileAddr a (4096 * tScoff b + (max i d - d))) (n - e)

/-! ### Copies of fixed length (R246, R319, R368) -/

/-- The 512-byte pieces of a copy. -/
def tcpyPieces (k : Copy) : Nat := (copyLength k.a + 511) / 512

/-- Piece `j` of a `tcpy` moves (R246). -/
def movePiece (fv : BitVec 32768) (td ts : Fin 64) (k : Copy) (c : Core) (j : Nat) : Core :=
  let x := c.t[ts]
  let len := min 512 (copyLength k.a - 512 * j)
  areaStore td.val fv (consumeArea c x.a x.b (512 * j) len) k.a k.b (512 * j) len (areaNat c ts.val fv x.a x.b (512 * j) len)

/-- The pieces of a `tcpy` that have not moved yet move. -/
def moveRest (fv : BitVec 32768) (td ts : Fin 64) (k : Copy) (c : Core) : Core :=
  ((List.range (tcpyPieces k)).filter fun j => !k.done.contains (0, j)).foldl (movePiece fv td ts k) c

/-- `n` bits of `w`-bit elements, each `v`. -/
def repeatBits (w v : Nat) : Nat → Nat
  | 0 => 0
  | n + 1 => v % 2 ^ w + (repeatBits w v n <<< w)

/-- The end of a `tcpy` or a `tfill`: what has not moved yet moves, and the registers leave their states; an `ipatch` writes its
slot pair, unless a fabric write has met it in this cycle, which is applied last (R318). -/
def fixedEffect (fv : BitVec 32768) (c : Core) (k : Copy) : Core :=
  match k.kind with
  | .tcpy td ts =>
    setTileSt (endStoring (moveRest fv td ts k c) ts.val) td.val fun x => { x with st := .ready }
  | .tfill t v nib =>
    let row := repeatBits (fmtWidth (tFmt k.a)) v.toNat (tElems k.a)
    let c := (List.range (tErows k.a)).foldl (fun c r => tileStore t.val fv c (tileAddr k.a (r * tP k.a)) (tP k.a) row) c
    let c := if tScaled k.a then
        tileStore t.val fv c (tileAddr k.a (4096 * tScoff k.b)) (tErows k.a * tSP k.a)
          (repeatBits 4 nib.toNat (2 * (tErows k.a * tSP k.a)))
      else c
    setTileSt c t.val fun x => { x with st := .ready }
  | .ipatch w p v =>
    if c.run == .running && c.patched == some (c.cyc, w.val, p.val) then c
    else { c with
      istore := spSet c.istore w.val (putFld (spGet c.istore w.val) (64 * p.val + 63) (64 * p.val) v.toNat)
      iPoison := c.iPoison.filter fun g => g != 4 * w.val + p.val }
  | _ => c

/-- The end of a copy of fixed length. -/
def fixedEnd (s : State) (n : Nat) (k : Copy) : State :=
  copyEnd (modCore s n fun c => fixedEffect (freeVal s 4001 32768) c k) n k.id

/-- A destination member of another chip, as one number above every core's (see notes/assumptions/21.md). -/
def remoteDst (chip member : Nat) : Nat := 1000 + 65536 * chip + member
def remoteChip (d : Nat) : Nat := (d - 1000) / 65536
def remoteMember (d : Nat) : Nat := (d - 1000) % 65536

/-- The LATs of a route to a chip, summed (R363): of the aligned link to it, or of the first aligned link on the way
and of the links that other chips' tables hold. -/
def linkLat (s : State) (chip : Nat) : Nat :=
  match (List.range 16).find? fun p => lState s p == 3 && lPeer s p == chip with
  | some p => lLat s p
  | none => ((s.upLink.map fun p => lLat s p.val).getD 0) + Config.farLat s.chip chip

/-- Λ of R363 in units of 1/252 tick. -/
def lambda (s : State) (src dst : Nat) : Nat :=
  if 1000 ≤ dst then 252 * linkLat s (remoteChip dst) + 64 * periodOf s src
  else (if hallOf src == hallOf dst then 16 else if dieOf src == dieOf dst then 48 else 96) * periodOf s src

/-- The message is a unit of an `xput`. -/
def isUnit : Payload → Bool
  | .msg _ => false
  | .unit _ _ _ _ _ _ => true

/-- A message sets out; `ord` is its place in its sender's issue order. -/
def postFlight (s : State) (src dst ord : Nat) (body : Payload) : State :=
  { s with flights := s.flights ++ [{ id := s.nextFlight, ord := ord, src := src, dst := dst, due := s.now + lambda s src dst, posted := s.now
                                      kernel := (coreOf s src).kernel, sent := false, body := body }]
           nextFlight := s.nextFlight + 1 }

/-- Units of an `xput`. -/
def xputUnits (k : Copy) : Nat := (copyLength k.a + 511) / 512

/-- Unit `j` of copy `id` of core `n` is performed; the `xput` ends with its last unit (R270, R368). -/
def unitDone (s : State) (n id j : Nat) : State :=
  match findCopy (coreOf s n) id with
  | none => s
  | some k =>
    if k.done.contains (0, j) then s
    else if k.done.length + 1 < xputUnits k then
      modCore s n fun c => modCopy c id fun k => { k with done := (0, j) :: k.done }
    else copyEnd s n id

/-- Unit `j` of an `xput` is read and leaves for its destination (R368). -/
def sendUnit (s : State) (n : Nat) (k : Copy) (ts td : Fin 64) (dst off j : Nat) : State :=
  let len := min 512 (copyLength k.a - 512 * j)
  let v := areaNat (coreOf s n) ts.val (freeVal s 4002 32768) k.a k.b (512 * j) len
  let s := modCore s n fun c => signMore (consumeArea c k.a k.b (512 * j) len) k.issued (toBytes 4 dst ++ toBytes len v)
  postFlight s n dst k.id (.unit td (off + 512 * j) len (BitVec.ofNat 4096 v) k.id j)

/-- What copy `k` of core `n` reads and moves in cycle `cyc`, before what lands in it (R246, R368, R445). -/
def moveCycle (cyc : Nat) (s : State) (n : Nat) (k : Copy) : State :=
  match k.kind with
  | .tcpy td ts =>
    if k.issued + 2 ≤ cyc && cyc ≤ k.until_ then
      modCore s n fun c => modCopy (movePiece (freeVal s 4001 32768) td ts k c (cyc - (k.issued + 2))) k.id fun k =>
        { k with done := (0, cyc - (k.issued + 2)) :: k.done }
    else s
  | .xput ts dst td off =>
    if k.issued + 2 ≤ cyc && cyc ≤ k.until_ then sendUnit s n k ts td dst off (cyc - (k.issued + 2)) else s
  | _ => s

/-- What ends with cycle `cyc` of copy `k`: a `tcpy` or a `tfill` in its last cycle, a copy-out that has read every byte
(R231, R246, R368). -/
def endOfCycle (cyc : Nat) (s : State) (n : Nat) (k : Copy) : State :=
  match k.kind with
  | .tcpy _ _ | .tfill _ _ _ => if cyc = k.until_ then fixedEnd s n k else s
  | .tst t => if k.data.isSome && cyc = k.until_ then modCore s n fun c => endStoring c t.val else s
  | .xput ts _ _ _ =>
    if cyc != k.until_ then s
    else
      let s := modCore s n fun c => endStoring c ts.val
      if k.until_ < k.issued + 2 then copyEnd s n k.id else s
  | _ => s

/-- The copies of core `n` read and move in cycle `cyc`. -/
def copyMoves (cyc : Nat) (s : State) (n : Nat) : State :=
  (coreOf s n).copies.foldl (fun s k => moveCycle cyc s n k) s

/-- Cycle `cyc`, which core `n` ends, ends for its copies. -/
def copyTick (cyc : Nat) (s : State) (n : Nat) : State :=
  (coreOf s n).copies.foldl (fun s k => endOfCycle cyc s n k) s

/-- Cycle `cyc` of the core's copies and of what is in flight. -/
def carryCycle (s : State) (n cyc : Nat) : State :=
  copyTick cyc (modCore (copyMoves cyc s n) n fun c => landCycle (fun j => freeDraw s 4003 (8 * cyc + j)) cyc c) n

/-- The last cycle of a copy of fixed length, and of a copy-out's read. -/
def copyLast (k : Copy) : Nat :=
  match k.kind with
  | .tcpy _ _ | .tfill _ _ _ | .xput _ _ _ _ => k.until_
  | .tst _ => if k.data.isSome then k.until_ else 0
  | _ => 0

/-- At a freeze every copy of fixed length is carried to its end, cycle by cycle (R66, R238). -/
def copyFreeze (s : State) (n : Nat) : State :=
  let c := coreOf s n
  let last := c.copies.foldl (fun a k => max a (copyLast k)) 0
  let s := (List.range (last + 1 - c.cyc)).foldl (fun s i => carryCycle s n (c.cyc + i)) s
  modCore s n fun c => { c with copies := c.copies.map fun k => match k.kind with
    | .xput _ _ _ _ => { k with until_ := 0 }
    | _ => k }

end Sys2Proof.Machine
end

