-- ==== Sys2Proof/Machine/Ops.lean ====
section
/-!
DEFINITION. Ops.lean: taking a trap and resuming from one, vacating a core, reports.
-/
namespace Sys2Proof.Machine

/-! ### Taking a trap, and resuming (14_context.md R280, R281, R289) -/

/-- The trap record (R281). -/
def trapRecord (n : Nat) (mask cause : Nat) (detail : BitVec 32) : BitVec 64 :=
  BitVec.ofNat 64 ((mask % 256) <<< 56 + (cause % 256) <<< 48 + (n % 8) <<< 40 + detail.toNat)

/-- Records in increasing CORE, with one more. -/
def insertRecord (rec : BitVec 64) : List (BitVec 64) → List (BitVec 64)
  | [] => [rec]
  | r :: l => if fld rec 42 40 < fld r 42 40 then rec :: r :: l else r :: insertRecord rec l

/-- A record queued for the hall's service core; those of one cycle join in increasing CORE (R280, R284). -/
def queueRecord (s : State) (n : Nat) (rec : BitVec 64) : State :=
  let now := s.now
  modCore s (256 + hallOf n) fun c =>
    let new := if c.qTime == now then min c.qNew c.queue.length else 0
    let old := c.queue.length - new
    { c with queue := c.queue.take old ++ insertRecord rec (c.queue.drop old), qTime := now, qNew := new + 1 }

/-- The re-executions of core `n` join its die's residue count, which stops at its greatest value (R390, R391). -/
def countReruns (s : State) (n : Nat) : State :=
  let k := (coreOf s n).mx.reruns
  if k = 0 then s
  else
    let x := dieAt s (dieOf n)
    setDie (modCore s n fun c => { c with mx := { c.mx with reruns := 0 } }) (dieOf n)
      { x with residue := BitVec.ofNat 32 (min (x.residue.toNat + k) 0xFFFFFFFF) }

/-- Core `n` freezes before its next word: what is in flight completes, its routine halts at the next
k-group boundary, its copies of fixed length end, the status becomes `r` (R66, R207, R280). -/
def freeze (s : State) (n : Nat) (r : Run) : State :=
  let fv := freeVal s 4000 32768
  countReruns
    (modCore (copyFreeze s n) n fun c => { haltRoutine fv (settle (freeDraw s 4000) c) with run := r, waited := true }) n

/-- The rewind of an Open segment (18_barrier.md R339): every item of the shadow, the arrival
withdrawn, a running routine stopped as `mabort` does. -/
def rewindCore (fv : BitVec 32768) (c : Core) : Core :=
  match c.seg with
  | none => c
  | some sh =>
    { stopRoutine fv c with
      run := c.run, s := sh.s, v := sh.v, p := sh.p, msk := sh.msk, rings := sh.rings, walk := sh.walk
      stair := sh.stair, vflags := sh.vflags, bsat := sh.bsat, bzero := sh.bzero
      pc := sh.pc, delay := sh.delay, arrival := none
      lands := match c.arrival with
        | some a => c.lands.set a.scope (c.lands[a.scope] - 1)
        | none => c.lands }

/-- The core's arrival at a landing of its kernel not yet released is withdrawn (R334). -/
def withdrawArrival (s : State) (n : Nat) : State :=
  { s with landings := s.landings.map fun l =>
      if l.tr.isNone && kernelNo s n == l.kernel then { l with arrived := l.arrived.filter fun a => a.1 != n } else l }

/-- Core `n` takes a trap: it freezes before the trapping word, a record is queued for its hall's
handler, and a cause 0x0E rewinds an Open segment (R280, R281, R339). A service or management core,
whose traps have no handler, stands at the refused word: see notes/assumptions/11.md. -/
def takeTrap (s : State) (n : Nat) (mask cause : Nat) (detail : BitVec 32) : State :=
  let rec_ := trapRecord n mask cause detail
  if isCompute n then
    let s := freeze s n (.trapped rec_)
    let s := if cause = 0x0E && (coreOf s n).seg.isSome then withdrawArrival (modCore s n (rewindCore (freeVal s 4003 32768))) n else s
    queueRecord s n rec_
  else freeze s n (.refused rec_)

/-- The word at the PC counts as committed with no slot executing (R289); PROG tells a word that is not zero (R396). -/
def skipWord (c : Core) : Core :=
  { advance c .seq with words := c.words + 1, prog := c.prog || spGet c.istore c.pc.toNat != 0 }

/-- A frozen core's record ends and it issues again in the next cycle, once what was in flight at its
freeze is complete (R289, R382). `skip` skips the word at its PC; of a core that waits at a landing that is the word
after the `land`, once it would issue (R446). -/
def resumeCore (skip : Bool) (c : Core) : Core :=
  let c := if c.arrival.isSome || c.skip then { c with skip := skip } else if skip then skipWord c else c
  { c with run := .resuming, mx := { c.mx with run := c.mx.run.map fun r => { r with halted := false } } }

/-- Every record of core `n` leaves its hall's queue. -/
def dropRecords (s : State) (n : Nat) : State :=
  modCore s (256 + hallOf n) fun c => { c with queue := c.queue.filter fun r => fld r 42 40 != n % 8 }

/-- The core becomes vacant (R290): it holds no kernel, its record ends. -/
def vacate (c : Core) : Core :=
  { c with run := .vacant, kernel := none, ctx := none, pend := [], arrival := none, abuf := [], await := []
           causes := [], seg := none, trig := Vector.replicate 4 .idle, skip := false, aborting := false
           sigs := [], upset := 0, differs := none, owed := []
           mx := { c.mx with run := none } }

/-- Core `n` becomes vacant, and with it the trailing core of its pair. -/
def vacateCore (s : State) (n : Nat) : State :=
  let s := modCore s n vacate
  if (coreOf s (n + 1)).run == .trailing && n % 2 == 0 then modCore s (n + 1) vacate else s

/-! ### Reports -/

def report (s : State) (o : Out) : State := { s with outbox := s.outbox ++ [{ stamp := tickOf s, out := o }] }

/-! ### Vendor messages (20_link.md R358, R359) -/

def vType (h : BitVec 128) : Nat := fld h 7 0
def vLen (h : BitVec 128) : Nat := fld h 15 8
def vTag (h : BitVec 128) : BitVec 16 := h.extractLsb' 16 16
def vDst (h : BitVec 128) : BitVec 16 := h.extractLsb' 32 16
def vSrc (h : BitVec 128) : BitVec 16 := h.extractLsb' 48 16
def vStamp (h : BitVec 128) : Nat := fld h 127 64

/-- The header of a message of a listed type, with `len` units of payload, for this chip; a host node sends only the
types marked H. -/
def headerFits (s : State) (h : BitVec 128) (vtype len : Nat) (host : Bool) : Bool :=
  vType h == vtype && vLen h == len && vDst h == s.chip && (host || vSrc h != 0xFFFF)

/-- A vendor message comes over a link that carries traffic; one that does not fit its type, or that comes through an
Ultra Ethernet port, is discarded and counted (R355, R359). In Safe all but types 6 and 7, and launch
packets, which are refused, are discarded (R400). -/
def receive (s : State) (v : Via) (vtype len : Nat) (host : Bool) (f : State → State) : State :=
  if !carries (linkAt s v.port.val) then s
  else if !isUaLink v.port.val || !headerFits s v.hdr vtype len host then modLink s v.port.val countErr
  else if s.boot == .safe && vtype != 1 && vtype != 6 && vtype != 7 then s
  else f s

/-- VTYPE, LEN, DSTCHIP and TAG of a vendor message that leaves. -/
def outFields (stamp : Nat) : Out → Option (Nat × Nat × BitVec 16 × BitVec 16)
  | .report dst tag _ _ _ _ _ _ => some (2, 2, dst, tag)
  | .groupAbort chip _ => some (2, 2, chip, Config.ownTag stamp)
  | .mailbox dest _ _ data =>
    match dest with
    | .host v | .scheduler v => some (7, 1 + (data.length + 15) / 16, vSrc v.hdr, vTag v.hdr)
    | .mgmt => none
  | .xmessage chip m => some (4, (Config.valueUnits (if m.vec then 512 else 8)).toNat, chip, Config.ownTag stamp)
  | .xunit chip _ _ _ _ data => some (4, (Config.valueUnits data.length).toNat, chip, Config.ownTag stamp)
  | .chunk chip _ _ _ ps => some (5, (Config.valueUnits (16 * ps.length)).toNat, chip, Config.ownTag stamp)
  | .probe _ chip tag => some (6, 0, chip, tag.getD (Config.ownTag stamp))
  | _ => none

/-- The 16-byte header of what chip `chip` posts; none of what is no vendor message. -/
def headerOf (chip : BitVec 16) (p : Posted) : Option (BitVec 128) :=
  (outFields p.stamp p.out).map fun x =>
    BitVec.ofNat 128 (x.1 + (x.2.1 <<< 8) + (x.2.2.2.toNat <<< 16) + (x.2.2.1.toNat <<< 32) + (chip.toNat <<< 48) + (p.stamp <<< 64))

/-- The answer to a request of the runtime firmware. -/
def answer (s : State) (code : Nat) (value : Nat := 0) : State :=
  report s (.firmware (BitVec.ofNat 8 code) (BitVec.ofNat 64 value))

end Sys2Proof.Machine
end

