-- ==== Sys2Proof/Machine/Issue.lean ====
section
/-!
DEFINITION. Issue.lean: one cycle of an agent that runs words: what a slot asks of the word it stands in,
the checks at issue, the commit and the end of the cycle (05_word.md R66, R67, R444; 06_encoding.md R112).
-/
namespace Sys2Proof.Machine

/-- A slot of the word at the PC of an agent, read in the state before the word. -/
structure SlotOp where
  /-- The slot's number. -/
  k       : Nat
  /-- None: it has no guard and always executes. -/
  guard   : Option Guard
  /-- The ring it rotates. -/
  ring    : Option RingId
  /-- Ring reads, in the order source A, source B, third source. -/
  reads   : List Src
  /-- Handles a copy names (R347). -/
  rewalk  : List (Fin 16)
  /-- The virtual address it walks while it executes (R349). -/
  walkVa  : Option (BitVec 48)
  /-- Checks before the guards that fail: cause and DETAIL. -/
  pre     : List (Nat × BitVec 32)
  /-- Checks after the guards that fail while it executes. -/
  post    : List (Nat × BitVec 32)
  /-- It stalls the word while it executes; `declared`: the stall is a declared wait (R397). -/
  stall   : Bool
  declared : Bool
  /-- The service that it asks the runtime firmware for while it holds the word (R144). -/
  asks    : Option (BitVec 12)
  /-- Copy-queue entries it takes. -/
  copies  : Nat
  /-- A failing cause is the matrix unit's held cause (R200). -/
  held    : Bool
  ctl     : Ctl
  /-- What it does when it commits and executes. -/
  eff     : State → State
  /-- What follows the end of the cycle (R144). -/
  after   : State → State

/-- A slot that does nothing. -/
def SlotOp.idle (k : Nat) : SlotOp :=
  { k := k, guard := none, ring := none, reads := [], rewalk := [], walkVa := none, pre := [], post := []
    stall := false, declared := false, asks := none, copies := 0, held := false, ctl := .seq, eff := id, after := id }

/-- A slot refused with fault 0x01 (R113). -/
def SlotOp.illegal (k : Nat) : SlotOp := { SlotOp.idle k with pre := [(0x01, 0)] }

/-! ### Guards and stair flags (R81, R94) -/

/-- The innermost flight of the running stair whose range holds the PC. -/
def flightHere (c : Core) : Option Nat :=
  (List.range c.stair.running.toNat).find? fun k =>
    (flightAt c.stair k).first ≤ c.pc && c.pc ≤ (flightAt c.stair k).last

def stairOk (c : Core) (g : Guard) : Bool :=
  match flightHere c with
  | none => true
  | some k =>
    let i := (flightAt c.stair k).idx.toNat
    (!g.first || i = 0) && (!g.last || i + 1 = iters c.stair k)

/-- The slot executes. -/
def executes (c : Core) (o : SlotOp) : Bool :=
  match o.guard with
  | none => true
  | some g => (predVal c g.pred != g.sense) && stairOk c g

/-! ### Checks (R72, R77, R112) -/

/-- The failing checks before the guards of one slot, latency included. -/
def preFails (c : Core) (o : SlotOp) : List (Nat × BitVec 32) :=
  o.pre ++
    (if c.chklat && c.profile != 1 then
      ((o.reads.filter (srcEarly c)).take 1).map fun a => (0x0B, (selectorOf a).setWidth 32)
    else [])

/-- The first of `stages` that some slot fails, with the mask of the slots that fail it and the DETAIL
of the lowest. -/
def firstFail (fails : SlotOp → List (Nat × BitVec 32)) (ops : List SlotOp) :
    List Nat → Option (Nat × Nat × BitVec 32)
  | [] => none
  | cause :: r =>
    match ops.filter fun o => (fails o).any fun f => f.1 == cause with
    | [] => firstFail fails ops r
    | o :: l =>
      some (cause, (o :: l).foldl (fun m o => m ||| 2 ^ o.k) 0,
        (((fails o).find? fun f => f.1 == cause).map (·.2)).getD 0)

def preStages : List Nat := [0x01, 0x02, 0x03, 0x0A, 0x05, 0x06, 0x07, 0x08, 0x09, 0x0B]
def postStages : List Nat := [0x04, 0x13, 0x14, 0x0C]

/-- A compatibility-mode word waits for the latches it reads (R78). -/
def compatStall (c : Core) (ops : List SlotOp) : Bool :=
  c.profile == 1 && ops.any fun o => o.reads.any (srcEarly c)

/-- The slots that execute hold the word (R66, R236, R444). -/
def slotStall (c : Core) (ops : List SlotOp) : Bool :=
  let run := ops.filter (executes c)
  run.any (·.stall) ||
    (let n := (run.map (·.copies)).foldl (· + ·) 0; n != 0 && 32 < c.copies.length + n)

def declaredWait (c : Core) (ops : List SlotOp) : Bool := (ops.filter (executes c)).any fun o => o.stall && o.declared

/-! ### Walks at issue (R343, R347) -/

/-- What a core knows of the page of `va`: a cached leaf, or the end of the walk it froze for. -/
def knownAt (c : Core) (va : Nat) : Option Handle :=
  match cached c va with
  | some h => some h
  | none => walkedAt c va

/-- Not-present handles are bound afresh where the page is now present; the address of the first walk
that misses. -/
def rewalkCore (c : Core) : List (Fin 16) → Core × Option (BitVec 48)
  | [] => (c, none)
  | i :: r =>
    let h := c.h[i]
    if hValid h && hAbsent h then
      match knownAt c (hVa h) with
      | none => (c, some (BitVec.ofNat 48 (hVa h)))
      | some b => rewalkCore (if hPresent b then { c with h := c.h.set i b } else c) r
    else rewalkCore c r

/-- The first walk of an executing slot that misses. -/
def walkMiss (c : Core) (ops : List SlotOp) : Option (BitVec 48) :=
  ops.findSome? fun o =>
    if executes c o then o.walkVa.bind fun va => if (knownAt c va.toNat).isNone then some va else none else none

/-! ### The cycle -/

/-- What a core does at the end of a cycle but for its copies: what lands, the matrix unit. -/
def endCore (s : State) (p : Nat) (c : Core) : Core :=
  let c := routineTick (freeVal s 4004 32768) (landCycle (freeDraw s 4004) c.cyc c)
  { c with cyc := c.cyc + 1, next := c.next + p }

/-- The end of a cycle: what copies of fixed length read and move in it, what lands, the matrix unit, and those copies'
ends, which are in progress until the cycle has ended (R66, R76, R82, R218, R246, R445). -/
def endCycle (s : State) (n : Nat) : State :=
  let cyc := (coreOf s n).cyc
  let p := periodOf s n
  let s := copyMoves cyc s n
  let s := copyTick cyc (modCore s n (endCore s p)) n
  { countReruns s n with fresh := s.fresh + 1 }

/-! ### Commit signatures of pairs (R392, R393) -/

/-- The bytes of a value that a word writes. -/
def actBytes (a : Act) : List Byte :=
  match a with
  | .s n v | .walk n v | .mp n v => (toBytes 1 n.val) ++ toBytes 8 v.toNat
  | .v n v => toBytes 1 n.val ++ toBytes 512 v.toNat
  | .p n b => toBytes 1 n.val ++ toBytes 1 b.toNat
  | .mk n v => toBytes 1 n.val ++ toBytes 16 v.toNat
  | .hnd n h | .xlat n h _ => toBytes 1 n.val ++ (toBytes 8 h.w0.toNat ++ toBytes 8 h.w1.toNat)
  | .tdef t a b => toBytes 1 t.val ++ (toBytes 8 a.toNat ++ toBytes 8 b.toNat)
  | .flags f => toBytes 1 f.toNat
  | .blocks x y => toBytes 8 x ++ toBytes 8 y
  | .store t bs | .arrive t bs | .lsf t bs => toBytes 1 t.val ++ bs.foldr (fun e l => toBytes 4 e.1 ++ e.2 :: l) []
  | .entry col i v _ => toBytes 1 col.toNat ++ (toBytes 1 i.val ++ toBytes 1 v.toNat)
  | .cfg v _ => toBytes 3 v.toNat
  | .table col v => toBytes 1 col.toNat ++ toBytes 16 v.toNat
  | .load _ _ t addrs _ _ => toBytes 1 t.val ++ addrs.foldr (fun a l => toBytes 4 (a.getD 0) ++ l) []
  | .tload col t a _ => toBytes 1 col.toNat ++ (toBytes 1 t.val ++ toBytes 4 a)
  | .uload _ t a first n => toBytes 1 t.val ++ (toBytes 4 a ++ (toBytes 2 first ++ toBytes 2 n))

/-- The operands that a copy takes with it. -/
def kindBytes : CopyKind → List Byte
  | .tld t | .tst t | .bkc t => toBytes 1 t.val
  | .tamo _ _ c d => toBytes 8 c.toNat ++ toBytes 8 d.toNat
  | .tlbk pn n => toBytes 1 pn.val ++ toBytes 1 n
  | .tldi bank => toBytes 1 bank.toNat
  | .tcpy td ts => toBytes 1 td.val ++ toBytes 1 ts.val
  | .tfill t a b => toBytes 1 t.val ++ (toBytes 8 a.toNat ++ toBytes 1 b.toNat)
  | .ipatch w p v => toBytes 2 w.val ++ (toBytes 1 p.val ++ toBytes 8 v.toNat)
  | .csave m | .crest m => toBytes 2 m
  | .xput ts dst td off => toBytes 1 ts.val ++ (toBytes 4 dst ++ (toBytes 1 td.val ++ toBytes 4 off))

/-- Control registers and pennants that a word wrote at once. -/
def controlBytes (b c : Core) : List Byte :=
  (if b.pn = c.pn then [] else toBytes 8 c.pn.toNat) ++
    (if b.vflags = c.vflags && b.bsat = c.bsat && b.bzero = c.bzero && b.chklat = c.chklat then []
     else toBytes 1 c.vflags.toNat ++ (toBytes 4 c.bsat.toNat ++ (toBytes 4 c.bzero.toNat ++ toBytes 1 c.chklat.toNat)))

/-- The messages that core `n` sends in its cycle. -/
def sentBytes (s : State) (n : Nat) : List Byte :=
  (s.flights.filter fun f => f.src == n && f.posted == s.now).foldr (fun f l =>
    toBytes 4 f.dst ++ ((match f.body with
      | .msg m => toBytes 1 m.tag.val ++ toBytes 512 m.val.toNat
      | .unit td x len v _ _ => toBytes 1 td.val ++ (toBytes 4 x ++ toBytes len v.toNat)) ++ l)) []

/-- The signature of the word that took core `b` to core `c` and sent `sent`, or of a cycle in which nothing commits. What
a load reads joins it as it is read (`signMore`). The order of what it covers is the model's: see
notes/assumptions/71.md. -/
def signature (committed : Bool) (sent : List Byte) (b c : Core) : BitVec 32 :=
  BitVec.ofNat 32 (crc32c
    (if !committed then toBytes 1 0
     else
      toBytes 2 b.pc.toNat ++ (toBytes 1 0 ++
        ((c.pend.drop b.pend.length).foldr (fun e l => actBytes e.act ++ l) []) ++
        (((List.range 8).filter fun u => (b.rings.toList.getD u Ring.zero).ptr != (c.rings.toList.getD u Ring.zero).ptr).foldr
          (fun u l => let r := c.rings.toList.getD u Ring.zero; toBytes 512 (latchAt r r.ptr).val.toNat ++ l) []) ++
        ((c.copies.drop b.copies.length).foldr (fun k l =>
          toBytes 8 k.a.toNat ++ (toBytes 8 k.b.toNat ++ (toBytes 8 k.h.w0.toNat ++ (toBytes 8 k.off ++ (kindBytes k.kind ++ l))))) []) ++
        (controlBytes b c ++ (sent ++ c.owed)))))

/-- The trailing core's signature of a cycle: it runs the same word on the same inputs, and an error changes its next
one. -/
def trailing (c : Core) (e : Sig) : BitVec 32 := e.lead ^^^ c.upset

/-- The signatures of cycles that the trailing core has reached by cycle `k` are compared (R392). -/
def compareSigs (k : Nat) (c : Core) : Core :=
  let l := c.sigs.filter fun e => e.cycle + 2 ≤ k
  { c with sigs := c.sigs.filter fun e => k < e.cycle + 2, upset := if l.isEmpty then c.upset else 0
           differs := c.differs.or ((l.find? fun e => trailing c e != e.lead).map (·.cycle)) }

/-- The leading core's signature of the cycle is held, and those that the trailing core has reached are compared. -/
def holdSignature (committed : Bool) (sent : List Byte) (b c : Core) : Core :=
  let x := compareSigs c.cyc c
  { x with sigs := x.sigs ++ [{ cycle := c.cyc, word := committed, lead := signature committed sent b c }]
           owed := if committed then [] else x.owed }

/-- A pair's signature of a cycle whose word began from core `b` is held. -/
def signCycle (pair : Bool) (s : State) (n : Nat) (committed : Bool) (b : Core) : State :=
  if pair then modCore s n (holdSignature committed (sentBytes s n) b) else s

/-- The trailing core of a stopped pair has caught up: its last signatures are compared. -/
def catchUp (s : State) (n : Nat) : State := modCore s n fun c => compareSigs (c.cyc + 2) c

/-- A stall cycle. -/
def stallCycle (s : State) (n : Nat) (declared : Bool) : State :=
  endCycle (signCycle (isPaired s n) (modCore s n fun c => { c with waited := c.waited || declared }) n false (coreOf s n)) n

/-- The word's rings turn, its executing slots take effect in slot order, the sequencer moves (R67,
R71, R80). -/
def commitWord (s : State) (n : Nat) (nz : Bool) (ops : List SlotOp) : State :=
  let c := coreOf s n
  let pair := isPaired s n
  let run := ops.filter (executes c)
  let s := modCore s n fun c => ops.foldl (fun c o => match o.ring with | some u => rotate c u | none => c) c
  let s := signCycle pair (run.foldl (fun s o => o.eff s) s) n true c
  let ctl := (run.find? fun o => o.ctl != .seq).map (·.ctl)
  let s := modCore s n fun c =>
    { advance c (ctl.getD .seq) with words := c.words + 1, prog := c.prog || nz, walked := [] }
  run.foldl (fun s o => o.after s) (endCycle s n)

/-- The trap that a failing check takes; the matrix unit's held cause is released by it (R200). -/
def failTrap (s : State) (n : Nat) (ops : List SlotOp) (cause mask : Nat) (detail : BitVec 32) : State :=
  let held := ops.any fun o => o.held && mask.testBit o.k && mCause (coreOf s n) == cause
  let s := modCore s n fun c => { (if held then setStatus c 28 28 0 else c) with walked := [] }
  takeTrap s n mask cause detail

/-- The checks and the commit of a word that does not stall. -/
def checkWord (s : State) (n : Nat) (nz : Bool) (ops : List SlotOp) : State :=
  let c := coreOf s n
  match firstFail (preFails c) ops preStages with
  | some (cause, mask, detail) => failTrap s n ops cause mask detail
  | none =>
    match walkMiss c ops with
    | some va => freeze s n (.walking va)
    | none =>
      match firstFail (·.post) (ops.filter (executes c)) postStages with
      | some (cause, mask, detail) => failTrap s n ops cause mask detail
      | none => commitWord s n nz ops

/-- The request that a stalled word makes of the runtime firmware, if any (R144). -/
def askFor (s : State) (n : Nat) (ops : List SlotOp) : State :=
  match (ops.filter (executes (coreOf s n))).findSome? (·.asks) with
  | some q => modCore s n fun c => { c with request := some q }
  | none => s

/-- The word of `ops` at issue: stalls, then walks, then checks (R66, R112, R347). -/
def issueWord (s : State) (n : Nat) (nz : Bool) (ops : State → List SlotOp) : State :=
  let c := coreOf s n
  let l := ops s
  if compatStall c l || slotStall c l then stallCycle (askFor s n l) n (declaredWait c l)
  else
    match rewalkCore c (l.foldr (fun o r => o.rewalk ++ r) []) with
    | (c', some va) => freeze (setCore s n c') n (.walking va)
    | (c', none) =>
      let s := setCore s n c'
      checkWord s n nz (ops s)

/-- The landing an arrived core waits in has its release tick fixed (R446). -/
def releaseFixed (s : State) (n : Nat) : Bool :=
  s.landings.any fun l => l.tr.isSome && kernelNo s n == l.kernel && l.arrived.any fun a => a.1 == n

/-- The core takes its first pending cause (R283); a pair's mismatch is taken for its trailing core as well, which stands
frozen with its leader (R394). -/
def takeCause (s : State) (n : Nat) (x : Cause) : State :=
  let gone (c : Core) : Core := { c with causes := c.causes.filter fun y => y.code != x.code }
  let s := if x.code == 0x0F && leadsPair s n then modCore s (n + 1) gone else s
  takeTrap (modCore s n gone) n 0 x.code.toNat x.detail

/-- One cycle of agent `n`, the word at its PC being `ops`: pending causes first, then a core waiting at
a landing, or for a service of the runtime firmware, stalls, then the word (R66, R112, R144, R332, R446). -/
def runWord (s : State) (n : Nat) (nz : Bool) (ops : State → Nat → List SlotOp) :
    Host.Outcome State Fault Refusal :=
  let c := coreOf s n
  if c.run != .running then .fault .notIssuing
  else if c.arrival.isSome && releaseFixed s n then .next (stallCycle s n true)
  else
    match nextCause c.causes with
    | some x => .next (takeCause s n x)
    | none =>
      if c.arrival.isSome || c.request.isSome then .next (stallCycle s n c.arrival.isSome)
      else .next (issueWord s n nz fun s => ops s n)

/-- The word that holds one slot operation and nothing else. -/
def runSlot (s : State) (op : State → Nat → SlotOp) : Host.Outcome State Fault Refusal :=
  runWord s (agentNo s.turn) true fun s n => [op s n]

/-- The word that holds nothing (R98). -/
def runEmpty (s : State) : Host.Outcome State Fault Refusal :=
  runWord s (agentNo s.turn) false fun _ _ => []

/-- A micro-operation at the micro-address of the running routine of the agent whose turn it is, carried
out to its end (R217). -/
def runMicro (s : State) (m : Micro) : Host.Outcome State Fault Refusal :=
  let n := agentNo s.turn
  match (coreOf s n).mx.run with
  | none => .fault .notIssuing
  | some r =>
    let fv := freeVal s 4005 32768
    let c := microTick m fv (coreOf s n)
    .next (setCore s n (match c.mx.run with
      | none => c
      | some r' => if r'.phase = 0 then c else microAll m fv (m.cost fv (coreOf s n) r) c))

end Sys2Proof.Machine
end

