-- ==== Sys2Proof/Machine/Scalar.lean ====
section
/-!
DEFINITION. Scalar.lean: the scalar instructions of slot 0 that compute: arithmetic and logic, immediates,
moves, selects, compares, predicate logic, tile-store access (07_scalar.md R115 to R128).
-/
namespace Sys2Proof.Machine

/-- What an undefined read of operand i of slot k yields. -/
def fvOp (s : State) (k i : Nat) : BitVec 32768 := freeVal s (8 * k + i) 32768

/-- The scalar value of operand i of slot k (R74, R115). -/
def sVal (s : State) (n k i : Nat) (a : Src) : BitVec 64 := scalarVal (isVec k) (coreOf s n) (fvOp s k i) a

/-- A guarded slot. -/
def guarded (k : Nat) (g : Guard) : SlotOp := { SlotOp.idle k with guard := some g }

/-- A compute-core-only instruction (R109): elsewhere it is refused and holds no word. -/
def computeOnly (n : Nat) (o : SlotOp) : SlotOp :=
  if isCompute n then o else { o with pre := (0x01, 0) :: o.pre, stall := false, copies := 0 }

/-- An instruction that needs privilege H (R110). -/
def needsH (n : Nat) (o : SlotOp) : SlotOp := if privileged n then o else { o with pre := (0x03, 0) :: o.pre }

/-- `act` takes effect at the end of cycle c + `lat` - 1 (R76). -/
def pendAct (c : Core) (act : Act) (lat : Nat) : Core :=
  { c with pend := c.pend ++ [{ when_ := c.cyc + lat - 1, by_ := c.cyc, act := act }] }

/-- DEPOSIT of R115. -/
def depositS (g : Guard) (reads : List Src) (lat : Nat) (v : BitVec 64) (n : Nat) : SlotOp :=
  { guarded 0 g with ring := some .s, reads := reads, eff := fun s => modCore s n fun c => deposit64 c .s v lat }

/-- A two-source instruction of R116. -/
def alu2 (g : Guard) (a b : Src) (lat : Nat) (f : BitVec 64 → BitVec 64 → BitVec 64) (s : State) (n : Nat) : SlotOp :=
  depositS g [a, b] lat (f (sVal s n 0 0 a) (sVal s n 0 1 b)) n

/-- A one-source instruction of R116. -/
def alu1 (g : Guard) (a : Src) (lat : Nat) (f : BitVec 64 → BitVec 64) (s : State) (n : Nat) : SlotOp :=
  depositS g [a] lat (f (sVal s n 0 0 a)) n

/-! ### Integer arithmetic and logic (R116, R117) -/

def mulHigh (a b : BitVec 64) : BitVec 64 := BitVec.ofInt 64 ((a.toInt * b.toInt) / 2 ^ 64)
def mulHighU (a b : BitVec 64) : BitVec 64 := BitVec.ofNat 64 ((a.toNat * b.toNat) / 2 ^ 64)

def divS (a b : BitVec 64) : BitVec 64 := if b = 0 then BitVec.allOnes 64 else BitVec.ofInt 64 (a.toInt.tdiv b.toInt)
def remS (a b : BitVec 64) : BitVec 64 := if b = 0 then a else BitVec.ofInt 64 (a.toInt.tmod b.toInt)
def divU (a b : BitVec 64) : BitVec 64 := if b = 0 then BitVec.allOnes 64 else BitVec.ofNat 64 (a.toNat / b.toNat)
def remU (a b : BitVec 64) : BitVec 64 := if b = 0 then a else BitVec.ofNat 64 (a.toNat % b.toNat)

/-- The shift count B[5:0]. -/
def shamt (b : BitVec 64) : Nat := b.toNat % 64

def clz64 (a : BitVec 64) : BitVec 64 := BitVec.ofNat 64 (if a = 0 then 64 else 63 - Nat.log2 a.toNat)
def ctz64 (a : BitVec 64) : BitVec 64 := BitVec.ofNat 64 (((List.range 64).find? fun i => a.getLsbD i).getD 64)
def popc64 (a : BitVec 64) : BitVec 64 := BitVec.ofNat 64 ((List.range 64).countP fun i => a.getLsbD i)

def slotAdd (g : Guard) (a b : Src) : State → Nat → SlotOp := alu2 g a b 1 (fun a b => a + b)
def slotSub (g : Guard) (a b : Src) : State → Nat → SlotOp := alu2 g a b 1 (fun a b => a - b)
def slotMul (g : Guard) (a b : Src) : State → Nat → SlotOp := alu2 g a b 3 (fun a b => a * b)
def slotMulh (g : Guard) (a b : Src) : State → Nat → SlotOp := alu2 g a b 3 (mulHigh)
def slotMulhu (g : Guard) (a b : Src) : State → Nat → SlotOp := alu2 g a b 3 (mulHighU)
def slotDiv (g : Guard) (a b : Src) : State → Nat → SlotOp := alu2 g a b 20 (divS)
def slotDivu (g : Guard) (a b : Src) : State → Nat → SlotOp := alu2 g a b 20 (divU)
def slotRem (g : Guard) (a b : Src) : State → Nat → SlotOp := alu2 g a b 20 (remS)
def slotRemu (g : Guard) (a b : Src) : State → Nat → SlotOp := alu2 g a b 20 (remU)
def slotAnd (g : Guard) (a b : Src) : State → Nat → SlotOp := alu2 g a b 1 (fun a b => a &&& b)
def slotOr (g : Guard) (a b : Src) : State → Nat → SlotOp := alu2 g a b 1 (fun a b => a ||| b)
def slotXor (g : Guard) (a b : Src) : State → Nat → SlotOp := alu2 g a b 1 (fun a b => a ^^^ b)
def slotAndn (g : Guard) (a b : Src) : State → Nat → SlotOp := alu2 g a b 1 (fun a b => a &&& ~~~b)
def slotShl (g : Guard) (a b : Src) : State → Nat → SlotOp := alu2 g a b 1 (fun a b => a <<< shamt b)
def slotShr (g : Guard) (a b : Src) : State → Nat → SlotOp := alu2 g a b 1 (fun a b => a >>> shamt b)
def slotSar (g : Guard) (a b : Src) : State → Nat → SlotOp := alu2 g a b 1 (fun a b => a.sshiftRight (shamt b))
def slotMin (g : Guard) (a b : Src) : State → Nat → SlotOp := alu2 g a b 1 (fun a b => if a.slt b then a else b)
def slotMax (g : Guard) (a b : Src) : State → Nat → SlotOp := alu2 g a b 1 (fun a b => if a.slt b then b else a)
def slotMinu (g : Guard) (a b : Src) : State → Nat → SlotOp := alu2 g a b 1 (fun a b => if a.ult b then a else b)
def slotMaxu (g : Guard) (a b : Src) : State → Nat → SlotOp := alu2 g a b 1 (fun a b => if a.ult b then b else a)
def slotClz (g : Guard) (a : Src) : State → Nat → SlotOp := alu1 g a 1 clz64
def slotCtz (g : Guard) (a : Src) : State → Nat → SlotOp := alu1 g a 1 ctz64
def slotPopc (g : Guard) (a : Src) : State → Nat → SlotOp := alu1 g a 1 popc64

/-! ### Immediates, moves, selects (R118 to R123) -/

def slotLimm (g : Guard) (i : BitVec 21) (_ : State) (n : Nat) : SlotOp := depositS g [] 1 (i.signExtend 64) n

/-- `limmh` reads `s.q0` (R119). -/
def slotLimmh (g : Guard) (p : Fin 4) (h : BitVec 16) (s : State) (n : Nat) : SlotOp :=
  depositS g [.latch .s 0] 1 (putFld (sVal s n 0 0 (.latch .s 0)) (16 * p.val + 15) (16 * p.val) h.toNat) n

def slotPass (g : Guard) (a : Src) : State → Nat → SlotOp := alu1 g a 1 fun a => a

/-- `mov` (R121). -/
def slotMov (g : Guard) (d : MovDst) (a : Src) (s : State) (n : Nat) : SlotOp :=
  let v := sVal s n 0 0 a
  { guarded 0 g with
    reads := [a]
    eff := fun s => modCore s n fun c => pendAct c (match d with | .s i => .s i v | .walk i => .walk i v) 1 }

def slotSel (g : Guard) (a b : Src) (p : Fin 16) (s : State) (n : Nat) : SlotOp :=
  depositS g [a, b] 1 (if predVal (coreOf s n) p then sVal s n 0 0 a else sVal s n 0 1 b) n

/-- Bits [k:0] with bit k copied above. -/
def signFrom (a : BitVec 64) (k : Nat) : BitVec 64 :=
  let m := a.toNat % 2 ^ (k + 1)
  if a.getLsbD k then BitVec.ofNat 64 (m + 2 ^ 64 - 2 ^ (k + 1)) else BitVec.ofNat 64 m

def slotSext (g : Guard) (a : Src) (k : Fin 64) : State → Nat → SlotOp := alu1 g a 1 fun a => signFrom a k.val

/-! ### Compares and predicate logic (R124, R125) -/

/-- A write of predicate `d`. -/
def predSlot (g : Guard) (d : Fin 16) (reads : List Src) (v : Bool) (n : Nat) : SlotOp :=
  { guarded 0 g with reads := reads, eff := fun s => modCore s n fun c => pendAct c (.p d v) 1 }

def cmpSlot (g : Guard) (d : Fin 16) (a b : Src) (f : BitVec 64 → BitVec 64 → Bool) (s : State) (n : Nat) : SlotOp :=
  predSlot g d [a, b] (f (sVal s n 0 0 a) (sVal s n 0 1 b)) n

def plogSlot (g : Guard) (d : Fin 16) (a b : PredOp) (f : Bool → Bool → Bool) (s : State) (n : Nat) : SlotOp :=
  predSlot g d [] (f (predOpVal (coreOf s n) a) (predOpVal (coreOf s n) b)) n

def slotCmpeq (g : Guard) (d : Fin 16) (a b : Src) : State → Nat → SlotOp := cmpSlot g d a b (fun a b => a == b)
def slotCmpne (g : Guard) (d : Fin 16) (a b : Src) : State → Nat → SlotOp := cmpSlot g d a b (fun a b => a != b)
def slotCmplt (g : Guard) (d : Fin 16) (a b : Src) : State → Nat → SlotOp := cmpSlot g d a b (fun a b => a.slt b)
def slotCmple (g : Guard) (d : Fin 16) (a b : Src) : State → Nat → SlotOp := cmpSlot g d a b (fun a b => a.sle b)
def slotCmpltu (g : Guard) (d : Fin 16) (a b : Src) : State → Nat → SlotOp := cmpSlot g d a b (fun a b => a.ult b)
def slotCmpleu (g : Guard) (d : Fin 16) (a b : Src) : State → Nat → SlotOp := cmpSlot g d a b (fun a b => a.ule b)
def slotPand (g : Guard) (d : Fin 16) (a b : PredOp) : State → Nat → SlotOp := plogSlot g d a b (fun a b => a && b)
def slotPor (g : Guard) (d : Fin 16) (a b : PredOp) : State → Nat → SlotOp := plogSlot g d a b (fun a b => a || b)
def slotPxor (g : Guard) (d : Fin 16) (a b : PredOp) : State → Nat → SlotOp := plogSlot g d a b (fun a b => a != b)
def slotPandn (g : Guard) (d : Fin 16) (a b : PredOp) : State → Nat → SlotOp := plogSlot g d a b (fun a b => a && !b)

/-! ### Tile-store access (R126 to R128, R206) -/

def tileReg (c : Core) (t : Fin 64) : TileReg := c.t[t]

/-- The register is Loading, Storing or Writing. -/
def tileBusy (c : Core) (t : Fin 64) : Bool :=
  match (tileReg c t).st with | .loading | .storing | .writing => true | _ => false

/-- A running routine declares the register: writers wait (R206). -/
def routineHolds (c : Core) (t : Fin 64) : Bool :=
  match c.mx.run with
  | some r => entryValid r.entry r.mp[0] && (declared r.entry r.mp[0]).any fun d => d.2.1 == t.val
  | none => false

/-- DETAIL of fault 0x0A (R282). -/
def capDetail (s : State) (n : Nat) (t : Fin 64) : BitVec 32 := BitVec.ofNat 32 (t.val + (capRows s n) <<< 16)

/-- The capacity check: D.base + D.rows above CAPROWS on a register that is not Free. -/
def capFails (s : State) (n : Nat) (a : BitVec 64) : Bool := tRows a != 0 && capRows s n < tBase a + tRows a

/-- The checks of R126 for `n` bytes at offset `x`. -/
def accessChecks (s : State) (n : Nat) (t : Fin 64) (x size : Nat) : List (Nat × BitVec 32) :=
  let a := (tileReg (coreOf s n) t).a
  (if capFails s n a then [(0x0A, capDetail s n t)] else []) ++
    (if tRows a * 4096 ≤ x || x % size != 0 then [(0x07, 0)] else [])

def ldBytes : LdSize → Nat
  | .zb | .sb => 1 | .zh | .sh => 2 | .zw | .sw => 4 | .d => 8

def ldSigned : LdSize → Bool
  | .sb | .sh | .sw => true
  | .zb | .zh | .zw | .d => false

/-- A load takes its latch, and reads the tile store in cycle c + 1 (R72, R82). -/
def startLoad (c : Core) (u : RingId) (t : Fin 64) (addrs : List (Option Nat)) (n lat : Nat) (sign : Bool) : Core :=
  let c := deposit c u 0 lat
  let l := (ringOf c u).ptr
  { c with pend := c.pend ++ [{ when_ := c.cyc + 1, by_ := c.cyc, act := .load u l t addrs n sign }] }

/-- `ldt`: defined from c + 6 in both profiles, since profile 1 waits for it (R75, R78). -/
def slotLdt (g : Guard) (sz : LdSize) (t : Fin 64) (a : Src) (s : State) (n : Nat) : SlotOp :=
  let c := coreOf s n
  let x := (sVal s n 0 0 a).toNat
  let size := ldBytes sz
  { guarded 0 g with
    ring := some .s, reads := [a], stall := tileBusy c t, pre := accessChecks s n t x size
    eff := fun s => modCore s n fun c =>
      startLoad c .s t [some (tileAddr (tileReg c t).a x)] size 6 (ldSigned sz) }

/-- Bytes stored through register `t` at the end of cycle c + 1. -/
def startStore (c : Core) (t : Fin 64) (l : List (Nat × Byte)) : Core :=
  { c with pend := c.pend ++ [{ when_ := c.cyc + 1, by_ := c.cyc, act := .store t l }] }

def slotStt (g : Guard) (wide : Bool) (t : Fin 64) (a b : Src) (s : State) (n : Nat) : SlotOp :=
  let c := coreOf s n
  let x := (sVal s n 0 0 a).toNat
  let v := sVal s n 0 1 b
  let size := if wide then 8 else 4
  { guarded 0 g with
    reads := [a, b], stall := tileBusy c t || routineHolds c t, pre := accessChecks s n t x size
    eff := fun s => modCore s n fun c =>
      startStore c t (at_ (tileAddr (tileReg c t).a x) (toBytes size v.toNat)) }

/-! ### The instructions -/

def execAdd (g : Guard) (a b : Src) (s : State) : Host.Outcome State Fault Refusal := runSlot s (slotAdd g a b)
def execSub (g : Guard) (a b : Src) (s : State) : Host.Outcome State Fault Refusal := runSlot s (slotSub g a b)
def execMul (g : Guard) (a b : Src) (s : State) : Host.Outcome State Fault Refusal := runSlot s (slotMul g a b)
def execMulh (g : Guard) (a b : Src) (s : State) : Host.Outcome State Fault Refusal := runSlot s (slotMulh g a b)
def execMulhu (g : Guard) (a b : Src) (s : State) : Host.Outcome State Fault Refusal := runSlot s (slotMulhu g a b)
def execDiv (g : Guard) (a b : Src) (s : State) : Host.Outcome State Fault Refusal := runSlot s (slotDiv g a b)
def execDivu (g : Guard) (a b : Src) (s : State) : Host.Outcome State Fault Refusal := runSlot s (slotDivu g a b)
def execRem (g : Guard) (a b : Src) (s : State) : Host.Outcome State Fault Refusal := runSlot s (slotRem g a b)
def execRemu (g : Guard) (a b : Src) (s : State) : Host.Outcome State Fault Refusal := runSlot s (slotRemu g a b)
def execAnd (g : Guard) (a b : Src) (s : State) : Host.Outcome State Fault Refusal := runSlot s (slotAnd g a b)
def execOr (g : Guard) (a b : Src) (s : State) : Host.Outcome State Fault Refusal := runSlot s (slotOr g a b)
def execXor (g : Guard) (a b : Src) (s : State) : Host.Outcome State Fault Refusal := runSlot s (slotXor g a b)
def execAndn (g : Guard) (a b : Src) (s : State) : Host.Outcome State Fault Refusal := runSlot s (slotAndn g a b)
def execShl (g : Guard) (a b : Src) (s : State) : Host.Outcome State Fault Refusal := runSlot s (slotShl g a b)
def execShr (g : Guard) (a b : Src) (s : State) : Host.Outcome State Fault Refusal := runSlot s (slotShr g a b)
def execSar (g : Guard) (a b : Src) (s : State) : Host.Outcome State Fault Refusal := runSlot s (slotSar g a b)
def execMin (g : Guard) (a b : Src) (s : State) : Host.Outcome State Fault Refusal := runSlot s (slotMin g a b)
def execMax (g : Guard) (a b : Src) (s : State) : Host.Outcome State Fault Refusal := runSlot s (slotMax g a b)
def execMinu (g : Guard) (a b : Src) (s : State) : Host.Outcome State Fault Refusal := runSlot s (slotMinu g a b)
def execMaxu (g : Guard) (a b : Src) (s : State) : Host.Outcome State Fault Refusal := runSlot s (slotMaxu g a b)
def execClz (g : Guard) (a : Src) (s : State) : Host.Outcome State Fault Refusal := runSlot s (slotClz g a)
def execCtz (g : Guard) (a : Src) (s : State) : Host.Outcome State Fault Refusal := runSlot s (slotCtz g a)
def execPopc (g : Guard) (a : Src) (s : State) : Host.Outcome State Fault Refusal := runSlot s (slotPopc g a)
def execPass (g : Guard) (a : Src) (s : State) : Host.Outcome State Fault Refusal := runSlot s (slotPass g a)
def execLimm (g : Guard) (i : BitVec 21) (s : State) : Host.Outcome State Fault Refusal := runSlot s (slotLimm g i)
def execLimmh (g : Guard) (p : Fin 4) (h : BitVec 16) (s : State) : Host.Outcome State Fault Refusal := runSlot s (slotLimmh g p h)
def execMov (g : Guard) (d : MovDst) (a : Src) (s : State) : Host.Outcome State Fault Refusal := runSlot s (slotMov g d a)
def execSel (g : Guard) (a b : Src) (p : Fin 16) (s : State) : Host.Outcome State Fault Refusal := runSlot s (slotSel g a b p)
def execSext (g : Guard) (a : Src) (k : Fin 64) (s : State) : Host.Outcome State Fault Refusal := runSlot s (slotSext g a k)
def execCmpeq (g : Guard) (d : Fin 16) (a b : Src) (s : State) : Host.Outcome State Fault Refusal := runSlot s (slotCmpeq g d a b)
def execCmpne (g : Guard) (d : Fin 16) (a b : Src) (s : State) : Host.Outcome State Fault Refusal := runSlot s (slotCmpne g d a b)
def execCmplt (g : Guard) (d : Fin 16) (a b : Src) (s : State) : Host.Outcome State Fault Refusal := runSlot s (slotCmplt g d a b)
def execCmple (g : Guard) (d : Fin 16) (a b : Src) (s : State) : Host.Outcome State Fault Refusal := runSlot s (slotCmple g d a b)
def execCmpltu (g : Guard) (d : Fin 16) (a b : Src) (s : State) : Host.Outcome State Fault Refusal := runSlot s (slotCmpltu g d a b)
def execCmpleu (g : Guard) (d : Fin 16) (a b : Src) (s : State) : Host.Outcome State Fault Refusal := runSlot s (slotCmpleu g d a b)
def execPand (g : Guard) (d : Fin 16) (a b : PredOp) (s : State) : Host.Outcome State Fault Refusal := runSlot s (slotPand g d a b)
def execPor (g : Guard) (d : Fin 16) (a b : PredOp) (s : State) : Host.Outcome State Fault Refusal := runSlot s (slotPor g d a b)
def execPxor (g : Guard) (d : Fin 16) (a b : PredOp) (s : State) : Host.Outcome State Fault Refusal := runSlot s (slotPxor g d a b)
def execPandn (g : Guard) (d : Fin 16) (a b : PredOp) (s : State) : Host.Outcome State Fault Refusal := runSlot s (slotPandn g d a b)
def execLdt (g : Guard) (sz : LdSize) (t : Fin 64) (a : Src) (s : State) : Host.Outcome State Fault Refusal := runSlot s (slotLdt g sz t a)
def execStt (g : Guard) (wide : Bool) (t : Fin 64) (a b : Src) (s : State) : Host.Outcome State Fault Refusal := runSlot s (slotStt g wide t a b)

/-- A word of zeros does nothing (R98). -/
def execNop (s : State) : Host.Outcome State Fault Refusal := runEmpty s

/-- `knop` (R101). -/
def execKnop (s : State) : Host.Outcome State Fault Refusal := runEmpty s

end Sys2Proof.Machine
end

