-- ==== Sys2Proof/Machine/Control.lean ====
section
/-!
DEFINITION. Control.lean: branches, stairs, control registers, breakpoints, and the ends of a handler
(07_scalar.md R129 to R143, 14_context.md R285, R289).
-/
namespace Sys2Proof.Machine

/-! ### Branches (R129 to R134) -/

/-- The word stands in a delay word of a taken branch (R113). -/
def inDelay (c : Core) : List (Nat × BitVec 32) := if c.delay.isSome then [(0x01, 0)] else []

/-- A branch in slot 0. -/
def branchSlot (g : Guard) (target : BitVec 12) (s : State) (n : Nat) : SlotOp :=
  { guarded 0 g with pre := inDelay (coreOf s n), ctl := .branch target }

def slotBr (g : Guard) (off : BitVec 12) (s : State) (n : Nat) : SlotOp :=
  branchSlot g (pcPlus (coreOf s n).pc (off.setWidth 11)) s n

/-- `brl` deposits the link L + 3 (R131). -/
def slotBrl (g : Guard) (off : BitVec 12) (s : State) (n : Nat) : SlotOp :=
  let pc := (coreOf s n).pc
  let link := (pcPlus pc 3).setWidth 64
  { branchSlot g (pcPlus pc (off.setWidth 11)) s n with
    ring := some .s, eff := fun s => modCore s n fun c => deposit64 c .s link 1 }

def slotJr (g : Guard) (a : Src) (s : State) (n : Nat) : SlotOp :=
  { branchSlot g ((coreOf s n).pc.extractLsb' 11 1 ++ (sVal s n 0 0 a).setWidth 11) s n with reads := [a] }

/-- `brbank` waits for a `tldi` into the bank it enters (R133). -/
def slotBrbank (g : Guard) (i : BitVec 11) (s : State) (n : Nat) : SlotOp :=
  let c := coreOf s n
  let bank := !c.pc.getLsbD 11
  { branchSlot g (BitVec.ofBool bank ++ i) s n with
    stall := c.copies.any fun k => match k.kind with | .tldi b => b == bank | _ => false }

/-- `ifence` waits for every `tldi` and `ipatch` (R134). -/
def slotIfence (g : Guard) (s : State) (n : Nat) : SlotOp :=
  { guarded 0 g with
    stall := (coreOf s n).copies.any fun k => match k.kind with | .tldi _ | .ipatch _ _ _ => true | _ => false }

/-! ### Stairs (R90, R135 to R140) -/

/-- Refused while a stair runs (R90). -/
def inStair (c : Core) : List (Nat × BitVec 32) := if c.stair.running != 0 then [(0x01, 0)] else []

/-- A write of flight k, for words from the next cycle. -/
def flightSlot (g : Guard) (k : Fin 6) (reads : List Src) (f : Flight → Flight) (s : State) (n : Nat) : SlotOp :=
  computeOnly n { guarded 0 g with
    reads := reads, pre := inStair (coreOf s n)
    eff := fun s => modCore s n fun c =>
      { c with stair := { c.stair with flights := c.stair.flights.set k (f c.stair.flights[k]) } } }

def slotFdef (g : Guard) (k : Fin 6) (f m : BitVec 9) (s : State) (n : Nat) : SlotOp :=
  let first := pcPlus (coreOf s n).pc (f.setWidth 11)
  flightSlot g k [] (fun x => { x with first := first, last := pcPlus first (m.setWidth 11) }) s n

/-- A count of 0 means 2^32 (R136). -/
def slotFcnt (g : Guard) (k : Fin 6) (a : Src) (s : State) (n : Nat) : SlotOp :=
  let v : BitVec 32 := (sVal s n 0 0 a).setWidth 32
  flightSlot g k [a] (fun x => { x with count := if v = 0 then 0x100000000#33 else v.setWidth 33 }) s n

def slotFstr (g : Guard) (k : Fin 6) (w : Fin 4) (a : Src) (s : State) (n : Nat) : SlotOp :=
  let v := sVal s n 0 0 a
  flightSlot g k [a] (fun x => { x with stride := x.stride.set w v }) s n

def slotFpipe (g : Guard) (m : Fin 5) (s : State) (n : Nat) : SlotOp :=
  computeOnly n { guarded 0 g with
    pre := inStair (coreOf s n)
    eff := fun s => modCore s n fun c => { c with stair := { c.stair with stages := BitVec.ofNat 3 m.val } } }

/-- The conditions of R90 on a stair of `m` flights. -/
def stairFits (c : Core) (m : Nat) : Bool :=
  let bank (x : BitVec 12) : Bool := x.getLsbD 11 == c.pc.getLsbD 11
  c.stair.running == 0 && (flightAt c.stair (m - 1)).first == pcNext c.pc &&
  (List.range m).all fun k =>
    let f := flightAt c.stair k
    bank f.first && bank f.last && f.first ≤ f.last &&
      (k = 0 || (f.first ≤ (flightAt c.stair (k - 1)).first && (flightAt c.stair (k - 1)).last ≤ f.last))

def slotStair (g : Guard) (m : Fin 7) (s : State) (n : Nat) : SlotOp :=
  let c := coreOf s n
  computeOnly n { guarded 0 g with
    pre := inDelay c ++ if stairFits c m.val then [] else [(0x01, 0)]
    ctl := .stair m.val }

def slotSbrk (g : Guard) (_ : State) (n : Nat) : SlotOp := computeOnly n { guarded 0 g with ctl := .sbrk }

/-! ### Control registers (R83 to R87, R141, R142) -/

/-- The value of a control register as `getc` reads it. -/
def controlReg (s : State) (n i : Nat) : BitVec 64 :=
  let c := coreOf s n
  if 0x02 ≤ i && i < 0x08 then c.sbase.toList.getD (i - 2) 0
  else if 0x08 ≤ i && i < 0x0E then c.sext.toList.getD (i - 8) 0
  else
    match i with
    | 0x00 => c.coreIdx.setWidth 64
    | 0x01 => c.domain
    | 0x0E => BitVec.ofNat 64 (opOf' s n)
    | 0x0F => if s.boot == .reset then 0 else BitVec.ofNat 64 (capRows s n)
    | 0x10 => BitVec.ofNat 64 (tickOf s)
    | 0x11 => BitVec.ofNat 64 c.cyc
    | 0x12 => c.feat
    | 0x13 => c.vflags.setWidth 64
    | 0x14 => c.bsat.setWidth 64
    | 0x15 => c.bzero.setWidth 64
    | 0x16 => c.profile.setWidth 64
    | 0x17 => (BitVec.ofBool c.chklat).setWidth 64
    | 0x18 => c.beats ++ c.words
    | 0x19 => c.traprec
    | _ => 0

/-- TRAPREC is for service cores (R83). -/
def traprecCheck (n i : Nat) : List (Nat × BitVec 32) := if i = 0x19 && isCompute n then [(0x03, 0)] else []

def slotGetc (g : Guard) (d : Fin 32) (i : Fin 26) (s : State) (n : Nat) : SlotOp :=
  let v := controlReg s n i.val
  { guarded 0 g with
    pre := traprecCheck n i.val, eff := fun s => modCore s n fun c => pendAct c (.s d v) 1 }

/-- A feature of FEAT (R406). -/
def hasFeature (c : Core) (bit : Nat) : Bool := c.feat.getLsbD bit

/-- Fault 0x02 without the feature (R111, R282). -/
def featureCheck (c : Core) (bit : Nat) : List (Nat × BitVec 32) :=
  if hasFeature c bit then [] else [(0x02, BitVec.ofNat 32 bit)]

/-- What `setc` does to a register; a read-only one ignores the write. -/
def writeControl (c : Core) (i : Nat) (v : BitVec 64) : Core :=
  match i with
  | 0x13 => { c with vflags := c.vflags &&& ~~~(v.setWidth 6) }
  | 0x14 => { c with bsat := v.setWidth 32 }
  | 0x15 => { c with bzero := v.setWidth 32 }
  | 0x17 => { c with chklat := v.getLsbD 0 }
  | _ => c

def slotSetc (g : Guard) (i : Fin 26) (b : Src) (s : State) (n : Nat) : SlotOp :=
  let v := sVal s n 0 1 b
  { guarded 0 g with
    reads := [b]
    pre := traprecCheck n i.val ++ if i.val = 0x17 && v.getLsbD 0 then featureCheck (coreOf s n) 2 else []
    eff := fun s => modCore s n fun c => writeControl c i.val v }

/-- `brk` (R143). -/
def slotBrk (g : Guard) (code : BitVec 16) (_ : State) (_ : Nat) : SlotOp :=
  { guarded 0 g with post := [(0x0C, code.setWidth 32)] }

/-! ### Ends of a handler (R285, R289) -/

/-- Core `m` is frozen with a record that its hall's handler holds: the record has left the queue. -/
def heldRecord (s : State) (m : Nat) : Bool :=
  match (coreOf s m).run with
  | .trapped r => !(coreOf s (256 + hallOf m)).queue.contains r
  | _ => false

/-- The core of this agent's hall that a 3-bit number names; none for the management core. -/
def hallCore (n : Nat) (i : Nat) : Option Nat := if 256 ≤ n && n < 288 then some (8 * (n - 256) + i) else none

def slotThaw (g : Guard) (a : Src) (skip : Bool) (s : State) (n : Nat) : SlotOp :=
  let t := hallCore n ((sVal s n 0 0 a).toNat % 8)
  needsH n { guarded 0 g with
    reads := [a]
    pre := match t with
      | some m => if heldRecord s m then [] else [(0x07, 0)]
      | none => if privileged n then [(0x07, 0)] else []
    eff := fun s => match t with
      | some m => modCore s m (resumeCore skip)
      | none => s }

def slotRfh (g : Guard) (s : State) (n : Nat) : SlotOp :=
  let c := coreOf s n
  needsH n { guarded 0 g with
    pre := inDelay c ++ if privileged n && !c.handler then [(0x01, 0)] else []
    ctl := .ret }

/-! ### The instructions -/

def execBr (g : Guard) (off : BitVec 12) (s : State) : Host.Outcome State Fault Refusal := runSlot s (slotBr g off)
def execBrl (g : Guard) (off : BitVec 12) (s : State) : Host.Outcome State Fault Refusal := runSlot s (slotBrl g off)
def execJr (g : Guard) (a : Src) (s : State) : Host.Outcome State Fault Refusal := runSlot s (slotJr g a)
def execBrbank (g : Guard) (i : BitVec 11) (s : State) : Host.Outcome State Fault Refusal := runSlot s (slotBrbank g i)
def execIfence (g : Guard) (s : State) : Host.Outcome State Fault Refusal := runSlot s (slotIfence g)
def execFdef (g : Guard) (k : Fin 6) (f m : BitVec 9) (s : State) : Host.Outcome State Fault Refusal := runSlot s (slotFdef g k f m)
def execFcnt (g : Guard) (k : Fin 6) (a : Src) (s : State) : Host.Outcome State Fault Refusal := runSlot s (slotFcnt g k a)
def execFstr (g : Guard) (k : Fin 6) (w : Fin 4) (a : Src) (s : State) : Host.Outcome State Fault Refusal := runSlot s (slotFstr g k w a)
def execFpipe (g : Guard) (m : Fin 5) (s : State) : Host.Outcome State Fault Refusal := runSlot s (slotFpipe g m)
def execStair (g : Guard) (m : Fin 7) (s : State) : Host.Outcome State Fault Refusal := runSlot s (slotStair g m)
def execSbrk (g : Guard) (s : State) : Host.Outcome State Fault Refusal := runSlot s (slotSbrk g)
def execGetc (g : Guard) (d : Fin 32) (i : Fin 26) (s : State) : Host.Outcome State Fault Refusal := runSlot s (slotGetc g d i)
def execSetc (g : Guard) (i : Fin 26) (b : Src) (s : State) : Host.Outcome State Fault Refusal := runSlot s (slotSetc g i b)
def execBrk (g : Guard) (code : BitVec 16) (s : State) : Host.Outcome State Fault Refusal := runSlot s (slotBrk g code)
def execThaw (g : Guard) (a : Src) (skip : Bool) (s : State) : Host.Outcome State Fault Refusal := runSlot s (slotThaw g a skip)
def execRfh (g : Guard) (s : State) : Host.Outcome State Fault Refusal := runSlot s (slotRfh g)

end Sys2Proof.Machine
end

