-- ==== Sys2Proof/Machine/Vector.lean ====
section
/-!
DEFINITION. Vector.lean: the instructions of slots 1 and 2 (08_vector.md R146 to R179).
-/
namespace Sys2Proof.Machine

def vSlotNo : VSlot → Nat
  | .va => 1
  | .vb => 2

def vRing : VSlot → RingId
  | .va => .va
  | .vb => .vb

/-- The vector value of operand i of slot u, read as FP32 or as bits (R74, R100). -/
def vVal (u : VSlot) (fp : Bool) (s : State) (n i : Nat) (a : Src) : Vec :=
  vectorVal true fp (coreOf s n) (fvOp s (vSlotNo u) i) a

/-- A scalar operand of slot u (R147). -/
def vScalar (u : VSlot) (s : State) (n i : Nat) (a : Src) : BitVec 64 := sVal s n (vSlotNo u) i a

/-- A slot of a vector unit, which a service core has not (R109). -/
def vecSlot (u : VSlot) (g : Guard) (n : Nat) : SlotOp := computeOnly n (guarded (vSlotNo u) g)

/-- A ring-producing vector instruction: result after `lat`, flags at the end of c + lat - 1 (R148, R150). -/
def vecDeposit (u : VSlot) (g : Guard) (reads : List Src) (lat : Nat) (v : Vec) (f : Flags) (n : Nat) : SlotOp :=
  { vecSlot u g n with
    ring := some (vRing u), reads := reads
    eff := fun s => modCore s n fun c =>
      let c := deposit c (vRing u) v lat
      if f = 0 then c else pendAct c (.flags f) lat }

/-- A masked operation on the lanes of A and B (R149). -/
def lanes2 (fp : Bool) (lat : Nat) (f : BitVec 32 → BitVec 32 → LaneRes) (u : VSlot) (g : Guard) (a b : Src)
    (mk : Fin 8) (s : State) (n : Nat) : SlotOp :=
  let r := map2 f (maskVal (coreOf s n) mk) (vVal u fp s n 0 a) (vVal u fp s n 1 b)
  vecDeposit u g [a, b] lat r.1 r.2 n

def lanes1 (fp : Bool) (lat : Nat) (f : BitVec 32 → LaneRes) (u : VSlot) (g : Guard) (a : Src)
    (mk : Fin 8) (s : State) (n : Nat) : SlotOp :=
  let r := map1 f (maskVal (coreOf s n) mk) (vVal u fp s n 0 a)
  vecDeposit u g [a] lat r.1 r.2 n

/-- An operation without flags. -/
def bits2 (lat : Nat) (f : BitVec 32 → BitVec 32 → BitVec 32) : VSlot → Guard → Src → Src → Fin 8 → State → Nat → SlotOp :=
  lanes2 false lat fun a b => (f a b, 0)

/-! ### Floating point (R153 to R155) -/

def slotVaddF32 (u : VSlot) (g : Guard) (a b : Src) (mk : Fin 8) (rm : Rm) : State → Nat → SlotOp := lanes2 true 2 (fAdd rm) u g a b mk
def slotVsubF32 (u : VSlot) (g : Guard) (a b : Src) (mk : Fin 8) (rm : Rm) : State → Nat → SlotOp := lanes2 true 2 (fSub rm) u g a b mk
def slotVmulF32 (u : VSlot) (g : Guard) (a b : Src) (mk : Fin 8) (rm : Rm) : State → Nat → SlotOp := lanes2 true 4 (fMul rm) u g a b mk

/-- A fused operation: the third source comes through the header (R155). -/
def fusedSlot (sub : Bool) (u : VSlot) (g : Guard) (a b c : Src) (mk : Fin 8) (rm : Rm) (s : State) (n : Nat) : SlotOp :=
  let r := map3 (fFma sub rm) (maskVal (coreOf s n) mk) (vVal u true s n 0 a) (vVal u true s n 1 b) (vVal u true s n 2 c)
  vecDeposit u g [a, b, c] 4 r.1 r.2 n

def slotVfmaF32 (u : VSlot) (g : Guard) (a b c : Src) (mk : Fin 8) (rm : Rm) : State → Nat → SlotOp := fusedSlot false u g a b c mk rm
def slotVfmsF32 (u : VSlot) (g : Guard) (a b c : Src) (mk : Fin 8) (rm : Rm) : State → Nat → SlotOp := fusedSlot true u g a b c mk rm
def slotVminF32 (u : VSlot) (g : Guard) (a b : Src) (mk : Fin 8) : State → Nat → SlotOp := lanes2 true 2 (fMinMax false) u g a b mk
def slotVmaxF32 (u : VSlot) (g : Guard) (a b : Src) (mk : Fin 8) : State → Nat → SlotOp := lanes2 true 2 (fMinMax true) u g a b mk
def slotVdivF32 (u : VSlot) (g : Guard) (a b : Src) (mk : Fin 8) (rm : Rm) : State → Nat → SlotOp := lanes2 true 8 (fDiv rm) u g a b mk
def slotVsqrtF32 (u : VSlot) (g : Guard) (a : Src) (mk : Fin 8) (rm : Rm) : State → Nat → SlotOp := lanes1 true 8 (fSqrt rm) u g a mk
def slotVabsF32 (u : VSlot) (g : Guard) (a : Src) (mk : Fin 8) : State → Nat → SlotOp := lanes1 true 2 (fun x => (x &&& 0x7FFFFFFF#32, 0)) u g a mk
def slotVnegF32 (u : VSlot) (g : Guard) (a : Src) (mk : Fin 8) : State → Nat → SlotOp := lanes1 true 2 (fun x => (x ^^^ 0x80000000#32, 0)) u g a mk

/-! ### Integer and logic (R156, R159) -/

/-- The shift count B[4:0]. -/
def shamt32 (b : BitVec 32) : Nat := b.toNat % 32

def slotVaddI32 (u : VSlot) (g : Guard) (a b : Src) (mk : Fin 8) : State → Nat → SlotOp := bits2 2 (fun a b => a + b) u g a b mk
def slotVsubI32 (u : VSlot) (g : Guard) (a b : Src) (mk : Fin 8) : State → Nat → SlotOp := bits2 2 (fun a b => a - b) u g a b mk
def slotVmulI32 (u : VSlot) (g : Guard) (a b : Src) (mk : Fin 8) : State → Nat → SlotOp := bits2 4 (fun a b => a * b) u g a b mk
def slotVminI32 (u : VSlot) (g : Guard) (a b : Src) (mk : Fin 8) : State → Nat → SlotOp := bits2 2 (fun a b => if a.slt b then a else b) u g a b mk
def slotVmaxI32 (u : VSlot) (g : Guard) (a b : Src) (mk : Fin 8) : State → Nat → SlotOp := bits2 2 (fun a b => if a.slt b then b else a) u g a b mk
def slotVand (u : VSlot) (g : Guard) (a b : Src) (mk : Fin 8) : State → Nat → SlotOp := bits2 2 (fun a b => a &&& b) u g a b mk
def slotVor (u : VSlot) (g : Guard) (a b : Src) (mk : Fin 8) : State → Nat → SlotOp := bits2 2 (fun a b => a ||| b) u g a b mk
def slotVxor (u : VSlot) (g : Guard) (a b : Src) (mk : Fin 8) : State → Nat → SlotOp := bits2 2 (fun a b => a ^^^ b) u g a b mk
def slotVshl (u : VSlot) (g : Guard) (a b : Src) (mk : Fin 8) : State → Nat → SlotOp := bits2 2 (fun a b => a <<< shamt32 b) u g a b mk
def slotVshr (u : VSlot) (g : Guard) (a b : Src) (mk : Fin 8) : State → Nat → SlotOp := bits2 2 (fun a b => a >>> shamt32 b) u g a b mk
def slotVsar (u : VSlot) (g : Guard) (a b : Src) (mk : Fin 8) : State → Nat → SlotOp := bits2 2 (fun a b => a.sshiftRight (shamt32 b)) u g a b mk

/-- `vsel` takes lane i of A where the select mask is 1, of B elsewhere (R159). -/
def slotVsel (u : VSlot) (g : Guard) (a b : Src) (mk : Fin 8) (s : State) (n : Nat) : SlotOp :=
  let m := maskVal (coreOf s n) mk
  let x := vVal u false s n 0 a
  let y := vVal u false s n 1 b
  vecDeposit u g [a, b] 2 (vecOf fun i => if m.getLsbD i then lane x i else lane y i) 0 n

/-! ### Compares and masks (R157, R158, R160) -/

/-- A mask write with latency 2. -/
def maskSlot (u : VSlot) (g : Guard) (d : Fin 8) (reads : List Src) (v : BitVec 128) (f : Flags) (n : Nat) : SlotOp :=
  { vecSlot u g n with
    reads := reads
    eff := fun s => modCore s n fun c =>
      let c := pendAct c (.mk d v) 2
      if f = 0 then c else pendAct c (.flags f) 2 }

def slotVcmpF32 (u : VSlot) (g : Guard) (cc : FCond) (d : Fin 8) (a b : Src) (s : State) (n : Nat) : SlotOp :=
  let x := vVal u true s n 0 a
  let y := vVal u true s n 1 b
  maskSlot u g d [a, b] (maskOf fun i => (fCmp cc (lane x i) (lane y i)).1)
    ((List.range 128).foldl (fun f i => f ||| (fCmp cc (lane x i) (lane y i)).2) 0) n

def slotVcmpI32 (u : VSlot) (g : Guard) (cc : ICond) (d : Fin 8) (a b : Src) (s : State) (n : Nat) : SlotOp :=
  let x := vVal u false s n 0 a
  let y := vVal u false s n 1 b
  maskSlot u g d [a, b] (maskOf fun i => iCmp cc (lane x i) (lane y i)) 0 n

def mlogSlot (f : BitVec 128 → BitVec 128 → BitVec 128) (u : VSlot) (g : Guard) (d : Fin 8) (a b : MaskOp)
    (s : State) (n : Nat) : SlotOp :=
  maskSlot u g d [] (f (maskOpVal (coreOf s n) a) (maskOpVal (coreOf s n) b)) 0 n

def slotMand (u : VSlot) (g : Guard) (d : Fin 8) (a b : MaskOp) : State → Nat → SlotOp := mlogSlot (fun a b => a &&& b) u g d a b
def slotMor (u : VSlot) (g : Guard) (d : Fin 8) (a b : MaskOp) : State → Nat → SlotOp := mlogSlot (fun a b => a ||| b) u g d a b
def slotMxor (u : VSlot) (g : Guard) (d : Fin 8) (a b : MaskOp) : State → Nat → SlotOp := mlogSlot (fun a b => a ^^^ b) u g d a b
def slotMandn (u : VSlot) (g : Guard) (d : Fin 8) (a b : MaskOp) : State → Nat → SlotOp := mlogSlot (fun a b => a &&& ~~~b) u g d a b

/-- `vmu` (R160): a mixed mask is refused after the guard. -/
def slotVmu (u : VSlot) (g : Guard) (d : Fin 16) (mk care : Fin 8) (s : State) (n : Nat) : SlotOp :=
  let m := maskVal (coreOf s n) mk
  let k := maskVal (coreOf s n) care
  let all := m &&& k == k
  let none_ := m &&& k == 0
  { vecSlot u g n with
    post := if all || none_ then [] else [(0x04, BitVec.ofNat 32 d.val)]
    eff := fun s => modCore s n fun c => pendAct c (.p d all) 1 }

/-- `vmov` (R161). -/
def slotVmov (u : VSlot) (g : Guard) (d : Fin 32) (a : Src) (s : State) (n : Nat) : SlotOp :=
  let v := vVal u false s n 0 a
  { vecSlot u g n with
    reads := [a], eff := fun s => modCore s n fun c => pendAct c (.v d v) 2 }

/-! ### Conversions and permutes (R162 to R165) -/

/-- A format that names INT4 needs its feature (R162). -/
def int4Check (c : Core) (l : List Fmt) : List (Nat × BitVec 32) := if l.any (· == .int4) then featureCheck c 7 else []

def slotVcvt (u : VSlot) (g : Guard) (src dst : Fmt) (sat : Bool) (a : Src) (mk : Fin 8) (rm : Rm) (s : State) (n : Nat) : SlotOp :=
  let o := lanes1 (src == .fp32) 3 (fCvt src dst sat rm) u g a mk s n
  { o with pre := o.pre ++ int4Check (coreOf s n) [src, dst] }

def slotVperm (u : VSlot) (g : Guard) (a b : Src) (mk : Fin 8) (s : State) (n : Nat) : SlotOp :=
  let m := maskVal (coreOf s n) mk
  let x := vVal u false s n 0 a
  let y := vVal u false s n 1 b
  vecDeposit u g [a, b] 4 (vecOf fun i => if active m i then lane x ((lane y i).toNat % 128) else lane x i) 0 n

/-- Lane j of a slide, j possibly outside the vector. -/
def slideLane (rot : Bool) (x : Vec) (j : Int) : BitVec 32 :=
  if 0 ≤ j && j < 128 then lane x j.toNat else if rot then lane x (j % 128).toNat else 0

def slotVslide (u : VSlot) (g : Guard) (rot : Bool) (a b : Src) (mk : Fin 8) (s : State) (n : Nat) : SlotOp :=
  let m := maskVal (coreOf s n) mk
  let x := vVal u false s n 0 a
  let k : Int := ((vScalar u s n 1 b).setWidth 8).toInt
  vecDeposit u g [a, b] 4 (vecOf fun i => if active m i then slideLane rot x (i + k) else lane x i) 0 n

/-! ### Tile-store access (R166 to R170) -/

def slotVldt (u : VSlot) (g : Guard) (t : Fin 64) (a : Src) (s : State) (n : Nat) : SlotOp :=
  let c := coreOf s n
  let x := (vScalar u s n 0 a).toNat
  let o := vecSlot u g n
  { o with
    ring := some (vRing u), reads := [a], stall := tileBusy c t, pre := o.pre ++ accessChecks s n t x 512
    eff := fun s => modCore s n fun c =>
      startLoad c (vRing u) t ((List.range 128).map fun i => some (tileAddr (tileReg c t).a (x + 4 * i))) 4 6 false }

/-- The bytes of the chosen lanes of a vector, lane i at `at_ i`. -/
def laneBytes (p : Nat → Bool) (addr : Nat → Nat) (v : Vec) : List (Nat × Byte) :=
  ((List.range 128).filter p).foldr (fun i l => at_ (addr i) (toBytes 4 (lane v i).toNat) ++ l) []

/-- The lanes a z[6] mask select picks: all, or those of `mk7`. -/
def picks (c : Core) (masked : Bool) (i : Nat) : Bool := !masked || (maskVal c 7).getLsbD i

def slotVstt (u : VSlot) (g : Guard) (masked : Bool) (t : Fin 64) (a b : Src) (s : State) (n : Nat) : SlotOp :=
  let c := coreOf s n
  let x := (vScalar u s n 0 a).toNat
  let v := vVal u false s n 1 b
  let o := vecSlot u g n
  { o with
    reads := [a, b], stall := tileBusy c t || routineHolds c t, pre := o.pre ++ accessChecks s n t x 512
    eff := fun s => modCore s n fun c' =>
      startStore c' t (laneBytes (picks c masked) (fun i => tileAddr (tileReg c' t).a (x + 4 * i)) v) }

/-- The checks of `vgath` and `vscat` on the active lanes (R168). -/
def gatherChecks (s : State) (n : Nat) (t : Fin 64) (p : Nat → Bool) (off : Vec) : List (Nat × BitVec 32) :=
  let a := (tileReg (coreOf s n) t).a
  let act := (List.range 128).filter p
  (if !act.isEmpty && capFails s n a then [(0x0A, capDetail s n t)] else []) ++
    (if act.any fun i => (lane off i).toNat % 4 != 0 || tRows a * 4096 ≤ (lane off i).toNat then [(0x07, 0)] else [])

def slotVgath (u : VSlot) (g : Guard) (masked : Bool) (t : Fin 64) (a : Src) (s : State) (n : Nat) : SlotOp :=
  let c := coreOf s n
  let off := vVal u false s n 0 a
  let p := picks c masked
  let o := vecSlot u g n
  { o with
    ring := some (vRing u), reads := [a], stall := tileBusy c t, pre := o.pre ++ gatherChecks s n t p off
    eff := fun s => modCore s n fun c =>
      startLoad c (vRing u) t ((List.range 128).map fun i =>
        if p i then some (tileAddr (tileReg c t).a (lane off i).toNat) else none) 4 8 false }

def slotVscat (u : VSlot) (g : Guard) (masked : Bool) (t : Fin 64) (a b : Src) (s : State) (n : Nat) : SlotOp :=
  let c := coreOf s n
  let off := vVal u false s n 0 a
  let v := vVal u false s n 1 b
  let p := picks c masked
  let o := vecSlot u g n
  { o with
    reads := [a, b], stall := tileBusy c t || routineHolds c t, pre := o.pre ++ gatherChecks s n t p off
    eff := fun s => modCore s n fun c =>
      startStore c t (laneBytes p (fun i => tileAddr (tileReg c t).a (lane off i).toNat) v) }

/-! ### Reductions and scans (R171 to R173) -/

/-- The lanes a reduction takes. -/
def masked (s : State) (n : Nat) (mk : Fin 8) (i : Nat) : Bool := active (maskVal (coreOf s n) mk) i

def reduceSlot (u : VSlot) (g : Guard) (int : Bool) (a : Src) (f : Vec → LaneRes) (s : State) (n : Nat) : SlotOp :=
  let r := f (vVal u (!int) s n 0 a)
  vecDeposit u g [a] 6 (splat r.1) r.2 n

def slotVredAdd (u : VSlot) (g : Guard) (int : Bool) (a : Src) (mk : Fin 8) (s : State) (n : Nat) : SlotOp :=
  reduceSlot u g int a (fun x =>
    if int then (sumInts (masked s n mk) x, 0) else sumLanes (picked (masked s n mk) x)) s n

def slotVredMax (u : VSlot) (g : Guard) (int : Bool) (a : Src) (mk : Fin 8) (s : State) (n : Nat) : SlotOp :=
  reduceSlot u g int a (redMinMax true int (masked s n mk)) s n

def slotVredMin (u : VSlot) (g : Guard) (int : Bool) (a : Src) (mk : Fin 8) (s : State) (n : Nat) : SlotOp :=
  reduceSlot u g int a (redMinMax false int (masked s n mk)) s n

def slotVscanAdd (u : VSlot) (g : Guard) (int : Bool) (a : Src) (mk : Fin 8) (s : State) (n : Nat) : SlotOp :=
  let x := vVal u (!int) s n 0 a
  let upTo (i : Nat) : LaneRes :=
    let p (j : Nat) : Bool := masked s n mk j && j ≤ i
    if int then (sumInts p x, 0) else sumLanes (picked p x)
  vecDeposit u g [a] 6 (vecOf fun i => (upTo i).1) ((List.range 128).foldl (fun f i => f ||| (upTo i).2) 0) n

/-! ### Transcendentals (R174, R175) -/

def slotVexp2 (u : VSlot) (g : Guard) (a : Src) (mk : Fin 8) (rm : Rm) : State → Nat → SlotOp := lanes1 true 8 (fExp2 rm) u g a mk
def slotVlog2 (u : VSlot) (g : Guard) (a : Src) (mk : Fin 8) (rm : Rm) : State → Nat → SlotOp := lanes1 true 8 (fLog2 rm) u g a mk
def slotVrcp (u : VSlot) (g : Guard) (a : Src) (mk : Fin 8) (rm : Rm) : State → Nat → SlotOp := lanes1 true 8 (fRcp rm) u g a mk
def slotVrsqrt (u : VSlot) (g : Guard) (a : Src) (mk : Fin 8) (rm : Rm) : State → Nat → SlotOp := lanes1 true 8 (fRsqrt rm) u g a mk
def slotVtanh (u : VSlot) (g : Guard) (a : Src) (mk : Fin 8) (rm : Rm) : State → Nat → SlotOp := lanes1 true 8 (fTanh rm) u g a mk

/-! ### Quantise and dequantise (R176 to R178) -/

/-- The table of a side. -/
def sideTable (c : Core) (col : Bool) : BitVec 128 := if col then c.mx.colT else c.mx.rowT

/-- The quantised vector of four blocks (R176). -/
def packQuant (f : Fmt) (l : List Quant) : Vec :=
  let w := fmtWidth f
  let elems := packN w (fun e => ((l.map (·.q)).flatten).getD e 0) 128
  let blk (i : Nat) : Quant := l.getD i { idx := 0, q := [], sat := false, zer := false, nv := false }
  let last := packN 4 (fun i => (blk i).idx) 4 + packN 1 (fun i => (blk i).sat.toNat) 4 <<< 16
    + packN 1 (fun i => (blk i).zer.toNat) 4 <<< 20
  BitVec.ofNat 4096 (elems + last <<< (32 * 127))

def slotVqnt (u : VSlot) (g : Guard) (f : Fmt) (col : Bool) (a : Src) (s : State) (n : Nat) : SlotOp :=
  let t := sideTable (coreOf s n) col
  let x := vVal u true s n 0 a
  let q := (List.range 4).map fun b => quant ((List.range 32).map fun i => fp (lane x (32 * b + i))) f t
  let o := vecDeposit u g [a] 6 (packQuant f q) (flagIf (q.any (·.nv)) fNV) n
  { o with
    pre := o.pre ++ int4Check (coreOf s n) [f]
    post := if tabValid t then [] else [(0x13, 0)]
    eff := fun s => modCore (o.eff s) n fun c => pendAct c (.blocks (q.countP (·.sat)) (q.countP (·.zer))) 6 }

/-- Element e of a quantised vector (R176). -/
def quantElem (f : Fmt) (x : Vec) (e : Nat) : Nat := (x.toNat >>> (fmtWidth f * e)) % 2 ^ fmtWidth f

def slotVdqnt (u : VSlot) (g : Guard) (f : Fmt) (col : Bool) (a : Src) (s : State) (n : Nat) : SlotOp :=
  let t := sideTable (coreOf s n) col
  let x := vVal u false s n 0 a
  let idx (b : Nat) : Nat := ((lane x 127).toNat >>> (4 * b)) % 16
  let one (e : Nat) : LaneRes := deliver (scaleExt (elemVal f (quantElem f x e)) (tabEntry t (idx (e / 32)))) .rn 0
  let o := vecDeposit u g [a] 6 (vecOf fun e => (one e).1) ((List.range 128).foldl (fun fl e => fl ||| (one e).2) 0) n
  { o with
    pre := o.pre ++ int4Check (coreOf s n) [f]
    post := ((List.range 4).find? fun b => tabEntry t (idx b) == 255).toList.map fun b => (0x13, BitVec.ofNat 32 (idx b)) }

/-! ### The instructions -/

def execVaddF32 (u : VSlot) (g : Guard) (a b : Src) (mk : Fin 8) (rm : Rm) (s : State) : Host.Outcome State Fault Refusal := runSlot s (slotVaddF32 u g a b mk rm)
def execVsubF32 (u : VSlot) (g : Guard) (a b : Src) (mk : Fin 8) (rm : Rm) (s : State) : Host.Outcome State Fault Refusal := runSlot s (slotVsubF32 u g a b mk rm)
def execVmulF32 (u : VSlot) (g : Guard) (a b : Src) (mk : Fin 8) (rm : Rm) (s : State) : Host.Outcome State Fault Refusal := runSlot s (slotVmulF32 u g a b mk rm)
def execVdivF32 (u : VSlot) (g : Guard) (a b : Src) (mk : Fin 8) (rm : Rm) (s : State) : Host.Outcome State Fault Refusal := runSlot s (slotVdivF32 u g a b mk rm)
def execVfmaF32 (u : VSlot) (g : Guard) (a b c : Src) (mk : Fin 8) (rm : Rm) (s : State) : Host.Outcome State Fault Refusal := runSlot s (slotVfmaF32 u g a b c mk rm)
def execVfmsF32 (u : VSlot) (g : Guard) (a b c : Src) (mk : Fin 8) (rm : Rm) (s : State) : Host.Outcome State Fault Refusal := runSlot s (slotVfmsF32 u g a b c mk rm)
def execVminF32 (u : VSlot) (g : Guard) (a b : Src) (mk : Fin 8) (s : State) : Host.Outcome State Fault Refusal := runSlot s (slotVminF32 u g a b mk)
def execVmaxF32 (u : VSlot) (g : Guard) (a b : Src) (mk : Fin 8) (s : State) : Host.Outcome State Fault Refusal := runSlot s (slotVmaxF32 u g a b mk)
def execVaddI32 (u : VSlot) (g : Guard) (a b : Src) (mk : Fin 8) (s : State) : Host.Outcome State Fault Refusal := runSlot s (slotVaddI32 u g a b mk)
def execVsubI32 (u : VSlot) (g : Guard) (a b : Src) (mk : Fin 8) (s : State) : Host.Outcome State Fault Refusal := runSlot s (slotVsubI32 u g a b mk)
def execVmulI32 (u : VSlot) (g : Guard) (a b : Src) (mk : Fin 8) (s : State) : Host.Outcome State Fault Refusal := runSlot s (slotVmulI32 u g a b mk)
def execVminI32 (u : VSlot) (g : Guard) (a b : Src) (mk : Fin 8) (s : State) : Host.Outcome State Fault Refusal := runSlot s (slotVminI32 u g a b mk)
def execVmaxI32 (u : VSlot) (g : Guard) (a b : Src) (mk : Fin 8) (s : State) : Host.Outcome State Fault Refusal := runSlot s (slotVmaxI32 u g a b mk)
def execVand (u : VSlot) (g : Guard) (a b : Src) (mk : Fin 8) (s : State) : Host.Outcome State Fault Refusal := runSlot s (slotVand u g a b mk)
def execVor (u : VSlot) (g : Guard) (a b : Src) (mk : Fin 8) (s : State) : Host.Outcome State Fault Refusal := runSlot s (slotVor u g a b mk)
def execVxor (u : VSlot) (g : Guard) (a b : Src) (mk : Fin 8) (s : State) : Host.Outcome State Fault Refusal := runSlot s (slotVxor u g a b mk)
def execVshl (u : VSlot) (g : Guard) (a b : Src) (mk : Fin 8) (s : State) : Host.Outcome State Fault Refusal := runSlot s (slotVshl u g a b mk)
def execVshr (u : VSlot) (g : Guard) (a b : Src) (mk : Fin 8) (s : State) : Host.Outcome State Fault Refusal := runSlot s (slotVshr u g a b mk)
def execVsar (u : VSlot) (g : Guard) (a b : Src) (mk : Fin 8) (s : State) : Host.Outcome State Fault Refusal := runSlot s (slotVsar u g a b mk)
def execVsel (u : VSlot) (g : Guard) (a b : Src) (mk : Fin 8) (s : State) : Host.Outcome State Fault Refusal := runSlot s (slotVsel u g a b mk)
def execVperm (u : VSlot) (g : Guard) (a b : Src) (mk : Fin 8) (s : State) : Host.Outcome State Fault Refusal := runSlot s (slotVperm u g a b mk)
def execVsqrtF32 (u : VSlot) (g : Guard) (a : Src) (mk : Fin 8) (rm : Rm) (s : State) : Host.Outcome State Fault Refusal := runSlot s (slotVsqrtF32 u g a mk rm)
def execVexp2 (u : VSlot) (g : Guard) (a : Src) (mk : Fin 8) (rm : Rm) (s : State) : Host.Outcome State Fault Refusal := runSlot s (slotVexp2 u g a mk rm)
def execVlog2 (u : VSlot) (g : Guard) (a : Src) (mk : Fin 8) (rm : Rm) (s : State) : Host.Outcome State Fault Refusal := runSlot s (slotVlog2 u g a mk rm)
def execVrcp (u : VSlot) (g : Guard) (a : Src) (mk : Fin 8) (rm : Rm) (s : State) : Host.Outcome State Fault Refusal := runSlot s (slotVrcp u g a mk rm)
def execVrsqrt (u : VSlot) (g : Guard) (a : Src) (mk : Fin 8) (rm : Rm) (s : State) : Host.Outcome State Fault Refusal := runSlot s (slotVrsqrt u g a mk rm)
def execVtanh (u : VSlot) (g : Guard) (a : Src) (mk : Fin 8) (rm : Rm) (s : State) : Host.Outcome State Fault Refusal := runSlot s (slotVtanh u g a mk rm)
def execVabsF32 (u : VSlot) (g : Guard) (a : Src) (mk : Fin 8) (s : State) : Host.Outcome State Fault Refusal := runSlot s (slotVabsF32 u g a mk)
def execVnegF32 (u : VSlot) (g : Guard) (a : Src) (mk : Fin 8) (s : State) : Host.Outcome State Fault Refusal := runSlot s (slotVnegF32 u g a mk)
def execVcmpF32 (u : VSlot) (g : Guard) (cc : FCond) (d : Fin 8) (a b : Src) (s : State) : Host.Outcome State Fault Refusal := runSlot s (slotVcmpF32 u g cc d a b)
def execVcmpI32 (u : VSlot) (g : Guard) (cc : ICond) (d : Fin 8) (a b : Src) (s : State) : Host.Outcome State Fault Refusal := runSlot s (slotVcmpI32 u g cc d a b)
def execMand (u : VSlot) (g : Guard) (d : Fin 8) (a b : MaskOp) (s : State) : Host.Outcome State Fault Refusal := runSlot s (slotMand u g d a b)
def execMor (u : VSlot) (g : Guard) (d : Fin 8) (a b : MaskOp) (s : State) : Host.Outcome State Fault Refusal := runSlot s (slotMor u g d a b)
def execMxor (u : VSlot) (g : Guard) (d : Fin 8) (a b : MaskOp) (s : State) : Host.Outcome State Fault Refusal := runSlot s (slotMxor u g d a b)
def execMandn (u : VSlot) (g : Guard) (d : Fin 8) (a b : MaskOp) (s : State) : Host.Outcome State Fault Refusal := runSlot s (slotMandn u g d a b)
def execVmu (u : VSlot) (g : Guard) (d : Fin 16) (mk care : Fin 8) (s : State) : Host.Outcome State Fault Refusal := runSlot s (slotVmu u g d mk care)
def execVmov (u : VSlot) (g : Guard) (d : Fin 32) (a : Src) (s : State) : Host.Outcome State Fault Refusal := runSlot s (slotVmov u g d a)
def execVcvt (u : VSlot) (g : Guard) (src dst : Fmt) (sat : Bool) (a : Src) (mk : Fin 8) (rm : Rm) (s : State) : Host.Outcome State Fault Refusal := runSlot s (slotVcvt u g src dst sat a mk rm)
def execVslide (u : VSlot) (g : Guard) (rot : Bool) (a b : Src) (mk : Fin 8) (s : State) : Host.Outcome State Fault Refusal := runSlot s (slotVslide u g rot a b mk)
def execVldt (u : VSlot) (g : Guard) (t : Fin 64) (a : Src) (s : State) : Host.Outcome State Fault Refusal := runSlot s (slotVldt u g t a)
def execVstt (u : VSlot) (g : Guard) (masked : Bool) (t : Fin 64) (a b : Src) (s : State) : Host.Outcome State Fault Refusal := runSlot s (slotVstt u g masked t a b)
def execVgath (u : VSlot) (g : Guard) (masked : Bool) (t : Fin 64) (a : Src) (s : State) : Host.Outcome State Fault Refusal := runSlot s (slotVgath u g masked t a)
def execVscat (u : VSlot) (g : Guard) (masked : Bool) (t : Fin 64) (a b : Src) (s : State) : Host.Outcome State Fault Refusal := runSlot s (slotVscat u g masked t a b)
def execVredAdd (u : VSlot) (g : Guard) (int : Bool) (a : Src) (mk : Fin 8) (s : State) : Host.Outcome State Fault Refusal := runSlot s (slotVredAdd u g int a mk)
def execVredMax (u : VSlot) (g : Guard) (int : Bool) (a : Src) (mk : Fin 8) (s : State) : Host.Outcome State Fault Refusal := runSlot s (slotVredMax u g int a mk)
def execVredMin (u : VSlot) (g : Guard) (int : Bool) (a : Src) (mk : Fin 8) (s : State) : Host.Outcome State Fault Refusal := runSlot s (slotVredMin u g int a mk)
def execVscanAdd (u : VSlot) (g : Guard) (int : Bool) (a : Src) (mk : Fin 8) (s : State) : Host.Outcome State Fault Refusal := runSlot s (slotVscanAdd u g int a mk)
def execVqnt (u : VSlot) (g : Guard) (f : Fmt) (col : Bool) (a : Src) (s : State) : Host.Outcome State Fault Refusal := runSlot s (slotVqnt u g f col a)
def execVdqnt (u : VSlot) (g : Guard) (f : Fmt) (col : Bool) (a : Src) (s : State) : Host.Outcome State Fault Refusal := runSlot s (slotVdqnt u g f col a)

end Sys2Proof.Machine
end

