-- ==== Sys2Proof/Machine/MatrixSlot.lean ====
section
/-!
DEFINITION. MatrixSlot.lean: the instructions of slot 3, the K ops of slot 7, and the micro-operations
(09_plane.md R189 to R207, 10_microcode.md R208 to R227).
-/
namespace Sys2Proof.Machine

/-! ### K ops (R190 to R195) -/

/-- A K op: no guard (R101, R190). -/
def kSlot (n : Nat) : SlotOp := computeOnly n (SlotOp.idle 7)

/-- A K op's result: a latch of `k` with latency 3, filled when its write lands (R190). -/
def kWrite (c : Core) (act : Fin 8 → Act) : Core :=
  let c := deposit64 c .k 0 3
  pendAct c (act (ringOf c .k).ptr) 3

/-- `kst` (R193). -/
def slotKst (col : Bool) (i : Fin 16) (a : Src) (s : State) (n : Nat) : SlotOp :=
  let v : BitVec 8 := (sVal s n 7 0 a).setWidth 8
  { kSlot n with
    ring := some .k, reads := [a], eff := fun s => modCore s n fun c => kWrite c (.entry col i v) }

/-- The configuration image of R192. -/
def cfgImage (w : Fin 8) (row col : Fmt) (sat : Bool) : BitVec 24 :=
  BitVec.ofNat 24 (w.val <<< 21 + (encodeFmt row).toNat <<< 18 + (encodeFmt col).toNat <<< 15 + sat.toNat <<< 14)

/-- `kcfg` (R192); the pairs outside R185 are refused at decode. -/
def slotKcfg (w : Fin 8) (row col : Fmt) (sat : Bool) (_ : State) (n : Nat) : SlotOp :=
  { kSlot n with
    ring := some .k, eff := fun s => modCore s n fun c => kWrite c (.cfg (cfgImage w row col sat)) }

/-- `klds` (R194). -/
def slotKlds (col : Bool) (t : Fin 64) (a : Src) (s : State) (n : Nat) : SlotOp :=
  let c := coreOf s n
  let x := (sVal s n 7 0 a).toNat
  let o := kSlot n
  { o with
    reads := [a], stall := tileBusy c t, pre := o.pre ++ accessChecks s n t x 16
    eff := fun s => modCore s n fun c =>
      pendAct c (.tload col t (tileAddr (tileReg c t).a x) (c.cyc + 5)) 2 }

/-! ### Slot 3 (R196 to R205) -/

def mSlot (g : Guard) (n : Nat) : SlotOp := computeOnly n (guarded 3 g)

/-- The routine entry a call of `i` starts, empty where R210 has it so. -/
def calledEntry (c : Core) (i : Fin 64) : BitVec 64 :=
  let e := spGet c.mx.entries i.val
  if entryValid e c.mp[0] then e else 0

/-- The capacity checks of the declared tile registers (R197). -/
def calledCap (s : State) (n : Nat) (e : BitVec 64) : List (Nat × BitVec 32) :=
  let c := coreOf s n
  match (declared e c.mp[0]).find? fun d => capFails s n (c.t.toList.getD d.2.1 TileReg.zero).a with
  | some d => [(0x0A, capDetail s n (BitVec.ofNat 6 d.2.1).toFin)]
  | none => []

/-- The K rule of R47 on a declared streamed operand. -/
def calledScale (c : Core) (e : BitVec 64) : List (Nat × BitVec 32) :=
  if (declared e c.mp[0]).any fun d =>
      let a := (c.t.toList.getD d.2.1 TileReg.zero).a
      (d.2.2 == 1 || d.2.2 == 2) && tRows a != 0 && tFactors a && tElems a % 32 != 0
  then [(0x01, 0)] else []

/-- The held cause, as the stage before or after the guards finds it (R200). -/
def heldCheck (c : Core) (post : Bool) : List (Nat × BitVec 32) :=
  if mHeld c && (mCause c == 0x13) == post then [(mCause c, c.mx.heldDet)] else []

/-- An `mlucode` is still writing (R204). -/
def ucodeBusy (c : Core) : Bool := c.mx.ucodeEnd != 0 && c.cyc ≤ c.mx.ucodeEnd

/-- The call itself: sequence number, status, snapshot, result tiles (R197, R211). -/
def startRoutine (c : Core) (i : Fin 64) (e : BitVec 64) : Core :=
  let seq := (mSeq c + 1) % 2 ^ 32
  let r : Routine :=
    { cfg := c.mx.cfg, rowT := c.mx.rowT, colT := c.mx.colT, mp := c.mp, win := c.mx.cfg.extractLsb' 21 3
      upc := BitVec.ofNat 12 (fld e 59 48), loops := Vector.replicate 4 ⟨false, 0, 0, 0, 0⟩, ci := 0xFFFF
      alpha := 0x3F800000, beta := 0, gamma := 0, entry := e, start := c.cyc + 1, phase := 0, tries := 0
      mism := 0, feed := none, scales := none, halted := false, abort := false, owe := 0 }
  let c := (resultTiles r).foldl (fun c t =>
    let x := c.t.toList.getD t TileReg.zero
    let c := openArea c t x.a x.b
    { c with t := c.t.setIfInBounds t (if x.st == .free then x else { x with st := .writing }) }) c
  { c with mx := { c.mx with
      status := BitVec.ofNat 64 (seq <<< 32 + 1 <<< 29 + i.val <<< 14 + 0x800)
      run := some r
      progress := if e = 0 then c.mx.progress else 0 } }

def slotMcall (g : Guard) (i : Fin 64) (s : State) (n : Nat) : SlotOp :=
  let c := coreOf s n
  let e := calledEntry c i
  let o := mSlot g n
  { o with
    ring := some .m
    pre := o.pre ++ calledScale c e ++ heldCheck c false ++ calledCap s n e
    post := heldCheck c true ++ if fld c.mx.cfg 23 21 = 7 then [(0x14, 0)] else []
    held := true
    stall := c.mx.run.isSome || ucodeBusy c || (declared e c.mp[0]).any fun d => tileBusy c (BitVec.ofNat 6 d.2.1).toFin
    eff := fun s => modCore s n fun c =>
      let c := startRoutine c i e
      deposit64 c .m (BitVec.ofNat 64 (i.val <<< 32 + mSeq c)) 1 }

def slotMpset (g : Guard) (m : Fin 8) (a : Src) (s : State) (n : Nat) : SlotOp :=
  let v := sVal s n 3 0 a
  { mSlot g n with reads := [a], eff := fun s => modCore s n fun c => pendAct c (.mp m v) 1 }

/-- `mwait` (R200). -/
def slotMwait (g : Guard) (a : Src) (s : State) (n : Nat) : SlotOp :=
  let c := coreOf s n
  let mine := (sVal s n 3 0 a).toNat % 2 ^ 32 == mSeq c
  let o := mSlot g n
  { o with
    reads := [a]
    pre := o.pre ++ if mine then heldCheck c false else []
    post := if mine then heldCheck c true else []
    held := true
    stall := c.mx.run.isSome && mine }

/-- `mstat` (R201). -/
def slotMstat (g : Guard) (s : State) (n : Nat) : SlotOp :=
  let v := (coreOf s n).mx.status
  { mSlot g n with ring := some .m, eff := fun s => modCore s n fun c => deposit64 c .m v 1 }

/-- `mabort` (R203). -/
def slotMabort (g : Guard) (_ : State) (n : Nat) : SlotOp :=
  { mSlot g n with
    eff := fun s => modCore s n fun c =>
      if c.mx.run.isSome then modRun c fun r => { r with abort := true } else setStatus c 28 28 0 }

/-- `mlucode`: 64 bytes a cycle from cycle c + 1 (R204). -/
def ucodeSlot (ent : Bool) (g : Guard) (t : Fin 64) (a b : Src) (s : State) (n : Nat) : SlotOp :=
  let c := coreOf s n
  let first := (sVal s n 3 0 a).toNat
  let count := (sVal s n 3 1 b).toNat
  let x := (tileReg c t).a
  let o := mSlot g n
  { o with
    reads := [a, b]
    pre := o.pre ++ featureCheck c 4 ++ (if capFails s n x then [(0x0A, capDetail s n t)] else []) ++
      (if count = 0 || (if ent then 64 else 4096) < first + count || tRows x * 4096 < 8 * count then [(0x07, 0)] else [])
    stall := c.mx.run.isSome || ucodeBusy c || tileBusy c t
    eff := fun s => modCore s n fun c =>
      let cycles := (count + 7) / 8
      let c := (List.range cycles).foldl (fun c j =>
        pendAct c (.uload ent t (tileAddr x (64 * j)) (first + 8 * j) (min 8 (count - 8 * j))) (j + 2)) c
      { c with mx := { c.mx with ucodeEnd := c.cyc + cycles } } }

def slotMlucode (g : Guard) (t : Fin 64) (a b : Src) : State → Nat → SlotOp := ucodeSlot false g t a b
def slotMlucodeEnt (g : Guard) (t : Fin 64) (a b : Src) : State → Nat → SlotOp := ucodeSlot true g t a b

/-- The 64-bit summary of one half of the lost-significance flags (R205). -/
def lsSummary (m : Matrix) (half : Bool) : BitVec 64 :=
  BitVec.ofNat 64 (packN 1 (fun k => (lsRow m (64 * half.toNat + k) != 0).toNat) 64)

def slotMlsf (g : Guard) (half : Bool) (s : State) (n : Nat) : SlotOp :=
  let c := coreOf s n
  { mSlot g n with
    ring := some .m, stall := c.mx.run.isSome
    eff := fun s => modCore s n fun c => deposit64 c .m (lsSummary c.mx half) 2 }

/-- `mlsf.t` also writes the flag plane (R205). -/
def slotMlsfT (g : Guard) (half : Bool) (t : Fin 64) (a : Src) (s : State) (n : Nat) : SlotOp :=
  let c := coreOf s n
  let x := (sVal s n 3 0 a).toNat
  let d := (tileReg c t).a
  let o := mSlot g n
  { o with
    ring := some .m, reads := [a], stall := c.mx.run.isSome || tileBusy c t
    pre := o.pre ++ (if capFails s n d then [(0x0A, capDetail s n t)] else []) ++
      (if tRows d * 4096 < x + 2048 || x % 512 != 0 then [(0x07, 0)] else [])
    eff := fun s => modCore s n fun c =>
      let bytes := (List.range 128).foldr (fun i l => toBytes 16 (lsRow c.mx i).toNat ++ l) []
      let c := deposit64 c .m (lsSummary c.mx half) 2
      let c := openRun t.val c (tileAddr d x) 2048
      pendAct { c with t := c.t.set t { tileReg c t with st := .writing } } (.lsf t (at_ (tileAddr d x) bytes)) 5 }

/-! ### The instructions -/

def execMcall (g : Guard) (i : Fin 64) (s : State) : Host.Outcome State Fault Refusal := runSlot s (slotMcall g i)
def execMpset (g : Guard) (m : Fin 8) (a : Src) (s : State) : Host.Outcome State Fault Refusal := runSlot s (slotMpset g m a)
def execMwait (g : Guard) (a : Src) (s : State) : Host.Outcome State Fault Refusal := runSlot s (slotMwait g a)
def execMstat (g : Guard) (s : State) : Host.Outcome State Fault Refusal := runSlot s (slotMstat g)
def execMabort (g : Guard) (s : State) : Host.Outcome State Fault Refusal := runSlot s (slotMabort g)
def execMlucode (g : Guard) (t : Fin 64) (a b : Src) (s : State) : Host.Outcome State Fault Refusal := runSlot s (slotMlucode g t a b)
def execMlucodeEnt (g : Guard) (t : Fin 64) (a b : Src) (s : State) : Host.Outcome State Fault Refusal := runSlot s (slotMlucodeEnt g t a b)
def execMlsf (g : Guard) (half : Bool) (s : State) : Host.Outcome State Fault Refusal := runSlot s (slotMlsf g half)
def execMlsfT (g : Guard) (half : Bool) (t : Fin 64) (a : Src) (s : State) : Host.Outcome State Fault Refusal := runSlot s (slotMlsfT g half t a)
def execKst (col : Bool) (i : Fin 16) (a : Src) (s : State) : Host.Outcome State Fault Refusal := runSlot s (slotKst col i a)
def execKcfg (w : Fin 8) (row col : Fmt) (sat : Bool) (s : State) : Host.Outcome State Fault Refusal := runSlot s (slotKcfg w row col sat)
def execKlds (col : Bool) (t : Fin 64) (a : Src) (s : State) : Host.Outcome State Fault Refusal := runSlot s (slotKlds col t a)

/-! ### Micro-operations (R217) -/

def execTrapm (code : BitVec 12) (s : State) : Host.Outcome State Fault Refusal := runMicro s (microTrapm code)
def execPassMicroOp (keep : Bool) (row col : PassSrc) (kf : Bool) (kfLv : Fin 4) (s : State) : Host.Outcome State Fault Refusal := runMicro s (microPass keep row col kf kfLv)
def execProm (d e : Fin 4) (dg : Bool) (lvA lvB : Fin 4) (s : State) : Host.Outcome State Fault Refusal := runMicro s (microProm d e dg lvA lvB)
def execClra (s : State) : Host.Outcome State Fault Refusal := runMicro s (microClra)
def execLdpl (d : Fin 4) (tr : Bool) (td : TileDesc) (s : State) : Host.Outcome State Fault Refusal := runMicro s (microLdpl d tr td)
def execStpl (p : Fin 4) (td : TileDesc) (s : State) : Host.Outcome State Fault Refusal := runMicro s (microStpl p td)
def execDrain (td : TileDesc) (s : State) : Host.Outcome State Fault Refusal := runMicro s (microDrain td)
def execIdpl (d : Fin 4) (s : State) : Host.Outcome State Fault Refusal := runMicro s (microIdpl d)
def execCoef (rst : Bool) (f : Fin 16) (s : State) : Host.Outcome State Fault Refusal := runMicro s (microCoef rst f)
def execLoop (n : Fin 4) (param : Bool) (reg : Fin 8) (stop : BitVec 12) (count : BitVec 32) (s : State) : Host.Outcome State Fault Refusal := runMicro s (microLoop n param reg stop count)
def execEndl (n : Fin 4) (s : State) : Host.Outcome State Fault Refusal := runMicro s (microEndl n)
def execBrf (cond : Fin 8) (reg : Fin 8) (target : BitVec 12) (s : State) : Host.Outcome State Fault Refusal := runMicro s (microBrf cond reg target)
def execSetw (w : Fin 8) (s : State) : Host.Outcome State Fault Refusal := runMicro s (microSetw w)
def execSetf (p : Fin 4) (f : Fin 8) (s : State) : Host.Outcome State Fault Refusal := runMicro s (microSetf p f)
def execRprc (f : Fin 16) (off : BitVec 16) (s : State) : Host.Outcome State Fault Refusal := runMicro s (microRprc f off)
def execDone (s : State) : Host.Outcome State Fault Refusal := runMicro s (microDone)

end Sys2Proof.Machine
end

