-- ==== Sys2Proof/Machine/Copy.lean ====
section
/-!
DEFINITION. Copy.lean: the instructions of slots 4 and 5 on tiles, copies, pennants, pages and handles, and
the events of their copies (11_tile.md R231 to R250, 16_kernel.md R319, 19_page.md R347 to R349).
-/
namespace Sys2Proof.Machine

def cSlotNo : CSlot → Nat
  | .ca => 4
  | .cb => 5

def cRing : CSlot → RingId
  | .ca => .ca
  | .cb => .cb

def cSlot (u : CSlot) (g : Guard) : SlotOp := guarded (cSlotNo u) g

/-- Operand i of a copy slot. -/
def cVal (u : CSlot) (s : State) (n i : Nat) (a : Src) : BitVec 64 := sVal s n (cSlotNo u) i a

/-! ### Checks at issue (R239, R347) -/

def hDetail (h : Fin 16) : BitVec 32 := BitVec.ofNat 32 h.val

/-- The checks of R347 on a handle a copy names; `outside`: its extent passes the page end. -/
def handleChecks (c : Core) (h : Fin 16) (rd wr outside : Bool) : List (Nat × BitVec 32) :=
  let x := c.h[h]
  if !hValid x then [(if hRevoked x then 0x06 else 0x05, hDetail h)]
  else if hAbsent x then [(0x09, hDetail h)]
  else (if outside then [(0x07, hDetail h)] else []) ++
    (if (rd && !hRead x) || (wr && !hWrite x) then [(0x08, hDetail h)] else [])

/-- The capacity check of tile registers, in rising order of their numbers. -/
def capChecks (s : State) (n : Nat) (l : List (Fin 64)) : List (Nat × BitVec 32) :=
  match l.filter fun t => capFails s n (tileReg (coreOf s n) t).a with
  | [] => []
  | t :: r => [(0x0A, capDetail s n (r.foldl (fun a b => if b < a then b else a) t))]

/-- Where the element rows of a copy end (R239). -/
def copyExtent (off : Nat) (a b : BitVec 64) : Nat := off + (tErows a - 1) * tStride b + tMB a

def failIf (b : Bool) (cause : Nat) (d : BitVec 32 := 0) : List (Nat × BitVec 32) := if b then [(cause, d)] else []

/-- A store of agent `n` through handle `h` to these spans, as (offset, length), meets a page table: the fields of its
entries are RW-F, and only the management core runs at level F (R8, R278, R342). -/
def tableFails (s : State) (n : Nat) (h : Handle) (l : List (Nat × Nat)) : Bool :=
  n != 288 && hPresent h && l.any fun x => inTables s (hBase h + x.1) x.2

/-- The spans of memory that a copy-out writes. -/
def outSpans (off : Nat) (a b : BitVec 64) : List (Nat × Nat) :=
  (List.range (tErows a)).map fun r => (off + r * tStride b, tMB a)

/-! ### Descriptors (R233) -/

/-- The checks of `tdef` that give fault 0x01. -/
def tdefBad (n : Nat) (a b : BitVec 64) : Bool :=
  let w := fmtWidth (tFmt a)
  let rows := tRows a
  fld a 63 54 != 0 || fld b 63 44 != 0 || rows == 0 ||
  (if isCompute n then 2048 else 64) < tBase a + rows ||
  tErows a == 0 || tElems a == 0 || tElems a * w % 32 != 0 ||
  (tScaled a && (tFmt a == .fp32 || tFmt a == .bf16 || tFmt a == .int32 || tElems a % 32 != 0)) ||
  (!tScaled a && tScoff b != 0) ||
  (if tScaled a then tScoff b * 4096 else rows * 4096) < tErows a * tP a ||
  (tScaled a && rows * 4096 < tScoff b * 4096 + tErows a * tSP a) ||
  tStride b % 4 != 0 || (0 < tStride b && tStride b < tMB a)

def slotTdef (u : CSlot) (g : Guard) (t : Fin 64) (a b : Src) (s : State) (n : Nat) : SlotOp :=
  let c := coreOf s n
  let x := cVal u s n 0 a
  let y := cVal u s n 1 b
  let free := x == 0 && y == 0
  { cSlot u g with
    reads := [a, b], stall := tileBusy c t || routineHolds c t
    pre := if free then [] else
      failIf (tdefBad n x y) 0x01 ++ int4Check c [tFmt x] ++ failIf (capFails s n x) 0x0A (capDetail s n t)
    eff := fun s => modCore s n fun c => pendAct c (.tdef t x y) 1 }

/-! ### Tile loads and stores (R239, R240) -/

/-- A copy-in takes its register: Loading, and its areas opened. -/
def startLoading (c : Core) (t : Fin 64) : Core :=
  let x := tileReg c t
  let c := openArea c t.val x.a x.b
  { c with t := c.t.set t { x with st := .loading } }

/-- A copy-out takes its register: Storing, with the state to return to. Two users of one register in one word: see
notes/assumptions/80.md. -/
def startStoring (c : Core) (t : Fin 64) : Core :=
  let x := tileReg c t
  { c with t := c.t.set t (if x.st == .storing then x else { x with st := .storing, mem := x.st }) }

def slotTld (u : CSlot) (g : Guard) (t : Fin 64) (h cl : Fin 16) (a : Src) (s : State) (n : Nat) : SlotOp :=
  let c := coreOf s n
  let d := tileReg c t
  let off := (cVal u s n 0 a).toNat
  let free := tRows d.a == 0
  { cSlot u g with
    reads := [a], rewalk := [h], stall := tileBusy c t || routineHolds c t, copies := 1
    pre := capChecks s n [t] ++
      handleChecks c h true false (!free && hSize c.h[h] < copyExtent off d.a d.b) ++
      failIf (free || off % 4 != 0) 0x07 (hDetail h)
    eff := fun s =>
      let s := enqueue s n (.tld t) (some cl) d.a d.b c.h[h] off none 0 true
      modCore s n fun c => addCounts (startLoading c t) cl (lineCount off d.a d.b) 0 }

def slotTst (u : CSlot) (g : Guard) (t : Fin 64) (h cl : Fin 16) (a : Src) (s : State) (n : Nat) : SlotOp :=
  let c := coreOf s n
  let d := tileReg c t
  let off := (cVal u s n 0 a).toNat
  let free := tRows d.a == 0
  { cSlot u g with
    reads := [a], rewalk := [h], stall := tileBusy c t, copies := 1
    pre := capChecks s n [t] ++
      handleChecks c h false true (!free && hSize c.h[h] < copyExtent off d.a d.b) ++
      failIf (free || off % 4 != 0) 0x07 (hDetail h) ++
      failIf (!free && 1 < tErows d.a && tStride d.b == 0) 0x01 ++
      failIf (!free && tableFails s n c.h[h] (outSpans off d.a d.b)) 0x03
    eff := fun s =>
      let s := enqueue s n (.tst t) (some cl) d.a d.b c.h[h] off none 0 true
      modCore s n fun c => addCounts (startStoring c t) cl 0 (lineCount off d.a d.b) }

/-! ### Copies with a result (R242) -/

/-- A copy joins the queue and takes the latch its result will land in. -/
def enqueueRing (s : State) (n : Nat) (u : CSlot) (kind : CopyKind) (cl : Fin 16) (a b : BitVec 64) (h : Handle)
    (off ld st : Nat) : State :=
  let s := modCore s n fun c => depositAt c (cRing u) 0 c.cyc (some c.nextId)
  let s := enqueue s n kind (some cl) a b h off (some (cRing u, (ringOf (coreOf s n) (cRing u)).ptr)) 0 true
  modCore s n fun c => addCounts c cl ld st

/-- Comparison and replacement of a `cas`, or the operand (R241). -/
def amoOperands (u : CSlot) (s : State) (n : Nat) (op : AmoOp) (wide : Bool) (c : Src) : BitVec 64 × BitVec 64 :=
  let x := cVal u s n 2 c
  match op, wide, c with
  | .cas, true, .reg i => (x, cVal u s n 2 (.reg (i + 1)))
  | .cas, _, _ => (x &&& 0xFFFFFFFF#64, x >>> 32)
  | _, _, _ => (x, 0)

def slotTamo (u : CSlot) (g : Guard) (op : AmoOp) (wide : Bool) (h cl : Fin 16) (a c : Src) (s : State) (n : Nat) : SlotOp :=
  let k := coreOf s n
  let off := (cVal u s n 0 a).toNat
  let size := if wide then 8 else 4
  let x := amoOperands u s n op wide c
  { cSlot u g with
    ring := some (cRing u), reads := [a, c], rewalk := [h], copies := 1
    pre := handleChecks k h false true (hSize k.h[h] < off + size) ++ failIf (off % size != 0) 0x07 (hDetail h) ++
      failIf (tableFails s n k.h[h] [(off, size)]) 0x03
    eff := fun s => enqueueRing s n u (.tamo op wide x.1 x.2) cl 0 0 k.h[h] off 1 1 }

/-- The new value of the memory word, if it is written (R241); `n` its bits. -/
def amoNew (op : AmoOp) (w : Nat) (old c d : Nat) : Option Nat :=
  let c := c % 2 ^ w
  let neg (x : Nat) : Int := if 2 ^ (w - 1) ≤ x then (x : Int) - 2 ^ w else x
  match op with
  | .add => some ((old + c) % 2 ^ w)
  | .max => some (if neg old < neg c then c else old)
  | .min => some (if neg c < neg old then c else old)
  | .maxu => some (max old c)
  | .minu => some (min old c)
  | .swap => some c
  | .cas => if old = c then some (d % 2 ^ w) else none

/-- A `tamo` is performed at its home: the old value lands and both counts fall (R241, R242). -/
def performAmo (s : State) (n : Nat) (k : Copy) (op : AmoOp) (wide : Bool) (c d : BitVec 64) : State :=
  let size := if wide then 8 else 4
  let pa := hBase k.h + k.off
  let old := ofBytes (memRead s.mem pa size)
  let bad := !k.absent && !(poisonedIn s.poison pa size).isEmpty
  let v : BitVec 64 := if k.absent then 0 else if bad then freeVal s 4006 (8 * size) |>.setWidth 64 else BitVec.ofNat 64 old
  let s :=
    if k.absent || bad then s
    else
      let s := unreplicate s (hBase k.h)
      match amoNew op (8 * size) old c.toNat d.toNat with
      | some x => storeBytes s (some (dieOf n)) pa (toBytes size x)
      | none => s
  let s := modCore s n fun c =>
    let c := landIn c k.slot k.id v
    let c := if bad then consume c 1 else c
    match k.cls with | some cl => subCounts c cl 1 1 | none => c
  copyEnd s n k.id

/-! ### Load-blocks and pennants (R243 to R245) -/

def slotTlbk (u : CSlot) (g : Guard) (pn : Fin 64) (h cl : Fin 16) (a : Src) (s : State) (n : Nat) : SlotOp :=
  let c := coreOf s n
  let x := (cVal u s n 0 a).toNat
  let lines := x % 64 + 1
  let off := x / 128 * 128
  { cSlot u g with
    reads := [a], rewalk := [h], copies := 1
    pre := handleChecks c h true false (hSize c.h[h] < off + 128 * lines) ++ failIf (x / 64 % 2 == 1) 0x07 (hDetail h)
    eff := fun s =>
      let s := enqueue s n (.tlbk pn lines) (some cl) 0 0 c.h[h] off none 0 true
      modCore s n fun c => addCounts c cl lines 0 }

/-- `waitf` (R245): the pennants as the word finds them. -/
def slotWaitf (u : CSlot) (g : Guard) (any clr : Bool) (a : Src) (s : State) (n : Nat) : SlotOp :=
  let pn := (coreOf s n).pn
  let m := cVal u s n 0 a
  { cSlot u g with
    ring := some (cRing u), reads := [a]
    stall := m != 0 && (if any then pn &&& m == 0 else pn &&& m != m)
    eff := fun s => modCore s n fun c =>
      let c := deposit64 c (cRing u) pn 1
      if clr then { c with pn := c.pn &&& ~~~m } else c }

/-- `waitc` (R237). -/
def slotWaitc (u : CSlot) (g : Guard) (kind : WaitKind) (a b : Src) (s : State) (n : Nat) : SlotOp :=
  let c := coreOf s n
  let m := cVal u s n 0 a
  let bound := (cVal u s n 1 b).toNat
  let full (cl : Nat) : Bool :=
    let ld := bound < (c.ldcnt.toList.getD cl 0).toNat
    let st := bound < (c.stcnt.toList.getD cl 0).toNat
    match kind with | .ld => ld | .st => st | .ldst => ld || st
  { cSlot u g with
    reads := [a, b], stall := (List.range 16).any fun cl => m.getLsbD cl && full cl }

/-! ### Tile-to-tile copies and fills (R246) -/

/-- The last cycle of a copy of length X issued in cycle c. -/
def lastCycle (c x : Nat) : Nat := c + 1 + (x + 511) / 512

def slotTcpy (u : CSlot) (g : Guard) (td ts : Fin 64) (s : State) (n : Nat) : SlotOp :=
  let c := coreOf s n
  let d := tileReg c td
  let x := tileReg c ts
  let free := tRows d.a == 0 || tRows x.a == 0
  { cSlot u g with
    stall := tileBusy c td || tileBusy c ts || routineHolds c td, copies := 1
    pre := capChecks s n [td, ts] ++ failIf free 0x07 ++
      failIf (td == ts || (!free && (tFmt d.a != tFmt x.a || tScaled d.a != tScaled x.a ||
        tErows d.a != tErows x.a || tElems d.a != tElems x.a))) 0x01
    eff := fun s =>
      let s := enqueue s n (.tcpy td ts) none d.a d.b Handle.zero 0 none (lastCycle c.cyc (copyLength d.a)) false
      modCore s n fun c => startStoring (startLoading c td) ts }

def slotTfill (u : CSlot) (g : Guard) (t : Fin 64) (a b : Src) (s : State) (n : Nat) : SlotOp :=
  let c := coreOf s n
  let d := tileReg c t
  let v := cVal u s n 0 a
  let nib : BitVec 4 := (cVal u s n 1 b).setWidth 4
  { cSlot u g with
    reads := [a, b], stall := tileBusy c t || routineHolds c t, copies := 1
    pre := capChecks s n [t] ++ failIf (tRows d.a == 0) 0x07
    eff := fun s =>
      let s := enqueue s n (.tfill t v nib) none d.a d.b Handle.zero 0 none (lastCycle c.cyc (copyLength d.a)) false
      modCore s n fun c => startLoading c t }

/-! ### Instruction loads (R247 to R249) -/

/-- How far an overlay image has been expanded: the words built, last first, and whether more bytes are
needed, the load is done, or ERR (R248). -/
inductive Progress where
  | more | finished | err
  deriving DecidableEq, Repr

structure Expansion where
  words  : List Word
  status : Progress
  deriving DecidableEq, Repr

/-- `n` bytes at `pos` of the bytes read so far; `lim` bytes lie before the page end. -/
def imageBytes (d : List Byte) (lim pos n : Nat) : Except Progress (List Byte) :=
  if lim < pos + n then .error .err
  else if d.length < pos + n then .error .more
  else .ok ((d.drop pos).take n)

/-- `k` more copies of word `w` after the `n` words built. -/
def emitWords (ok : Nat → Bool) (nw : Nat) (w : Word) : Nat → Nat → List Word → List Word × Bool
  | 0, _, acc => (acc, true)
  | k + 1, n, acc => if n = nw || !ok n then (acc, false) else emitWords ok nw w k (n + 1) (w :: acc)

/-- A template with the slots of a mask replaced, in rising order (R247). -/
def fillTemplate (w : Word) (mask : Nat) (vals : List Byte) : Word :=
  ((List.range 8).foldl (fun (x : Word × List Byte) k =>
    if mask.testBit k then (putFld x.1 (32 * k + 31) (32 * k) (ofBytes (x.2.take 4)), x.2.drop 4) else x) (w, vals)).1

/-- The records of an overlay image, from byte `pos`. -/
def expandRecs (d : List Byte) (lim ntpl nw : Nat) (ok : Nat → Bool) : Nat → Nat → List Word → Expansion
  | 0, _, acc => { words := acc, status := if acc.length = nw then .finished else .err }
  | r + 1, pos, acc =>
    match imageBytes d lim pos 4 with
    | .error e => { words := acc, status := e }
    | .ok b =>
      let v := ofBytes b
      let t := v % 256
      let mask := v / 256 % 256
      let count := v / 65536 + 1
      let n := if t = 255 then 32 else 4 * ((List.range 8).countP fun k => mask.testBit k)
      if (t = 255 && mask != 0) || (t != 255 && ntpl ≤ t) then { words := acc, status := .err }
      else
        match imageBytes d lim (pos + 4) n with
        | .error e => { words := acc, status := e }
        | .ok vals =>
          let w : Word :=
            if t = 255 then BitVec.ofNat 256 (ofBytes vals)
            else fillTemplate (BitVec.ofNat 256 (ofBytes ((d.drop (32 + 32 * t)).take 32))) mask vals
          match emitWords ok nw w count acc.length acc with
          | (acc, true) => expandRecs d lim ntpl nw ok r (pos + 4 + n) acc
          | (acc, false) => { words := acc, status := .err }

/-- The expansion of the bytes read so far; `prot` says that word index i of the bank is protected. -/
def expand (d : List Byte) (lim : Nat) (prot : Nat → Bool) : Expansion :=
  match imageBytes d lim 0 32 with
  | .error e => { words := [], status := e }
  | .ok hd =>
    let v := ofBytes hd
    let dest := v % 65536
    let nw := v / 65536 % 65536
    let ntpl := v / 2 ^ 32 % 65536
    let nrec := v / 2 ^ 48 % 65536
    if v / 2 ^ 64 != 0 || 2047 < dest || nw = 0 || 2048 - dest < nw || 64 < ntpl then { words := [], status := .err }
    else
      match imageBytes d lim 32 (32 * ntpl) with
      | .error e => { words := [], status := e }
      | .ok _ => expandRecs d lim ntpl nw (fun n => !prot (dest + n)) nrec (32 + 32 * ntpl) []

/-- DEST of the header. -/
def imageDest (d : List Byte) : Nat := ofBytes (d.take 2)

/-- The words placement loaded are protected (R318). -/
def protectedWord (c : Core) (bank : Bool) (i : Nat) : Bool := !bank && i < c.protect

def copyLimit (k : Copy) : Nat := hSize k.h - k.off

def slotTldi (u : CSlot) (g : Guard) (bank : Bool) (h cl : Fin 16) (a : Src) (s : State) (n : Nat) : SlotOp :=
  let c := coreOf s n
  let off := (cVal u s n 0 a).toNat
  { cSlot u g with
    ring := some (cRing u), reads := [a], rewalk := [h], copies := 1
    pre := handleChecks c h true false (hSize c.h[h] < off + 32) ++ failIf (off % 32 != 0) 0x07 (hDetail h)
    eff := fun s => enqueueRing s n u (.tldi bank) cl 0 0 c.h[h] off 1 0 }

/-- A word of an instruction-store bank is written whole. -/
def storeWord (c : Core) (pc : Nat) (w : Word) : Core :=
  { c with istore := spSet c.istore pc w, iPoison := c.iPoison.filter fun g => g / 4 != pc }

/-- `tldi` reads its next line and writes the words it can build (R249). -/
def tldiLine (s : State) (n : Nat) (k : Copy) (bank : Bool) (line : Nat) : State :=
  let got := k.data.getD []
  let pos := k.off + got.length
  let lim := copyLimit k
  let e := expand got lim (protectedWord (coreOf s n) bank)
  if e.status != .more || pos / 128 != line then s
  else
    let len := min (128 * (line + 1) - pos) (hSize k.h - pos)
    let (s, v, bad) := if k.absent then (s, 0, none) else loadBytes s (dieOf n) k.h (hBase k.h + pos) len
    let v := if bad.isSome then (freeVal s 4007 1024).toNat else v
    let d := got ++ toBytes len v
    modCore s n fun c =>
      let e := expand d lim (protectedWord c bank)
      let new := e.words.reverse.drop k.until_
      let base := 2048 * bank.toNat + imageDest d + k.until_
      let c := ((List.range new.length).zip new).foldl (fun c x => storeWord c (base + x.1) x.2) c
      let c := match bad with | some st => consume c st | none => c
      modCopy c k.id fun k => { k with data := some d, until_ := e.words.length }

/-- The bytes of words as written: byte 0 first. -/
def wordBytes (l : List Word) : List Byte := l.foldr (fun w r => toBytes 32 w.toNat ++ r) []

/-- The load ends and its result lands (R248, R249). -/
def tldiFinish (s : State) (n : Nat) (k : Copy) (bank : Bool) : State :=
  let e := expand (k.data.getD []) (copyLimit k) (protectedWord (coreOf s n) bank)
  let count := e.words.length <<< 32
  let res : BitVec 64 := match e.status with
    | .finished => BitVec.ofNat 64 (count + crc32c (wordBytes e.words.reverse))
    | _ => BitVec.ofNat 64 (2 ^ 63 + count)
  if e.status = .more then s
  else
    copyEnd (modCore s n fun c =>
      let c := landIn c k.slot k.id res
      match k.cls with | some cl => subCounts c cl 1 0 | none => c) n k.id

/-! ### Pages and handles (R349) -/

def slotRdcinv (u : CSlot) (g : Guard) (h : Fin 16) (a b : Src) (s : State) (n : Nat) : SlotOp :=
  let c := coreOf s n
  let x := c.h[h]
  let off := (cVal u s n 0 a).toNat
  let len := (cVal u s n 1 b).toNat
  { cSlot u g with
    reads := [a, b], rewalk := [h]
    pre := featureCheck c 6 ++ handleChecks c h false false (hSize x < off + len)
    eff := fun s =>
      let lo := hBase x + off
      if len = 0 then s else dropLines s (dieOf n) fun l => 128 * l < lo + len && lo < 128 * l + 128 }

def slotXlat (u : CSlot) (g : Guard) (h : Fin 16) (a : Src) (s : State) (n : Nat) : SlotOp :=
  let va := cVal u s n 0 a
  let ok := va.toNat < 2 ^ 48
  let b := (knownAt (coreOf s n) va.toNat).getD (absentHandle va.toNat)
  { cSlot u g with
    reads := [a], walkVa := if ok then some (va.setWidth 48) else none
    eff := fun s => modCore s n fun c =>
      pendAct c (if ok then .xlat h b false else .hnd h Handle.zero) 6 }

def slotHstat (u : CSlot) (g : Guard) (va : Bool) (h : Fin 16) (s : State) (n : Nat) : SlotOp :=
  let x := (coreOf s n).h[h]
  { cSlot u g with
    ring := some (cRing u), eff := fun s => modCore s n fun c => deposit64 c (cRing u) (if va then x.w1 else x.w0) 1 }

def slotHclr (u : CSlot) (g : Guard) (h : Fin 16) (_ : State) (n : Nat) : SlotOp :=
  { cSlot u g with eff := fun s => modCore s n fun c => pendAct c (.hnd h Handle.zero) 1 }

def slotHclrPn (u : CSlot) (g : Guard) (a : Src) (s : State) (n : Nat) : SlotOp :=
  let m := cVal u s n 0 a
  { cSlot u g with
    reads := [a], eff := fun s => modCore s n fun c => { c with pn := c.pn &&& ~~~m } }

/-- `ipatch` (R319). -/
def slotIpatch (u : CSlot) (g : Guard) (a b : Src) (s : State) (n : Nat) : SlotOp :=
  let c := coreOf s n
  let x := (cVal u s n 0 a).toNat
  let v := cVal u s n 1 b
  let word := BitVec.ofNat 11 x
  let pair := BitVec.ofNat 2 (x / 2048)
  computeOnly n { cSlot u g with
    reads := [a, b], copies := 1
    pre := failIf (2 ^ 13 ≤ x || !c.patches.contains (word.toNat, pair.toNat)) 0x08
    eff := fun s => enqueue s n (.ipatch word.toFin pair.toFin v) none 0 0 Handle.zero 0 none 0 false }

/-! ### Events of copies in progress -/

/-- Copy `ref`, and the agent that issued it. -/
def refCopy (s : State) (ref : CopyRef) : Option Copy := findCopy (coreOf s (agentNo ref.agent)) ref.id

/-- A store request may be performed: in a cycle after the one in which the copy unit read it, or its row read now. -/
def storeReady (c : Core) (k : Copy) : Bool :=
  if k.data.isSome then k.until_ < c.cyc || c.run != .running else storesInFlight c < lineLimit

/-- Line `line` of element row `row` has been performed at its place (R235, R263). -/
def lineEvent (s : State) (ref : CopyRef) (row line : Nat) : State :=
  let n := agentNo ref.agent
  match refCopy s ref with
  | none => s
  | some k =>
    if !mayPerform s n k || k.done.contains (row, line) then s
    else
      match k.kind with
      | .tld t => if (tileLines k).contains (row, line) then performLoad s n k t row line else s
      | .tst t =>
        if storeReady (coreOf s n) k && (tileLines k).contains (row, line) then
          performStore s n k t row line
        else s
      | .tlbk pn lines =>
        if row = 0 && k.off / 128 ≤ line && line < k.off / 128 + lines then performBlock s n k pn lines line else s
      | .tldi bank => if row = 0 then tldiLine s n k bank line else s
      | _ => s

/-- The tile store may be read and written for copy `k`: cycle c + 2 of its issue has begun (R240). -/
def afterIssue (c : Core) (k : Copy) : Bool := k.issued + 2 ≤ c.cyc || c.run != .running

/-- A `tst` reads every byte of its register in this cycle, all the requests it has left being in flight; the register
leaves Storing as the cycle ends, and at once on a core that has stopped (R231, R236, R239). -/
def copyOutEvent (s : State) (ref : CopyRef) : State :=
  let n := agentNo ref.agent
  match refCopy s ref with
  | none => s
  | some k =>
    match k.kind with
    | .tst t =>
      if k.data.isNone && afterIssue (coreOf s n) k && fitsInFlight (coreOf s n) k then
        let fv := freeVal s 4008 32768
        modCore s n fun c =>
          let d := tileRowsData c t.val fv k.a k.b
          let c := consumeAreas (signMore c k.issued d) k.a k.b
          modCopy (if c.run == .running then c else endStoring c t.val) k.id fun k => { k with data := some d, until_ := c.cyc }
      else s
    | _ => s

def amoEvent (s : State) (ref : CopyRef) : State :=
  let n := agentNo ref.agent
  match refCopy s ref with
  | none => s
  | some k =>
    match k.kind with
    | .tamo op wide c d => if mayPerform s n k then performAmo s n k op wide c d else s
    | _ => s

def tldiEndEvent (s : State) (ref : CopyRef) : State :=
  let n := agentNo ref.agent
  match refCopy s ref with
  | none => s
  | some k =>
    match k.kind with
    | .tldi bank => if mayPerform s n k then tldiFinish s n k bank else s
    | _ => s

/-- A `tcpy` or `tfill` ends in its last cycle; an `ipatch` writes its slot pair (R246, R319). -/
def tileCopyEvent (s : State) (ref : CopyRef) : State :=
  let n := agentNo ref.agent
  match refCopy s ref with
  | none => s
  | some k =>
    match k.kind with
    | .tcpy _ _ | .tfill _ _ _ => if k.until_ < (coreOf s n).cyc then fixedEnd s n k else s
    | .ipatch _ _ _ => if afterIssue (coreOf s n) k then fixedEnd s n k else s
    | _ => s

/-! ### The instructions -/

def execTdef (u : CSlot) (g : Guard) (t : Fin 64) (a b : Src) (s : State) : Host.Outcome State Fault Refusal := runSlot s (slotTdef u g t a b)
def execTld (u : CSlot) (g : Guard) (t : Fin 64) (h cl : Fin 16) (a : Src) (s : State) : Host.Outcome State Fault Refusal := runSlot s (slotTld u g t h cl a)
def execTst (u : CSlot) (g : Guard) (t : Fin 64) (h cl : Fin 16) (a : Src) (s : State) : Host.Outcome State Fault Refusal := runSlot s (slotTst u g t h cl a)
def execTamo (u : CSlot) (g : Guard) (op : AmoOp) (wide : Bool) (h cl : Fin 16) (a c : Src) (s : State) : Host.Outcome State Fault Refusal := runSlot s (slotTamo u g op wide h cl a c)
def execTlbk (u : CSlot) (g : Guard) (pn : Fin 64) (h cl : Fin 16) (a : Src) (s : State) : Host.Outcome State Fault Refusal := runSlot s (slotTlbk u g pn h cl a)
def execTcpy (u : CSlot) (g : Guard) (td ts : Fin 64) (s : State) : Host.Outcome State Fault Refusal := runSlot s (slotTcpy u g td ts)
def execTfill (u : CSlot) (g : Guard) (t : Fin 64) (a b : Src) (s : State) : Host.Outcome State Fault Refusal := runSlot s (slotTfill u g t a b)
def execTldi (u : CSlot) (g : Guard) (bank : Bool) (h cl : Fin 16) (a : Src) (s : State) : Host.Outcome State Fault Refusal := runSlot s (slotTldi u g bank h cl a)
def execWaitc (u : CSlot) (g : Guard) (kind : WaitKind) (a b : Src) (s : State) : Host.Outcome State Fault Refusal := runSlot s (slotWaitc u g kind a b)
def execWaitf (u : CSlot) (g : Guard) (any clr : Bool) (a : Src) (s : State) : Host.Outcome State Fault Refusal := runSlot s (slotWaitf u g any clr a)
def execRdcinv (u : CSlot) (g : Guard) (h : Fin 16) (a b : Src) (s : State) : Host.Outcome State Fault Refusal := runSlot s (slotRdcinv u g h a b)
def execXlat (u : CSlot) (g : Guard) (h : Fin 16) (a : Src) (s : State) : Host.Outcome State Fault Refusal := runSlot s (slotXlat u g h a)
def execHstat (u : CSlot) (g : Guard) (va : Bool) (h : Fin 16) (s : State) : Host.Outcome State Fault Refusal := runSlot s (slotHstat u g va h)
def execHclr (u : CSlot) (g : Guard) (h : Fin 16) (s : State) : Host.Outcome State Fault Refusal := runSlot s (slotHclr u g h)
def execHclrPn (u : CSlot) (g : Guard) (a : Src) (s : State) : Host.Outcome State Fault Refusal := runSlot s (slotHclrPn u g a)
def execIpatch (u : CSlot) (g : Guard) (a b : Src) (s : State) : Host.Outcome State Fault Refusal := runSlot s (slotIpatch u g a b)
def execLineRequestPerformed (c : CopyRef) (row line : Nat) (s : State) : Host.Outcome State Fault Refusal := .next (lineEvent s c row line)
def execCopyOutRead (c : CopyRef) (s : State) : Host.Outcome State Fault Refusal := .next (copyOutEvent s c)
def execTamoPerformed (c : CopyRef) (s : State) : Host.Outcome State Fault Refusal := .next (amoEvent s c)
def execTldiEnd (c : CopyRef) (s : State) : Host.Outcome State Fault Refusal := .next (tldiEndEvent s c)
def execTileCopyDone (c : CopyRef) (s : State) : Host.Outcome State Fault Refusal := .next (tileCopyEvent s c)

end Sys2Proof.Machine
end

