-- ==== Sys2Proof/Machine/Bank.lean ====
section
/-!
DEFINITION. Bank.lean: `bkc` and the bank commands (12_bank.md R251 to R261).
-/
namespace Sys2Proof.Machine

/-! ### Issue (R259) -/

def slotBkc (u : CSlot) (g : Guard) (t : Fin 64) (h cl : Fin 16) (a : Src) (s : State) (n : Nat) : SlotOp :=
  let c := coreOf s n
  let d := tileReg c t
  let off := (cVal u s n 0 a).toNat
  computeOnly n { cSlot u g with
    ring := some (cRing u), reads := [a], rewalk := [h], stall := tileBusy c t || routineHolds c t, copies := 1
    pre := featureCheck c 0 ++ capChecks s n [t] ++ handleChecks c h true false (hSize c.h[h] < off + 64) ++
      failIf (tRows d.a == 0 || off % 64 != 0) 0x07 (hDetail h)
    eff := fun s =>
      let s := enqueueRing s n u (.bkc t) cl d.a d.b c.h[h] off 1 1
      modCore s n fun c => startLoading c t }

/-! ### The command record (R254) -/

abbrev Record := BitVec 512

def rCmd (r : Record) : Nat := fld r 3 0
def rWin (r : Record) : Nat := fld r 7 5
def rSat (r : Record) : Bool := r.getLsbD 8
def rMfmt (r : Record) : Fmt := decodeFmt (BitVec.ofNat 3 (fld r 11 9))
def rVfmt (r : Record) : Fmt := decodeFmt (BitVec.ofNat 3 (fld r 14 12))
def rBuf (r : Record) : Nat := fld r 35 32
def rSegs (r : Record) : Nat := fld r 39 36 + 1
def rRows (r : Record) : Nat := fld r 63 48 + 1
def rMoff (r : Record) : Nat := fld r 127 64
def rVoff (r : Record) : Nat := fld r 191 128
def rVal (r : Record) : BitVec 32 := BitVec.ofNat 32 (fld r 223 192)
def rVlen (r : Record) : Nat := fld r 255 224

/-- A reserved field, or a field its command does not use, is nonzero (R254, R255). -/
def rUnused (r : Record) : Bool :=
  let vlen := fld r 255 224 != 0
  let val := fld r 223 192 != 0
  let voff := fld r 191 128 != 0
  let buf := fld r 35 32 != 0
  let vf := fld r 14 12 != 0
  let mf := fld r 11 9 != 0
  let sat := fld r 8 8 != 0
  let win := fld r 7 5 != 0
  fld r 511 256 != 0 || fld r 47 40 != 0 || fld r 31 15 != 0 || fld r 4 4 != 0 ||
  match rCmd r with
  | 1 => val || vf || mf || sat || win
  | 2 | 3 => vlen || val || voff
  | 4 => vlen || voff || win
  | 5 => vlen || voff || buf || vf || sat || win
  | _ => vlen || val || voff || buf || vf

/-- MFMT and VFMT as R255 allows them. -/
def rFormatsOk (r : Record) : Bool :=
  let m := fld r 11 9
  let v := fld r 14 12
  match rCmd r with
  | 1 => true
  | 5 | 6 => m == 1 || m == 2 || m == 3 || m == 5
  | _ => (m == 1 && v == 1) || ((m == 2 || m == 3 || m == 5) && (v == 2 || v == 3 || v == 5))

/-- The commands that write results into t. -/
def rResults (r : Record) : Bool := rCmd r == 2 || rCmd r == 3 || rCmd r == 6

/-- The physical address of segment q of row i (R254). -/
def segAddr (h : Handle) (r : Record) (i q : Nat) : Nat := hBase h + rMoff r + 2048 * (i * rSegs r + q)

/-- The engine of a segment's address (R251). -/
def engineOf (pa : Nat) : Nat := pseudoOf (offsetOf pa / 2048)

def bufferOf (s : State) (e num : Nat) : Option Buffer := s.buffers.find? fun b => b.engine == e && b.num == num

/-- Every buffer the command reads is valid and of the issuing context (R253). -/
def buffersOk (s : State) (ctx : Fin 32) (h : Handle) (r : Record) : Bool :=
  (List.range (rRows r)).all fun i => (List.range (rSegs r)).all fun q =>
    match bufferOf s (engineOf (segAddr h r i q)) ((rBuf r + q) % 16) with
    | some b => b.ctx == some ctx
    | none => false

/-- The bytes that a command's segments take. -/
def rBytes (r : Record) : Nat := 2048 * (rRows r * rSegs r)

/-- The refusal code of a command, the first of R258 that applies; 0 for none. The order, 0x05 for a VLEN out of
range, and 0x06 by the page's space alone, are the model's choice: see notes/assumptions/29.md. Page tables are not written
below level F (R8): see notes/assumptions/83.md. -/
def bankRefusal (s : State) (ctx : Fin 32) (k : Copy) (r : Record) : Nat :=
  let size := hSize k.h
  let cmd := rCmd r
  if cmd = 0 || 6 < cmd || rUnused r then 0x01
  else if !rFormatsOk r || !(tFmt k.a == .fp32 || tFmt k.a == .bf16) || tScaled k.a then 0x03
  else if rResults r && rWin r = 7 then 0x04
  else if rMoff r % 2048 != 0 || size < rMoff r + rBytes r ||
      (cmd = 1 && (rVoff r % 4 != 0 || rVlen r % 4 != 0 || rVlen r = 0 || 2048 < rVlen r || size < rVoff r + rVlen r)) then 0x05
  else if !isPcLocal (hBase k.h) then 0x06
  else if (cmd = 4 || cmd = 5) && (!hWrite k.h || inTables s (hBase k.h + rMoff r) (rBytes r)) then 0x07
  else if rResults r && tErows k.a * tElems k.a < rRows r then 0x08
  else if (cmd = 2 || cmd = 3 || cmd = 4) && !buffersOk s ctx k.h r then 0x09
  else 0

/-! ### Reading memory (R261, R389) -/

/-- `n` bytes at `pa`, each poisoned granule a free value. -/
def bankRead (s : State) (pa n : Nat) : Nat :=
  (poisonedIn s.poison pa n).foldl (fun v g =>
      let lo := max pa g
      let hi := min (pa + n) (g + 32)
      (putFld (BitVec.ofNat (8 * n) v) (8 * (hi - pa) - 1) (8 * (lo - pa)) (freeVal s (4096 + g) 256).toNat).toNat)
    (ofBytes (memRead s.mem pa n))

def segRead (s : State) (h : Handle) (r : Record) (i q : Nat) : Nat := bankRead s (segAddr h r i q) 2048

/-- Elements of one segment as exact values. -/
def elements (f : Fmt) (v : Nat) : List Ext :=
  let w := fmtWidth f
  (List.range (16384 / w)).map fun k => elemVal f (v >>> (w * k))

def bufferBytes (s : State) (e num : Nat) : Nat :=
  match bufferOf s e num with
  | some b => b.bytes.toNat
  | none => 0

/-! ### BANKSUM (R256) -/

/-- One window summation in increasing k, `g` products a step: the value and the OR of the stickies. -/
def windowSum (w g : Nat) : Nat → Option Ext → Bool → List Ext → Ext × Bool
  | 0, acc, st, _ => (acc.getD (.num false 0 0), st)
  | n + 1, acc, st, l =>
    let x := wstep w (match acc with | some a => a :: l.take g | none => l.take g)
    windowSum w g n (some x.1) (st || x.2) (l.drop g)

/-- Products per step at an engine (R59). -/
def bankG (f : Fmt) : Nat := if f == .bf16 then 16 else 32

/-- The partial of segment q of row i, with its engine. -/
def partialOf (s : State) (h : Handle) (r : Record) (i q : Nat) : Nat × Ext × Bool :=
  let e := engineOf (segAddr h r i q)
  let m := elements (rMfmt r) (segRead s h r i q)
  let p := if rCmd r = 6 then m.map fun x => prodExt (rMfmt r) (rMfmt r) x (.num false 1 0)
    else List.zipWith (prodExt (rMfmt r) (rVfmt r)) m (elements (rVfmt r) (bufferBytes s e ((rBuf r + q) % 16)))
  let g := bankG (rMfmt r)
  (e, windowSum (windowOf (rWin r)) g (m.length / g) none false p)

/-- A list put in increasing order of its keys. -/
def insertKey {α : Type} (x : Nat × α) : List (Nat × α) → List (Nat × α)
  | [] => [x]
  | y :: l => if x.1 ≤ y.1 then x :: y :: l else y :: insertKey x l

def byKey {α : Type} (l : List (Nat × α)) : List (Nat × α) := l.foldr insertKey []

/-- Result element i of the partials `parts`, before its rounding, and its sticky bit; `old` is the element of t. -/
def bankSum (r : Record) (parts : List (Nat × Nat × BitVec 128 × Bool)) (old : Ext) (i : Nat) : Ext × Bool :=
  let own := byKey ((parts.filter fun p => p.1 / rSegs r == i).map (·.2))
  let terms := (if rCmd r = 3 then [old] else []) ++ own.map fun p => xaVal p.2.1
  let x := windowSum (windowOf (rWin r)) 1 terms.length none false terms
  (x.1, x.2 || own.any fun p => p.2.2)

/-- What a command leaves: the core, the results written, OVF and LS. -/
structure BankRes where
  core  : Core
  count : Nat
  ovf   : Bool
  ls    : Bool
  deriving DecidableEq, Repr

/-- GEMV, GEMV-ACC and SUM: element r of t is element r mod ELEMS of row r div ELEMS. GEMV-ACC reads the old elements,
and consumes the poison that it meets there (R255, R388). -/
def bankResults (s : State) (n : Nat) (k : Copy) (t : Fin 64) (r : Record)
    (parts : List (Nat × Nat × BitVec 128 × Bool)) : BankRes :=
  let f := tFmt k.a
  let w := fmtWidth f / 8
  let fv := freeVal s 4009 32768
  (List.range (rRows r)).foldl (fun x i =>
    let at_ := tileAddr k.a (i / tElems k.a * tP k.a + i % tElems k.a * w)
    let old := elemVal f (tileNat x.core t.val fv at_ w)
    let y := bankSum r parts old i
    let v := cvt y.1 f .rn (rSat r)
    let c := if rCmd r = 3 then consumeRead x.core at_ w else x.core
    { core := tileStore t.val fv c at_ w v.val, count := x.count + 1, ovf := x.ovf || v.left, ls := x.ls || y.2 })
    { core := coreOf s n, count := 0, ovf := false, ls := false }

/-! ### The other commands (R255, R257) -/

/-- A list of numbers without repeats. -/
def nub : List Nat → List Nat
  | [] => []
  | x :: l => if l.contains x then nub l else x :: nub l

/-- The engines that hold a segment of the command's rows. -/
def engines (h : Handle) (r : Record) : List Nat :=
  nub ((List.range (rRows r * rSegs r)).map fun j => engineOf (segAddr h r 0 j))

/-- VLD: buffer BUF of engine `e` takes the vector, and zeros after it. -/
def loadBuffer (s : State) (ctx : Fin 32) (r : Record) (vec : List Byte) (e : Nat) : State :=
  { s with buffers := (s.buffers.filter fun b => !(b.num == rBuf r && b.engine == e)) ++
      [{ engine := e, num := rBuf r, ctx := some ctx, bytes := BitVec.ofNat 16384 (ofBytes vec) }] }

/-- CVT's result is ±Inf or NaN, or was clamped to ±MAXFIN or an integer limit (R256). -/
def leavesRange (x : Ext) (f : Fmt) (v : Cvt) : Bool :=
  v.left && !(fmtInt f && (match x with | .nan _ => true | _ => false))

/-- One segment's elements after AXPY, packed, and OVF. -/
def axpySeg (s : State) (h : Handle) (r : Record) (i q : Nat) : Nat × Bool :=
  let f := rMfmt r
  let x := elements (rVfmt r) (bufferBytes s (engineOf (segAddr h r i q)) ((rBuf r + q) % 16))
  let l := List.zipWith (fun m x =>
      let y := (addExt false m (mulExt (fp (rVal r)) x).1).1
      let v := cvt y f .rn (rSat r)
      (v.val, leavesRange y f v))
    (elements f (segRead s h r i q)) x
  (packList (fmtWidth f) (l.map (·.1)), l.any (·.2))

/-- AXPY of one segment; a poisoned granule stays poisoned. -/
def axpyUnit (s : State) (h : Handle) (r : Record) (i q : Nat) : State × Bool :=
  let y := axpySeg s h r i q
  ({ s with mem := memWrite s.mem (at_ (segAddr h r i q) (toBytes 2048 y.1)) }, y.2)

/-- FILL of one segment; it clears the poison of what it overwrites: see notes/assumptions/29.md. -/
def fillUnit (s : State) (h : Handle) (r : Record) (i q : Nat) : State :=
  let w := fmtWidth (rMfmt r)
  storeBytes s none (segAddr h r i q) (toBytes 2048 (repeatBits w (rVal r).toNat (16384 / w)))

/-! ### Ends (R258, R259) -/

/-- `n` bytes at `pa` hold a poisoned granule. -/
def poisonAt (s : State) (pa n : Nat) : Bool := !(poisonedIn s.poison pa n).isEmpty

/-- The status lands, both counts fall, t becomes Ready. -/
def endBank (s : State) (n : Nat) (k : Copy) (t : Fin 64) (status : Nat) (bad : Bool) : State :=
  copyEnd (modCore s n fun c =>
    let c := landIn (setTileSt c t.val fun x => { x with st := .ready }) k.slot k.id (BitVec.ofNat 64 status)
    let c := match k.cls with | some cl => subCounts c cl 1 1 | none => c
    if bad then consume c 1 else c) n k.id

def bankStatus (ovf ls : Bool) (count : Nat) : Nat := ovf.toNat <<< 33 + ls.toNat <<< 32 + count

def bankError (code : Nat) : Nat := 2 ^ 63 + code <<< 48

/-- What a command has still to do, once its record is read: every engine of a VLD, every segment of another
command. The vector of a VLD is read with the record (R254, R260). -/
def bankStart (s : State) (k : Copy) (r : Record) : BankWork :=
  let vld := rCmd r == 1
  { record := r, left := if vld then engines k.h r else List.range (rRows r * rSegs r), parts := []
    vec := if vld then toBytes (rVlen r) (bankRead s (hBase k.h + rVoff r) (rVlen r)) else []
    ovf := false
    bad := poisonAt s (hBase k.h + k.off) 64 || (vld && poisonAt s (hBase k.h + rVoff r) (rVlen r)) }

/-- The engine of unit `j` acts, on one segment (R261). -/
def bankUnit (s : State) (ctx : Fin 32) (k : Copy) (w : BankWork) (j : Nat) : State × BankWork :=
  let r := w.record
  let i := j / rSegs r
  let q := j % rSegs r
  let w := { w with left := w.left.erase j }
  let read := w.bad || poisonAt s (segAddr k.h r i q) 2048
  match rCmd r with
  | 1 => (loadBuffer s ctx r w.vec j, w)
  | 4 =>
    let y := axpyUnit s k.h r i q
    (y.1, { w with ovf := w.ovf || y.2, bad := read })
  | 5 => (fillUnit s k.h r i q, w)
  | _ =>
    let p := partialOf s k.h r i q
    (s, { w with parts := w.parts ++ [(j, p.1, xaOf p.2.1, p.2.2)], bad := read })

/-- Every engine has acted: the results are written, and the command ends. -/
def bankFinish (s : State) (n : Nat) (k : Copy) (t : Fin 64) (w : BankWork) : State :=
  let r := w.record
  match rCmd r with
  | 1 => endBank s n k t (bankStatus false false (engines k.h r).length) w.bad
  | 4 | 5 => endBank s n k t (bankStatus w.ovf false (rRows r * rSegs r)) w.bad
  | _ =>
    let x := bankResults s n k t r w.parts
    endBank (setCore s n x.core) n k t (bankStatus x.ovf x.ls x.count) w.bad

/-- The units of a command act in no fixed order: one of those left acts, and after the last the command ends. What is one
step here is the model's choice: see notes/assumptions/29.md. -/
def bankAct (s : State) (n : Nat) (k : Copy) (t : Fin 64) (w : BankWork) : State :=
  match w.left[(freeVal s 4010 64).toNat % max 1 w.left.length]? with
  | none => bankFinish s n k t w
  | some j =>
    let x := bankUnit s (ctxOf (coreOf s n)) k w j
    if x.2.left.isEmpty then bankFinish x.1 n k t x.2
    else modCore x.1 n fun c => modCopy c k.id fun k => { k with bank := some x.2 }

/-- The record of copy `k` as one atomic read at home (R254); once read, it is kept. -/
def bankRecord (s : State) (k : Copy) : Record :=
  match k.bank with
  | some w => w.record
  | none => BitVec.ofNat 512 (bankRead s (hBase k.h + k.off) 64)

/-- Command `cmd` of copy `ref` goes on by one unit; a refused command ends with ERR whatever it names. -/
def bankEvent (cmd : Nat) (s : State) (ref : CopyRef) : State :=
  let n := agentNo ref.agent
  match refCopy s ref with
  | none => s
  | some k =>
    match k.kind with
    | .bkc t =>
      if !mayPerform s n k then s
      else if k.absent then endBank s n k t (bankError 0x06) false
      else
        let r := bankRecord s k
        let code := bankRefusal s (ctxOf (coreOf s n)) k r
        if k.bank.isNone && code != 0 then endBank s n k t (bankError code) (poisonAt s (hBase k.h + k.off) 64)
        else if rCmd r = cmd then bankAct s n k t (k.bank.getD (bankStart s k r))
        else s
    | _ => s

/-! ### Copies carried to their end (R66, R305) -/

/-- The next event of copy `k` of agent `n` that touches memory. -/
def performNext (s : State) (n : Nat) (k : Copy) : State :=
  let ref : CopyRef := { agent := agentOf n, id := k.id }
  let line (l : List (Nat × Nat)) : State := match l.find? fun x => !k.done.contains x with
    | some x => lineEvent s ref x.1 x.2
    | none => s
  match k.kind with
  | .tld _ | .tst _ => line (tileLines k)
  | .tlbk _ lines => line ((List.range lines).map fun i => (0, k.off / 128 + i))
  | .tldi bank =>
    let got := k.data.getD []
    if (expand got (copyLimit k) (protectedWord (coreOf s n) bank)).status == .more then lineEvent s ref 0 ((k.off + got.length) / 128)
    else tldiEndEvent s ref
  | .tamo _ _ _ _ => amoEvent s ref
  | .bkc _ => bankEvent (rCmd (bankRecord s k)) s ref
  | .ipatch _ _ _ => tileCopyEvent s ref
  | _ => s

/-- The copies of a frozen core that can be performed are performed. -/
def drainCopies : Nat → State → Nat → State
  | 0, s, _ => s
  | f + 1, s, n =>
    match (coreOf s n).copies.find? fun k => mayPerform s n k && performNext s n k != s with
    | some k => drainCopies f (performNext s n k) n
    | none => s

/-! ### The instructions -/

def execBkc (u : CSlot) (g : Guard) (t : Fin 64) (h cl : Fin 16) (a : Src) (s : State) : Host.Outcome State Fault Refusal := runSlot s (slotBkc u g t h cl a)
def execVld (c : CopyRef) (s : State) : Host.Outcome State Fault Refusal := .next (bankEvent 1 s c)
def execGemv (c : CopyRef) (s : State) : Host.Outcome State Fault Refusal := .next (bankEvent 2 s c)
def execGemvAcc (c : CopyRef) (s : State) : Host.Outcome State Fault Refusal := .next (bankEvent 3 s c)
def execAxpy (c : CopyRef) (s : State) : Host.Outcome State Fault Refusal := .next (bankEvent 4 s c)
def execFill (c : CopyRef) (s : State) : Host.Outcome State Fault Refusal := .next (bankEvent 5 s c)
def execSum (c : CopyRef) (s : State) : Host.Outcome State Fault Refusal := .next (bankEvent 6 s c)

end Sys2Proof.Machine
end

