-- ==== Sys2Proof/Machine/Group.lean ====
section
/-!
DEFINITION. Group.lean: kernels by number, their groups, members and capacity, and reads through a context's
pages (17_group.md R320 to R324, 21_rows.md R387).
-/
namespace Sys2Proof.Machine

/-! ### Kernels -/

def findKernel (s : State) (id : Nat) : Option Kernel := s.kernels.find? fun k => k.id == id

def modKernel (s : State) (id : Nat) (f : Kernel → Kernel) : State :=
  { s with kernels := s.kernels.map fun k => if k.id == id then f k else k }

/-- The kernel resident on core `n`. -/
def kernelAt (s : State) (n : Nat) : Option Kernel := (coreOf s n).kernel.bind (findKernel s)

/-! ### Fields of a launch record (R309) -/

def recParam (r : BitVec 1024) (i : Nat) : BitVec 64 := r.extractLsb' (512 + 64 * i) 64
def recCode (r : BitVec 1024) : Nat := fld r 511 464
def recExt (r : BitVec 1024) (k : Nat) : Nat := fld r (32 * k + 287) (32 * k + 256)
def recParts (r : BitVec 1024) (k : Nat) : Nat := fld r (16 * k + 175) (16 * k + 160)
def recPerm (r : BitVec 1024) (j : Nat) : Nat := fld r (3 * j + 144) (3 * j + 142)
def recMembers (r : BitVec 1024) : Nat := fld r 127 96
def recRows (r : BitVec 1024) : Nat := fld r 95 84
def recDims (r : BitVec 1024) : Nat := fld r 79 77
def recReplicate (r : BitVec 1024) : Bool := r.getLsbD 76
def recLock (r : BitVec 1024) : Bool := r.getLsbD 75
def recPaired (r : BitVec 1024) : Bool := r.getLsbD 74
def recChklat (r : BitVec 1024) : Bool := r.getLsbD 73
def recLevel (r : BitVec 1024) : Nat := fld r 72 70

/-! ### Groups (R320, R321) -/

/-- Cores of a group of a level on this package. -/
def groupSize (level : Nat) : Nat := match level with | 0 => 1 | 1 => 8 | 2 => 64 | _ => 256

/-- Groups of a level on this package. -/
def groupCount (level : Nat) : Nat := 256 / groupSize level

/-- The cores of group `g` of a level, in order position. -/
def groupCores (level g : Nat) : List Nat := (List.range (groupSize level)).map (groupSize level * g + ·)

/-- The chip's rank in a pod group, and its chips. -/
def rankOf (k : Kernel) : Nat := (k.launch.pod.map fun p => p.rank.toNat).getD 0
def chipsOf (k : Kernel) : Nat := if recLevel k.record = 4 then (k.launch.pod.map fun p => p.chips.toNat).getD 1 else 1

/-- The cores that run words; of a pair the leading one stands for both (R392). -/
def runnersOf (k : Kernel) : List Nat := if recPaired k.record then k.members.filter fun n => n % 2 == 0 else k.members

/-- The logical index of a runner (R321). -/
def indexOf (k : Kernel) (n : Nat) : Nat :=
  let o := 256 * (if recLevel k.record = 4 then rankOf k else 0) + (n - k.members.headD 0)
  if recPaired k.record then o / 2 else o

/-- The chip of a rank: the packet lists ranks 0 to 19, the record's PARAMS the others, as the runtime firmware
defines (R360). -/
def podChip (k : Kernel) (rank : Nat) : BitVec 16 :=
  if rank < 20 then (k.launch.pod.map fun p => p.nums.getD rank 0xFFFF).getD 0xFFFF else Config.podChip k.record rank

/-- Where the member with a logical index runs: a core of the package, or a number of `remoteDst`. -/
def memberCore (k : Kernel) (i : Nat) : Nat :=
  let o := if recPaired k.record then 2 * i else i
  if recLevel k.record = 4 && o / 256 != rankOf k then
    remoteDst (podChip k (o / 256)).toNat i
  else k.members.headD 0 + o % 256

/-- The cores of its pairs that do not run words themselves (R392). -/
def trailersOf (k : Kernel) : List Nat := if recPaired k.record then k.members.filter fun n => n % 2 == 1 else []

/-- The kernel's resident runners: those that have not exited. -/
def residents (k : Kernel) : List Nat := (runnersOf k).filter fun n => !k.exited.contains n

/-- The cores that its members still there hold. -/
def heldCores (k : Kernel) : List Nat :=
  residents k ++ (trailersOf k).filter fun n => !k.exited.contains (n - 1)

/-- A kernel holds cores: Placed, Running or Landing (R328). -/
def isPlaced (k : Kernel) : Bool :=
  match k.st with
  | .placed | .running | .landing => true
  | _ => false

/-- The member that stood on core `n` is off it: a vacant core takes no notice, counts as accepting and stays frozen (R290,
R382). -/
def isOff (s : State) (k : Kernel) (n : Nat) : Bool := (coreOf s n).kernel != some k.id

/-! ### Capacity (R324, R376, R387) -/

def capAt (s : State) (n op : Nat) : Nat := ((coreOf s n).caps.toList.getD op 0).toNat

/-- Every core of the group covers ROWS at the operating point `op` gives its die. -/
def groupCovers (s : State) (op : Nat → Nat) (rows : Nat) (cores : List Nat) : Bool :=
  cores.all fun n => rows ≤ capAt s n (op (dieOf n))

def opNow (s : State) (d : Nat) : Nat := (dieAt s d).op.val

/-- The groups of a level, lowest DOMID first. -/
def groupsOf (level : Nat) : List (List Nat) := (List.range (groupCount level)).map (groupCores level)

/-- The operating points that the permit allows; every one before it is set (R387). -/
def permitted (s : State) : List Nat :=
  (List.range 6).filter fun n => match s.permit with | some p => p.val ≤ n | none => true

/-- Some group of the level covers ROWS at the operating points in force. -/
def coveredNow (s : State) (level rows : Nat) : Bool := (groupsOf level).any (groupCovers s (opNow s) rows)

/-- Some permitted operating point lets some group of the level cover ROWS. -/
def coverable (s : State) (level rows : Nat) : Bool :=
  (permitted s).any fun n => (groupsOf level).any (groupCovers s (fun _ => n) rows)

/-- The step up that the runtime firmware requests for a head in Capacity-wait (R387): the group with the
lowest DOMID, at the highest-numbered operating point at which it covers ROWS. -/
def stepUpFor (s : State) (level rows : Nat) : Option (BitVec 64) :=
  if s.permit.isNone then none
  else
    (groupsOf level).findSome? fun g =>
      let dies := (List.range 4).filter fun d => g.any fun n => dieOf n == d
      let cur := dies.foldl (fun a d => min a (opNow s d)) 5
      (((permitted s).filter fun n => n ≤ cur && groupCovers s (fun _ => n) rows g).getLast?).map fun n =>
        BitVec.ofNat 64 ((n <<< 4) + (dies.map fun d => 2 ^ d).foldl (· + ·) 0)

/-! ### Virtual memory of a context, read at home (R264, R310, R313) -/

/-- `n` bytes at a virtual address; none where a page is not present and readable. -/
def readVirt (s : State) (ctx : Fin 32) : Nat → Nat → Nat → Option (List Byte)
  | 0, _, n => if n = 0 then some [] else none
  | f + 1, va, n =>
    if n = 0 then some []
    else if 2 ^ 48 ≤ va then none
    else
      let h := bindOf s ctx va
      let k := min n (65536 - va % 65536)
      if hPresent h && hRead h then
        (readVirt s ctx f (va + k) (n - k)).map (memRead s.mem (hBase h + (va - hVa h)) k ++ ·)
      else none

def readBytes (s : State) (ctx : Fin 32) (va n : Nat) : Option (List Byte) := readVirt s ctx (n / 65536 + 2) va n

/-- A present, readable page holds the address. -/
def readable (s : State) (ctx : Fin 32) (va : Nat) : Bool :=
  let h := bindOf s ctx va
  hPresent h && hRead h

end Sys2Proof.Machine
end

