-- ==== Sys2Proof/Machine/Horser.lean ====
section
/-!
DEFINITION. Horser.lean: what the Horser loader refuses, and the words it emits (16_kernel.md R316, R317).
-/
namespace Sys2Proof.Machine

/-! ### What the Horser loader refuses (R316, R317) -/

/-- The native slot that a Horser class decodes in. -/
def horserSlotNo (b : BitVec 32) : Option Nat :=
  match fld b 31 29 with
  | 0 => some 0 | 1 => some 1 | 2 => some 3 | 3 => some 4 | 4 => some 6 | 5 => some 7 | _ => none

def horserOp (b : BitVec 32) : Nat := fld b 28 23

/-- The opcodes of each native map (R104 to R107). -/
def assigned (k op : Nat) : Bool :=
  match k with
  | 0 => op ≤ 0x1D || (0x20 ≤ op && op ≤ 0x3E)
  | 1 => op ≤ 0x26 || (0x28 ≤ op && op ≤ 0x32)
  | 3 => op ≤ 0x07
  | 4 => op ≤ 0x14
  | 6 => op ≤ 0x0B
  | _ => op ≤ 0x03

/-- IMM-form instructions (R104). -/
def immForm (k op : Nat) : Bool := k == 0 && [0x18, 0x19, 0x2C, 0x2D, 0x2F, 0x31, 0x39, 0x3A].contains op

/-- Ring-producing instructions, whose native z is 0 (R316). -/
def horserRings (k op : Nat) : Bool :=
  match k with
  | 0 => (1 ≤ op && op ≤ 0x1D && op != 0x1B) || op == 0x2A || op == 0x3B || op == 0x3C
  | 1 => (1 ≤ op && op ≤ 0x17) || (0x20 ≤ op && op ≤ 0x23) || op == 0x25 || (0x28 ≤ op && op ≤ 0x32)
  | 3 => op == 1 || op == 4 || op == 7
  | 4 => [0x04, 0x08, 0x09, 0x0B, 0x0E, 0x11, 0x13, 0x14].contains op
  | 6 => [2, 3, 4, 8, 9, 10].contains op
  | _ => false

/-- The guard field: always, `p1`, `p2`, not `p1`. -/
def horserGuard (b : BitVec 32) : BitVec 5 :=
  match fld b 1 0 with | 0 => 0 | 1 => 0b00001#5 | 2 => 0b00010#5 | _ => 0b10001#5

/-- The native slot bits of a Horser slot (R316). -/
def horserNative (b : BitVec 32) (k : Nat) : SlotBits :=
  let op := BitVec.ofNat 6 (horserOp b)
  if k = 7 then BitVec.ofNat 32 ((horserOp b <<< 24) + 2 * fld b 22 0)
  else if horserOp b = 0x18 && k = 0 then op ++ horserGuard b ++ (b.extractLsb' 2 14).signExtend 21
  else if immForm k (horserOp b) then op ++ horserGuard b ++ b.extractLsb' 2 21
  else op ++ horserGuard b ++ b.extractLsb' 9 7 ++ b.extractLsb' 2 7 ++
    (if horserRings k (horserOp b) then 0#7 else b.extractLsb' 16 7)

/-- The slot with selectors `a` and `b` in place of those of the sources that it names. -/
def withSources (w : SlotBits) (a b : Option Nat) : SlotBits :=
  let w := match a with | some x => putFld w 20 14 x | none => w
  match b with | some x => putFld w 13 7 x | none => w

/-- The sources that the slot reads, if it decodes. -/
def sourcesOf (k : Nat) (w : SlotBits) : Option (List Src) := (decodeSlot k .none w).map srcsOf

/-- The slot decodes with the replaced selectors, and each replaced field is a source: another selector there is another
source. -/
def readsReplaced (k : Nat) (w : SlotBits) (a b : Option Nat) : Bool :=
  match sourcesOf k (withSources w a b) with
  | none => false
  | some l => (a.all fun _ => sourcesOf k (withSources w (some 0x61) b) != some l) &&
      (b.all fun _ => sourcesOf k (withSources w a (some 0x61)) != some l)

/-- Fields with which some form of an opcode decodes. -/
def probes : List Nat := [0, 0x02, 0x13, 0x60]

/-- Source A or source B is a selector in the forms of the slot's opcode, with its own other fields or others, outside class K. -/
def selectorA (k : Nat) (w : SlotBits) : Bool :=
  ((bOf w).toNat :: probes).any fun b => ((zOf w).toNat :: probes).any fun z => readsReplaced k (putFld (putFld (putFld w 25 0 0) 13 7 b) 6 0 z) (some 0x60) none
def selectorB (k : Nat) (w : SlotBits) : Bool :=
  ((aOf w).toNat :: probes).any fun a => ((zOf w).toNat :: probes).any fun z => readsReplaced k (putFld (putFld (putFld w 25 0 0) 20 14 a) 6 0 z) none (some 0x60)

/-- A selector that a Horser source may hold (R316). -/
def legalField (f : Nat) : Bool := f < 0x20 || (0x60 ≤ f && f < 0x70)

/-- An illegal selector stands in a source field, whatever else is wrong with the slot. -/
def badSelector (k : Nat) (w : SlotBits) : Bool :=
  if k = 7 then
    match fld w 29 24 with
    | 1 => !legalField (fld w 18 12)
    | 3 => !legalField (fld w 16 10)
    | _ => false
  else (!legalField (aOf w).toNat && selectorA k w) || (!legalField (bOf w).toNat && selectorB k w)

/-- Instructions the loader refuses by name, and those refused on a compute core at privilege K. -/
def horserBarred (k : Nat) (w : SlotBits) : Bool :=
  let op := (opOf w).toNat
  match k with
  | 0 => [0x19, 0x2D, 0x2E, 0x2F, 0x30, 0x31, 0x32, 0x33, 0x34, 0x35, 0x36, 0x3D, 0x3E].contains op ||
      ((op == 0x37 || op == 0x38) && aOf w == 0x19)
  | 4 => [0x08, 0x10, 0x11, 0x12, 0x13, 0x14].contains op
  | _ => false

/-- A slot of bundle `i` of `n` that the loader refuses. -/
def horserSlotBad (n i : Nat) (b : BitVec 32) : Bool :=
  match horserSlotNo b with
  | none => true
  | some k =>
    let w := horserNative b k
    !assigned k (horserOp b) || (k != 7 && horserRings k (horserOp b) && 32 ≤ fld b 22 16) || takesThird k w || horserBarred k w || badSelector k w ||
      (k == 0 && horserOp b == 0x2C &&
        (let t : Int := (i : Int) + (w.extractLsb' 0 12).toInt
         t < 0 || (n : Int) ≤ t))

/-- Branches of a bundle. -/
def horserBranches (b : BitVec 128) : Nat :=
  (List.range 4).countP fun j => fld (b.extractLsb' (32 * j) 32) 31 29 == 0 && horserOp (b.extractLsb' (32 * j) 32) == 0x2C

/-- The loader refuses the image (R317), but for the length of its translation. -/
def horserRefused (l : List (BitVec 128)) : Bool :=
  ((List.range l.length).zip l).any fun x =>
    1 < horserBranches x.2 || (List.range 4).any fun j => horserSlotBad l.length x.1 (x.2.extractLsb' (32 * j) 32)

/-! ### The translation (R316, R317)

Each bundle becomes a run of words that ends when all its effects have landed. Ring-producing instructions
leave their results in their rings, and moves carry them into the named registers. An instruction that reads
what another one writes comes before it, or stands in the same word. See notes/assumptions/8.md. -/

/-- Pieces of a core's state at which two instructions of a bundle may meet. -/
inductive Piece where
  | s (n : Fin 32)
  | v (n : Fin 32)
  | p (n : Fin 16)
  | mk (n : Fin 8)
  | t (n : Fin 64)
  | tAny
  | h (n : Fin 16)
  | mp (n : Fin 8)
  | w (n : Fin 4)
  | ctl (n : Fin 26)
  | rows
  | config
  | micro
  | pn
  deriving DecidableEq, Repr

def predPiece (n : Fin 16) : List Piece := if n = 0 then [] else [.p n]
def maskPiece (n : Fin 8) : List Piece := if n = 0 then [] else [.mk n]

/-- The scalar or vector registers among the sources, and the guard. -/
def operandPieces (vec : Bool) (i : Instr) : List Piece :=
  ((guardOf i).elim [] fun g => predPiece g.pred) ++
  (srcsOf i).filterMap fun x => match x with
    | .reg n => some (if vec then .v n else .s n)
    | _ => none

/-- What else an instruction reads: tile descriptors and handles included (R316). -/
def readPieces : Instr → List Piece
  | .pand _ _ a b | .por _ _ a b | .pxor _ _ a b | .pandn _ _ a b => predPiece a.n ++ predPiece b.n
  | .mand _ _ _ a b | .mor _ _ _ a b | .mxor _ _ _ a b | .mandn _ _ _ a b => maskPiece a.n ++ maskPiece b.n
  | .vmu _ _ _ m c => maskPiece m ++ maskPiece c
  | .ldt _ _ t _ | .vldt _ _ t _ | .vgath _ _ _ t _ | .klds _ t _ | .mlucode _ t _ _ | .mlucodeEnt _ t _ _
  | .xput _ t _ _ => [.t t, .rows]
  | .stt _ _ t _ _ | .tfill _ _ t _ _ | .mlsfT _ _ t _ => [.t t]
  | .vstt _ _ m t _ _ | .vscat _ _ m t _ _ => .t t :: if m then [.mk 7] else []
  | .vqnt .. | .vdqnt .. => [.config]
  | .mcall .. => [.rows, .tAny, .config, .micro] ++ (List.finRange 8).map .mp
  | .tld _ _ t h _ _ | .bkc _ _ t h _ _ => [.t t, .h h]
  | .tst _ _ t h _ _ => [.t t, .h h, .rows]
  | .tlbk _ _ _ h _ _ | .rdcinv _ _ h _ _ | .hstat _ _ _ h | .lnch _ h _ | .xbegin _ h _ _ => [.h h]
  | .tcpy _ _ d s => [.t d, .t s, .rows]
  | .getc _ _ n => [.ctl n]
  | .waitf .. => [.pn]
  | _ => []

/-- What an instruction writes itself, other than its ring. -/
def writePieces : Instr → List Piece
  | .mov _ (.s n) _ | .getc _ n _ => [.s n]
  | .mov _ (.walk n) _ => [.w n]
  | .cmpeq _ d _ _ | .cmpne _ d _ _ | .cmplt _ d _ _ | .cmple _ d _ _ | .cmpltu _ d _ _ | .cmpleu _ d _ _
  | .pand _ d _ _ | .por _ d _ _ | .pxor _ d _ _ | .pandn _ d _ _ | .vmu _ _ d _ _ => predPiece d
  | .vcmpF32 _ _ _ d _ _ | .vcmpI32 _ _ _ d _ _ | .mand _ _ d _ _ | .mor _ _ d _ _ | .mxor _ _ d _ _
  | .mandn _ _ d _ _ => maskPiece d
  | .vmov _ _ d _ => [.v d]
  | .tdef _ _ t _ _ => [.t t]
  | .xlat _ _ h _ | .hclr _ _ h => [.h h]
  | .mpset _ n _ => [.mp n]
  | .setc _ n _ => [.ctl n]
  | .stt .. | .vstt .. | .vscat .. | .tld .. | .tcpy .. | .tfill .. | .bkc .. | .mlsfT .. | .mcall .. => [.rows]
  | .kst .. | .kcfg .. | .klds .. => [.config]
  | .mlucode .. | .mlucodeEnt .. => [.micro]
  | _ => []

/-- What an instruction changes with no order among those that change it: a reader still comes first. -/
def touchPieces (k : Nat) : Instr → List Piece
  | .tdef .. => [.tAny]
  | .waitf .. | .hclrPn .. | .tlbk .. | .xbegin .. => [.pn]
  | _ => if k = 1 then [.ctl 0x13, .ctl 0x14, .ctl 0x15] else []

/-- Cycles until an instruction's results and writes have landed (R75 and the instructions' own rules). -/
def landingTime (k op : Nat) : Nat :=
  match k with
  | 0 => if [3, 4, 5].contains op then 3 else if 6 ≤ op && op ≤ 9 then 20 else if op == 0x2A then 6
    else if op == 0x3C then 8 else 1
  | 1 => if [3, 0x0E, 0x21, 0x22].contains op then 4 else if [8, 9, 0x25].contains op then 8
    else if [0x1E, 0x24, 0x26].contains op then 1 else if op == 0x20 then 3
    else if [0x23, 0x28, 0x29, 0x2A, 0x2B, 0x31, 0x32].contains op then 6 else if 0x2C ≤ op then 8 else 2
  | 3 => if op == 7 then 5 else 1
  | 4 => if op == 0x0D then 6 else 1
  | 6 => if op == 3 || op == 4 then 2 else 1
  | _ => if op == 3 then 6 else 3

/-- Instructions that keep the order of their slots: 1 copies, messages, waits, landings and launches (R317),
2 routines and what waits for them (R197 to R205), 0 none of these. -/
def queueOf (k op : Nat) : Nat :=
  match k with
  | 0 => if op == 0x3B then 1 else 0
  | 3 => if op == 2 then 0 else 2
  | 4 => if [1, 0x0D, 0x0E, 0x0F].contains op then 0 else 1
  | 6 => 1
  | _ => 0

/-- The cycles of an `mlucode`, which reads its tile 64 bytes a cycle from the next on (R204); a count in a register may be
any (see notes/assumptions/8.md). -/
def ucodeTime (ent : Bool) : Src → Nat
  | .small v => ((BitVec.signExtend 8 v - 8).toNat % 8 + 7) / 8 + 1
  | _ => if ent then 9 else 513

/-- Cycles until the instruction's results, writes and reads are done. -/
def timeOf (k op : Nat) : Instr → Nat
  | .mlucode _ _ _ b => ucodeTime false b
  | .mlucodeEnt _ _ _ b => ucodeTime true b
  | _ => landingTime k op

/-- One native slot of a bundle's translation. -/
structure Piecework where
  /-- Its class, as the lowest slot that decodes it. -/
  cls     : Nat
  bits    : SlotBits
  header  : SlotBits := 0
  /-- The entries of the list whose ring results its source A and its source B read. -/
  fromA   : Option Nat := none
  fromB   : Option Nat := none
  /-- An entry that comes before it. -/
  after   : Option Nat := none
  reads   : List Piece := []
  writes  : List Piece := []
  touches : List Piece := []
  time    : Nat := 1
  ring    : Bool := false
  /-- The bundle's slot it comes from. -/
  slot    : Nat
  /-- The kind of `queueOf`. -/
  queue   : Nat := 0
  /-- 0 a breakpoint, before all others, and 1 what is computed first; 3 a service request and 4 a branch, after them. -/
  rank    : Nat := 2
  deriving DecidableEq, Repr

/-- A slot in the ABZ form (R96). -/
def abzBits (op : Nat) (g : BitVec 5) (a b z : Nat) : SlotBits :=
  BitVec.ofNat 6 op ++ g ++ BitVec.ofNat 7 a ++ BitVec.ofNat 7 b ++ BitVec.ofNat 7 z

def guardPieces (w : SlotBits) : List Piece := predPiece (w.extractLsb' 21 4).toFin

/-- A pass of source field `f` to the `s` ring (R120). -/
def passOf (j f : Nat) (g : BitVec 5) (r : List Piece) : Piecework :=
  { cls := 0, bits := abzBits 0x1A g f 0 0, reads := r, ring := true, slot := j }

/-- Source fields that name a register. -/
def isReg (f : BitVec 7) : Bool := f.toNat < 32

/-- A scalar write whose source registers reach it through passes, entries `base` and on. -/
def viaPasses (base j : Nat) (w : SlotBits) (unary : Bool) (i : Instr) : List Piecework :=
  let pa := isReg (aOf w)
  let pb := !unary && isReg (bOf w)
  (if pa then [passOf j (aOf w).toNat 0 [.s (BitVec.ofNat 5 (aOf w).toNat).toFin]] else []) ++
  (if pb then [passOf j (bOf w).toNat 0 [.s (BitVec.ofNat 5 (bOf w).toNat).toFin]] else []) ++
  [{ cls := 0, bits := w, fromA := if pa then some base else none
     fromB := if pb then some (base + if pa then 1 else 0) else none
     reads := guardPieces w, writes := writePieces i, slot := j }]

/-- The move that carries a ring result into register `d` (R316). -/
def moveTo (j k d src : Nat) (after : Option Nat) (w : SlotBits) : Piecework :=
  let g := w.extractLsb' 21 5
  let r := (BitVec.ofNat 5 d).toFin
  if k = 1 then
    { cls := 1, bits := abzBits 0x1F g 0 0 d, fromA := some src, after := after, reads := guardPieces w
      writes := [.v r], time := 2, slot := j }
  else
    { cls := 0, bits := abzBits 0x1B g 0 0 d, fromA := some src, after := after, reads := guardPieces w
      writes := [.s r], slot := j }

/-- The entries of slot `j` of a bundle, entries `base` and on of the bundle's list. -/
def piecesOf (base j : Nat) (b : BitVec 32) : List Piecework :=
  match if b = 0 then none else horserSlotNo b with
  | none => []
  | some k =>
    let w := horserNative b k
    let op := horserOp b
    match decodeSlot k .none w with
    | none => [{ cls := k, bits := w, slot := j, time := landingTime k op }]
    | some i =>
      let it : Piecework :=
        { cls := k, bits := w, reads := operandPieces (k == 1) i ++ readPieces i, writes := writePieces i
          touches := touchPieces k i, time := timeOf k op i, ring := horserRings k op || (k == 7 && op != 3), slot := j
          queue := queueOf k op
          rank := match i with | .brk .. => 0 | .svc .. => 3 | .br .. => 4 | _ => 2 }
      match i with
      | .nop | .knop => []
      | .mov .. => viaPasses base j w true i
      | .cmpeq .. | .cmpne .. | .cmplt .. | .cmple .. | .cmpltu .. | .cmpleu .. => viaPasses base j w false i
      | .setc _ _ (.reg r) =>
        [passOf j r.val 0 [.s r], { it with fromB := some base, reads := guardPieces w }]
      | .vmov _ _ d (.reg r) =>
        [{ cls := 1, bits := abzBits 0x12 0 r.val 0x68 0, reads := [.v r], time := 2, ring := true, slot := j },
         moveTo j 1 d.val base none w]
      | .bkc _ _ _ _ cl _ =>
        [it,
         { cls := 4, bits := abzBits 0x0A 0 0x70 0x68 2, header := encodeHeader (.imm 4 (BitVec.ofNat 25 (2 ^ cl.val)))
           after := some base, slot := j, queue := 1 },
         moveTo j k (fld b 22 16) base (some (base + 1)) w]
      | _ => if horserRings k op && k != 7 then [it, moveTo j k (fld b 22 16) base none w] else [it]

/-- All entries of a bundle. -/
def bundlePieces (b : BitVec 128) : List Piecework :=
  (List.range 4).foldl (fun l j => l ++ piecesOf l.length j (b.extractLsb' (32 * j) 32)) []

/-! Where predicates or masks are exchanged within a bundle, what is written to them is computed first, with
`p1` as a scratch predicate, and kept in the vector rings. -/

/-- Predicate `n` as 0 or 1 in the `s` ring. -/
def selOf (j : Nat) (n : Fin 16) (inv : Bool) : Piecework :=
  { cls := 0, bits := abzBits 0x1C 0 (if inv then 0x68 else 0x69) (if inv then 0x69 else 0x68) n.val, ring := true, slot := j }

/-- Lane values 1 and 0 from mask `m`. -/
def laneOf (j : Nat) (m : MaskOp) : Piecework :=
  { cls := 1, bits := abzBits 0x17 0 (if m.inv then 0x68 else 0x69) (if m.inv then 0x69 else 0x68) (8 * m.n.val)
    reads := maskPiece m.n, time := 2, ring := true, slot := j }

/-- A result of the `s` ring, entry `i`, kept in the `va` ring. -/
def keepOf (j i : Nat) : Piecework :=
  { cls := 1, bits := abzBits 0x12 0 0 0x68 0, fromA := some i, time := 2, ring := true, slot := j }

/-- `cmpne pd` of entry `i`'s result and 0, under guard `g`. -/
def testOf (j i : Nat) (d : Fin 16) (g : BitVec 5) : Piecework :=
  { cls := 0, bits := abzBits 0x21 g 0 0x68 d.val, fromA := some i, slot := j }

/-- A bundle slot that writes a predicate: its slot bits and destination. -/
def predWriter (b : BitVec 32) : Option (SlotBits × Instr × Fin 16) :=
  (if b = 0 then none else horserSlotNo b).bind fun k =>
    (decodeSlot k .none (horserNative b k)).bind fun i =>
      match i with
      | .cmpeq _ d _ _ | .cmpne _ d _ _ | .cmplt _ d _ _ | .cmple _ d _ _ | .cmpltu _ d _ _ | .cmpleu _ d _ _
      | .pand _ d _ _ | .por _ d _ _ | .pxor _ d _ _ | .pandn _ d _ _ | .vmu _ _ d _ _ => some (horserNative b k, i, d)
      | _ => none

/-- The value a predicate's writer gives, as the last of the entries; `old` is the entry that keeps the old `p1`. -/
def predValue (base old j : Nat) (w : SlotBits) (i : Instr) : List Piecework :=
  let logic (op : Nat) (a b : PredOp) : List Piecework :=
    [selOf j a.n a.inv, selOf j b.n b.inv,
     { cls := 0, bits := abzBits op 0 0 0 0, fromA := some base, fromB := some (base + 1), ring := true, slot := j },
     keepOf j (base + 2)]
  match i with
  | .pand _ _ a b => logic 0x0A a b
  | .por _ _ a b => logic 0x0B a b
  | .pxor _ _ a b => logic 0x0C a b
  | .pandn _ _ a b => logic 0x0D a b
  | .vmu .. =>
    [{ cls := 1, bits := (w &&& ~~~(0x7F#32)) ||| 1#32, slot := j }, selOf j 1 false,
     testOf j old 1 0, keepOf j (base + 1)]
  | _ =>
    [{ cls := 0, bits := (w &&& ~~~(0x3E0007F#32)) ||| 1#32, slot := j }, selOf j 1 false,
     testOf j old 1 0, keepOf j (base + 1)]

/-- A mask's writer by way of lane values (R158). -/
def maskPieces (base j : Nat) (w : SlotBits) (op : Nat) (d : Fin 8) (a b : MaskOp) (inv : Bool) : List Piecework :=
  [laneOf j a, laneOf j { b with inv := b.inv != inv },
   { cls := 2, bits := abzBits op 0 0 0 0, fromA := some base, fromB := some (base + 1), time := 2, ring := true, slot := j },
   { cls := 1, bits := abzBits 0x19 (w.extractLsb' 21 5) 0 0x68 (8 + d.val), fromA := some (base + 2)
     reads := guardPieces w, writes := maskPiece d, time := 2, slot := j }]

/-- The new value of `p1` or `p2`, and its write: each writer of `ws` under its guard, in the order of the slots. -/
def guardUpdate (base : Nat) (d : Fin 16) (ws : List (Nat × SlotBits × Nat)) : List Piecework :=
  let both : List Piece := [.p 1, .p 2]
  { selOf 0 d false with reads := both } ::
    (((List.range ws.length).zip ws).map fun x =>
      let g := x.2.2.1.extractLsb' 21 5
      { cls := 0
        bits := abzBits 0x1C 0 0 0 (g.extractLsb' 0 4).toNat
        fromA := some (if g.getLsbD 4 then base + x.1 else x.2.2.2)
        fromB := some (if g.getLsbD 4 then x.2.2.2 else base + x.1)
        reads := both, ring := true, slot := x.2.1 : Piecework }) ++
    [{ testOf 0 (base + ws.length) d 0 with writes := [.p d] }]

/-- All entries of a bundle that exchanges predicates or masks. -/
def carefulPieces (b : BitVec 128) : List Piecework :=
  let slots := (List.range 4).map fun j => (j, b.extractLsb' (32 * j) 32)
  let keep : List Piecework := [selOf 0 1 false, keepOf 0 0]
  -- the values first, one entry after the other
  let head := slots.foldl (fun (acc : List Piecework × List (Nat × SlotBits × Fin 16 × Nat)) x =>
      match predWriter x.2 with
      | none => acc
      | some (w, i, d) =>
        let l := predValue acc.1.length 1 x.1 w i
        (acc.1 ++ l, acc.2 ++ [(x.1, w, d, acc.1.length + l.length - 1)])) (keep, [])
  let first := ((List.range head.1.length).zip head.1).map fun x =>
    { x.2 with rank := 1, after := if x.1 = 0 then none else some (x.1 - 1) }
  let rest := slots.foldl (fun l x =>
      match predWriter x.2 with
      | some _ => l
      | none =>
        match (if x.2 = 0 then none else horserSlotNo x.2).bind fun k => decodeSlot k .none (horserNative x.2 k) with
        | some (.mand _ _ d m n) => l ++ maskPieces l.length x.1 (horserNative x.2 1) 0x11 d m n false
        | some (.mor _ _ d m n) => l ++ maskPieces l.length x.1 (horserNative x.2 1) 0x12 d m n false
        | some (.mxor _ _ d m n) => l ++ maskPieces l.length x.1 (horserNative x.2 1) 0x13 d m n false
        | some (.mandn _ _ d m n) => l ++ maskPieces l.length x.1 (horserNative x.2 1) 0x11 d m n true
        | _ => l ++ piecesOf l.length x.1 x.2) first
  let tests := head.2.filterMap fun x =>
    if x.2.2.1 = 0 || x.2.2.1 = 1 || x.2.2.1 = 2 then none
    else some { testOf x.1 x.2.2.2 x.2.2.1 (x.2.1.extractLsb' 21 5) with
                  reads := guardPieces x.2.1, writes := [.p x.2.2.1] : Piecework }
  [(1 : Fin 16), 2].foldl (fun l d =>
      match (head.2.filter fun x => x.2.2.1 = d).map fun x => (x.1, x.2.1, x.2.2.2) with
      | [] => l
      | ws => l ++ guardUpdate l.length d ws) (rest ++ tests)

def meets (a b : List Piece) : Bool := a.any fun x => b.contains x

/-- The cycles that must lie between entries `i` and `j`, where `i` comes before `j` or, at 0, no later than it.
Under `bySlot` accesses to tile-store rows keep the order of their slots. -/
def gapOf (bySlot : Bool) (i j : Nat) (a b : Piecework) : Option Nat :=
  let rows := a.writes.contains .rows && b.writes.contains .rows ||
    bySlot && (a.writes.contains .rows && b.reads.contains .rows || a.reads.contains .rows && b.writes.contains .rows)
  let hit (r w : List Piece) : Bool := meets (if bySlot then r.filter (· != .rows) else r) w
  let first := hit a.reads (b.writes ++ b.touches)
  let second := hit b.reads (a.writes ++ a.touches)
  let same := meets (a.writes.filter (· != .rows)) b.writes || (rows && !first && !second)
  if b.fromA = some i || b.fromB = some i || b.after = some i then some a.time
  else if a.fromA = some j || a.fromB = some j || a.after = some j then none
  else if a.rank ≠ b.rank then
    if a.rank < b.rank then (if second then none else some 1) else if first then some 0 else none
  else if a.queue == b.queue && a.queue != 0 then
    if a.slot < b.slot then some 1 else none
  else if same && a.slot < b.slot then some (max 1 a.time)
  else if first then some (if a.reads.contains .rows && b.writes.contains .rows then a.time else 0)
  else none

/-- Where an entry stands: its place in the list, its cycle, its native slot. -/
structure Placed where
  no   : Nat
  cyc  : Nat
  slot : Nat
  deriving DecidableEq, Repr

/-- The entries that must come no later than entry `j`, with their gaps. -/
def earlier (v : Bool) (l : List Piecework) (j : Nat) : List (Nat × Nat) :=
  match l[j]? with
  | none => []
  | some b => (List.range l.length).filterMap fun i =>
    if i = j then none else (l[i]?.bind fun a => gapOf v i j a b).map fun g => (i, g)

/-- The first cycle for entry `j`, when every entry before it is placed. -/
def earliest (v : Bool) (l : List Piecework) (ps : List Placed) (now j : Nat) : Option Nat :=
  let need := earlier v l j
  if need.all fun x => ps.any fun p => p.no == x.1 then
    let t := need.foldl (fun m x => match ps.find? fun p => p.no == x.1 with | some p => max m (p.cyc + x.2) | none => m) now
    some <| if (l[j]?.map (·.rank)) = some 4 then
        ps.foldl (fun m p => max m (p.cyc + (l[p.no]?.elim 1 (·.time)) - 3)) t
      else if (l[j]?.map (·.rank)) = some 3 then ps.foldl (fun m p => max m (p.cyc + (l[p.no]?.elim 1 (·.time)))) t
      else t
  else none

/-- The entries that must stand in one word with entry `j`, or before it: `n` rounds of the closure. -/
def closure (v : Bool) (l : List Piecework) (rest : List Nat) : Nat → List Nat → List Nat
  | 0, m => m
  | n + 1, m => closure v l rest n (rest.filter fun i => m.contains i || m.any fun j => (earlier v l j).any fun x => x.1 == i)

/-- Native slots for entries in one word: one for each class, two for V and C. -/
def slotsFor (l : List Piecework) (m : List Nat) : Option (List (Nat × Nat)) :=
  m.foldl (fun acc j => acc.bind fun done =>
    l[j]?.bind fun x =>
      let free (s : Nat) : Bool := done.all fun d => d.2 != s
      if free x.cls then some (done ++ [(j, x.cls)])
      else if (x.cls == 1 || x.cls == 4) && free (x.cls + 1) then some (done ++ [(j, x.cls + 1)])
      else none) (some [])

/-- A set of entries that may share a word: each waits for no cycle of another one of the set. -/
def mayShare (v : Bool) (l : List Piecework) (m : List Nat) : Bool :=
  m.all fun j => (earlier v l j).all fun x => !m.contains x.1 || x.2 == 0

/-- Places every entry of a bundle; none where no order serves. -/
def placeAll (v : Bool) (l : List Piecework) : Nat → Nat → List Nat → List Placed → Option (List Placed)
  | _, _, [], ps => some ps
  | 0, _, _, _ => none
  | n + 1, now, rest, ps =>
    let ready := rest.filterMap fun j => (earliest v l ps now j).map fun t => (j, t)
    match ready with
    | r :: rs =>
      let best := rs.foldl (fun b x => if x.2 < b.2 then x else b) r
      placeAll v l n (best.2 + 1) (rest.filter (· != best.1))
        (ps ++ [{ no := best.1, cyc := best.2, slot := l[best.1]?.elim 0 (·.cls) }])
    | [] =>
      match rest.findSome? fun j =>
        let m := closure v l rest rest.length [j]
        if mayShare v l m then slotsFor l m else none with
      | none => none
      | some m =>
        let t := m.foldl (fun t x => (earlier v l x.1).foldl (fun t y =>
          match ps.find? fun p => p.no == y.1 with | some p => max t (p.cyc + y.2) | none => t) t) now
        placeAll v l n (t + 1) (rest.filter fun j => !m.any fun x => x.1 == j)
          (ps ++ m.map fun x => { no := x.1, cyc := t, slot := x.2 })

/-- The selector of entry `i`'s ring result, read at cycle `t` (R70); none past the eighth latch. -/
def ringField (l : List Piecework) (ps : List Placed) (t i : Nat) : Option (BitVec 7) :=
  (ps.find? fun p => p.no == i).bind fun p =>
    let n := ps.countP fun q => q.slot == p.slot && p.cyc < q.cyc && q.cyc < t && l[q.no]?.elim false (·.ring)
    if n < 8 then some (BitVec.ofNat 7 (0x20 + 8 * p.slot + n)) else none

/-- An entry's slot with its ring sources in place. -/
def settledBits (l : List Piecework) (ps : List Placed) (p : Placed) : Option (SlotBits × SlotBits) :=
  l[p.no]?.bind fun x =>
    let put (f : Option Nat) (lo : Nat) (w : SlotBits) : Option SlotBits :=
      match f with
      | none => some w
      | some i => (ringField l ps p.cyc i).map fun v =>
          let x : SlotBits := v.zeroExtend 32
          (w &&& ~~~((0x7F#32) <<< lo)) ||| (x <<< lo)
    ((put x.fromA 14 x.bits).bind (put x.fromB 7)).map fun w => (w, x.header)

/-- A bundle's words, and where its branch stands; none where no order serves. -/
def bundleWords (v : Bool) (l : List Piecework) : Option (List Word × Option Nat) :=
  (placeAll v l l.length 0 (List.range l.length) []).bind fun ps =>
    let br := (ps.find? fun p => l[p.no]?.elim false (·.rank == 4)).map (·.cyc)
    let last := ps.foldl (fun m p => max m (p.cyc + l[p.no]?.elim 1 (·.time))) 1
    let stop := br.elim last (· + 3)
    if stop < last || ps.any (fun p => stop ≤ p.cyc) then none
    else
      (ps.mapM fun p => (settledBits l ps p).map fun w => (p.cyc, slotWord p.slot w.1 ||| slotWord 7 w.2)).map fun ws =>
        ((List.range stop).map fun t => ws.foldl (fun acc x => if x.1 = t then acc ||| x.2 else acc) 0, br)

/-- Start of each bundle's words. -/
def startsOf : Nat → List Nat → List Nat
  | _, [] => []
  | n, k :: r => n :: startsOf (n + k) r

/-- The bundle a branch of bundle `i` names. -/
def branchTarget (i : Nat) (b : BitVec 128) : Nat :=
  let w := (List.range 4).findSome? fun j =>
    let x := b.extractLsb' (32 * j) 32
    if fld x 31 29 == 0 && horserOp x == 0x2C then some (horserNative x 0) else none
  (w.elim 0 fun w => (i : Int) + (w.extractLsb' 0 12).toInt).toNat

/-- The words the loader emits for a Horser image, and the first word of bundle `entry` (R317); none where
some bundle allows no order of native words. -/
def translate (bs : List (BitVec 128)) (entry : Nat) : Option (List Word × Nat) :=
  (bs.mapM fun b => (bundleWords false (bundlePieces b)).orElse fun _ => bundleWords true (carefulPieces b)).map fun ws =>
    let starts := startsOf 0 (ws.map (·.1.length))
    let at_ (i : Nat) : Nat := starts[i]?.getD 0
    (((List.range ws.length).zip (ws.zip bs)).flatMap fun x =>
      match x.2.1.2 with
      | none => x.2.1.1
      | some t =>
        let off : Int := (at_ (branchTarget x.1 x.2.2) : Int) - (at_ x.1 + t : Nat)
        ((List.range x.2.1.1.length).zip x.2.1.1).map fun y =>
          if y.1 = t then (y.2 &&& ~~~(0xFFF#256)) ||| (BitVec.ofInt 12 off).zeroExtend 256 else y.2,
     at_ entry)

end Sys2Proof.Machine
end

