-- ==== Sys2Proof/Machine/Object.lean ====
section
/-!
DEFINITION. Object.lean: the checks of a launch record and of the NDX object it names, the choice of an
image (16_kernel.md R309 to R314).
-/
namespace Sys2Proof.Machine

/-! ### The launch record (R309, R310) -/

/-- The listed numbers are 0 to n - 1 in some order. -/
def isPerm (l : List Nat) : Bool := (List.range l.length).all fun i => l.contains i

/-- EXT, PARTS and the first NDIMS positions of PERM keep the ranges of R309; R310 checks no other position. -/
def nestOk (r : BitVec 1024) : Bool :=
  let n := recDims r
  isPerm ((List.range n).map (recPerm r)) &&
  (List.range 6).all fun k =>
    (if k < n then recExt r k != 0 else recExt r k == 0) &&
      (if k < n && !recReplicate r then recParts r k != 0 else recParts r k == 0)

/-- MEMBERS is the level's size (R310). -/
def membersOk (r : BitVec 1024) (pod : Option Pod) : Bool :=
  let full := match recLevel r, pod with
    | 4, some p => if 2 ≤ p.chips.toNat && p.chips.toNat ≤ 255 then 256 * p.chips.toNat else 0
    | 4, none => 0
    | l, _ => groupSize l
  if recPaired r then full % 2 == 0 && full != 0 && recMembers r == full / 2 else full != 0 && recMembers r == full

/-- The CODE of the first failing check of R310 on a record that was read; none when it passes. -/
def recordFails (s : State) (r : BitVec 1024) (pod : Option Pod) : Option Nat :=
  if fld r 463 448 != 0 || fld r 141 128 != 0 || fld r 83 80 != 0 || fld r 69 0 != 0 || 4 < recLevel r ||
      6 < recDims r || (recDims r == 0 && !recReplicate r) || recCode r % 64 != 0 then some 0x01
  else if !nestOk r || !membersOk r pod ||
      (!recReplicate r && (((List.range (recDims r)).map (recParts r)).foldl (· * ·) 1) != recMembers r) then some 0x01
  else if (recPaired r && !s.neg.getLsbD 1) || (recChklat r && !s.neg.getLsbD 2) then some 0x02
  else none

/-! ### The NDX object (R313) -/

/-- An image entry. -/
structure Entry where
  native   : Bool
  profile  : Nat
  prio     : Nat
  offset   : Nat
  nwords   : Nat
  entry    : Nat
  req      : BitVec 64
  opt      : BitVec 64
  patches  : List (Nat × Nat)
  deriving DecidableEq, Repr

/-- A little-endian field of an object. -/
def objField (d : List Byte) (lo n : Nat) : Nat := ofBytes ((d.drop lo).take n)

/-- The patch table at an offset, as (word, pair); none for an entry with a fault. -/
def patchTable (d : List Byte) (off n nwords : Nat) : Option (List (Nat × Nat)) :=
  let l := (List.range n).map fun i => objField d (off + 2 * i) 2
  let slots := l.map fun v => (v % 2048, v / 2048 % 4)
  if l.all (fun v => v < 8192 && v % 2048 < nwords) && decide slots.Nodup then some slots else none

/-- Image entry `i`; none for one with a fault (R313). An empty patch table has its place too: see
notes/assumptions/90.md. -/
def entryAt (d : List Byte) (len i : Nat) : Option Entry :=
  let f (lo n : Nat) : Nat := objField d (64 + 64 * i + lo) n
  let native := f 0 1 == 1
  let unit := if native then 32 else 16
  let nw := f 8 4
  let np := f 14 2
  if (f 0 1 != 1 && f 0 1 != 2) || (if native then f 1 1 != 1 && f 1 1 != 2 else f 1 1 != 0) || f 3 1 != 0 ||
      f 4 4 % unit != 0 || nw == 0 || (if native then 2048 else 4096) < nw || nw ≤ f 12 2 ||
      (if native then 64 else 0) < np || f 32 4 % 2 != 0 || f 36 28 != 0 ||
      len < f 4 4 + unit * nw || len < f 32 4 + 2 * np then none
  else
    (patchTable d (f 32 4) np nw).map fun p =>
      { native := native, profile := f 1 1, prio := f 2 1, offset := f 4 4, nwords := nw, entry := f 12 2
        req := BitVec.ofNat 64 (f 16 8), opt := BitVec.ofNat 64 (f 24 8), patches := p }

/-- The entries of an object whose LEN bytes are `d`; none where it is malformed. -/
def entriesOf (d : List Byte) : Option (List Entry) :=
  let nimg := objField d 6 2
  if objField d 0 4 != 0x0158444E || objField d 4 2 != 1 || nimg == 0 || 16 < nimg || objField d 16 48 != 0 ||
      d.length < 64 + 64 * nimg || objField d 12 4 != crc32c (d.drop 64) then none
  else (List.range nimg).mapM (entryAt d d.length)

/-- The best of the native entries of a profile (R314). -/
def bestNative (l : List Entry) (profile : Nat) : Option Entry :=
  (l.filter fun e => e.native && e.profile == profile).foldl
    (fun b e => match b with | none => some e | some x => if x.prio < e.prio then some e else b) none

/-- SELECT of R314. -/
def selectImage (neg : BitVec 64) (l : List Entry) : Option Entry :=
  let e := l.filter fun e => e.req &&& ~~~neg == 0
  match bestNative e 2 with
  | some x => some x
  | none =>
    match (if neg.getLsbD 3 then bestNative e 1 else none) with
    | some x => some x
    | none => e.find? fun x => !x.native

/-- Native words from bytes. -/
def wordsOf (d : List Byte) (off n : Nat) : List Word :=
  (List.range n).map fun i => BitVec.ofNat 256 (objField d (off + 32 * i) 32)

def bundlesOf (d : List Byte) (off n : Nat) : List (BitVec 128) :=
  (List.range n).map fun i => BitVec.ofNat 128 (objField d (off + 16 * i) 16)

/-! ### The chosen image -/

/-- What placement loads: words, entry word, profile, REQ OR OPT, patch slots (R311). -/
structure Image where
  code    : List Word
  entry   : Nat
  profile : BitVec 2
  mask    : BitVec 64
  patches : List (Nat × Nat)
  deriving DecidableEq, Repr

/-- The image of an entry of the object `d`. A Horser image is translated; where a bundle allows no order of
native words, the words are drawn by `key`: see notes/assumptions/8.md. -/
def imageOfEntry (key : Nat) (d : List Byte) (e : Entry) : Option Image :=
  if e.native then
    some { code := wordsOf d e.offset e.nwords, entry := e.entry, profile := BitVec.ofNat 2 e.profile
           mask := e.req ||| e.opt, patches := e.patches }
  else
    let b := bundlesOf d e.offset e.nwords
    let t := (translate b e.entry).getD (Config.horserWords key, Config.horserEntry key)
    if horserRefused b || 2048 < t.1.length || t.1.length ≤ t.2 then none
    else some { code := t.1, entry := t.2, profile := 2, mask := e.req ||| e.opt, patches := [] }

/-- The image that a record's object gives, or the CODE of the kernel's Faulted end (R310, R313, R314). -/
def chooseImage (s : State) (ctx : Fin 32) (r : BitVec 1024) : Except Nat Image :=
  match readBytes s ctx (recCode r) 64 with
  | none => .error 0x09
  | some hd =>
    if objField hd 0 4 != 0x0158444E then .error 0x01
    else
      match readBytes s ctx (recCode r) (max 64 (objField hd 8 4)) with
      | none => .error 0x09
      | some d =>
        if objField hd 8 4 < 64 then .error 0x01
        else
          match entriesOf d with
          | none => .error 0x01
          | some l =>
            match selectImage s.neg l with
            | none => .error 0x02
            | some e =>
              match imageOfEntry (s.fresh * 2 ^ 64 + 2 ^ 63 + s.nextKernel) d e with
              | none => .error 0x01
              | some i => .ok i

/-- The record of a launch and its image, read when it first becomes its queue's head (R310). -/
def readRecord (s : State) (ctx : Fin 32) (l : Launch) : Except Nat (BitVec 1024 × Image) :=
  let va := fld l.desc 47 0
  match readBytes s ctx va 64, readBytes s ctx (va + 64) 64 with
  | some lo, some hi =>
    let r := BitVec.ofNat 1024 (ofBytes (lo ++ hi))
    if !readable s ctx (recCode r) then .error 0x09
    else
      match recordFails s r l.pod with
      | some c => .error c
      | none =>
        match chooseImage s ctx r with
        | .error c => .error c
        | .ok i => .ok (r, i)
  | _, _ => .error 0x09

end Sys2Proof.Machine
end

