-- ==== Sys2Proof/Machine/Kernel.lean ====
section
/-!
DEFINITION. Kernel.lean: a kernel's placement, loading and start, and its end: the steps of R303
(15_queue.md R303, 16_kernel.md R308, R311, 17_group.md R322 to R329).
-/
namespace Sys2Proof.Machine

/-! ### Queues by number -/

def queueAt (s : State) (i : Nat) : Option Queue := (s.queues.toList.getD i none)

def setQueue (s : State) (i : Nat) (q : Queue) : State := { s with queues := s.queues.setIfInBounds i (some q) }

def modQueue (s : State) (i : Nat) (f : Queue → Queue) : State :=
  match queueAt s i with
  | some q => setQueue s i (f q)
  | none => s

/-- The device index of a context's queue. -/
def queueIndex (s : State) (ctx : Fin 32) (num : Nat) : Option Nat :=
  (List.range 256).find? fun i => match queueAt s i with
    | some q => q.ctx == ctx && q.num.val == num
    | none => false

def ctxAt (s : State) (x : Fin 32) : Context := s.contexts[x]

def modCtx (s : State) (x : Fin 32) (f : Context → Context) : State :=
  { s with contexts := s.contexts.set x (f s.contexts[x]) }

/-! ### Fields of a launch descriptor (R300, R301) -/

def descRec (d : BitVec 512) : Nat := fld d 47 0
def descCw (d : BitVec 512) : Nat := fld d 111 64
def descQueue (d : BitVec 512) : Nat := fld d 131 128
def descUrgent (d : BitVec 512) : Bool := d.getLsbD 132
def descPnen (d : BitVec 512) : Bool := d.getLsbD 133
def descPn (d : BitVec 512) : Nat := fld d 139 134

/-- The dependences in force. -/
def descDeps (d : BitVec 512) : List (BitVec 64) :=
  ((List.range 4).map fun i => d.extractLsb' (256 + 64 * i) 64).filter fun x => x.getLsbD 63

/-! ### The end of a launch (R303) -/

/-- The completion word. -/
def completionWord (outcome code : Nat) (seq : BitVec 32) : BitVec 64 :=
  BitVec.ofNat 64 (outcome + (code <<< 8) + (seq.toNat <<< 32))

/-- Some pending launch of the context depends on launch `seq` of queue `num`. -/
def isNeeded (s : State) (ctx : Fin 32) (num : Fin 16) (seq : BitVec 32) : Bool :=
  s.queues.toList.any fun o => o.any fun q => q.ctx == ctx && q.pending.any fun l =>
    (descDeps l.desc).any fun d => fld d 35 32 == num.val && fld d 31 0 == seq.toNat

/-- The outcomes that a queue goes on holding: its last 256, and those that a dependence is still to be judged by. -/
def keepOutcomes (s : State) (q : Queue) : Queue :=
  { q with outcomes := q.outcomes.filter fun o => q.nextSeq.toNat ≤ o.1.toNat + 256 || isNeeded s q.ctx q.num o.1 }

/-- The state in which a kernel ends, by its outcome (R308). -/
def endState (outcome : Nat) : KernelSt :=
  match outcome with
  | 1 => .done
  | 3 => .faulted
  | _ => .aborted

/-- The completion word is written at its home; in a page table, which the context's level may not write, it is not
(R303, R8). See notes/assumptions/83.md. -/
def writeCompletion (s : State) (ctx : Fin 32) (l : Launch) (w : BitVec 64) : State :=
  let cw := descCw l.desc
  let h := bindOf s ctx cw
  let pa := hBase h + (cw - hVa h)
  if cw != 0 && hPresent h && !inTables s pa 8 then storeBytes (unreplicate s (hBase h)) none pa (toBytes 8 w.toNat) else s

/-- Steps 2 to 4 of R303, and the outcome its queue holds (R301); `placed` tells whether it was ever placed. -/
def endLaunch (s : State) (qi : Nat) (l : Launch) (outcome code : Nat) (placed : Bool) : State :=
  match queueAt s qi with
  | none => s
  | some q =>
    let s := writeCompletion s q.ctx l (completionWord outcome code l.seq)
    let s := match l.issuer with
      | some (n, k) =>
        if descPnen l.desc && (coreOf s n).kernel == some k then
          modCore s n fun c => { c with pn := putFld c.pn (descPn l.desc) (descPn l.desc) 1 }
        else s
      | none => report s (.report l.src l.tag 4 (BitVec.ofNat 8 code) q.ctx q.num l.seq (BitVec.ofNat 128 outcome))
    setQueue { s with reserved := s.reserved.filter fun r => !(r.1 == qi && r.2.1 == l.seq) }
      qi (keepOutcomes s { q with
        pending := q.pending.filter fun p => p.seq != l.seq
        outcomes := q.outcomes ++ [(l.seq, BitVec.ofNat 3 outcome)]
        ends := q.ends ++ [(l.seq, endState outcome, placed)] })

/-- A pending launch ends; its kernel, if its record was read, ends with it (R308). -/
def endPending (s : State) (qi : Nat) (l : Launch) (outcome code : Nat) : State :=
  let was := (l.kernel.bind (findKernel s)).any (·.saved)
  let s := match l.kernel with
    | some id => { s with kernels := s.kernels.filter fun k => k.id != id }
    | none => s
  endLaunch s qi l outcome code was

/-! ### Stopping a core for good (R305, R308, R312) -/

/-- Core `n` issues nothing more; once its copies are performed it becomes vacant. One that has not been loaded yet is
vacant at once, its trailing core with it. -/
def stopCore (s : State) (n : Nat) : State :=
  match (coreOf s n).run with
  | .exiting => s
  | .vacant => vacateCore s n
  | _ => dropRecords (withdrawArrival (freeze s n .exiting) n) n

/-- The residency report (R304, R359). It holds T0 where it is fixed, else a free value: see notes/assumptions/34.md. -/
def placedReport (s : State) (k : Kernel) : State :=
  match k.launch.issuer, queueAt s k.queue with
  | none, some q =>
    let more := recLevel k.record + (k.domid.toNat <<< 8) + ((opNow s (dieOf (k.members.headD 0))) <<< 24) +
      (recRows k.record <<< 32) + ((k.t0.getD (freeVal s 4026 64).toNat) <<< 64)
    report s (.report k.launch.src k.launch.tag 3 0 k.ctx q.num k.launch.seq (BitVec.ofNat 128 more))
  | _, _ => s

/-- The Placed report waits for T0: a lock-step pod group's names the tick it used (R326, R329). -/
def reportsT0 (k : Kernel) : Bool := recLock k.record && recLevel k.record == 4

/-- The kernel begins to end: its cores stop, and the launch ends when they are vacant; a Placed report not sent yet is
sent first. The core that `keep` names stays frozen with its record (R279). -/
def endKernel (s : State) (id : Nat) (st : KernelSt) (code : Nat) (keep : Option Nat) : State :=
  match findKernel s id with
  | none => s
  | some k =>
    if !isPlaced k then s
    else
      let s := if k.group == .held && reportsT0 k then placedReport s k else s
      let s := { modKernel s id fun k => { k with st := st, code_ := BitVec.ofNat 8 code, group := .vacating } with
        landings := s.landings.filter fun l => l.kernel != id
        runs := s.runs.filter fun r => r.kernel != id }
      (residents k).foldl (fun s n => if keep == some n then s else stopCore s n) s

/-- The outcome of an ended kernel (R303). -/
def outcomeOf : KernelSt → Nat
  | .done => 1
  | .aborted => 2
  | _ => 3

/-- Every core of an ending kernel is vacant: the group is free, the launch ends. -/
def finishKernel (s : State) (k : Kernel) : State :=
  let s := { s with kernels := s.kernels.filter fun x => x.id != k.id }
  let last := !s.kernels.any fun x => x.ctx == k.ctx && isPlaced x
  let s := modCtx s k.ctx fun c => { c with
    st := match c.st with
      | .running => if last then .ready else .running
      | .faulted => if k.st == .faulted then .ready else .faulted
      | st => st }
  endLaunch s k.queue k.launch (outcomeOf k.st) k.code_.toNat true

/-- The kernel is ending and no core of it is left. -/
def canFinish (s : State) (k : Kernel) : Bool :=
  k.group == .vacating && (match k.st with | .done | .aborted | .faulted => true | _ => false) &&
    (residents k).all fun n => (coreOf s n).kernel != some k.id

/-! ### Placement (R311, R322 to R325) -/

/-- SLICE of R311: base and extent of each dimension for logical index i. -/
def sliceGo (r : BitVec 1024) : Nat → Nat → List (Nat × Nat × Nat) → List (Nat × Nat × Nat)
  | 0, _, acc => acc
  | j + 1, x, acc =>
    let k := recPerm r j
    let p := max 1 (recParts r k)
    let e := recExt r k
    let b := x % p * e / p
    sliceGo r j (x / p) ((k, b, (x % p + 1) * e / p - b) :: acc)

def sliceOf (r : BitVec 1024) (i k : Nat) : BitVec 64 × BitVec 64 :=
  if recDims r ≤ k then (0, 1)
  else if recReplicate r then (0, BitVec.ofNat 64 (recExt r k))
  else
    match (sliceGo r (recDims r) i []).find? fun x => x.1 == k with
    | some (_, b, e) => (BitVec.ofNat 64 b, BitVec.ofNat 64 e)
    | none => (0, 1)

/-- DOMAIN (R84). -/
def domainOf (k : Kernel) : BitVec 64 :=
  BitVec.ofNat 64 ((k.domid.toNat <<< 24) + ((recMembers k.record % 65536) <<< 8) + ((recLock k.record).toNat <<< 3) + recLevel k.record)

/-- What a core keeps through a placement: it is the silicon's, not the kernel's. -/
def freshCore (c : Core) : Core :=
  { Core.zero with next := c.next, rowCls := c.rowCls, caps := c.caps, nextId := c.nextId, prog := c.prog, waited := true }

/-- The core as placement leaves it for member i of kernel `k` (R311); what has become pending meanwhile stays so (R293,
R382). -/
def loadCore (s : State) (k : Kernel) (n : Nat) (c : Core) : Core :=
  let i := indexOf k n
  { freshCore c with
    run := .loaded, pc := BitVec.ofNat 12 k.entry
    s := Vector.ofFn fun j => if 24 ≤ j.val then recParam k.record (j.val - 24) else 0
    istore := spOf 2048 fun w => (k.code.getD w 0), protect := k.code.length, patches := k.patches
    coreIdx := BitVec.ofNat 32 i, domain := domainOf k
    sbase := Vector.ofFn fun d => (sliceOf k.record i d.val).1
    sext := Vector.ofFn fun d => (sliceOf k.record i d.val).2
    feat := s.neg &&& k.mask, profile := k.profile, chklat := recChklat k.record, causes := c.causes
    ctx := some k.ctx, kernel := some k.id }

/-- The core issues its first word in the first cycle that begins at or after time `t`. -/
def startCore (s : State) (n t : Nat) : State :=
  let p := periodOf s n
  modCore s n fun c => { c with run := .running, next := boundaryAt t p }

/-- A kernel that is placed runs; it is in Landing where a member has come to a landing already (R308). -/
def startedSt (s : State) (id : Nat) : KernelSt := if s.landings.any fun l => l.kernel == id then .landing else .running

/-- Every member is loaded: without lock-step the group runs; with it T0 is fixed (R325, R329). -/
def allLoaded (s : State) (k : Kernel) : State :=
  if !(residents k).all fun n => k.loaded.contains n then s
  else if recLock k.record then
    let t0 := max ((tickOf s / 10 + 1) * 10) (if recLevel k.record = 4 then (k.launch.pod.map fun p => p.t0.toNat).getD 0 else 0)
    let s := modKernel s k.id fun k => { k with group := .starting, t0 := some t0 }
    if reportsT0 k then placedReport s { k with t0 := some t0 } else s
  else modKernel s k.id fun x => { x with group := .running, st := startedSt s k.id, saved := false }

/-- The loading of member `n` is complete (R311). -/
def memberLoadedEvent (s : State) (id n : Nat) : State :=
  match findKernel s id with
  | none => s
  | some k =>
    if k.group != .held || k.saved || !(residents k).contains n || k.loaded.contains n then s
    else
      let s := modCore s n (loadCore s k n)
      let s := if recLock k.record then s else startCore s n s.now
      let s := modKernel s id fun k => { k with loaded := k.loaded ++ [n] }
      allLoaded s { k with loaded := k.loaded ++ [n] }

/-- Tick T0 begins: all members issue ENTRY, or the word at which the handler has thawed a member restored after
pre-emption; one thawed later goes on then (R325, R329). -/
def t0Event (s : State) (id : Nat) : State :=
  match findKernel s id with
  | none => s
  | some k =>
    match k.t0 with
    | some t =>
      if k.group != .starting || tickOf s < t then s
      else
        let ready (n : Nat) : Bool := !k.saved || ((coreOf s n).run == .resuming && (coreOf s n).copies.isEmpty)
        let s := ((residents k).filter ready).foldl (fun s n => startCore s n (252 * t)) s
        modKernel s id fun x => { x with group := .running, st := startedSt s id, saved := false }
    | none => s

/-- A vacant core now holds a restored member (R297, R322): what it will read of its group. -/
def reserveCore (k : Kernel) (n : Nat) (c : Core) : Core :=
  { freshCore c with
    coreIdx := BitVec.ofNat 32 (indexOf k n), domain := domainOf k, ctx := some k.ctx, kernel := some k.id
    run := if (trailersOf k).contains n then .trailing else .vacant
    protect := k.code.length, patches := k.patches }

/-- A core takes member `n`'s place: members that stood at a position of `old` stand at the same position of
`new`. -/
def moveMember (old new : List Nat) (n : Nat) : Nat :=
  match (old.zip new).find? fun x => x.1 == n with
  | some x => x.2
  | none => n

/-- Kernel `k`, head of queue `qi` at level `l`, is placed on the cores of group `g` (R311, R329). A Ready context is
Running once the runtime firmware says so (R279). -/
def placeOn (s : State) (qi l : Nat) (k : Kernel) (g : Nat) (cores : List Nat) : State :=
  let mv := moveMember k.members cores
  let domid := match recLevel k.record, k.launch.pod with
    | 4, some p => p.domid
    | _, _ => BitVec.ofNat 16 g
  let k' := { k with st := .placed, group := .held, domid := domid, members := cores, loaded := [], eff := l
                     preempt := false, captured := [], exited := k.exited.map mv, t0 := none }
  let s := modKernel s k.id fun _ => k'
  let ls := s.landings.map fun x =>
    if x.kernel == k.id then { x with arrived := x.arrived.map fun a => (mv a.1, a.2) } else x
  let rs := s.runs.map fun x =>
    if x.kernel == k.id then { x with joined := x.joined.map fun a => (mv a.1, a.2) } else x
  let fs := s.flights.map fun x => if x.kernel == some k.id then { x with src := mv x.src, dst := mv x.dst } else x
  let ps := s.patching.map fun x => if x.kernel == k.id then { x with left := x.left.map mv } else x
  let s := { s with landings := ls, runs := rs, flights := fs, patching := ps
                    reserved := s.reserved.filter fun r => !(r.1 == qi && r.2.1 == k.launch.seq) }
  let s := (heldCores k').foldl (fun s n => modCore s n (reserveCore k' n)) s
  let s := modQueue s qi fun q => { q with pending := q.pending.filter fun p => p.seq != k.launch.seq }
  let s := modCtx s k.ctx fun c => { c with
    st := if c.st == .preempted then .running else c.st
    decls := c.decls.filter fun d => !(match queueAt s qi with
      | some q => fld d 35 32 == q.num.val && fld d 31 0 == k.launch.seq.toNat
      | none => false) }
  if reportsT0 k then s else placedReport s k'

/-- `crest` has restored member `n` of its kernel. -/
def memberRestored (s : State) (n : Nat) : State :=
  match kernelAt s n with
  | none => s
  | some k =>
    if k.group != .held || !k.saved || k.loaded.contains n then s
    else allLoaded (modKernel s k.id fun k => { k with loaded := k.loaded ++ [n] }) { k with loaded := k.loaded ++ [n] }

/-- A launch takes its place among pending ones, in sequence order (R294, R297). -/
def insertLaunch (l : Launch) : List Launch → List Launch
  | [] => [l]
  | x :: r => if l.seq ≤ x.seq then l :: x :: r else x :: insertLaunch l r

/-- A member of kernel `id` has left its core, saved by `csave` or by its exit: once every member that has not exited is
saved the kernel is Queued again (R293, R297, R308, R329). -/
def memberSaved (s : State) (id : Nat) : State :=
  match findKernel s id with
  | none => s
  | some k =>
    if !isPlaced k || !k.captured.isEmpty || (residents k).isEmpty || (residents k).any (fun n => (coreOf s n).kernel == some id) then s
    else
      let s := modKernel s id fun k => { k with st := .queued, group := .free, saved := true, preempt := false, loaded := [] }
      modQueue s k.queue fun q => { q with pending := insertLaunch { k.launch with kernel := some id } q.pending }

/-- Some kernel of the context is placed. -/
def anyPlaced (s : State) (ctx : Fin 32) : Bool := s.kernels.any fun x => x.ctx == ctx && isPlaced x

/-- A kernel of a Ready context is placed: event 3 of R279 may be asked for. -/
def placedReady (s : State) (ctx : Fin 32) : Bool := (ctxAt s ctx).st == .ready && anyPlaced s ctx

/-- Every image of a Draining context is saved: nothing of it is placed (R279). -/
def allSaved (s : State) (ctx : Fin 32) : Bool := (ctxAt s ctx).st == .draining && !anyPlaced s ctx

/-- A core whose copies are all performed leaves (R312): the member has exited. -/
def coreLeaves (s : State) (n : Nat) : State :=
  let k := (coreOf s n).kernel
  let s := vacateCore s n
  match k with
  | none => s
  | some id =>
    memberSaved (modKernel s id fun k => { k with exited := if k.exited.contains n then k.exited else k.exited ++ [n] }) id

end Sys2Proof.Machine
end

