-- ==== Sys2Proof/Machine/Queue.lean ====
section
/-!
DEFINITION. Queue.lean: the acceptance of launches, dependences, the heads of queues, CHOOSE and
pre-emption, the requests on queues, and `svc`, `lnch`, `qstat` (15_queue.md R294 to R307, 16_kernel.md
R312, 17_group.md R323 to R328, 21_rows.md R385).
-/
namespace Sys2Proof.Machine

/-! ### Dependences and suppliers (R301, R328) -/

/-- The kernel of launch `seq` of queue `qi`. -/
def launchKernel (s : State) (qi : Nat) (seq : BitVec 32) : Option Kernel :=
  s.kernels.find? fun k => k.queue == qi && k.launch.seq == seq

/-- The launch has not ended. -/
def isLive (s : State) (qi : Nat) (seq : BitVec 32) : Bool :=
  (launchKernel s qi seq).isSome ||
    (match queueAt s qi with
     | some q => q.pending.any fun l => l.seq == seq
     | none => false)

def outcomeAt (q : Queue) (seq : BitVec 32) : Option (BitVec 3) := (q.outcomes.find? fun o => o.1 == seq).map (·.2)

/-- The outcome as the queue shows it: of its last 256 sequence numbers. -/
def shownOutcome (q : Queue) (seq : BitVec 32) : Option (BitVec 3) :=
  if q.nextSeq.toNat ≤ seq.toNat + 256 then outcomeAt q seq else none

/-- How a dependence stands. -/
inductive DepSt where
  | unresolved | satisfied | failed
  deriving DecidableEq, Repr

def depSt (s : State) (ctx : Fin 32) (d : BitVec 64) : DepSt :=
  let seq : BitVec 32 := d.setWidth 32
  match queueIndex s ctx (fld d 35 32) with
  | none => .satisfied
  | some qi =>
    if isLive s qi seq then .unresolved
    else
      match (queueAt s qi).bind fun q => outcomeAt q seq with
      | none => .satisfied
      | some o => if o = 1 || d.getLsbD 62 then .satisfied else .failed

/-- The suppliers declared for launch `seq` of a queue, as (device index, SEQ). -/
def suppliers (s : State) (q : Queue) (seq : BitVec 32) : List (Nat × BitVec 32) :=
  ((ctxAt s q.ctx).decls.filter fun d => fld d 35 32 == q.num.val && fld d 31 0 == seq.toNat).filterMap fun d =>
    (queueIndex s q.ctx (fld d 99 96)).map fun qi => (qi, d.extractLsb' 64 32)

/-- Dependences unresolved, or a supplier not resident, hold the launch back. -/
def isHeld (s : State) (q : Queue) (l : Launch) : Bool :=
  ((descDeps l.desc).any fun d => depSt s q.ctx d == .unresolved) ||
    (suppliers s q l.seq).any fun x => !((launchKernel s x.1 x.2).any isPlaced)

/-- The launch ends Cancelled: a dependence failed, or a supplier ended before it was placed. -/
def isCancelled (s : State) (q : Queue) (l : Launch) : Bool :=
  ((descDeps l.desc).any fun d => depSt s q.ctx d == .failed) ||
    (suppliers s q l.seq).any fun x => !isLive s x.1 x.2

/-! ### The review of the queues after an event (R296, R308, R310, R387) -/

/-- Every queue, by device index. -/
def allQueues (s : State) : List (Nat × Queue) :=
  (List.range 256).filterMap fun i => (queueAt s i).map fun q => (i, q)

def headKernel (s : State) (q : Queue) : Option Kernel := q.pending.head?.bind fun l => l.kernel.bind (findKernel s)

/-- The record of the head is read; its kernel comes to be, or the launch ends Faulted (R310). -/
def readHead (s : State) (qi : Nat) (q : Queue) (l : Launch) : State :=
  match readRecord s q.ctx l with
  | .error c => endPending s qi l 3 c
  | .ok (r, i) =>
    let id := s.nextKernel
    let l' := { l with kernel := some id }
    let k : Kernel :=
      { id := id, ctx := q.ctx, queue := qi, launch := l', st := .queued, record := r, code := i.code
        entry := i.entry, profile := i.profile, mask := i.mask, patches := i.patches, saved := false
        code_ := 0, eff := 0, preempt := false, domid := 0, group := .free, members := [], loaded := []
        exited := [], t0 := none, answers := [], captured := [] }
    setQueue { s with kernels := s.kernels ++ [k], nextKernel := id + 1 } qi
      { q with pending := q.pending.map fun p => if p.seq == l.seq then l' else p }

/-- One change that the review makes, if any is due. -/
def reviewStep (s : State) : Option State :=
  let qs := allQueues s
  match qs.findSome? fun x => (x.2.pending.find? (isCancelled s x.2)).map fun l => endPending s x.1 l 4 0 with
  | some s' => some s'
  | none =>
    match qs.findSome? fun x => x.2.pending.head?.bind fun l => if l.kernel.isNone then some (readHead s x.1 x.2 l) else none with
    | some s' => some s'
    | none =>
      qs.findSome? fun x => x.2.pending.head?.bind fun l => (headKernel s x.2).bind fun k =>
        if coverable s (recLevel k.record) (recRows k.record) then none else some (endPending s x.1 l 5 0x0A)

def reviewGo : Nat → State → State
  | 0, s => s
  | n + 1, s =>
    match reviewStep s with
    | some s' => reviewGo n s'
    | none => s

/-- The states that follow from what is so: of kernels not placed, of queues, of contexts. A Ready context with a kernel
placed counts as Running: see notes/assumptions/92.md. -/
def kernelStNow (s : State) (k : Kernel) : KernelSt :=
  match k.st with
  | .queued | .waiting | .capWait =>
    match queueAt s k.queue with
    | some q =>
      if isHeld s q k.launch then .waiting
      else if coveredNow s (recLevel k.record) (recRows k.record) then .queued else .capWait
    | none => k.st
  | st => st

def queueStNow (s : State) (q : Queue) : QueueSt :=
  match q.st with
  | .suspended | .torn => q.st
  | _ =>
    if q.pending.isEmpty then .empty
    else
      match headKernel s q with
      | some k => if k.st == .queued then .active else .blocked
      | none => .blocked

def ctxStNow (s : State) (x : Nat) (c : Context) : CtxSt :=
  let placed := s.kernels.filter fun k => k.ctx.val == x && isPlaced k
  if (c.st == .running || c.st == .ready) && !placed.isEmpty && placed.all (·.preempt) then .draining else c.st

def refreshKernels (s : State) : State :=
  let l := s.kernels.map fun k => { k with st := kernelStNow s k }
  { s with kernels := l }

def refreshQueues (s : State) : State :=
  let l : Vector (Option Queue) 256 := s.queues.map fun o => o.map fun (q : Queue) => { q with st := queueStNow s q }
  { s with queues := l }

def refreshContexts (s : State) : State :=
  let l : Vector Context 32 := Vector.ofFn fun x => let c := s.contexts[x]; { c with st := ctxStNow s x.val c }
  { s with contexts := l }

def refresh (s : State) : State := refreshContexts (refreshQueues (refreshKernels s))

/-- What follows every event of the scheduler order (R295). -/
def afterEvent (s : State) : State := refresh (reviewGo 20000 s)

/-! ### Acceptance (R302) -/

/-- A dependence that names a launch not yet accepted, or one whose outcome is no longer held. -/
def depUnknown (s : State) (ctx : Fin 32) (d : BitVec 64) : Bool :=
  let seq : BitVec 32 := d.setWidth 32
  match queueIndex s ctx (fld d 35 32) with
  | none => true
  | some qi =>
    match queueAt s qi with
    | none => true
    | some q => seq = 0 || q.nextSeq ≤ seq || (!isLive s qi seq && (shownOutcome q seq).isNone)

/-- The pending launches of a queue: those not yet placed (R294). One whose kernel was placed and pre-empted stands at the
queue's head again (R297) and is not among them: see notes/assumptions/82.md. -/
def pendingOf (s : State) (q : Queue) : Nat := q.pending.countP fun l => !(l.kernel.bind (findKernel s)).any (·.saved)

/-- The code of R302 for a launch; 0 when it is accepted. -/
def acceptCode (s : State) (ctx : Fin 32) (d : BitVec 512) (reserved : Bool) : Nat :=
  let q := (queueIndex s ctx (descQueue d)).bind (queueAt s)
  if reserved || fld d 255 140 != 0 || fld d 127 112 != 0 || fld d 63 48 != 0 ||
      ((List.range 4).any fun i => fld d (317 + 64 * i) (292 + 64 * i) != 0) ||
      descRec d % 64 != 0 || descCw d % 8 != 0 then 0x01
  else
    match q with
    | none => 0x02
    | some q =>
      if q.st == .torn then 0x02
      else if 64 ≤ pendingOf s q then 0x03
      else if (descDeps d).any (depUnknown s ctx) then 0x04
      else if !readable s ctx (descRec d) || (descCw d != 0 && !readable s ctx (descCw d)) then 0x05
      else 0

/-- A launch arrives: it joins its queue with the next sequence number, or is refused. The answer is its
code and sequence number. -/
def arrive (s : State) (ctx : Fin 32) (d : BitVec 512) (src tag : BitVec 16) (pod : Option Pod)
    (issuer : Option (Nat × Nat)) (reserved : Bool) : State × Nat × BitVec 32 :=
  let code := acceptCode s ctx d reserved
  let num := BitVec.ofNat 4 (descQueue d)
  let tell (s : State) (kind code : Nat) (seq : BitVec 32) : State :=
    if issuer.isSome then s
    else report s (.report src tag (BitVec.ofNat 8 kind) (BitVec.ofNat 8 code) ctx num.toFin seq 0)
  match (if code = 0 then queueIndex s ctx (descQueue d) else none) with
  | none => (tell s 2 code 0, code, 0)
  | some qi =>
    match queueAt s qi with
    | none => (s, 0x02, 0)
    | some q =>
      let l : Launch := { seq := q.nextSeq, desc := d, tag := tag, src := src, pod := pod, accepted := tickOf s, issuer := issuer, kernel := none }
      let s := setQueue s qi { q with pending := q.pending ++ [l], nextSeq := q.nextSeq + 1 }
      let s := modQueue s qi (keepOutcomes s)
      (afterEvent (tell s 1 0 l.seq), 0, l.seq)

/-! ### CHOOSE and pre-emption (R293, R298, R299, R323, R324) -/

/-- EFF of a queue's head. -/
def effOf (s : State) (q : Queue) (l : Launch) : Nat :=
  if 6 ≤ q.base.val then q.base.val
  else
    let w := tickOf s - l.accepted
    min 6 (q.base.val + if w = 0 then 0 else (w - 1) / 1600000)

/-- The head of queue `qi`, when it is a candidate. -/
def candidate (s : State) (qi : Nat) : Option (Queue × Launch × Kernel) :=
  (queueAt s qi).bind fun q => q.pending.head?.bind fun l => (headKernel s q).bind fun k =>
    let ok := match (ctxAt s q.ctx).st with | .ready | .running | .preempted => true | _ => false
    if q.st == .active && k.st == .queued && ok && !isHeld s q l && !isCancelled s q l then some (q, l, k) else none

def inStep (s : State) (d : Nat) : Bool := s.steps.any fun x => x.dies.getLsbD d

/-- Reserved for another head than launch `seq` of queue `qi` (R299, R323). -/
def reservedAway (s : State) (qi : Nat) (seq : BitVec 32) (n : Nat) : Bool :=
  s.reserved.any fun r => !(r.1 == qi && r.2.1 == seq) && r.2.2.contains n

/-- No kernel's group holds a core of these, no step stands in the way, no other head reserves one. -/
def groupFree (s : State) (qi : Nat) (seq : BitVec 32) (cores : List Nat) : Bool :=
  cores.all fun n =>
    !(s.kernels.any fun k => k.group != .free && k.members.contains n) && !inStep s (dieOf n) &&
      !reservedAway s qi seq n && (coreOf s n).run == .vacant

/-- The dies of these cores run at one operating point (R324). -/
def oneOp (s : State) (cores : List Nat) : Bool :=
  cores.all fun n => opNow s (dieOf n) == opNow s (dieOf (cores.headD 0))

/-- The group a head is placed on: the lowest DOMID that is free and covers ROWS (R324). -/
def findGroup (s : State) (qi : Nat) (k : Kernel) : Option (Nat × List Nat) :=
  ((List.range (groupCount (recLevel k.record))).map fun g => (g, groupCores (recLevel k.record) g)).find? fun x =>
    groupFree s qi k.launch.seq x.2 && oneOp s x.2 && groupCovers s (opNow s) (recRows k.record) x.2

/-- Cause 0x11 on a core: of a kernel that is pre-empted already, an urgent request finds it only where it is still
pending, and it is held no more (R293). -/
def preemptCore (again urgent : Bool) (det : BitVec 32) (c : Core) : Core :=
  if again && !(urgent && c.causes.any fun x => x.code == 0x11) then c else addCause c 0x11 det (!urgent)

/-- Cause 0x11 on every member of a kernel (R293), on one still to be loaded too. -/
def requestPreemption (s : State) (level : Nat) (urgent : Bool) (k : Kernel) : State :=
  let det := BitVec.ofNat 32 (level % 8 + (urgent.toNat <<< 8))
  modKernel ((residents k).foldl (fun s n => modCore s n (preemptCore k.preempt urgent det)) s) k.id fun k => { k with preempt := true }

/-- The exception of R299: some domain of the head's level is occupied wholly by kernels placed at a lower
level, which are pre-empted for it. Which domains count: see notes/assumptions/84.md. -/
def preemptFor (s : State) (l qi : Nat) (launch : Launch) (k : Kernel) : State :=
  if s.reserved.any (fun r => r.1 == qi && r.2.1 == launch.seq) then s
  else
    let lower (n : Nat) : Bool := s.kernels.any fun x => isPlaced x && x.members.contains n && x.eff < l
    match (groupsOf (recLevel k.record)).find? fun cores =>
        cores.all (fun n => lower n && !inStep s (dieOf n) && !reservedAway s qi launch.seq n) &&
          oneOp s cores && groupCovers s (opNow s) (recRows k.record) cores with
    | none => s
    | some cores =>
      let victims := s.kernels.filter fun x => isPlaced x && x.members.any cores.contains
      let s := victims.foldl (fun s x => requestPreemption s l (descUrgent launch.desc) x) s
      { s with reserved := s.reserved ++ [(qi, launch.seq, cores)] }

/-- The candidate queues whose head has effective level `l`, by device index. -/
def candidatesAt (s : State) (l : Nat) : List Nat :=
  (List.range 256).filter fun qi => match candidate s qi with
    | some (q, x, _) => effOf s q x == l
    | none => false

/-- The queue that the round robin takes next. -/
def nextQueue (rr : BitVec 8) (l : List Nat) : Option Nat :=
  match l.find? fun q => rr.toNat < q with
  | some q => some q
  | none => l.head?

/-- One level of CHOOSE; the answer says whether a head was placed. -/
def chooseAt (l : Nat) : Nat → State → List Nat → State × Bool
  | 0, s, _ => (s, false)
  | f + 1, s, qs =>
    match nextQueue (s.rr.toList.getD l 255) qs with
    | none => (s, false)
    | some qi =>
      match candidate s qi with
      | none => chooseAt l f s (qs.filter (· != qi))
      | some (_, x, k) =>
        match findGroup s qi k with
        | some (g, cores) => (placeOn { s with rr := s.rr.setIfInBounds l (BitVec.ofNat 8 qi) } qi l k g cores, true)
        | none => chooseAt l f (preemptFor s l qi x k) (qs.filter (· != qi))

def chooseGo : List Nat → State → State
  | [], s => s
  | l :: r, s =>
    match chooseAt l 257 s (candidatesAt s l) with
    | (s', true) => s'
    | (s', false) => chooseGo r s'

/-- One placement decision (R299). -/
def chooseEvent (s : State) : State := afterEvent (chooseGo [7, 6, 5, 4, 3, 2, 1, 0] s)

/-- Some candidate head has a group to go to, or kernels to pre-empt. -/
def choiceDue (s : State) : Bool :=
  (List.range 256).any fun qi => match candidate s qi with
    | some (q, l, k) =>
      (findGroup s qi k).isSome || (preemptFor s (effOf s q l) qi l k).reserved.length != s.reserved.length
    | none => false

/-! ### Requests of the runtime firmware (R294, R296, R305, R327) -/

/-- The context exists. -/
def ctxLives (s : State) (x : Fin 32) : Bool :=
  match (ctxAt s x).st with
  | .free | .destroyed => false
  | _ => true

/-- A queue is made for a context that lives (R294); for one that is Free or Destroyed, which R294 gives no code, 0x01 is
the model's: see notes/assumptions/94.md. -/
def queueCreateEvent (s : State) (ctx : Fin 32) (base : Fin 8) : State :=
  let mine := (allQueues s).filter fun x => x.2.ctx == ctx
  if !ctxLives s ctx then answer s 0x01
  else if 16 ≤ mine.length then answer s 0x02
  else
    match (List.range 256).find? fun i => (queueAt s i).isNone, (List.range 16).find? fun n => !mine.any fun x => x.2.num.val == n with
    | some i, some n =>
      let q : Queue := { ctx := ctx, num := (BitVec.ofNat 4 n).toFin, base := base, st := .empty, pending := [], nextSeq := 1, outcomes := [], ends := [] }
      answer (setQueue s i q) 0 (n + i <<< 8)
    | _, _ => answer s 0x03

/-- R296 gives no row for a number that is no queue of the context; the code 0x01 is the model's, here and in the next two:
see notes/assumptions/94.md. -/
def suspendEvent (s : State) (ctx : Fin 32) (num : Fin 16) : State :=
  match (queueIndex s ctx num.val).bind fun i => (queueAt s i).map fun q => (i, q) with
  | none => answer s 0x01
  | some (i, q) => if q.st == .torn then answer s 0x01 else answer (setQueue s i { q with st := .suspended }) 0

/-- As `suspendEvent` for a number that is no queue: see notes/assumptions/94.md. -/
def resumeEvent (s : State) (ctx : Fin 32) (num : Fin 16) : State :=
  match (queueIndex s ctx num.val).bind fun i => (queueAt s i).map fun q => (i, q) with
  | none => answer s 0x01
  | some (i, q) => if q.st == .suspended then answer (afterEvent (setQueue s i { q with st := .empty })) 0 else answer s 0x01

/-- Event 3 of R279: a Ready context of which a kernel is placed is Running; in any other case it is refused. See
notes/assumptions/92.md. -/
def placeRequest (s : State) (ctx : Fin 32) : State :=
  if placedReady s ctx then answer (afterEvent (modCtx s ctx fun c => { c with st := .running })) 0 else answer s 0x01

/-- Event 6 of R279: a Draining context with every image saved is Pre-empted. -/
def savedRequest (s : State) (ctx : Fin 32) : State :=
  if allSaved s ctx then answer (afterEvent (modCtx s ctx fun c => { c with st := .preempted })) 0 else answer s 0x01

/-- The messages of a kernel that ends are discarded, and its `xput`s end with them (R305, R337). -/
def dropMessages (s : State) (k : Kernel) : State :=
  let s := { s with flights := s.flights.filter fun f => f.kernel != some k.id }
  (residents k).foldl (fun s n => (coreOf s n).copies.foldl (fun s c => match c.kind with
    | .xput _ _ _ _ => copyEnd s n c.id
    | _ => s) s) s

/-- The cores of an ending kernel are drained and made vacant, and the launch ends, in the same event, but for copies
that wait for a page move (R305, R351), and those of a pair's last words, which leave it some two cycles later, once the
words' signatures have matched (R393): see notes/assumptions/42.md. -/
def drainKernel (s : State) (id : Nat) : State :=
  match findKernel s id with
  | none => s
  | some k =>
    let s := (residents k).foldl (fun s n =>
      let s := drainCopies 1000000 s n
      if (coreOf s n).run == .exiting && (coreOf s n).copies.isEmpty then coreLeaves s n else s) (dropMessages s k)
    match findKernel s id with
    | some k' => if canFinish s k' then finishKernel s k' else s
    | none => s

/-- R305, for the queue with device index i. -/
def teardownQueue (s : State) (i : Nat) : State :=
  match queueAt s i with
  | none => s
  | some q =>
    let s := setQueue s i { q with st := .torn }
    let s := q.pending.foldl (fun s l => endPending s i l 4 0) s
    (s.kernels.filter fun k => k.queue == i && isPlaced k).foldl (fun s k => drainKernel (endKernel s k.id .aborted 0 none) k.id) s

/-- As `suspendEvent` for a number that is no queue: see notes/assumptions/94.md. -/
def teardownEvent (s : State) (ctx : Fin 32) (num : Fin 16) : State :=
  match queueIndex s ctx num.val with
  | none => answer s 0x01
  | some i => answer (if (queueAt s i).any fun q => q.st == .torn then s else afterEvent (teardownQueue s i)) 0

/-- From launch `x` the declarations lead to launch `y`, as (queue, SEQ). -/
def leadsTo (decls : List (BitVec 128)) (y : Nat × Nat) : Nat → Nat × Nat → Bool
  | 0, x => x == y
  | f + 1, x => x == y || decls.any fun d => (fld d 35 32, fld d 31 0) == x && leadsTo decls y f (fld d 99 96, fld d 95 64)

/-- A supply declaration (R327); of several causes that apply the first as R327 lists them answers, which is the model's
choice: see notes/assumptions/94.md. -/
def supplyEvent (s : State) (ctx : Fin 32) (r : BitVec 128) : State :=
  let c := ctxAt s ctx
  let known (num seq : Nat) : Bool := match (queueIndex s ctx num).bind (queueAt s) with
    | some q => seq != 0 && seq < q.nextSeq.toNat
    | none => false
  let placed (num seq : Nat) : Bool := match queueIndex s ctx num with
    | some qi => ((launchKernel s qi (BitVec.ofNat 32 seq)).any fun k => isPlaced k || k.saved || k.group != .free) ||
        ((queueAt s qi).any fun q => q.ends.any fun e => e.1.toNat == seq && e.2.2)
    | none => false
  let sq := fld r 99 96
  let wq := fld r 35 32
  if !ctxLives s ctx || fld r 127 100 != 0 || fld r 63 36 != 0 then answer s 0x01
  else if (queueIndex s ctx sq).isNone || (queueIndex s ctx wq).isNone then answer s 0x02
  else if 64 ≤ c.decls.length then answer s 0x03
  else if !known sq (fld r 95 64) || !known wq (fld r 31 0) || placed wq (fld r 31 0) then answer s 0x04
  else if leadsTo c.decls (wq, fld r 31 0) 65 (sq, fld r 95 64) then answer s 0x06
  else answer (afterEvent (modCtx s ctx fun c => { c with decls := c.decls ++ [r] })) 0

/-! ### `svc` (R144, R312, R385) -/

/-- The other chips of a pod kernel. -/
def otherChips (s : State) (k : Kernel) : List (BitVec 16) :=
  match k.launch.pod with
  | some p => if recLevel k.record = 4 then ((List.range p.chips.toNat).map (podChip k)).filter fun x => x != s.chip else []
  | none => []

/-- A member issues the abort service: every other chip of a pod group is told (R312). -/
def abortService (s : State) (n : Nat) : State :=
  match kernelAt s n with
  | none => stopCore s n
  | some k => afterEvent (endKernel ((otherChips s k).foldl (fun s x => report s (.groupAbort x k.domid)) s) k.id .aborted 0 none)

/-- What the runtime firmware does for a service core's request (see notes/assumptions/22.md). -/
def firmwareService (s : State) (n : Nat) (num : BitVec 12) : State :=
  let c := coreOf s n
  let m := hallCore n (c.s[0].toNat % 8)
  match num.toNat, m with
  | 0x010, some m =>
    let rows := if (coreOf s m).run == .vacant then 0 else match kernelAt s m with | some k => recRows k.record | none => 0
    modCore s n fun c => { c with reply := some (some (BitVec.ofNat 64 rows)) }
  | 0x011, some m =>
    match (coreOf s m).kernel with
    | some id => modKernel s id fun k => { k with answers := k.answers ++ [(m, c.s[1] == 0)] }
    | none => s
  | _, _ => modCore s n fun c => { c with reply := some (some (Config.serviceResult (s.fresh * 2 ^ 64 + num.toNat))) }

/-- Agent `n`'s request has left its pair: its trailing core stands at the same word, and no word is still to be compared
(R393). -/
def requestOut (c : Core) : Bool := c.request.isSome && wordsMatched c

/-- The runtime firmware completes the request that agent `n` stalls for (R144). -/
def servedEvent (s : State) (n : Nat) : State :=
  match (if requestOut (coreOf s n) then (coreOf s n).request else none) with
  | some num => firmwareService (modCore s n fun c => { c with request := none, reply := some none }) n num
  | none => s

/-- The abort service of core `n`: a pair's leaves it once the signatures of its word have matched (R312, R393). -/
def abortCore (s : State) (n : Nat) : State :=
  if isPaired s n then freeze (modCore s n fun c => { c with aborting := true }) n .exiting else abortService s n

/-- `svc` (R144): a compute core commits the word and freezes; a service core stalls until the firmware has answered. -/
def slotSvc (g : Guard) (num : BitVec 12) (s : State) (n : Nat) : SlotOp :=
  if isCompute n then
    { guarded 0 g with
      after := fun s =>
        if num = 0 then freeze s n .exiting
        else if num = 1 then abortCore s n
        else takeTrap s n 0 0 (num.setWidth 32) }
  else
    let r := (coreOf s n).reply
    { guarded 0 g with
      stall := r.isNone, asks := some num
      eff := fun s => modCore s n fun c =>
        let c := { c with reply := none }
        match r.join with
        | some v => pendAct c (.s 0 v) 1
        | none => c }

/-! ### `lnch` and `qstat` (R306, R307) -/

/-- A launch of core `n` arrives; the status that its `lnch` deposits (R306). -/
def arriveFrom (s : State) (n : Nat) (d : BitVec 512) : State × BitVec 64 :=
  let c := coreOf s n
  let (s, code, seq) := arrive s (ctxOf c) d 0 0 none (some (n, c.kernel.getD s.nextKernel)) false
  (s, BitVec.ofNat 64 (((if code = 0 then 0 else 1) <<< 63) + (code <<< 48) + (descQueue d <<< 32) + seq.toNat))

/-- `lnch` (R306): the word stalls until the core's stores are performed, and a pair's until its trailing core has come
to the word too (R393), and its last stall cycle is the one in which the launch arrives. See notes/assumptions/71.md. -/
def slotLnch (g : Guard) (h : Fin 16) (a : Src) (s : State) (n : Nat) : SlotOp :=
  let c := coreOf s n
  let off := (sVal s n 0 0 a).toNat
  computeOnly n { guarded 0 g with
    ring := some .s, reads := [a], rewalk := [h]
    pre := handleChecks c h true false (hSize c.h[h] < off + 64) ++ failIf (off % 64 != 0) 0x07 (hDetail h)
    stall := c.stcnt.toList.any (· != 0) || !wordsMatched c
    eff := fun s =>
      let x := arriveFrom s n (BitVec.ofNat 512 (ofBytes (memRead s.mem (hBase c.h[h] + off) 64)))
      modCore x.1 n fun c => deposit64 c .s x.2 1 }

def queueStNo : QueueSt → Nat
  | .empty => 0 | .active => 1 | .blocked => 2 | .suspended => 3 | .torn => 4

/-- The word of `qstat`; with no such queue its other fields are 0 (see notes/assumptions/86.md). -/
def qstatWord (s : State) (ctx : Fin 32) (num : Nat) : BitVec 64 :=
  match (queueIndex s ctx num).bind (queueAt s) with
  | none => BitVec.ofNat 64 (5 <<< 61)
  | some q =>
    let eff := match q.pending.head? with | some l => effOf s q l | none => q.base.val
    BitVec.ofNat 64 ((queueStNo q.st <<< 61) + (q.base.val <<< 58) + (eff <<< 55) + (pendingOf s q <<< 48) + q.nextSeq.toNat)

def qstatOutcome (s : State) (ctx : Fin 32) (num : Nat) (seq : BitVec 32) : BitVec 64 :=
  let w (noq : Nat) (o : Nat) : BitVec 64 := BitVec.ofNat 64 ((seq.toNat <<< 32) + (noq <<< 3) + o)
  match queueIndex s ctx num with
  | none => w 1 0
  | some qi =>
    match queueAt s qi with
    | none => w 1 0
    | some q =>
      if seq = 0 || q.nextSeq ≤ seq then w 0 7
      else if isLive s qi seq then w 0 0
      else match shownOutcome q seq with
        | some o => w 0 o.toNat
        | none => w 0 6

def slotQstat (g : Guard) (a : Src) (s : State) (n : Nat) : SlotOp :=
  depositS g [a] 8 (qstatWord s (ctxOf (coreOf s n)) ((sVal s n 0 0 a).toNat % 16)) n

def slotQstatO (g : Guard) (a b : Src) (s : State) (n : Nat) : SlotOp :=
  depositS g [a, b] 8 (qstatOutcome s (ctxOf (coreOf s n)) ((sVal s n 0 0 a).toNat % 16) ((sVal s n 0 1 b).setWidth 32)) n

/-! ### The instructions -/

def execSvc (g : Guard) (n : BitVec 12) (s : State) : Host.Outcome State Fault Refusal := runSlot s (slotSvc g n)
def execLnch (g : Guard) (h : Fin 16) (a : Src) (s : State) : Host.Outcome State Fault Refusal := runSlot s (slotLnch g h a)
def execQstat (g : Guard) (a : Src) (s : State) : Host.Outcome State Fault Refusal := runSlot s (slotQstat g a)
def execQstatO (g : Guard) (a b : Src) (s : State) : Host.Outcome State Fault Refusal := runSlot s (slotQstatO g a b)

def execQueueCreate (ctx : Fin 32) (base : Fin 8) (s : State) : Host.Outcome State Fault Refusal := .next (queueCreateEvent s ctx base)
def execSuspend (ctx : Fin 32) (queue : Fin 16) (s : State) : Host.Outcome State Fault Refusal := .next (suspendEvent s ctx queue)
def execResume (ctx : Fin 32) (queue : Fin 16) (s : State) : Host.Outcome State Fault Refusal := .next (resumeEvent s ctx queue)
def execTeardown (ctx : Fin 32) (queue : Fin 16) (s : State) : Host.Outcome State Fault Refusal := .next (teardownEvent s ctx queue)
def execSupplyDeclaration (ctx : Fin 32) (record : BitVec 128) (s : State) : Host.Outcome State Fault Refusal := .next (supplyEvent s ctx record)
def execChoose (s : State) : Host.Outcome State Fault Refusal := .next (chooseEvent s)
def execMemberLoaded (kernel : Nat) (n : Fin 256) (s : State) : Host.Outcome State Fault Refusal := .next (memberLoadedEvent s kernel n.val)
def execT0Start (kernel : Nat) (s : State) : Host.Outcome State Fault Refusal := .next (t0Event s kernel)

/-- Every member has exited (R308): the kernel is Done, and its launch ends. -/
def kernelDoneEvent (s : State) (id : Nat) : State :=
  match findKernel s id with
  | none => s
  | some k =>
    if (k.st == .running || k.st == .landing) && (residents k).isEmpty then
      match findKernel (endKernel s id .done 0 none) id with
      | some k' => afterEvent (finishKernel (endKernel s id .done 0 none) k')
      | none => s
    else s

def execKernelDone (kernel : Nat) (s : State) : Host.Outcome State Fault Refusal := .next (kernelDoneEvent s kernel)

end Sys2Proof.Machine
end

