-- ==== Sys2Proof/Machine/Window.lean ====
section
/-!
DEFINITION. Window.lean: the state window, `frd` and `fwr`, and the saved image with `csave` and `crest`
(14_context.md R286 to R292).
-/
namespace Sys2Proof.Machine

/-! ### Words of wide items -/

/-- The k-th 64-bit word of an item, least significant first. -/
def word64 (x : BitVec w) (k : Nat) : BitVec 64 := BitVec.ofNat 64 (x.toNat >>> (64 * k))

def setWord64 (x : BitVec w) (k : Nat) (v : BitVec 64) : BitVec w := putFld x (64 * k + 63) (64 * k) v.toNat

/-- The rings of the 64-bit and of the vector latches, in window order (R286). -/
def rings64 : List RingId := [.s, .m, .ca, .cb, .k]
def ringsVec : List RingId := [.va, .vb, .x]

def setLatch (c : Core) (u : RingId) (p : Nat) (v : Vec) : Core :=
  let r := ringOf c u
  setRing c u { r with latches := r.latches.setIfInBounds p { val := v, due := min (r.latches.toList.getD p Latch.zero).due c.cyc, wait := none } }

def latchVec (c : Core) (u : RingId) (p : Nat) : Vec := ((ringOf c u).latches.toList.getD p Latch.zero).val

/-! ### Composite words -/

def ringPointers (c : Core) : BitVec 64 :=
  BitVec.ofNat 64 (packN 3 (fun u => (c.rings.toList.getD u Ring.zero).ptr.val) 8)

/-- PCSTATE (R286). -/
def pcState (c : Core) : BitVec 64 :=
  let d := c.delay.getD { left := 0, target := 0 }
  BitVec.ofNat 64 (c.pc.toNat + c.delay.isSome.toNat <<< 12 + d.left.toNat <<< 13 + d.target.toNat <<< 15
    + (c.stair.running != 0).toNat <<< 27 + c.stair.running.toNat <<< 28)

/-- A write of PCSTATE; `raw` as `crest` writes it (R288). -/
def setPcState (raw : Bool) (c : Core) (v : BitVec 64) : Core :=
  let same := raw || v.extractLsb' 0 12 == c.pc
  let delay := if same && v.getLsbD 12 then some { left := v.extractLsb' 13 2, target := v.extractLsb' 15 12 : Delay } else none
  let run := same && v.getLsbD 27
  let c := if raw || run then c else endStair c
  { c with pc := v.extractLsb' 0 12, delay := delay
           stair := { c.stair with running := if run then v.extractLsb' 28 3 else 0 } }

/-- Word j of flight k (R286). -/
def flightWord (st : Stair) (k j : Nat) : BitVec 64 :=
  let f := flightAt st k
  match j with
  | 0 => BitVec.ofNat 64 (f.first.toNat + f.last.toNat <<< 12 + (if k = 0 then st.stages.toNat else 0) <<< 24)
  | 1 => f.count.setWidth 64
  | 2 => f.idx.setWidth 64
  | 7 => 0
  | j => f.stride.toList.getD (j - 3) 0

def setFlightWord (st : Stair) (k j : Nat) (v : BitVec 64) : Stair :=
  let f := flightAt st k
  let f := match j with
    | 0 => { f with first := v.extractLsb' 0 12, last := v.extractLsb' 12 12 }
    | 1 => { f with count := v.setWidth 33 }
    | 2 => { f with idx := v.setWidth 33 }
    | 7 => f
    | j => { f with stride := f.stride.setIfInBounds (j - 3) v }
  { st with flights := st.flights.setIfInBounds k f
            stages := if k = 0 && j = 0 then v.extractLsb' 24 3 else st.stages }

def tileStNo : TileSt → Nat
  | .free => 0 | .defined => 1 | .loading => 2 | .ready => 3 | .writing => 4 | .storing => 5

def tileStOf (n : Nat) : TileSt :=
  match n with
  | 1 => .defined | 2 => .loading | 3 => .ready | 4 => .writing | 5 => .storing | _ => .free

/-- Word j of tile register t. -/
def tileWord (x : TileReg) (j : Nat) : BitVec 64 :=
  match j with
  | 0 => x.a
  | 1 => x.b
  | _ => BitVec.ofNat 64 (tileStNo x.st)

/-- A descriptor word without its reserved bits, which read as zero (R8, R228); SC is 0 in a format whose elements
are never scaled (R47). -/
def wordA (v : BitVec 64) : BitVec 64 :=
  let a := v &&& 0x003FFFFFFFFFFFFF#64
  if tScaled a && !tFactors a then a &&& 0x001FFFFFFFFFFFFF#64 else a
def wordB (v : BitVec 64) : BitVec 64 := v &&& 0x00000FFFFFFFFFFF#64

/-- A write of a tile register's word (R288). -/
def setTileWord (raw : Bool) (x : TileReg) (j : Nat) (w : BitVec 64) : TileReg :=
  let v := if j = 0 then wordA w else if j = 1 then wordB w else w
  match j with
  | 0 =>
    if raw then { x with a := v }
    else if tRows v = 0 then TileReg.zero
    else if x.st == .free then { a := v, b := x.kept, st := .defined, mem := .free, kept := 0 }
    else { x with a := v }
  | 1 => if !raw && x.st == .free then { x with kept := v } else { x with b := v }
  | _ => if raw then { x with st := tileStOf (v.toNat % 8), mem := .ready } else x

/-- A write of a handle's word (R348); `crest` restores a Present handle as not present. -/
def setHandleWord (raw : Bool) (h : Handle) (j : Nat) (v : BitVec 64) : Handle :=
  if raw then
    if j = 0 then { h with w0 := if v.getLsbD 63 then (absentHandle 0).w0 else v &&& 0xFFE00FFFFFFF0000#64 }
    else { h with w1 := v &&& 0x0000FFFFFFFF0000#64 }
  else if j = 0 then h
  else if fld v 63 48 != 0 || fld v 15 0 != 0 then Handle.zero
  else absentHandle v.toNat

/-! ### Matrix unit registers (R287) -/

def loopWord (r : Routine) (j : Nat) : BitVec 64 :=
  let l := r.loops.toList.getD (j / 2) ⟨false, 0, 0, 0, 0⟩
  if j % 2 = 0 then l.idx ++ l.count
  else BitVec.ofNat 64 (l.top.toNat + l.stop.toNat <<< 12 + l.active.toNat <<< 24)

def setLoopWord (r : Routine) (j : Nat) (v : BitVec 64) : Routine :=
  let l := r.loops.toList.getD (j / 2) ⟨false, 0, 0, 0, 0⟩
  let l := if j % 2 = 0 then { l with count := v.setWidth 32, idx := v.extractLsb' 32 32 }
    else { l with top := v.extractLsb' 0 12, stop := v.extractLsb' 12 12, active := v.getLsbD 24 }
  { r with loops := r.loops.setIfInBounds (j / 2) l }

/-- The routine's registers that the window shows: those of the one that runs, else those left (R287). -/
def shownRun (m : Matrix) : Routine := m.run.getD m.last

/-- Registers 0 to 30 of the matrix unit. -/
def matrixWord (m : Matrix) (j : Nat) : BitVec 64 :=
  let r := shownRun m
  if j < 8 then
    match j with
    | 0 => BitVec.ofNat 64 (m.cfg.toNat + packN 3 (fun p => (m.pf.toList.getD p 0).toNat) 4 <<< 24)
    | 1 => word64 m.rowT 0
    | 2 => word64 m.rowT 1
    | 3 => word64 m.colT 0
    | 4 => word64 m.colT 1
    | 5 => m.status
    | 6 => m.progress
    | _ => BitVec.ofNat 64 (r.upc.toNat + r.win.toNat <<< 12 + m.run.isSome.toNat <<< 15 + r.ci.toNat <<< 16)
  else if j < 16 then loopWord r (j - 8)
  else if 0x17 ≤ j && j < 0x1F then r.mp.toList.getD (j - 0x17) 0
  else
    match j with
    | 0x10 => r.beta ++ r.alpha
    | 0x11 => r.gamma.setWidth 64
    | 0x12 => r.cfg.setWidth 64
    | 0x13 => word64 r.rowT 0
    | 0x14 => word64 r.rowT 1
    | 0x15 => word64 r.colT 0
    | 0x16 => word64 r.colT 1
    | _ => 0

/-- A change of the routine's registers through the window. -/
def modShown (m : Matrix) (f : Routine → Routine) : Matrix :=
  match m.run with
  | some r => { m with run := some (f r) }
  | none => { m with last := f m.last }

/-- A routine restored or started through the window stands at a k-group boundary of the pass in progress, or before
its micro-operation (R207, R212). -/
def syncPhase (m : Matrix) : Matrix :=
  { m with run := m.run.map fun r =>
      { r with phase := if m.progress.getLsbD 0 then
          2 + stepCycles (rowFmt r) (colFmt r) * fld m.progress 51 32 else 0 } }

/-- The routine entry that ROUTINE names. -/
def namedEntry (m : Matrix) : BitVec 64 := spGet m.entries (fld m.status 19 14)

/-- A working window code as word 7 or the snapshot gives it; code 7 never stands there (R54, R217). See
notes/assumptions/68.md. -/
def winWritten (old : BitVec 3) (v : BitVec 3) : BitVec 3 := if v = 7 then old else v

/-- Word 7: bit [15] starts a routine, whose entry is the one ROUTINE names, or ends it. -/
def setWord7 (m : Matrix) (v : BitVec 64) : Matrix :=
  let old := shownRun m
  let r := { old with upc := v.extractLsb' 0 12, win := winWritten old.win (v.extractLsb' 12 3), ci := v.extractLsb' 16 16 }
  if !v.getLsbD 15 then { m with run := none, last := r }
  else if m.run.isSome then
    if v.extractLsb' 0 12 = old.upc then { m with run := some r } else syncPhase { m with run := some { r with tries := 0, feed := none, scales := none } }
  else
    syncPhase { m with run := some { r with
      entry := namedEntry m, start := 0, tries := 0, mism := 0, feed := none, scales := none, halted := false, abort := false, owe := 0 } }

/-- The configuration that word 0 gives: the reserved bits read 0 (R191), and a format pair that `kcfg`
cannot set leaves what stood. See notes/assumptions/68.md. -/
def cfgWritten (old : BitVec 24) (v : BitVec 64) : BitVec 24 :=
  let row := decodeFmt (v.extractLsb' 18 3)
  let col := decodeFmt (v.extractLsb' 15 3)
  if row.pairOk col then v.setWidth 24 &&& 0xFFC000#24 else old

/-- A plane's format as word 0 gives it; the codes 5 to 7 never stand there (R181). See notes/assumptions/68.md. -/
def pfWritten (old : BitVec 3) (v : BitVec 3) : BitVec 3 := if 4 < v.toNat then old else v

/-- A write of a matrix-unit register; only `crest` (`raw`) writes those that are read-only (R8, R202, R212). -/
def setMatrixWord (raw : Bool) (m : Matrix) (j : Nat) (v : BitVec 64) : Matrix :=
  if j < 8 then
    match j with
    | 0 => { m with cfg := cfgWritten m.cfg v
                    pf := Vector.ofFn fun p => pfWritten m.pf[p] (v.extractLsb' (24 + 3 * p.val) 3) }
    | 1 => { m with rowT := setWord64 m.rowT 0 v }
    | 2 => { m with rowT := setWord64 m.rowT 1 v }
    | 3 => { m with colT := setWord64 m.colT 0 v }
    | 4 => { m with colT := setWord64 m.colT 1 v }
    | 5 => if raw then { m with status := v } else m
    | 6 => if raw then { m with progress := v &&& 0xFFFFFFFF00000001#64 } else m
    | _ => setWord7 m v
  else if j < 16 then modShown m fun r => setLoopWord r (j - 8) v
  else if 0x17 ≤ j && j < 0x1F then modShown m fun r => { r with mp := r.mp.setIfInBounds (j - 0x17) v }
  else
    match j with
    | 0x10 => modShown m fun r => { r with alpha := v.setWidth 32, beta := v.extractLsb' 32 32 }
    | 0x11 => modShown m fun r => { r with gamma := v.setWidth 32 }
    | 0x12 =>
      let old := (shownRun m).cfg
      let cfg := cfgWritten old v
      let cfg := putFld cfg 23 21 (winWritten (old.extractLsb' 21 3) (cfg.extractLsb' 21 3)).toNat
      if cfg = old then m else syncPhase (modShown m fun r => { r with cfg := cfg })
    | 0x13 => modShown m fun r => { r with rowT := setWord64 r.rowT 0 v }
    | 0x14 => modShown m fun r => { r with rowT := setWord64 r.rowT 1 v }
    | 0x15 => modShown m fun r => { r with colT := setWord64 r.colT 0 v }
    | 0x16 => modShown m fun r => { r with colT := setWord64 r.colT 1 v }
    | _ => m

/-! ### The window (R286, R287) -/

/-- The ranges of the window as (first offset, words), in table order, to the instruction store. -/
def windowRanges : List (Nat × Nat) :=
  [(0x00, 0x28), (0x28, 8), (0x30, 16), (0x40, 32), (0x60, 48), (0x90, 32), (0xB0, 26), (0x100, 192), (0x200, 40),
   (0x10000, 1536), (0x20000, 2048), (0x100000, 32768), (0x140000, 32768), (0x150000, 256), (0x160000, 64),
   (0x170000, 4160), (0x400000, 16384)]

/-- The ranges a service pair's window maps: what a service core possesses (R18, R287). -/
def serviceRanges : List (Nat × Nat) :=
  [(0x00, 0x28), (0x40, 32), (0x90, 32), (0xB0, 26), (0x100, 192), (0x200, 8), (0x210, 16), (0x400000, 16384)]

def inRanges (l : List (Nat × Nat)) (off : Nat) : Bool := l.any fun r => r.1 ≤ off && off < r.1 + r.2

/-- An offset that core `n`'s window maps, tile-store rows below CAPROWS only (R288). -/
def mapped (s : State) (n off : Nat) : Bool :=
  inRanges (if isCompute n then windowRanges else serviceRanges) off ||
    (0x800000 ≤ off && off < 0x800000 + 512 * capRows s n)

/-- A byte of the tile store as the window shows it: what stands there, whatever the halted routine was writing; a
byte that is undefined or poisoned is free. -/
def storedByte (c : Core) (fv : BitVec 32768) (x : Nat) : Byte :=
  if tileUndef c x || c.tPoison.contains (x / 8 * 8) then BitVec.ofNat 8 (fv.toNat >>> (8 * (x % 4096)))
  else tileByte c x

/-- The window word at an offset is a tile-store word that holds a poisoned granule. -/
def wordPoisoned (c : Core) (off : Nat) : Bool := 0x800000 ≤ off && c.tPoison.contains (8 * (off - 0x800000))

/-- The word at an offset of the window of core `n`, whose state is `c`. -/
def windowGet (s : State) (n : Nat) (c : Core) (fv : BitVec 32768) (off : Nat) : BitVec 64 :=
  if off < 0x20 then c.s.toList.getD off 0
  else if off < 0x24 then
    match off with
    | 0x20 => BitVec.ofNat 64 (packN 1 (fun k => (predVal c (BitVec.ofNat 4 k).toFin).toNat) 16)
    | 0x21 => ringPointers c
    | 0x22 => pcState c
    | _ => c.pn
  else if off < 0x28 then c.walk.toList.getD (off - 0x24) 0
  else if off < 0x30 then c.mp.toList.getD (off - 0x28) 0
  else if off < 0x40 then word64 (maskVal c (BitVec.ofNat 3 ((off - 0x30) / 2)).toFin) (off % 2)
  else if off < 0x50 then (c.ldcnt.toList.getD (off - 0x40) 0).setWidth 64
  else if off < 0x60 then (c.stcnt.toList.getD (off - 0x50) 0).setWidth 64
  else if off < 0x90 then flightWord c.stair ((off - 0x60) / 8) ((off - 0x60) % 8)
  else if off < 0xB0 then
    let h := c.h.toList.getD ((off - 0x90) / 2) Handle.zero
    if off % 2 = 0 then h.w0 else h.w1
  else if off < 0xCA then controlReg s n (off - 0xB0)
  else if off < 0x1C0 then tileWord (c.t.toList.getD ((off - 0x100) / 3) TileReg.zero) ((off - 0x100) % 3)
  else if off < 0x228 then word64 (latchVec c (rings64.getD ((off - 0x200) / 8) .s) (off % 8)) 0
  else if off < 0x10600 then
    let i := off - 0x10000
    word64 (latchVec c (ringsVec.getD (i / 0x200) .x) (i / 0x40 % 8)) (i % 0x40)
  else if off < 0x20800 then word64 (c.v.toList.getD ((off - 0x20000) / 64) 0) (off % 64)
  else if off < 0x108000 then word64 (spGet c.mx.planes ((off - 0x100000) / 64)) (off % 64)
  else if off < 0x148000 then word64 (spGet c.mx.acc ((off - 0x140000) / 256)) (off % 256)
  else if off < 0x150100 then word64 (spGet c.mx.ls ((off - 0x150000) / 2)) (off % 2)
  else if off < 0x160040 then matrixWord c.mx (off - 0x160000)
  else if off < 0x171000 then spGet c.mx.ustore (off - 0x170000)
  else if off < 0x171040 then spGet c.mx.entries (off - 0x171000)
  else if off < 0x404000 then word64 (spGet c.istore ((off - 0x400000) / 4)) (off % 4)
  else
    BitVec.ofNat 64 (ofBytes ((List.range 8).map fun i => storedByte c fv (8 * (off - 0x800000) + i)))

/-- The bits of DOMAIN and of FEAT that are not reserved (R84, R406). -/
def domainMask : BitVec 64 := 0x000000FFFFFFFF0F#64
def featMask : BitVec 64 := 0xFF#64

/-- A control register written through the window: its fields that are not RO, as stored (R288); `raw`
writes every field a core keeps. -/
def setControlWord (raw : Bool) (c : Core) (i : Nat) (v : BitVec 64) : Core :=
  match i with
  | 0x13 => { c with vflags := v.setWidth 6 }
  | 0x14 => { c with bsat := v.setWidth 32 }
  | 0x15 => { c with bzero := v.setWidth 32 }
  | 0x17 => { c with chklat := v.getLsbD 0 }
  | i =>
    if !raw then c
    else if 0x02 ≤ i && i < 0x08 then { c with sbase := c.sbase.setIfInBounds (i - 2) v }
    else if 0x08 ≤ i && i < 0x0E then { c with sext := c.sext.setIfInBounds (i - 8) v }
    else
      match i with
      | 0x00 => { c with coreIdx := v.setWidth 32 }
      | 0x01 => { c with domain := v &&& domainMask }
      | 0x11 => { c with cyc := v.toNat }
      | 0x12 => { c with feat := v &&& featMask }
      | 0x16 => { c with profile := v.setWidth 2 }
      | 0x18 => { c with words := v.setWidth 32, beats := v.extractLsb' 32 32 }
      | _ => c

/-- A word of an accumulator's XA image, whose bits [127:77] are reserved (R38). -/
def accWord (off : Nat) (v : BitVec 64) : BitVec 64 := if off % 2 = 0 then v else v &&& 0x1FFF#64

/-- A write of a word of the window, by `fwr`, or with `raw` by `crest`; the micro-words and the routine entries are
written by `crest` only (R208). A row byte that a copy is writing is one writer's (R232, R292). -/
def windowSet (raw : Bool) (fv : BitVec 32768) (c : Core) (off : Nat) (v : BitVec 64) : Core :=
  if off < 0x20 then { c with s := c.s.setIfInBounds off v }
  else if off < 0x24 then
    match off with
    | 0x20 => { c with p := v.setWidth 16 &&& 0xFFFE#16 }
    | 0x21 =>
      if raw then
        { c with rings := Vector.ofFn fun u => { (c.rings.toList.getD u.val Ring.zero) with ptr := (BitVec.ofNat 3 (fld v (3 * u.val + 2) (3 * u.val))).toFin } }
      else c
    | 0x22 => setPcState raw c v
    | _ => { c with pn := v }
  else if off < 0x28 then { c with walk := c.walk.setIfInBounds (off - 0x24) v }
  else if off < 0x30 then { c with mp := c.mp.setIfInBounds (off - 0x28) v }
  else if off < 0x40 then
    let k := (off - 0x30) / 2
    if k = 0 then c else { c with msk := c.msk.setIfInBounds k (setWord64 (c.msk.toList.getD k 0) (off % 2) v) }
  else if off < 0x50 then { c with ldcnt := c.ldcnt.setIfInBounds (off - 0x40) (v.setWidth 32) }
  else if off < 0x60 then { c with stcnt := c.stcnt.setIfInBounds (off - 0x50) (v.setWidth 32) }
  else if off < 0x90 then { c with stair := setFlightWord c.stair ((off - 0x60) / 8) ((off - 0x60) % 8) v }
  else if off < 0xB0 then
    let i := (off - 0x90) / 2
    { c with h := c.h.setIfInBounds i (setHandleWord raw (c.h.toList.getD i Handle.zero) (off % 2) v) }
  else if off < 0xCA then setControlWord raw c (off - 0xB0) v
  else if off < 0x1C0 then
    let i := (off - 0x100) / 3
    { c with t := c.t.setIfInBounds i (setTileWord raw (c.t.toList.getD i TileReg.zero) ((off - 0x100) % 3) v) }
  else if off < 0x228 then setLatch c (rings64.getD ((off - 0x200) / 8) .s) (off % 8) (v.setWidth 4096)
  else if off < 0x10600 then
    let i := off - 0x10000
    let u := ringsVec.getD (i / 0x200) .x
    setLatch c u (i / 0x40 % 8) (setWord64 (latchVec c u (i / 0x40 % 8)) (i % 0x40) v)
  else if off < 0x20800 then
    let i := (off - 0x20000) / 64
    { c with v := c.v.setIfInBounds i (setWord64 (c.v.toList.getD i 0) (off % 64) v) }
  else if off < 0x108000 then
    let i := (off - 0x100000) / 64
    { c with mx := { c.mx with planes := spSet c.mx.planes i (setWord64 (spGet c.mx.planes i) (off % 64) v) } }
  else if off < 0x148000 then
    let i := (off - 0x140000) / 256
    { c with mx := { c.mx with acc := spSet c.mx.acc i (setWord64 (spGet c.mx.acc i) (off % 256) (accWord off v)) } }
  else if off < 0x150100 then
    let i := (off - 0x150000) / 2
    { c with mx := { c.mx with ls := spSet c.mx.ls i (setWord64 (spGet c.mx.ls i) (off % 2) v) } }
  else if off < 0x160040 then { c with mx := setMatrixWord raw c.mx (off - 0x160000) v }
  else if !raw && off < 0x171040 then c
  else if off < 0x171000 then { c with mx := { c.mx with ustore := spSet c.mx.ustore (off - 0x170000) v } }
  else if off < 0x171040 then { c with mx := { c.mx with entries := spSet c.mx.entries (off - 0x171000) v } }
  else if off < 0x404000 then
    let i := (off - 0x400000) / 4
    { c with istore := spSet c.istore i (setWord64 (spGet c.istore i) (off % 4) v)
             iPoison := c.iPoison.filter fun g => g != off - 0x400000 }
  else putRun (openCopies c) 64 fv c (8 * (off - 0x800000)) 8 v.toNat

/-! ### `frd` and `fwr` (R288) -/

/-- The core a window address names, and its offset; none where a bit that must be zero is set. -/
def windowTarget (n : Nat) (a : BitVec 64) : Option (Nat × Nat) :=
  if n = 288 then
    if fld a 26 24 != 0 || fld a 63 32 != 0 then none else some (256 + fld a 31 27, fld a 23 0)
  else if isCompute n || fld a 63 27 != 0 then none
  else some (8 * (n - 256) + fld a 26 24, fld a 23 0)

/-- The target may be reached: frozen with a record held by this handler, or vacant, or a halted pair. -/
def reachable (s : State) (m : Nat) : Bool :=
  match (coreOf s m).run with
  | .vacant => isCompute m
  | .trapped _ => isCompute m && heldRecord s m
  | .halted => !isCompute m
  | _ => false

def windowChecks (s : State) (n : Nat) (a : BitVec 64) : List (Nat × BitVec 32) :=
  match windowTarget n a with
  | some (m, off) => failIf (!reachable s m || !mapped s m off) 0x07
  | none => failIf (privileged n) 0x07

/-- The target's freeze is not complete (R280). -/
def freezing (s : State) (n : Nat) (a : BitVec 64) : Bool :=
  match windowTarget n a with
  | some (m, off) => isCompute m && reachable s m && mapped s m off && !(coreOf s m).copies.isEmpty
  | none => false

def slotFrd (u : CSlot) (g : Guard) (a : Src) (s : State) (n : Nat) : SlotOp :=
  let x := cVal u s n 0 a
  let v : BitVec 64 := match windowTarget n x with
    | some (m, off) => windowGet s m (coreOf s m) (freeVal s 4011 32768) off
    | none => 0
  needsH n { cSlot u g with
    ring := some (cRing u), reads := [a], pre := windowChecks s n x, stall := freezing s n x
    eff := fun s =>
      let bad := (windowTarget n x).any fun t => wordPoisoned (coreOf s t.1) t.2
      modCore s n fun c => let c := deposit64 c (cRing u) v 4; if bad then consume c 0 else c }

def slotFwr (u : CSlot) (g : Guard) (a b : Src) (s : State) (n : Nat) : SlotOp :=
  let x := cVal u s n 0 a
  let v := cVal u s n 1 b
  needsH n { cSlot u g with
    reads := [a, b], pre := windowChecks s n x
    eff := fun s => match windowTarget n x with
      | some (m, off) => modCore s m fun c => windowSet false (freeVal s 4013 32768) c off v
      | none => s }

/-! ### The image (R291) -/

/-- LEN of an image. -/
def imageLen (rows : Nat) (seg : Bool) : Nat := 723408 + 4096 * rows + if seg then 29840 else 0

/-- The ranges of the shadow section. -/
def shadowRanges : List (Nat × Nat) :=
  [(0x00, 0x23), (0x24, 4), (0x30, 16), (0x60, 48), (0xC3, 3), (0x200, 40), (0x10000, 1536), (0x20000, 2048)]

/-- The core as its shadow has it. -/
def shadowCore (c : Core) (sh : Shadow) : Core :=
  { c with s := sh.s, v := sh.v, p := sh.p, msk := sh.msk, rings := sh.rings, walk := sh.walk
           stair := sh.stair, vflags := sh.vflags, bsat := sh.bsat, bzero := sh.bzero
           pc := sh.pc, delay := sh.delay }

def shadowOf (c : Core) : Shadow :=
  { s := c.s, v := c.v, p := c.p, msk := c.msk, rings := c.rings, walk := c.walk, stair := c.stair
    vflags := c.vflags, bsat := c.bsat, bzero := c.bzero, pc := c.pc, delay := c.delay }

/-- Words of a list of ranges, as bytes. -/
def rangeBytes (get : Nat → BitVec 64) (l : List (Nat × Nat)) : List Byte :=
  l.foldr (fun r acc => (List.range r.2).foldr (fun i acc => toBytes 8 (get (r.1 + i)).toNat ++ acc) acc) []

/-- The words of a shadow: PREDICATES and flags as the shadow holds them. -/
def shadowGet (s : State) (n : Nat) (c : Core) (off : Nat) : BitVec 64 :=
  match off with
  | 0xC3 => c.vflags.setWidth 64
  | 0xC4 => c.bsat.setWidth 64
  | 0xC5 => c.bzero.setWidth 64
  | off => windowGet s n c 0 off

/-- The image of core `n` after its header. -/
def imageBody (s : State) (n rows : Nat) : List Byte :=
  let c := coreOf s n
  let fv := freeVal s 4011 32768
  rangeBytes (windowGet s n c fv) windowRanges ++ rangeBytes (windowGet s n c fv) [(0x800000, 512 * rows)] ++
    match c.seg with
    | some sh => rangeBytes (shadowGet s n (shadowCore c sh)) shadowRanges
    | none => []

def imageTag : Nat := 0xC7E50714

/-- The whole image. -/
def imageOf (s : State) (n rows : Nat) : List Byte :=
  let c := coreOf s n
  let seg := c.seg.isSome
  let body := imageBody s n rows
  let head := toBytes 8 imageTag ++ toBytes 4 (imageLen rows seg) ++ toBytes 2 rows ++ toBytes 1 c.profile.toNat ++
    toBytes 1 seg.toNat ++ toBytes 4 (crc32c body) ++
    (c.lands.toList.foldr (fun x acc => toBytes 4 x.toNat ++ acc) []) ++ toBytes 24 0
  head ++ body

/-- Raw words read back from bytes. -/
def putRanges (put : Core → Nat → BitVec 64 → Core) (l : List (Nat × Nat)) (c : Core) (d : List Byte) : Core × List Byte :=
  l.foldl (fun x r => (List.range r.2).foldl (fun (x : Core × List Byte) i =>
    (put x.1 (r.1 + i) (BitVec.ofNat 64 (ofBytes (x.2.take 8))), x.2.drop 8)) x) (c, d)

/-- The DROWS that a target's kernel declares. -/
def kernelRows (s : State) (m : Nat) : Nat :=
  match (coreOf s m).kernel.bind fun k => s.kernels.find? fun x => x.id == k with
  | some k => fld k.record 95 84
  | none => 0

/-- The refusal code of a `crest` whose image is `d` (R292); 0 for none. -/
def crestRefusal (s : State) (m : Nat) (lim : Nat) (d : List Byte) : Nat :=
  let v (lo n : Nat) : Nat := ofBytes ((d.drop lo).take n)
  let rows := v 12 2
  let seg := v 15 1
  if v 0 8 != imageTag || 1 < seg || v 40 24 != 0 || v 8 4 != imageLen rows (seg == 1) || lim < v 8 4 then 0x01
  else if v 16 4 != crc32c ((d.take (v 8 4)).drop 64) then 0x02
  else if capRows s m < rows then 0x0A
  else 0

/-- A restored routine goes on from its entry, which its image restores after it (R60, R207). -/
def renewEntry (c : Core) : Core := { c with mx := { c.mx with run := c.mx.run.map fun r => { r with entry := namedEntry c.mx } } }

/-- DETAIL of the cause that the last routine's end holds (R219), as the window's words give it: the micro-address that
UPC names, and the code of a TRAPM there. See notes/assumptions/69.md. -/
def heldDetail (m : Matrix) : BitVec 32 :=
  if !mHeldIn m || !entryValid (namedEntry m) m.last.mp[0] then 0
  else match decodeMicro (spGet m.ustore m.last.upc.toNat) with
    | some (.trapm code) => BitVec.ofNat 32 (code.toNat <<< 16 + m.last.upc.toNat)
    | _ => m.last.upc.setWidth 32

def renewDetail (c : Core) : Core := { c with mx := { c.mx with heldDet := heldDetail c.mx } }

/-- The core that an image restores; rows past DROWS are undefined until written (R311). -/
def restoreCore (c : Core) (d : List Byte) : Core :=
  let v (lo n : Nat) : Nat := ofBytes ((d.drop lo).take n)
  let rows := v 12 2
  let c := { c with undef := spOf 2048 (fun q => if q < rows then 0 else BitVec.allOnes 4096), tPoison := []
                    wrote := [], mixed := []
                    mx := { c.mx with run := none } }
  let x := putRanges (windowSet true 0) windowRanges c (d.drop 64)
  let y := putRanges (windowSet true 0) [(0x800000, 512 * rows)] x.1 x.2
  let c := { renewDetail (renewEntry y.1) with
    profile := BitVec.ofNat 2 (v 14 1)
    lands := Vector.ofFn fun i => BitVec.ofNat 32 (v (20 + 4 * i.val) 4) }
  if v 15 1 = 1 then
    let z := putRanges (windowSet true 0) shadowRanges c y.2
    { c with seg := some (shadowOf z.1) }
  else { c with seg := none }

/-! ### `csave` and `crest` (R290, R292) -/

/-- The length of the image that a `crest` is to read: the one its header's DROWS and SEG give, if memory holds an
image there; else the one of the target's kernel. See notes/assumptions/70.md. -/
def storedLen (s : State) (h : Handle) (off t : Nat) : Nat :=
  let v (lo n : Nat) : Nat := ofBytes (memRead s.mem (hBase h + off + lo) n)
  if v 0 8 = imageTag then imageLen (v 12 2) (v 15 1 == 1) else imageLen (kernelRows s t) false

/-- The core of the hall that B[2:0] names. -/
def slotImage (save : Bool) (u : CSlot) (g : Guard) (h : Fin 16) (a b : Src) (s : State) (n : Nat) : SlotOp :=
  let c := coreOf s n
  let off := (cVal u s n 0 a).toNat
  let m := hallCore n ((cVal u s n 1 b).toNat % 8)
  let t := m.getD 0
  let len := if save then imageLen (kernelRows s t) (coreOf s t).seg.isSome
    else if hPresent c.h[h] && off + 64 ≤ hSize c.h[h] then storedLen s c.h[h] off t else 64
  let ready := match m with
    | some m => if save then heldRecord s m else (coreOf s m).run == .vacant
    | none => false
  needsH n { cSlot u g with
    ring := some (cRing u), reads := [a, b], rewalk := [h], copies := 1
    pre := failIf (n = 288) 0x01 ++ handleChecks c h (!save) save (hSize c.h[h] < off + len) ++
      failIf (off % 128 != 0) 0x07 (hDetail h) ++ failIf (!ready) 0x07 (hDetail h) ++
      failIf (save && tableFails s n c.h[h] [(off, len)]) 0x03
    eff := fun s =>
      if save then enqueueRing s n u (.csave t) 15 0 0 c.h[h] off 0 1
      else enqueueRing s n u (.crest t) 15 0 0 c.h[h] off 1 0 }

def slotCsave (u : CSlot) (g : Guard) (h : Fin 16) (a b : Src) : State → Nat → SlotOp := slotImage true u g h a b
def slotCrest (u : CSlot) (g : Guard) (h : Fin 16) (a b : Src) : State → Nat → SlotOp := slotImage false u g h a b

/-- The status lands and the count falls (R290, R292); LEN of a refusal is 0, see notes/assumptions/85.md. -/
def endImage (s : State) (n : Nat) (k : Copy) (save : Bool) (code len : Nat) : State :=
  let v : BitVec 64 := BitVec.ofNat 64 (if code = 0 then len else 2 ^ 63 + code <<< 48)
  copyEnd (modCore s n fun c =>
    let c := landIn c k.slot k.id v
    if save then subCounts c 15 0 1 else subCounts c 15 1 0) n k.id

/-- The message waits at the fabric interface of core `m` for an entry, or is a unit behind one that does (R364). -/
def atInterface (s : State) (m : Nat) (f : XFlight) : Bool :=
  let l := (coreOf s m).await
  l.contains f.id || (f.due ≤ s.now && isUnit f.body && s.flights.any fun x => x.src == f.src && l.contains x.id)

/-- No message of its kernel is on its way to core `m`, and none waits in a trigger of it (R337, R365). -/
def messagesDone (s : State) (m : Nat) : Bool :=
  !(s.flights.any fun f => f.dst == m && !atInterface s m f) && (coreOf s m).trig.toList.all fun x => match x with | .holding _ _ => false | _ => true

/-- An urgent pre-emption whose `csave` is refused with code 0x03 is retried at the kernel's next landing: cause 0x11 is
pending again, held for it (R293): see notes/assumptions/91.md. -/
def retrySave (s : State) (m : Nat) : State :=
  match (coreOf s m).run with
  | .trapped r => if fld r 55 48 == 0x11 && r.getLsbD 8 then modCore s m fun c => addCause c 0x11 (r.setWidth 32) true else s
  | _ => s

/-- `csave` has written its image and made the core vacant, once the core's freeze is complete. An image taken for
cause 0x12 is a capture, whose kernel the handler is to report (R397). -/
def csaveEvent (s : State) (ref : CopyRef) : State :=
  let n := agentNo ref.agent
  match refCopy s ref with
  | none => s
  | some k =>
    match k.kind with
    | .csave m =>
      let c := coreOf s m
      if !mayPerform s n k || !heldRecord s m || !c.copies.isEmpty || !messagesDone s m then s
      else if !c.abuf.isEmpty then endImage (retrySave s m) n k true 0x03 0
      else
        let rows := kernelRows s m
        let d := imageOf s m rows
        let s := if k.absent then s else storeLines (unreplicate s (hBase k.h)) (dieOf n) (hBase k.h + k.off) d
        let s := if poisonIn c 0 (4096 * rows) then modCore s n fun c => consume c 0 else s
        let s := endImage (vacateCore s m) n k true 0 (imageLen rows c.seg.isSome)
        match c.kernel, c.run with
        | some id, .trapped r =>
          afterEvent (if fld r 55 48 == 0x12 then modKernel s id fun x => { x with captured := x.captured ++ [(m, r.extractLsb' 48 8)] }
            else memberSaved s id)
        | _, _ => s
    | _ => s

/-- The arrival of core `m`, for its kernel, at a landing not released, as the landing holds it. -/
def arrivalOf (s : State) (m : Nat) : Option Arrival :=
  s.landings.findSome? fun l => if l.kernel != kernelNo s m then none else (l.arrived.find? fun a => a.1 == m).map fun a => { scope := l.scope, num := l.num, tick := a.2, latch := none }

/-- `crest` has read its image into the vacant core, which stays frozen with a record that the handler
holds, and reads the number of its new group (R322). -/
def crestEvent (s : State) (ref : CopyRef) : State :=
  let n := agentNo ref.agent
  match refCopy s ref with
  | none => s
  | some k =>
    match k.kind with
    | .crest m =>
      if !mayPerform s n k || (coreOf s m).run != .vacant then s
      else
        let lim := copyLimit k
        let pa := hBase k.h + k.off
        let len := if k.absent then 0 else min lim (ofBytes (memRead s.mem (pa + 8) 4))
        let bad := !k.absent && !(poisonedIn s.poison pa (max 64 len)).isEmpty
        let d := if k.absent then [] else toBytes (max 64 len) (bankRead s pa (max 64 len))
        let code := crestRefusal s m lim d
        let s := if bad then modCore s n fun c => consume c 1 else s
        if code != 0 then endImage s n k false code 0
        else
          let rec_ := trapRecord m 0 0 0
          let s := endImage (modCore s m fun c =>
            { restoreCore c d with
              run := .trapped rec_
              arrival := arrivalOf s m
              domain := if c.kernel.isSome then c.domain else (restoreCore c d).domain }) n k false 0 len
          afterEvent (memberRestored s m)
    | _ => s

/-! ### The instructions -/

def execFrd (u : CSlot) (g : Guard) (a : Src) (s : State) : Host.Outcome State Fault Refusal := runSlot s (slotFrd u g a)
def execFwr (u : CSlot) (g : Guard) (a b : Src) (s : State) : Host.Outcome State Fault Refusal := runSlot s (slotFwr u g a b)
def execCsave (u : CSlot) (g : Guard) (h : Fin 16) (a b : Src) (s : State) : Host.Outcome State Fault Refusal := runSlot s (slotCsave u g h a b)
def execCrest (u : CSlot) (g : Guard) (h : Fin 16) (a b : Src) (s : State) : Host.Outcome State Fault Refusal := runSlot s (slotCrest u g h a b)
def execCsaveDone (c : CopyRef) (s : State) : Host.Outcome State Fault Refusal := .next (csaveEvent s c)
def execCrestDone (c : CopyRef) (s : State) : Host.Outcome State Fault Refusal := .next (crestEvent s c)

end Sys2Proof.Machine
end

