-- ==== Sys2Proof/Machine/Landing.lean ====
section
/-!
DEFINITION. Landing.lean: landings, `align`, segments and time triggers (18_barrier.md R330 to R340).
-/
namespace Sys2Proof.Machine

/-- A slot of the X unit. -/
def xSlot (g : Guard) : SlotOp := guarded 6 g

/-- Operand i of the X slot. -/
def xVal (s : State) (n i : Nat) (a : Src) : BitVec 64 := sVal s n 6 i a

/-! ### Parties (R330, R331) -/

/-- LEVEL of a core's group. -/
def levelOf (c : Core) : Nat := fld c.domain 2 0

/-- The effective scope of a `land` (R330). -/
def effScope (c : Core) (scope : Fin 5) : Fin 5 :=
  if h : levelOf c < scope.val then ⟨levelOf c, Nat.lt_trans h scope.isLt⟩ else scope

/-- The unit of level D in which core `n` lies, counted from the group's first. -/
def unitOf (s : State) (n D : Nat) : Nat :=
  match kernelAt s n with
  | some k => (n - k.members.headD 0) / groupSize D
  | none => 0

/-- The parties of a landing on this package: the runners of its unit. -/
def partiesOf (s : State) (l : Landing) : List Nat :=
  match findKernel s l.kernel with
  | some k => (runnersOf k).filter fun n => (n - k.members.headD 0) / groupSize l.scope.val == l.unit
  | none => l.arrived.map (·.1)

/-- Members that have exited count as arrived. -/
def hasExited (s : State) (l : Landing) (n : Nat) : Bool :=
  match findKernel s l.kernel with
  | some k => k.exited.contains n
  | none => false

def findLanding (s : State) (id : Nat) : Option Landing := s.landings.find? fun l => l.id == id

def modLanding (s : State) (id : Nat) (f : Landing → Landing) : State :=
  { s with landings := s.landings.map fun l => if l.id == id then f l else l }

/-- The party of this landing has arrived and waits at its `land`, its record ended (R332, R446); a pair's arrival leaves it
once the signatures of the word match (R393). -/
def waits (s : State) (l : Landing) (n : Nat) : Bool :=
  let c := coreOf s n
  c.run == .running && c.kernel == some l.kernel && l.arrived.any (fun a => a.1 == n) && wordsMatched c &&
    match c.arrival with
    | some a => a.scope == l.scope && a.num == l.num
    | none => false

/-! ### Arrival (R331, R332) -/

/-- Core `n` arrives. -/
def arriveAt (s : State) (n : Nat) (scope : Fin 5) : State :=
  let c := coreOf s n
  let d := effScope c scope
  let num := c.lands[d] + 1
  let t := tickOf s
  let kid := c.kernel.getD s.nextKernel
  let unit := unitOf s n d.val
  let s := modCore s n fun c =>
    let c := depositAt c .x 0 c.cyc (some c.nextId)
    { c with nextId := c.nextId + 1, lands := c.lands.set d num
             arrival := some { scope := d, num := num, tick := t, latch := some (ringOf c .x).ptr } }
  let s := match s.landings.find? fun l => l.kernel == kid && l.scope == d && l.unit == unit && l.num == num with
    | some l => modLanding s l.id fun l => { l with arrived := l.arrived ++ [(n, t)] }
    | none =>
      { s with landings := s.landings ++ [{ id := s.nextLanding, kernel := kid, scope := d, unit := unit, num := num
                                            arrived := [(n, t)], remote := none, ta := none, tr := none }]
               nextLanding := s.nextLanding + 1 }
  modKernel s kid fun k => { k with st := if k.st == .running then .landing else k.st }

def slotLand (g : Guard) (scope : Fin 5) (_ : State) (n : Nat) : SlotOp :=
  computeOnly n { xSlot g with ring := some .x, eff := fun s => arriveAt s n scope }

/-! ### Completion and release (R269, R332, R334) -/

/-- Every copy and message that the party issued is performed, every timetable run it began complete. -/
def partyDone (s : State) (n : Nat) : Bool :=
  (coreOf s n).copies.isEmpty && !(s.flights.any fun f => f.src == n) &&
    !s.runs.any fun r => !r.ended && r.joined.any fun j => j.1 == n

/-- A landing of scope 4 to which other chips add: members there are parties, or links beyond this chip's stand in its
tree (R330, R332). What they add arrives as `remote`: see notes/assumptions/21.md. -/
def needsOthers (s : State) (l : Landing) : Bool :=
  l.scope == 4 && (1 < s.depth || (findKernel s l.kernel).any fun k => 1 < chipsOf k)

/-- No message that another chip's member of kernel `k` sent is on its way here, or waits for an entry (R269, R364). -/
def othersDelivered (s : State) (k : Nat) : Bool := s.flights.all fun f => f.src < 1000 || f.kernel != some k

/-- The conditions of R269, on this package and on the others. A member that has exited holds nothing up, whatever of it
is still on its way: see notes/assumptions/53.md. -/
def conditionsHold (s : State) (l : Landing) : Bool :=
  ((partiesOf s l).all fun n => hasExited s l n || (waits s l n && partyDone s n)) &&
    (!needsOthers s l || (l.remote.isSome && othersDelivered s l.kernel))

/-- LAT of the link over which this chip was aligned: its own part of a landing's tree (R332, R354). -/
def ownLat (s : State) : Nat := (s.upLink.map fun p => lLat s p.val).getD 0

/-- Lmax: the largest LAT of the links of the landing's tree. -/
def largestLat (s : State) (l : Landing) : Nat := max (ownLat s) ((l.remote.map (·.2)).getD 0)

/-- LLAT in ticks. -/
def landLatency (s : State) (l : Landing) : Nat :=
  match l.scope.val with
  | 0 => 0 | 1 => 32 | 2 => 96 | 3 => 192 | _ => 2 * largestLat s l + 128

/-- The first multiple of g at or after t. -/
def roundUp (t g : Nat) : Nat := (t + g - 1) / g * g

/-- The release of a landing whose conditions hold now, in 1/252 tick. -/
def releaseTime (s : State) (l : Landing) (ta : Nat) : Nat :=
  let n := (l.arrived.headD (0, 0)).1
  if l.scope = 0 then (coreOf s n).next
  else 252 * roundUp (ta + landLatency s l) (if l.scope = 4 then 10 else grain (opOf' s n))

/-- All parties have arrived and every condition holds: Ta and Tr are fixed. -/
def landingHolds (s : State) (id : Nat) : State :=
  match findLanding s id with
  | none => s
  | some l =>
    if l.tr.isSome || !conditionsHold s l then s
    else
      let ta := l.arrived.foldl (fun a x => max a x.2) (max (tickOf s) ((l.remote.map (·.1)).getD 0))
      modLanding s id fun l => { l with ta := some ta, tr := some (releaseTime s l ta) }

/-- The members of a pod kernel on other chips have arrived at landing `num` and meet the conditions, at a tick; `lat`
is the largest LAT of the tree's links that other chips' tables hold (R330, R332). -/
def othersArrive (s : State) (kernel : Nat) (num : BitVec 32) (tick lat : Nat) : State :=
  match findKernel s kernel with
  | none => s
  | some k =>
    if recLevel k.record != 4 then s
    else
      let mine (l : Landing) : Bool := l.kernel == kernel && l.scope == 4 && l.num == num
      if s.landings.any mine then
        { s with landings := s.landings.map fun l => if mine l && l.tr.isNone then { l with remote := some (tick, lat) } else l }
      else
        { s with landings := s.landings ++ [{ id := s.nextLanding, kernel := kernel, scope := 4, unit := 0, num := num
                                              arrived := [], remote := some (tick, lat), ta := none, tr := none }]
                 nextLanding := s.nextLanding + 1 }

/-- Every RDC of the package loses its lines and load-blocks (R269). -/
def dropAllRdc (s : State) : State :=
  { s with dies := s.dies.map fun d => { d with rdc := [], rdcBlocks := [], rdcPoison := [] } }

/-- A step up freezes the members of its groups at their landings (R384). -/
def stepsUp (s : State) (n : Nat) : Bool :=
  match kernelAt s n with
  | some k => s.steps.any fun x => x.up && k.members.any fun m => x.dies.getLsbD (dieOf m)
  | none => false

/-- A party is released at time `tr`: it issues in the cycle that begins then, or is frozen first by a step up
(R332, R334, R369, R384). The tick it is told is the one in which its cycle begins: see notes/assumptions/95.md. A pair's
leading core signs it (R392). -/
def releaseParty (s : State) (n tr : Nat) : State :=
  let p := periodOf s n
  let s := if stepsUp s n then freeze s n .stepping else s
  let now := s.now
  modCore s n fun c =>
    let q := (ringOf c .x).ptr
    let c := signMore (setLatch c .x q.val (BitVec.ofNat 4096 (tr / 252))) c.cyc (toBytes 8 (tr / 252))
    { c with arrival := none, seg := none, xerr := false, tterr := false
             next := max tr (boundaryAt now p), waited := true
             causes := c.causes.map fun x => { x with held := false } }

/-- Tick Tr begins. -/
def landingRelease (s : State) (id : Nat) : State :=
  match findLanding s id with
  | none => s
  | some l =>
    match l.tr with
    | none => s
    | some tr =>
      if s.now < tr then s
      else
        let s := l.arrived.foldl (fun s a => releaseParty s a.1 tr) s
        let s := if 3 ≤ l.scope.val then dropAllRdc s else s
        let s := { s with landings := s.landings.filter fun x => x.id != id }
        if s.landings.any fun x => x.kernel == l.kernel then s
        else modKernel s l.kernel fun k => { k with st := if k.st == .landing then .running else k.st }

/-! ### `align` (R336) -/

def slotAlign (g : Guard) (a : Src) (s : State) (n : Nat) : SlotOp :=
  let t := xVal s n 0 a
  { xSlot g with
    ring := some .x, reads := [a], stall := s.now < 252 * t.toNat, declared := true
    eff := fun s => modCore s n fun c => deposit64 c .x (BitVec.ofNat 64 (tickOf s) - t) 1 }

/-! ### Segments (R338) -/

/-- What `seg` waits for, of what is in flight. -/
def segWaits : Act → Bool
  | .s _ _ | .v _ _ | .p _ _ | .mk _ _ | .walk _ _ | .mp _ _ | .hnd _ _ | .xlat _ _ _ | .tdef _ _ _
  | .flags _ | .blocks _ _ => true
  | _ => false

/-- Every result issued before has landed. -/
def allLanded (c : Core) : Bool :=
  c.pend.all (fun e => !segWaits e.act) && c.rings.toList.all fun r => r.latches.toList.all (latchReady c)

def slotSeg (g : Guard) (s : State) (n : Nat) : SlotOp :=
  let before := coreOf s n
  computeOnly n { xSlot g with
    stall := isCompute n && !allLanded before
    eff := fun s => modCore s n fun c => { c with seg := some (shadowOf before) } }

/-! ### Time triggers (R337) -/

def trigAt (c : Core) (k : Nat) : Trigger := c.trig.toList.getD k .idle

def slotXtrig (g : Guard) (k : Fin 4) (a : Src) (s : State) (n : Nat) : SlotOp :=
  let c := coreOf s n
  let t := xVal s n 0 a
  computeOnly n { xSlot g with
    reads := [a], pre := featureCheck c 5, stall := isCompute n && c.trig[k] != .idle
    eff := fun s => modCore s n fun c => { c with trig := c.trig.set k (.armed t) } }

/-- Message `f` waits in its sender for a trigger. -/
def isHeldFlight (s : State) (f : XFlight) : Bool :=
  (coreOf s f.src).trig.toList.any fun x => match x with | .holding _ i => i == f.id | _ => false

/-- When a held message leaves: the first cycle at or after its tick, and after the cycle of its `xsend`. -/
def fireTime (s : State) (n : Nat) (tick : BitVec 64) (f : XFlight) : Nat :=
  boundaryAt (max (252 * tick.toNat) (f.posted + 1)) (periodOf s n)

/-- The message that trigger `k` of core `n` holds leaves. -/
def triggerEvent (s : State) (n k : Nat) : State :=
  match trigAt (coreOf s n) k with
  | .holding tick i =>
    match s.flights.find? fun f => f.id == i with
    | none => s
    | some f =>
      let t := fireTime s n tick f
      if s.now < t then s
      else
        let s := modCore s n fun c => { c with trig := c.trig.setIfInBounds k .idle }
        { s with flights := s.flights.map fun x => if x.id == i then { x with due := t + lambda s f.src f.dst, posted := t } else x }
  | _ => s

/-! ### The instructions -/

def execLand (g : Guard) (scope : Fin 5) (s : State) : Host.Outcome State Fault Refusal := runSlot s (slotLand g scope)
def execAlign (g : Guard) (a : Src) (s : State) : Host.Outcome State Fault Refusal := runSlot s (slotAlign g a)
def execSeg (g : Guard) (s : State) : Host.Outcome State Fault Refusal := runSlot s (slotSeg g)
def execXtrig (g : Guard) (k : Fin 4) (a : Src) (s : State) : Host.Outcome State Fault Refusal := runSlot s (slotXtrig g k a)
def execLandingConditionsHold (l : Nat) (s : State) : Host.Outcome State Fault Refusal := .next (landingHolds s l)
def execLandingRelease (l : Nat) (s : State) : Host.Outcome State Fault Refusal := .next (landingRelease s l)
def execTriggerFire (a : Agent) (k : Fin 4) (s : State) : Host.Outcome State Fault Refusal := .next (triggerEvent s (agentNo a) k.val)

end Sys2Proof.Machine
end

