-- ==== Sys2Proof/Machine/Xslot.lean ====
section
/-!
DEFINITION. Xslot.lean: messages between members, `xput`, and timetable runs (20_link.md R361 to R374).
-/
namespace Sys2Proof.Machine

/-! ### Partners (R361) -/

/-- The partner A is no member of the group. -/
def badPartner (c : Core) (a : BitVec 64) : Bool := fld c.domain 23 8 ≤ a.toNat

/-- Where the member with index `i` of core `n`'s group runs. -/
def partnerCore (s : State) (n i : Nat) : Nat :=
  match kernelAt s n with
  | some k => memberCore k i
  | none => n

def partnerCheck (c : Core) (a : BitVec 64) : List (Nat × BitVec 32) := failIf (badPartner c a) 0x07

/-! ### `xsend` and triggers (R366, R337) -/

/-- The lowest-numbered Armed trigger, with its tick. -/
def armedTrigger (c : Core) : Option (Nat × BitVec 64) :=
  (List.range 4).findSome? fun k => match trigAt c k with | .armed t => some (k, t) | _ => none

/-- A message sets out, or waits in the trigger that takes it. -/
def sendMsg (s : State) (n dst : Nat) (m : XMsg) : State :=
  let id := s.nextFlight
  let s := postFlight s n dst (coreOf s n).nextId (.msg m)
  match armedTrigger (coreOf s n) with
  | some (k, t) => modCore s n fun c => { c with trig := c.trig.setIfInBounds k (.holding t id) }
  | none => s

def slotXsend (g : Guard) (vec : Bool) (tag : Fin 64) (a b : Src) (s : State) (n : Nat) : SlotOp :=
  let c := coreOf s n
  let p := xVal s n 0 a
  let v : Vec := if vec then vectorVal false false c (fvOp s 6 1) b else (xVal s n 1 b).setWidth 4096
  computeOnly n { xSlot g with
    reads := [a, b], pre := partnerCheck c p
    eff := fun s => sendMsg s n (partnerCore s n p.toNat)
      { src := c.coreIdx.toNat, dst := p.toNat, tag := tag, vec := vec, val := v } }

/-! ### Receiving (R367) -/

/-- The oldest entry from S with the tag. -/
def arrivalFrom (c : Core) (src : BitVec 64) (tag : Fin 64) : Option XMsg :=
  c.abuf.find? fun m => m.src == src.toNat && m.tag == tag

/-- The buffer without the entry that `arrivalFrom` finds. -/
def takeArrival (l : List XMsg) (src : BitVec 64) (tag : Fin 64) : List XMsg :=
  match l with
  | [] => []
  | m :: r => if m.src == src.toNat && m.tag == tag then r else m :: takeArrival r src tag

/-- A scalar message is 64 bits wide, as the latch it goes to is (R68, R366). -/
def cutMsg (m : XMsg) : XMsg := if m.vec then m else { m with val := (m.val.setWidth 64).setWidth 4096 }

/-- A receive: it stalls for its arrival, takes it and deposits what `f` makes of it. -/
def receiveSlot (g : Guard) (tag : Fin 64) (a : Src) (reads : List Src) (lat : Nat) (f : Core → XMsg → Vec) (s : State) (n : Nat) : SlotOp :=
  let c := coreOf s n
  let p := xVal s n 0 a
  let m := arrivalFrom c p tag
  computeOnly n { xSlot g with
    ring := some .x, reads := reads, pre := partnerCheck c p
    stall := isCompute n && !badPartner c p && m.isNone
    eff := fun s => match m with
      | some m => modCore s n fun x => deposit { x with abuf := takeArrival x.abuf p tag } .x (f c m) lat
      | none => s }

/-- Lane by lane for a vector, bits [31:0] for a scalar. -/
def combine (f : BitVec 32 → BitVec 32 → BitVec 32) (m : XMsg) (b : Vec) : Vec :=
  if m.vec then vecOf fun i => f (lane m.val i) (lane b i) else (f (lane m.val 0) (lane b 0)).setWidth 4096

/-- Operand B as a receive reads it: lane 0 is the scalar's bits [31:0]. -/
def receiveB (int : Bool) (s : State) (b : Src) (c : Core) : Vec := vectorVal false (!int) c (fvOp s 6 1) b

def slotXrecv (g : Guard) (tag : Fin 64) (a : Src) (s : State) (n : Nat) : SlotOp :=
  receiveSlot g tag a [a] 1 (fun _ m => (cutMsg m).val) s n

def slotXradd (g : Guard) (int : Bool) (tag : Fin 64) (a b : Src) (s : State) (n : Nat) : SlotOp :=
  receiveSlot g tag a [a, b] 2
    (fun c m => combine (if int then fun x y => x + y else fun x y => (fAdd .rn x y).1) m (receiveB int s b c)) s n

def slotXrmax (g : Guard) (int : Bool) (tag : Fin 64) (a b : Src) (s : State) (n : Nat) : SlotOp :=
  receiveSlot g tag a [a, b] 2
    (fun c m => combine (if int then fun x y => if x.slt y then y else x else fun x y => (fMinMax true x y).1) m (receiveB int s b c)) s n

/-! ### `xput` and `xstat` (R368, R369) -/

def slotXput (g : Guard) (ts : Fin 64) (a b : Src) (s : State) (n : Nat) : SlotOp :=
  let c := coreOf s n
  let d := tileReg c ts
  let p := xVal s n 0 a
  let v := xVal s n 1 b
  let td : BitVec 6 := v.setWidth 6
  let off := fld v 63 32
  computeOnly n { xSlot g with
    reads := [a, b], stall := tileBusy c ts, copies := 1
    pre := partnerCheck c p ++ capChecks s n [ts] ++
      failIf (fld v 31 6 != 0 || off % 512 != 0 || tRows d.a == 0) 0x07
    eff := fun s =>
      let s := enqueue s n (.xput ts (partnerCore s n p.toNat) td.toFin off) none d.a d.b Handle.zero 0 none
        (lastCycle c.cyc (copyLength d.a)) false
      modCore s n fun c => startStoring c ts }

def trigNo : Trigger → Nat
  | .idle => 0 | .armed _ => 1 | .holding _ _ => 2

/-- Runs that core `n` began and that are not complete. -/
def runsOf (s : State) (n : Nat) : Nat := s.runs.countP fun r => !r.ended && r.joined.any fun j => j.1 == n

/-- The X status (R369). -/
def xStatus (s : State) (n : Nat) : BitVec 64 :=
  let c := coreOf s n
  BitVec.ofNat 64 (c.abuf.length + c.xerr.toNat <<< 8 + c.tterr.toNat <<< 9 +
    packN 2 (fun k => trigNo (trigAt c k)) 4 <<< 12 + runsOf s n <<< 20)

def slotXstat (g : Guard) (s : State) (n : Nat) : SlotOp :=
  let v := xStatus s n
  computeOnly n { xSlot g with ring := some .x, eff := fun s => modCore s n fun c => deposit64 c .x v 1 }

/-! ### Messages on their way (R270, R364, R365, R368) -/

/-- Message `x` comes before message `f` in their sender's issue order; of an `xput` and the `xsend` at its place the
`xsend` comes first. -/
def before (x f : XFlight) : Bool :=
  let unit (y : XFlight) : Nat := (isUnit y.body).toNat
  x.ord < f.ord || (x.ord == f.ord && (unit x < unit f || (unit x == unit f && x.id < f.id)))

/-- Units of copy `k` of core `n` that have not set out. -/
def unposted (s : State) (n : Nat) (k : Copy) : Bool :=
  k.done.length + (s.flights.countP fun x => x.src == n && match x.body with
    | .unit _ _ _ _ c _ => c == k.id
    | .msg _ => false) < xputUnits k

/-- An earlier `xput` of the sender to the same destination has units that have not set out. -/
def behindPut (s : State) (f : XFlight) : Bool :=
  (coreOf s f.src).copies.any fun k => match k.kind with
    | .xput _ dst _ _ => dst == f.dst && k.id < f.ord && unposted s f.src k
    | _ => false

/-- No earlier message of one sender to one destination has still to be performed (R270). -/
def isFirst (s : State) (f : XFlight) : Bool :=
  !(s.flights.any fun x => x.src == f.src && x.dst == f.dst && before x f) && !behindPut s f

/-- No earlier message of one sender to one destination on another chip has still to leave. -/
def isNextOut (s : State) (f : XFlight) : Bool :=
  !(s.flights.any fun x => x.src == f.src && x.dst == f.dst && !x.sent && before x f) && !behindPut s f

/-- A pair's message leaves it once the signatures of its word have matched (R393). -/
def pairSent (s : State) (f : XFlight) : Bool := 1000 ≤ f.src || !isPaired s f.src || f.posted + 3 * periodOf s f.src ≤ s.now

/-- A message for another chip leaves: in its turn, and a pair's once the signatures of its word have matched (R393). -/
def mayLeave (s : State) (f : XFlight) : Bool :=
  1000 ≤ f.dst && !f.sent && isNextOut s f && pairSent s f

/-- The kernel of the message has ended, or is ending. -/
def isOver (s : State) (f : XFlight) : Bool :=
  match f.kernel.bind (findKernel s) with
  | some k => k.group == .vacating
  | none => f.kernel.isSome

/-- The destination member has exited. -/
def dstExited (s : State) (f : XFlight) : Bool := (f.kernel.bind (findKernel s)).any fun k => k.exited.contains f.dst

/-- The message is at the fabric interface of its destination: it waits there for an entry, or is a unit whose time on the
way is over and that waits for earlier ones. -/
def isThere (s : State) (x : XFlight) : Bool :=
  (coreOf s x.dst).await.contains x.id || (isUnit x.body && x.due ≤ s.now && pairSent s x)

/-- Every earlier message of its sender to its destination is at the interface there. -/
def isNextIn (s : State) (f : XFlight) : Bool :=
  !(s.flights.any fun x => x.src == f.src && x.dst == f.dst && !isThere s x && before x f) && !behindPut s f

/-- The message reaches the interface of its destination, a unit to be performed: its time on the way is over (R363), the
destination holds the member, and it is its turn among its sender's (R270, R364). -/
def mayArrive (s : State) (f : XFlight) : Bool :=
  let c := coreOf s f.dst
  f.due ≤ s.now && !isHeldFlight s f && (if isUnit f.body then isFirst s f else isNextIn s f) && !c.await.contains f.id &&
    pairSent s f && c.run != .vacant && c.kernel == f.kernel

def dropFlight (s : State) (f : XFlight) : State := { s with flights := s.flights.filter fun x => x.id != f.id }

/-- A message for another chip has left. -/
def markSent (s : State) (f : XFlight) : State :=
  { s with flights := s.flights.map fun x => if x.id == f.id then { x with sent := true } else x }

def findFlight (s : State) (id : Nat) : Option XFlight := s.flights.find? fun f => f.id == id

/-- A message takes an entry of the arrival buffer of its destination, or waits at its fabric interface (R364). -/
def enterBuffer (s : State) (f : XFlight) (m : XMsg) : State :=
  let c := coreOf s f.dst
  if c.abuf.length < 64 && c.await.isEmpty && isFirst s f then setCore (dropFlight s f) f.dst { c with abuf := c.abuf ++ [m] }
  else setCore s f.dst { c with await := c.await ++ [f.id] }

/-- An `xsend` reaches its destination. -/
def messageEvent (s : State) (id : Nat) : State :=
  match findFlight s id with
  | none => s
  | some f =>
    match f.body with
    | .unit _ _ _ _ _ _ => s
    | .msg m =>
      if isOver s f || (dstExited s f && !isHeldFlight s f && isFirst s f) then dropFlight s f
      else if 1000 ≤ f.dst then
        if isHeldFlight s f || !mayLeave s f then s
        else report (markSent s f) (.xmessage (BitVec.ofNat 16 (remoteChip f.dst)) m)
      else if mayArrive s f then enterBuffer s f m
      else s

/-- The message that waits longest at the interface of core `n`, with what it leaves waiting; none where none waits. -/
def firstWaiting (s : State) (n : Nat) : Option (Option (XFlight × XMsg) × List Nat) :=
  match (coreOf s n).await with
  | [] => none
  | id :: r => some ((findFlight s id).bind fun f => match f.body with
      | .msg m => some (f, m)
      | .unit _ _ _ _ _ _ => none, r)

/-- The waiting message can take an entry; one that is gone leaves its place. -/
def entryFree (s : State) (n : Nat) : Bool :=
  match firstWaiting s n with
  | none => false
  | some (none, _) => true
  | some (some x, _) => (coreOf s n).abuf.length < 64 && isFirst s x.1

/-- A waiting message takes an entry, in the order in which they reached the interface (R364). -/
def entryEvent (s : State) (n : Nat) : State :=
  let c := coreOf s n
  if !entryFree s n then s
  else match firstWaiting s n with
    | some (some x, r) => setCore (dropFlight s x.1) n { c with abuf := c.abuf ++ [x.2], await := r }
    | some (none, r) => setCore s n { c with await := r }
    | none => s

/-- The logical rows that `n` bytes from tile-store address x meet. -/
def unitRows (x n : Nat) : List Nat := if n = 0 then [] else rowsOf x n

/-- The bytes of a unit are written at the end of the destination's cycle; at once while it is frozen. -/
def writeUnit (s : State) (n : Nat) (td : Fin 64) (x len : Nat) (v : Vec) : State :=
  let l := at_ x (toBytes len v.toNat)
  modCore s n fun c =>
    let c := { c with rowBusy := (unitRows x len).foldl (fun b r => countAdd b r 1) c.rowBusy }
    let e : Pend := { when_ := c.cyc, by_ := c.cyc, act := .arrive td l }
    if c.run == .running then { c with pend := c.pend ++ [e] } else applyArrive (freeVal s 4011 32768) c e

/-- An `xput` unit reaches its destination. -/
def unitEvent (s : State) (id : Nat) : State :=
  match findFlight s id with
  | none => s
  | some f =>
    match f.body with
    | .msg _ => s
    | .unit td off len v copy num =>
      if isOver s f || (dstExited s f && !isHeldFlight s f && isFirst s f) then unitDone (dropFlight s f) f.src copy num
      else if 1000 ≤ f.dst then
        if !mayLeave s f then s
        else
          report (markSent s f)
            (.xunit (BitVec.ofNat 16 (remoteChip f.dst)) (coreOf s f.src).coreIdx.toNat (remoteMember f.dst) td.val off (toBytes len v.toNat))
      else if !mayArrive s f then s
      else
        let c := coreOf s f.dst
        let a := c.t[td].a
        let x := tileAddr a off
        let s' := unitDone (dropFlight s f) f.src copy num
        if tRows a == 0 || tRows a * 4096 < off + len then modCore s' f.dst fun c => { c with xerr := true }
        else if (unitRows x len).any c.evac.contains then s
        else writeUnit s' f.dst td x len v

/-- A message to another chip is performed there (R270). -/
def deliveredEvent (s : State) (id : Nat) : State :=
  match findFlight s id with
  | none => s
  | some f =>
    if !f.sent || !isFirst s f || s.now < f.due then s
    else match f.body with
      | .msg _ => dropFlight s f
      | .unit _ _ _ _ copy num => unitDone (dropFlight s f) f.src copy num

/-! ### From the other chips of a pod (R366, R368) -/

/-- The pod kernel that this chip runs, or has saved. -/
def podKernel (s : State) : Option Kernel := s.kernels.find? fun k => recLevel k.record == 4 && (isPlaced k || k.saved)

/-- A message from another chip sets out for its member's core, which performs it as one of this package, after those that
came from its sender before it (R270); one that names no member of this chip is discarded. -/
def podArrives (s : State) (v : Via) (src dst : Nat) (body : Payload) : State :=
  match podKernel s with
  | none => s
  | some k =>
    let n := memberCore k dst
    if 1000 ≤ n || 65536 ≤ src || recMembers k.record ≤ dst then s
    else
      { s with flights := s.flights ++ [{ id := s.nextFlight, ord := s.nextFlight, src := remoteDst (vSrc v.hdr).toNat src, dst := n
                                          due := s.now, posted := s.now, kernel := some k.id, sent := false, body := body }]
               nextFlight := s.nextFlight + 1 }

/-- A message from another chip: VTYPE 4 (R366). -/
def podMessage (s : State) (v : Via) (m : XMsg) : State :=
  receive s v 4 (Config.valueUnits (if m.vec then 512 else 8)).toNat false fun s => podArrives s v m.src m.dst (.msg (cutMsg m))

/-- A unit of an `xput` from another chip. -/
def podUnit (s : State) (v : Via) (src dst : Nat) (td : Fin 64) (off : Nat) (data : List Byte) : State :=
  receive s v 4 (Config.valueUnits data.length).toNat false fun s =>
    podArrives s v src dst (.unit td off data.length (BitVec.ofNat 4096 (ofBytes data)) 0 0)

/-! ### Timetables (R370 to R373) -/

def hdrNent (h : BitVec 512) : Nat := fld h 47 32
def hdrPn (h : BitVec 512) : Nat := fld h 55 48 % 64
def hdrFmt (h : BitVec 512) : Fmt := decodeFmt (BitVec.ofNat 3 (fld h 63 56))
def hdrMask (h : BitVec 512) : BitVec 16 := h.extractLsb' 64 16
def hdrWin (h : BitVec 512) : Nat := fld h 87 80

def eToff (e : BitVec 256) : Nat := fld e 255 224
def eChunk (e : BitVec 256) : Nat := fld e 223 208
def eLines (e : BitVec 256) : Nat := fld e 207 192
def eDstVa (e : BitVec 256) : Nat := fld e 191 144
def eDstMem (e : BitVec 256) : Nat := fld e 143 128
def eSrcVa (e : BitVec 256) : Nat := fld e 127 80
def eSrcMem (e : BitVec 256) : Nat := fld e 79 64
def eKind (e : BitVec 256) : Nat := fld e 3 0

def headerBad (h : BitVec 512) : Bool :=
  let f := fld h 63 56
  fld h 31 0 != 0x01545443 || hdrNent h == 0 || 4096 < hdrNent h || 63 < fld h 55 48 ||
    !(f == 0 || f == 1 || f == 7) || 6 < hdrWin h || fld h 511 88 != 0

def entryBad (members : Nat) (e : BitVec 256) : Bool :=
  2 < eKind e || fld e 63 4 != 0 || eLines e == 0 || eDstVa e % 128 != 0 || eSrcVa e % 128 != 0 ||
    members ≤ eDstMem e || members ≤ eSrcMem e

/-- Copies of core `n` that store, as (copy, class). -/
def storesOf (c : Core) : List (Nat × Nat) :=
  c.copies.filterMap fun k => match k.kind, k.cls with
    | .tst _, some cl | .tamo _ _ _ _, some cl | .bkc _, some cl => some (k.id, cl.val)
    | _, _ => none

/-- The next run that core `n`'s kernel has and that the core has not joined. -/
def nextRun (s : State) (n : Nat) : Option TRun :=
  s.runs.find? fun r => some r.kernel == (coreOf s n).kernel && !r.joined.any fun j => j.1 == n

def modTRun (s : State) (id : Nat) (f : TRun → TRun) : State :=
  { s with runs := s.runs.map fun r => if r.id == id then f r else r }

/-- `xbegin` of core `n` (R371). -/
def beginRun (s : State) (n : Nat) (h : Handle) (off tick : Nat) : State :=
  let c := coreOf s n
  let lead := c.coreIdx == 0
  let j := (n, storesOf c)
  match nextRun s n with
  | some r =>
    modTRun s r.id fun r => if lead then { r with joined := r.joined ++ [j], handle := h, offset := off, tick := tick }
      else { r with joined := r.joined ++ [j] }
  | none =>
    let id := s.runs.foldl (fun a r => max a (r.id + 1)) 0
    { s with runs := s.runs ++ [{
        id := id, kernel := c.kernel.getD s.nextKernel, joined := [j], handle := if lead then h else Handle.zero
        offset := off, tick := tick, start := none, header := 0, entries := [], done := [], partials := [], unacked := [], others := false, ended := false }] }

def slotXbegin (g : Guard) (h : Fin 16) (a b : Src) (s : State) (n : Nat) : SlotOp :=
  let c := coreOf s n
  let off := (xVal s n 0 a).toNat
  let tick := (xVal s n 1 b).toNat
  computeOnly n { xSlot g with
    reads := [a, b], rewalk := [h], stall := isCompute n && 4 ≤ runsOf s n
    pre := handleChecks c h true false (hSize c.h[h] < off + 64) ++ failIf (off % 64 != 0) 0x07 (hDetail h)
    eff := fun s => beginRun s n c.h[h] off tick }

def findRun (s : State) (id : Nat) : Option TRun := s.runs.find? fun r => r.id == id

/-- Every member's pennant, or those a test picks. -/
def setPennants (s : State) (k : Kernel) (pn : Nat) (p : Nat → Bool) : State :=
  (residents k).foldl (fun s n =>
    if (coreOf s n).kernel == some k.id && p (indexOf k n) then modCore s n fun c => { c with pn := putFld c.pn pn pn 1 } else s) s

/-- The request is an engine's for entry `j` of run `id`, where `p` picks j. -/
def isEntryOf (id : Nat) (p : Nat → Bool) (x : FabReq) : Bool :=
  match x.body with
  | .entryRead r j | .entryWrite r j _ _ => r == id && p j
  | _ => false

/-- Entry `j` of run `id` is being performed. -/
def entryBusy (s : State) (id j : Nat) : Bool := s.fabric.any (isEntryOf id (· == j))

/-- The run ends in error: it writes nothing more (R373). -/
def failRun (s : State) (k : Kernel) (r : TRun) (pn : Nat) : State :=
  let s := { s with fabric := s.fabric.filter fun x => !isEntryOf r.id (fun _ => true) x }
  let s := setPennants (modTRun s r.id fun r => { r with ended := true, partials := [], unacked := [] }) k pn fun _ => true
  (residents k).foldl (fun s n => if (coreOf s n).kernel == some k.id then modCore s n fun c => { c with tterr := true } else s) s

/-- No entry for member i remains. -/
def memberServed (es : List (BitVec 256)) (done : List Nat) (i : Nat) : Bool :=
  (List.range es.length).all fun j => eDstMem (es.getD j 0) != i || done.contains j

/-- The entry that follows in chunk order comes after both this tick and this index. -/
def chunkFirst (es : List (BitVec 256)) (i j : Nat) : Bool :=
  let x := es.getD i 0
  let y := es.getD j 0
  eChunk x == eChunk y && (eToff x < eToff y || (eToff x == eToff y && i < j))

/-- Every entry before entry j in its chunk order is performed. -/
def chunkReady (r : TRun) (j : Nat) : Bool :=
  (List.range r.entries.length).all fun i => !chunkFirst r.entries i j || r.done.contains i

/-- Every member has issued its `xbegin` of the run, and the stores that CLMASK names are performed (R371). -/
def runReady (s : State) (k : Kernel) (r : TRun) (h : BitVec 512) : Bool :=
  !(r.joined.any fun j => j.2.any fun x => (hdrMask h).getLsbD x.2 && (findCopy (coreOf s j.1) x.1).isSome) &&
    (residents k).all fun n => r.joined.any fun j => j.1 == n

/-- A run starts: the record is read at home through the handle of logical index 0. -/
def runStart (s : State) (id : Nat) : State :=
  match findRun s id with
  | none => s
  | some r =>
    match findKernel s r.kernel with
    | none => s
    | some k =>
      let pa := hBase r.handle + r.offset
      let h : BitVec 512 := BitVec.ofNat 512 (bankRead s pa 64)
      let poisoned := !(poisonedIn s.poison pa (64 + 32 * hdrNent h)).isEmpty
      if r.start.isSome || r.ended || tickOf s < r.tick || !hValid r.handle || !runReady s k r h ||
          (1 < chipsOf k && !r.others) then s
      else if poisoned || headerBad h || hSize r.handle < r.offset + 64 + 32 * hdrNent h then failRun s k r (hdrPn h)
      else
        let v := bankRead s (pa + 64) (32 * hdrNent h)
        let es := (List.range (hdrNent h)).map fun i => BitVec.ofNat 256 (v >>> (256 * i))
        if es.any (entryBad (recMembers k.record)) then failRun s k r (hdrPn h)
        else
          let s := modTRun s id fun r => { r with start := some (tickOf s), header := h, entries := es }
          setPennants s k (hdrPn h) (memberServed es [])

/-- The chip of logical index 0 sends the record and the start tick of a run (R371). -/
def podRunStart (s : State) (id : Nat) (h : BitVec 512) (es : List (BitVec 256)) (t : Nat) : State :=
  match findRun s id with
  | none => s
  | some r =>
    match findKernel s r.kernel with
    | none => s
    | some k =>
      if r.start.isSome || r.ended || memberCore k 0 < 1000 || !runReady s k r h then s
      else
        setPennants (modTRun s id fun r => { r with start := some t, header := h, entries := es }) k (hdrPn h) (memberServed es [])

/-- A run whose header names pennant `pn` ended in error on another chip (R373). -/
def podRunFails (s : State) (id pn : Nat) : State :=
  match findRun s id with
  | none => s
  | some r =>
    match findKernel s r.kernel with
    | none => s
    | some k => if r.ended || chipsOf k ≤ 1 then s else failRun s k r pn

/-- The physical address of the line at a virtual address, readable or writable; a page table is not writable at the
kernel's level (R8, R342). See notes/assumptions/83.md. -/
def lineAddr (s : State) (ctx : Fin 32) (va : Nat) (write : Bool) : Option Nat :=
  let h := bindOf s ctx va
  let pa := hBase h + (va - hVa h)
  if va < 2 ^ 48 && hPresent h && (if write then hWrite h && !inTables s pa 128 else hRead h) then some pa else none

/-- The addresses of an entry's lines; none where a translation fails. -/
def entryLines (s : State) (ctx : Fin 32) (va lines : Nat) (write : Bool) : Option (List Nat) :=
  (List.range lines).foldr (fun i acc => match acc, lineAddr s ctx (va + 128 * i) write with
    | some l, some a => some (a :: l)
    | _, _ => none) (some [])

/-- A request joins those on their way. -/
def addReq (s : State) (x : FabReq) : State := { s with fabric := s.fabric ++ [{ x with id := s.nextReq }], nextReq := s.nextReq + 1 }

/-- The bytes meet a page that is Moving or Rebound. -/
def meetsMove (s : State) (pa n : Nat) : Bool :=
  s.moves.any fun m =>
    let on (b : Nat) : Bool := pa < b + pageSize m.psz.val && b < pa + n
    on m.old.toNat || (m.rebound && m.frame.any fun f => on f.toNat)

/-- Each aligned 8-byte word of lines at these addresses, as (address, bytes, place). -/
def lineUnits (l : List Nat) : List (Nat × Nat × Nat) :=
  ((List.range l.length).zip l).flatMap fun x => (List.range 16).map fun j => (x.2 + 8 * j, 8, 128 * x.1 + 8 * j)

/-- An engine's access to lines sets out: they are read and written at home word by word, as a fabric access is (R267, R268,
R372). -/
def addLines (s : State) (body : FabBody) (l : List Nat) (data : List Byte) (write : Bool) : State :=
  addReq s { id := 0, port := 0, src := 0, tag := 0, body := body, units := lineUnits l, data := data
             covers := if write then l.flatMap fun a => (List.range 4).map fun i => a + 32 * i else []
             bad := false, raised := !l.any fun a => meetsMove s a 128 }

/-- One source element added to the partial (R55, R372). -/
def addTerm (w : Nat) (old : Option (BitVec 128)) (x : Ext) : BitVec 128 :=
  xaOf (wstep w (match old with | some p => [xaVal p, x] | none => [x])).1

/-- The partials of one chunk, by element. -/
def chunkPartials (r : TRun) (c : Nat) : List (Nat × BitVec 128) := r.partials.filterMap fun p => if p.1 == c then some (p.2.1, p.2.2) else none

def setPartials (r : TRun) (c : Nat) (l : List (Nat × BitVec 128)) : TRun :=
  { r with partials := r.partials.filter (fun p => p.1 != c) ++ l.map fun p => (c, p.1, p.2) }

/-- The chunk's partials after a reduce of `n` elements of value `v`. -/
def reduceInto (f : Fmt) (w : Nat) (old : List (Nat × BitVec 128)) (n v : Nat) : List (Nat × BitVec 128) :=
  (List.range n).map (fun i => (i, addTerm w (alGet old i) (elemVal f ((v >>> (fmtWidth f * i)) % 2 ^ fmtWidth f)))) ++
    old.filter fun p => n ≤ p.1

/-- The elements that a reduce and write writes. -/
def roundedBits (f : Fmt) (l : List (Nat × BitVec 128)) (n : Nat) : Nat :=
  packN (fmtWidth f) (fun i => (cvt (xaVal ((alGet l i).getD 0)) f .rn false).val) n

/-- The transfer of entry j sets out for a chip: it is held until that chip acknowledges it (R372, R374). -/
def sendChunk (r : TRun) (j : Nat) (data : List (Nat × BitVec 128)) (s : State) (chip : BitVec 16) : State :=
  report (modTRun s r.id fun x => { x with unacked := x.unacked ++ [(chip, j, data)] })
    (.chunk chip r.id (eChunk (r.entries.getD j 0)) j data)

/-- A chip has acknowledged the transfer of entry j (R374). -/
def ackEvent (s : State) (id j : Nat) (chip : BitVec 16) : State :=
  modTRun s id fun r => { r with unacked := r.unacked.filter fun x => !(x.1 == chip && x.2.1 == j) }

/-- A link on the route to the chips that `p` picks has failed: what they have not acknowledged is sent again, chunk by
chunk in the order in which it was sent (R374). -/
def resend (s : State) (p : BitVec 16 → Bool) : State :=
  s.runs.foldl (fun s r => (r.unacked.filter fun x => p x.1).foldl (fun s x =>
    report s (.chunk x.1 r.id (eChunk (r.entries.getD x.2.1 0)) x.2.1 x.2.2)) s) s

/-- Entry j is performed: its member's pennant, the run's end, and the word to the group's other chips. -/
def entryDone (tell : Bool) (s : State) (k : Kernel) (r : TRun) (j : Nat) (data : List (Nat × BitVec 128)) : State :=
  let e := r.entries.getD j 0
  let done := j :: r.done
  let all := (List.range r.entries.length).all done.contains
  let s := modTRun s r.id fun r => { r with done := done, ended := all }
  let s := if memberServed r.entries done (eDstMem e) then setPennants s k (hdrPn r.header) (· == eDstMem e) else s
  if tell then (otherChips s k).foldl (sendChunk r j data) s else s

/-- Entry j is due, its turn has come, and this chip's engine performs it. -/
def entryDue (s : State) (k : Kernel) (r : TRun) (j : Nat) : Bool :=
  let e := r.entries.getD j 0
  !r.ended && j < r.entries.length && !r.done.contains j && !entryBusy s r.id j && chunkReady r j && memberCore k (eSrcMem e) < 1000 &&
    match r.start with
    | some t => t + eToff e ≤ tickOf s
    | none => false

/-- 16-byte pieces of a copy's lines. -/
def pieces (v n : Nat) : List (Nat × BitVec 128) := (List.range n).map fun i => (i, BitVec.ofNat 128 (v >>> (128 * i)))

/-- The engine writes `v` to the destination of entry j; an absent or unwritable page ends the run. -/
def entryWrites (s : State) (k : Kernel) (r : TRun) (j : Nat) (tell : Bool) (parts : List (Nat × BitVec 128)) (v : Nat) : State :=
  let e := r.entries.getD j 0
  match entryLines s k.ctx (eDstVa e) (eLines e) true with
  | some dst => addLines s (.entryWrite r.id j tell parts) dst (toBytes (128 * eLines e) v) true
  | none => failRun s k r (hdrPn r.header)

/-- The run that a request is of, and its kernel. -/
def runOf (s : State) (id : Nat) : Option (TRun × Kernel) :=
  (findRun s id).bind fun r => (findKernel s r.kernel).map fun k => (r, k)

/-- The source of entry j has been read: a copy goes to its destination, a reduce joins the chunk's partials (R372). -/
def entryHasRead (s : State) (id j : Nat) (bad : Bool) (v : Nat) : State :=
  match runOf s id with
  | none => s
  | some (r, k) =>
    let e := r.entries.getD j 0
    let here := memberCore k (eDstMem e) < 1000
    let f := hdrFmt r.header
    let n := eLines e * 1024 / fmtWidth f
    if r.ended then s
    else if bad then failRun s k r (hdrPn r.header)
    else if eKind e = 0 then
      let ps := pieces v (8 * eLines e)
      if here then entryWrites s k r j true ps v else entryDone true s k r j ps
    else
      let ps := reduceInto f (windowOf (hdrWin r.header)) (chunkPartials r (eChunk e)) n v
      let s := modTRun s id fun r => setPartials r (eChunk e) ps
      if eKind e = 2 && here then entryWrites s k r j true ps (roundedBits f ps n) else entryDone true s k r j ps

/-- The destination of entry j has been written. -/
def entryHasWritten (s : State) (id j : Nat) (tell : Bool) (parts : List (Nat × BitVec 128)) : State :=
  match runOf s id with
  | none => s
  | some (r, k) => if r.ended then s else entryDone tell s k r j parts

/-- An entry of kind `kind` is begun: its lines are translated, and the engine reads its source (R372, R373). -/
def entryEvent' (kind : Nat) (s : State) (id j : Nat) : State :=
  match findRun s id with
  | none => s
  | some r =>
    match findKernel s r.kernel with
    | none => s
    | some k =>
      let e := r.entries.getD j 0
      if eKind e != kind || !entryDue s k r j then s
      else
        let here := memberCore k (eDstMem e) < 1000
        match entryLines s k.ctx (eSrcVa e) (eLines e) false, (if here && kind != 1 then entryLines s k.ctx (eDstVa e) (eLines e) true else some []) with
        | some src, some _ => addLines s (.entryRead id j) src (List.replicate (128 * eLines e) 0) false
        | _, _ => failRun s k r (hdrPn r.header)

/-- Every entry before entry j in its chunk order is performed, or being performed. -/
def chunkBegun (s : State) (r : TRun) (j : Nat) : Bool :=
  (List.range r.entries.length).all fun i => !chunkFirst r.entries i j || r.done.contains i || entryBusy s r.id i

/-- A chunk message: entry `j` of the chunk, whose source is on another chip, has been performed there; this chip writes its
destination where that is here, in chunk order. One that has come already, sent again after a link failed, adds nothing
(R374). -/
def chunkEvent (s : State) (id chunk j : Nat) (data : List (Nat × BitVec 128)) : State :=
  match runOf s id with
  | none => s
  | some (r, k) =>
      let e := r.entries.getD j 0
      if r.ended || r.entries.length ≤ j || eChunk e != chunk || r.done.contains j || entryBusy s id j || !chunkBegun s r j ||
          memberCore k (eSrcMem e) < 1000 then s
      else
        let f := hdrFmt r.header
        let n := eLines e * 1024 / fmtWidth f
        let s := if eKind e = 0 then s else modTRun s id fun r => setPartials r chunk data
        let v := if eKind e = 0 then packN 128 (fun i => ((alGet data i).getD 0).toNat) (8 * eLines e) else roundedBits f data n
        if memberCore k (eDstMem e) < 1000 && eKind e != 1 then entryWrites s k r j false [] v
        else entryDone false s k r j []

/-- A chunk comes as VTYPE 5, or over Ultra Ethernet in that network's own framing (R372, R355). -/
def podChunk (s : State) (v : Via) (id chunk j : Nat) (data : List (Nat × BitVec 128)) : State :=
  if isUaLink v.port.val then
    receive s v 5 (Config.valueUnits (16 * data.length)).toNat false fun s => chunkEvent s id chunk j data
  else if carries (linkAt s v.port.val) && s.boot != .safe then chunkEvent s id chunk j data else s

/-! ### The instructions -/

def execXsend (g : Guard) (vec : Bool) (tag : Fin 64) (a b : Src) (s : State) : Host.Outcome State Fault Refusal := runSlot s (slotXsend g vec tag a b)
def execXrecv (g : Guard) (tag : Fin 64) (a : Src) (s : State) : Host.Outcome State Fault Refusal := runSlot s (slotXrecv g tag a)
def execXradd (g : Guard) (int : Bool) (tag : Fin 64) (a b : Src) (s : State) : Host.Outcome State Fault Refusal := runSlot s (slotXradd g int tag a b)
def execXrmax (g : Guard) (int : Bool) (tag : Fin 64) (a b : Src) (s : State) : Host.Outcome State Fault Refusal := runSlot s (slotXrmax g int tag a b)
def execXput (g : Guard) (ts : Fin 64) (a b : Src) (s : State) : Host.Outcome State Fault Refusal := runSlot s (slotXput g ts a b)
def execXbegin (g : Guard) (h : Fin 16) (a b : Src) (s : State) : Host.Outcome State Fault Refusal := runSlot s (slotXbegin g h a b)
def execXstat (g : Guard) (s : State) : Host.Outcome State Fault Refusal := runSlot s (slotXstat g)
def execXMessage (m : MsgFrom) (s : State) : Host.Outcome State Fault Refusal :=
  match m with
  | .own flight => .next (messageEvent s flight)
  | .chip v m => .next (podMessage s v m)
def execXMessageEntry (n : Fin 256) (s : State) : Host.Outcome State Fault Refusal := .next (entryEvent s n.val)
def execXputUnit (u : UnitFrom) (s : State) : Host.Outcome State Fault Refusal :=
  match u with
  | .own flight => .next (unitEvent s flight)
  | .chip v src dst td off data => .next (podUnit s v src dst td off (data.take 512))
def execTimetableRunStart (run : Nat) (s : State) : Host.Outcome State Fault Refusal := .next (runStart s run)
def execTimetableCopy (run entry : Nat) (s : State) : Host.Outcome State Fault Refusal := .next (entryEvent' 0 s run entry)
def execTimetableReduce (run entry : Nat) (s : State) : Host.Outcome State Fault Refusal := .next (entryEvent' 1 s run entry)
def execTimetableReduceAndWrite (run entry : Nat) (s : State) : Host.Outcome State Fault Refusal := .next (entryEvent' 2 s run entry)
def execCollectiveChunk (via : Via) (run : Nat) (m : ChunkMsg) (s : State) : Host.Outcome State Fault Refusal :=
  .next (podChunk s via run m.chunk m.entry m.partials)

end Sys2Proof.Machine
end

