-- ==== Sys2Proof/Machine/Context.lean ====
section
/-!
DEFINITION. Context.lean: traps taken, handler entries, translation walks, and the life of a context
(14_context.md R279 to R284, 19_page.md R343).
-/
namespace Sys2Proof.Machine

/-! ### Traps and walks -/

/-- A pending asynchronous cause of agent `n` is taken at a word boundary (R112, R283, R446). -/
def trapEvent (s : State) (n : Nat) : State :=
  let c := coreOf s n
  if c.run != .running || (c.arrival.isSome && releaseFixed s n) then s
  else
    match nextCause c.causes with
    | some x => takeCause s n x
    | none => s

/-- The service core takes the oldest record, and its handler begins (R284); what it knows of pages is of no other
record's context. -/
def enterHandler (c : Core) (rec : BitVec 64) (rest : List (BitVec 64)) : Core :=
  { c with ret := some (c.pc, c.delay), pc := 0, delay := none, handler := true, traprec := rec, queue := rest
           tcache := [], walked := [] }

/-- The records of the newest cycle have all joined the queue, and a pair's has left the pair: the signatures of its words
have matched (R284, R393). -/
def recordsIn (s : State) (h : Nat) : Bool :=
  let c := coreOf s (256 + h)
  let n := match c.queue with | r :: _ => 8 * h + fld r 42 40 | [] => 8 * h
  c.qTime < s.now && (coreOf s n).sigs.isEmpty && (coreOf s n).differs.isNone

def handlerEvent (s : State) (h : Nat) : State :=
  let c := coreOf s (256 + h)
  if c.run != .running || c.handler || c.request.isSome || c.reply.isSome || !recordsIn s h then s
  else
    match c.queue with
    | rec :: rest => setCore s (256 + h) (enterHandler c rec rest)
    | [] => s

/-- The walk that agent `n` froze for ends: a present leaf is cached, and the core goes on (R343). -/
def walkEvent (s : State) (n : Nat) : State :=
  let c := coreOf s n
  match c.run with
  | .walking va =>
    let b := bindFor s n va.toNat
    let c := { c with run := .resuming, walked := (BitVec.ofNat 48 (va.toNat / 65536 * 65536), b) :: c.walked }
    setCore s n (if hPresent b then { c with tcache := (BitVec.ofNat 48 (hVa b), b.w0) :: c.tcache } else c)
  | _ => s

/-! ### Contexts (R279) -/

/-- A context number is taken: the lowest Free one; contexts are made once the device is Operational (R399). -/
def createEvent (s : State) (root : BitVec 44) : State :=
  if s.boot != .operational then answer s 0x01
  else match (List.finRange 32).find? fun x => (ctxAt s x).st == .free with
  | none => answer s 0x02
  | some x => answer (modCtx s x fun _ => { Context.zero with st := .creating, root := root }) 0 x.val

def setupEvent (s : State) (x : Fin 32) : State :=
  if (ctxAt s x).st == .creating then answer (modCtx s x fun c => { c with st := .ready }) 0 else answer s 0x01

/-- A valid handle is revoked (R351). -/
def revokeHandle (h : Handle) : Handle := if hValid h then { h with w0 := putFld h.w0 63 62 1 } else h

/-- A handle holds the binding that the context's page tables give its page. -/
def bindsTo (s : State) (x : Fin 32) (h : Handle) : Bool :=
  let b := bindOf s x (hVa h)
  hPresent h && hPresent b && hBase b == hBase h

/-- The handles of a context's cores are revoked, and those that a service or management core holds on its pages. -/
def revokeCtx (s : State) (x : Fin 32) : State :=
  { s with cores := s.cores.map fun e =>
      if e.2.ctx == some x then (e.1, { e.2 with h := e.2.h.map revokeHandle })
      else if isCompute e.1 then e
      else (e.1, { e.2 with h := e.2.h.map fun h => if bindsTo s x h then revokeHandle h else h }) }

/-- A context grants a service or management core a handle on a page of its own (R278). -/
def grantEvent (s : State) (n : Nat) (h : Fin 16) (x : Fin 32) (va : Nat) : State :=
  let b := bindOf s x va
  if isCompute n || !ctxLives s x || !hPresent b then s else modCore s n fun c => { c with h := c.h.set h b }

def destroyEvent (s : State) (x : Fin 32) : State :=
  if !ctxLives s x then answer s 0x01
  else
    let s := ((allQueues s).filter fun q => q.2.ctx == x).foldl (fun s q => teardownQueue s q.1) s
    let s := modCtx (revokeCtx s x) x fun c => { c with st := .destroyed }
    answer (afterEvent s) 0

/-- The leaf of a Replicated page lies in a table of the context. -/
def replicaOf (s : State) (x : Fin 32) (r : Nat × Nat × Nat) : Bool :=
  (ctxTables s (ctxAt s x)).any fun t => t.1 ≤ r.2.2 && r.2.2 < t.1 + t.2

/-- Nothing of a Destroyed context is left, a move of its pages included (R351): its queues and buffer tags go, what its
pages were is forgotten, its number is free. -/
def teardownDone (s : State) (x : Fin 32) : State :=
  if (ctxAt s x).st != .destroyed || (s.kernels.any fun k => k.ctx == x) || (s.moves.any fun m => m.ctx == x) ||
      (s.cores.any fun e => e.2.ctx == some x) then s
  else
    let bs := s.buffers.map fun b => if b.ctx == some x then { b with ctx := none } else b
    let qs : Vector (Option Queue) 256 := s.queues.map fun o => match o with
      | some q => if q.ctx == x then none else some q
      | none => none
    let rs := s.replicas.filter fun r => !replicaOf s x r
    modCtx { s with buffers := bs, queues := qs, replicas := rs } x fun _ => Context.zero

/-! ### Traps that the handler cannot mend (R279, R308) -/

/-- Kernel `k` ends Faulted with a trap's cause, and its context with it; core `keep` stays frozen. -/
def faultKernel (s : State) (k : Kernel) (code : Nat) (keep : Option Nat) : State :=
  afterEvent (modCtx (endKernel s k.id .faulted code keep) k.ctx fun c =>
    { c with st := if c.st == .running || c.st == .ready then .faulted else c.st })

/-- The handler reports core `n`'s trap unrecoverable: its kernel ends Faulted with the trap's cause, the core itself
staying frozen, or saved already for cause 0x12 (R397). -/
def unrecoverable (s : State) (n : Nat) : State :=
  match (coreOf s n).run, kernelAt s n with
  | .trapped r, some k => if heldRecord s n then faultKernel s k (fld r 55 48) (some n) else s
  | _, _ =>
    match s.kernels.find? fun k => isPlaced k && k.captured.any fun x => x.1 == n with
    | some k => faultKernel s k (((k.captured.find? fun x => x.1 == n).map fun x => x.2.toNat).getD 0) none
    | none => s

/-- The faulting kernel's other cores have drained: its frozen core becomes vacant and the launch ends. -/
def faultDrained (s : State) (x : Fin 32) : State :=
  match s.kernels.find? fun k => k.ctx == x && k.st == .faulted && k.group == .vacating with
  | none => s
  | some k =>
    let left := (residents k).filter fun n => (coreOf s n).kernel == some k.id
    let frozen (n : Nat) : Bool := match (coreOf s n).run with | .trapped _ => (coreOf s n).copies.isEmpty | _ => false
    if !left.all frozen then s
    else
      let s := finishKernel (left.foldl vacateCore s) k
      afterEvent s

/-! ### The events -/

def execTrap (a : Agent) (s : State) : Host.Outcome State Fault Refusal := .next (trapEvent s (agentNo a))
def execHandlerEntry (hall : Fin 32) (s : State) : Host.Outcome State Fault Refusal := .next (handlerEvent s hall.val)
def execTranslationWalk (a : Agent) (s : State) : Host.Outcome State Fault Refusal := .next (walkEvent s (agentNo a))
def execContextCreate (root : BitVec 44) (s : State) : Host.Outcome State Fault Refusal := .next (createEvent s root)
def execSetupDone (ctx : Fin 32) (s : State) : Host.Outcome State Fault Refusal := .next (setupEvent s ctx)
def execDestroy (ctx : Fin 32) (s : State) : Host.Outcome State Fault Refusal := .next (destroyEvent s ctx)
def execTeardownComplete (ctx : Fin 32) (s : State) : Host.Outcome State Fault Refusal := .next (teardownDone s ctx)
def execTrapUnrecoverable (n : Fin 256) (s : State) : Host.Outcome State Fault Refusal := .next (unrecoverable s n.val)
def execFaultDrainDone (ctx : Fin 32) (s : State) : Host.Outcome State Fault Refusal := .next (faultDrained s ctx)

end Sys2Proof.Machine
end

