-- ==== Sys2Proof/Machine/Fabric.lean ====
section
/-!
DEFINITION. Fabric.lean: what arrives over the fabric: launch packets, group aborts, patch writes, memory
accesses, and what is not supported (15_queue.md R302, R304; 16_kernel.md R312, R318; 13_ordering.md R267;
20_link.md R355, R359, R360; 23_startup.md R400).
-/
namespace Sys2Proof.Machine

/-! ### Launch packets (R302, R360) -/

/-- What a packet carries for a pod group; its chip count is nonzero. -/
def podOf (p : BitVec 1024) : Option Pod :=
  if fld p 623 608 = 0 then none
  else some { domid := p.extractLsb' 576 16, rank := p.extractLsb' 592 16, chips := p.extractLsb' 608 16
              t0 := p.extractLsb' 640 64, nums := (List.range 20).map fun i => p.extractLsb' (704 + 16 * i) 16 }

/-- A launch packet is acted on (R302, R400). -/
def packetActs (s : State) (v : Via) (p : BitVec 1024) : State :=
  let ctx : Fin 32 := (p.extractLsb' 512 5).toFin
  let d : BitVec 512 := p.setWidth 512
  if s.boot == .safe then report s (.report (vSrc v.hdr) (vTag v.hdr) 2 2 ctx (d.extractLsb' 128 4).toFin 0 0)
  else (arrive s ctx d (vSrc v.hdr) (vTag v.hdr) (podOf p) none (fld p 575 520 != 0)).1

/-- How a message of a sender outside the package came. -/
def senderVia : Sender → Option Via
  | .host v | .scheduler v => some v
  | .mgmt => none

/-- A memory write that `src` sent through the port has not been performed yet. -/
def writesWait (l : List FabReq) (port : Fin 20) (src : BitVec 16) : Bool :=
  l.any fun x => x.port == port && x.src == src && x.body == .write

/-- A launch packet of a host node or the scheduler node arrives: it waits for its sender's writes (R267). -/
def packetEvent (s : State) (sender : Sender) (p : BitVec 1024) : State :=
  match senderVia sender with
  | none => s
  | some v =>
    receive s v 1 8 true fun s =>
      if writesWait s.fabric v.port (vSrc v.hdr) then
        addReq s { id := 0, port := v.port, src := vSrc v.hdr, tag := vTag v.hdr, body := .packet sender p, units := []
                   data := [], covers := [], bad := false, raised := true }
      else packetActs s v p

/-! ### Group aborts (R312) -/

/-- A group-abort report ends this chip's part of the pod kernel. -/
def groupAborts (s : State) (domid : BitVec 16) : State :=
  match s.kernels.find? fun k => isPlaced k && recLevel k.record == 4 && k.domid == domid with
  | some k => afterEvent (endKernel s k.id .aborted 0 none)
  | none => s

def groupAbortEvent (s : State) (v : Via) (domid : BitVec 16) : State := receive s v 2 2 false fun s => groupAborts s domid

/-! ### Patch writes (R318, R359) -/

/-- One slot pair of a core's instruction store is written whole, in the core's cycle. -/
def patchCore (word pair : Nat) (v : BitVec 64) (c : Core) : Core :=
  { c with istore := spSet c.istore word (putFld (spGet c.istore word) (64 * pair + 63) (64 * pair) v.toNat)
           iPoison := c.iPoison.filter fun g => g != 4 * word + pair, patched := some (c.cyc, word, pair) }

/-- A fabric patch write to launch SEQ of a queue sets out for every member, and members not yet loaded will be loaded
with it; anything but a patch slot of a placed kernel is refused. -/
def patchSets (s : State) (dst tag : BitVec 16) (ctx : Fin 32) (queue : Fin 16) (seq : BitVec 32) (word pair : Nat) (v : BitVec 64) : State :=
  let say (code : Nat) : Out := .report dst tag 5 (BitVec.ofNat 8 code) ctx queue seq 0
  match (queueIndex s ctx queue.val).bind fun qi => launchKernel s qi seq with
  | none => report s (say 0x08)
  | some k =>
    if !isPlaced k || !k.patches.contains (word, pair) then report s (say 0x08)
    else
      let code := k.code.set word (putFld (k.code.getD word 0) (64 * pair + 63) (64 * pair) v.toNat)
      let left := (residents k).filter fun n => k.loaded.contains n || k.saved
      let s := modKernel s k.id fun k => { k with code := code }
      if left.isEmpty then report s (say 0)
      else
        { s with patching := s.patching ++ [{ id := s.nextReq, kernel := k.id, word := word, pair := pair, val := v, left := left, answer := say 0 }]
                 nextReq := s.nextReq + 1 }

def patchEvent (s : State) (v : Via) (ctx : Fin 32) (queue : Fin 16) (seq : BitVec 32) (word pair : Nat) (x : BitVec 64) : State :=
  receive s v 3 2 true fun s => patchSets s (vSrc v.hdr) (vTag v.hdr) ctx queue seq word pair x

/-- The member that stood on core `n` is off it, saved, or is to be restored there: a patch write reaches it once `crest`
has restored it. -/
def isAway (s : State) (id n : Nat) : Bool :=
  (findKernel s id).any fun k => (residents k).contains n && (isOff s k n || (coreOf s n).run == .vacant)

/-- A patch write can reach the member on core `n` now, or it has left. -/
def patchDue (s : State) : Option (Nat × Nat) :=
  s.patching.findSome? fun x => (x.left.findIdx? fun n => !isAway s x.kernel n).map fun k => (x.id, k)

/-- A patch write reaches one of the cores it has still to reach; after the last it is answered. -/
def patchReaches (s : State) (id k : Nat) : State :=
  match s.patching.find? fun x => x.id == id with
  | none => s
  | some x =>
    match x.left[k]? with
    | none => s
    | some n =>
      if isAway s x.kernel n then s
      else
      let s := if (coreOf s n).kernel == some x.kernel then modCore s n (patchCore x.word x.pair x.val) else s
      let left := x.left.filter (· != n)
      if left.isEmpty then report { s with patching := s.patching.filter fun y => y.id != id } x.answer
      else { s with patching := s.patching.map fun y => if y.id == id then { y with left := left } else y }

/-! ### Memory accesses (R267, R268, R351, R355, R389) -/

/-- `n` bytes at an address are populated memory, and of a size that the port's standard supports: 8 to 256 bytes over
UALink, any over Ultra Ethernet, for which R355 gives none (R268, R355). See notes/assumptions/72.md. -/
def fabricOk (port : Fin 20) (pa n : Nat) : Bool :=
  (if isUaLink port.val then 8 ≤ n && n ≤ 256 else 1 ≤ n) && offsetOf pa + n ≤ populated (spaceOf pa)

/-- The units of an access, each the part of an aligned 8-byte word that it covers, as (address, bytes, place). -/
def fabricUnits (pa n : Nat) : List (Nat × Nat × Nat) :=
  (List.range ((pa % 8 + n + 7) / 8)).map fun i =>
    let lo := max pa (pa / 8 * 8 + 8 * i)
    (lo, min (pa + n) (pa / 8 * 8 + 8 * i + 8) - lo, lo - pa)

/-- The granules that a write covers whole. -/
def coveredGranules (pa n : Nat) : List Nat :=
  ((List.range (n / 32 + 1)).map fun i => (pa + 31) / 32 * 32 + 32 * i).filter fun g => pa ≤ g && g + 32 ≤ pa + n

/-- A memory access arrives: it raises its page's busy count, unless the page is moving. A host node attaches through
UALink ports alone (R19, R355). -/
def accessEvent (s : State) (port : Fin 20) (src tag : BitVec 16) (pa n : Nat) (data : Option (List Byte)) : State :=
  if !carries (linkAt s port.val) then s
  else if s.boot == .safe || !fabricOk port pa n || (src == 0xFFFF && !isUaLink port.val) then report s (.errorCompletion port src tag)
  else
    addReq s { id := 0, port := port, src := src, tag := tag, body := if data.isSome then .write else .read
               units := fabricUnits pa n, data := data.getD (List.replicate n 0)
               covers := if data.isSome then coveredGranules pa n else [], bad := false, raised := !meetsMove s pa n }

/-- A write first returns a Replicated page it meets to Resident (R266). -/
def leaveReplicas (s : State) (pa n : Nat) : State :=
  (s.replicas.filter fun e => pa < e.1 + e.2.1 && e.1 < pa + n).foldl (fun s e => unreplicate s e.1) s

/-- The access's turn has come: of one sender's accesses through one port, those sent before are performed; a launch
packet's when the writes are; an engine's for an entry of a run in chunk order (R372). -/
def reqReady (s : State) (x : FabReq) : Bool :=
  let earlier := s.fabric.takeWhile fun y => y.id != x.id
  x.raised && match x.body with
    | .packet _ _ => !writesWait earlier x.port x.src
    | .entryRead id j | .entryWrite id j _ _ => (findRun s id).all fun r => chunkReady r j
    | .read | .write => !earlier.any fun y => y.port == x.port && y.src == x.src && (y.body == .read || y.body == .write)

/-- All its units performed, an access ends: a read is answered, a write that covers a granule has cleared its poison;
what met poison, or a page unmapped while it waited, gets an error completion. -/
def reqEnds (s : State) (x : FabReq) : State :=
  let s := { s with fabric := s.fabric.filter fun y => y.id != x.id }
  let cleared := { s with poison := s.poison.filter fun g => !x.covers.contains g }
  match x.body with
  | .read => report s (if x.bad then .errorCompletion x.port x.src x.tag else .readData x.port x.src x.tag x.data)
  | .write => if x.bad then report s (.errorCompletion x.port x.src x.tag) else cleared
  | .entryRead id j => entryHasRead s id j x.bad (ofBytes x.data)
  | .entryWrite id j tell parts => entryHasWritten cleared id j tell parts
  | .packet _ _ => s

/-- One unit of an access is performed at its home, where no other access sees part of it. -/
def unitPerformed (s : State) (x : FabReq) (u : Nat × Nat × Nat) : State × FabReq :=
  let x := { x with units := x.units.filter (· != u) }
  match x.body with
  | .write | .entryWrite _ _ _ _ => (storeBytes (leaveReplicas s u.1 u.2.1) none u.1 ((x.data.drop u.2.2).take u.2.1), x)
  | _ =>
    let bytes := memRead s.mem u.1 u.2.1
    (s, { x with data := x.data.take u.2.2 ++ (bytes ++ x.data.drop (u.2.2 + u.2.1))
                 bad := x.bad || !(poisonedIn s.poison u.1 u.2.1).isEmpty })

/-- The `k`-th unit left of access `id` is performed, or its launch packet acted on. -/
def fabricActs (s : State) (id k : Nat) : State :=
  match s.fabric.find? fun x => x.id == id with
  | none => s
  | some x =>
    if !reqReady s x then s
    else match x.body with
      | .packet sender p =>
        let s := { s with fabric := s.fabric.filter fun y => y.id != id }
        match senderVia sender with
        | some v => packetActs s v p
        | none => s
      | _ =>
        match x.units[k]? with
        | none => if x.units.isEmpty then reqEnds s x else s
        | some u =>
          let (s, x) := unitPerformed s x u
          if x.units.isEmpty then reqEnds s x
          else { s with fabric := s.fabric.map fun y => if y.id == id then x else y }

/-- A request that is not supported gets an error completion; an unsolicited packet is discarded and
counted. -/
def unsupportedEvent (s : State) (port : Fin 20) (src tag : BitVec 16) (request : Bool) : State :=
  if !carries (linkAt s port.val) then s
  else if request then report s (.errorCompletion port src tag) else modLink s port.val countErr

/-! ### The events -/

def execLaunchPacket (scheduler : Bool) (via : Via) (payload : BitVec 1024) (s : State) : Host.Outcome State Fault Refusal :=
  .next (packetEvent s (if scheduler then .scheduler via else .host via) payload)
def execGroupAbort (m : AbortMsg) (s : State) : Host.Outcome State Fault Refusal := .next (groupAbortEvent s m.via m.domid)
def execPatchWrite (via : Via) (ctx : Fin 32) (queue : Fin 16) (seq : BitVec 32) (word : Fin 2048) (pair : Fin 4) (value : BitVec 64)
    (s : State) : Host.Outcome State Fault Refusal := .next (patchEvent s via ctx queue seq word.val pair.val value)
def execFabricRead (x : FabSrc) (pa n : Nat) (s : State) : Host.Outcome State Fault Refusal :=
  .next (accessEvent s x.port x.src x.tag pa n none)
def execFabricWrite (x : FabSrc) (d : FabData) (s : State) : Host.Outcome State Fault Refusal :=
  .next (accessEvent s x.port x.src x.tag d.pa d.bytes.length (some d.bytes))
def execUnsupportedRequest (x : FabSrc) (request : Bool) (s : State) : Host.Outcome State Fault Refusal :=
  .next (unsupportedEvent s x.port x.src x.tag request)

end Sys2Proof.Machine
end

