-- ==== Sys2Proof/Machine/Page.lean ====
section
/-!
DEFINITION. Page.lean: hint records and the life of a page (19_page.md R344, R345, R350, R351).
-/
namespace Sys2Proof.Machine

/-! ### Hint records (R344) -/

def hBaseVa (r : BitVec 256) : Nat := fld r 47 0
def hLen (r : BitVec 256) : Nat := fld r 127 64
def hHome (r : BitVec 256) : Nat := fld r 165 164
def hDie (r : BitVec 256) : Nat := fld r 167 166
def hMu (r : BitVec 256) : Bool := r.getLsbD 172
def hKeepDies (r : BitVec 256) : Nat := fld r 179 176

/-- Ranges that share a byte. -/
def overlaps (x y : BitVec 256) : Bool := hBaseVa x < hBaseVa y + hLen y && hBaseVa y < hBaseVa x + hLen x

def hintBad (r : BitVec 256) : Bool :=
  fld r 191 180 != 0 || fld r 175 173 != 0 || fld r 163 128 != 0 || fld r 63 48 != 0 || 9 < fld r 171 168 ||
    hHome r == 3 || hBaseVa r % 65536 != 0 || hLen r % 65536 != 0 || hLen r == 0 || 2 ^ 48 < hBaseVa r + hLen r

def hintEvent (s : State) (ctx : Fin 32) (r : BitVec 256) : State :=
  let l := (ctxAt s ctx).hints
  if !ctxLives s ctx then answer s 0x01
  else if hintBad r || l.any (overlaps r) then answer s 0x05
  else if 256 ≤ l.length then answer s 0x06
  else answer (modCtx s ctx fun c => { c with hints := l ++ [r] }) 0

/-! ### Frames (R345) -/

/-- The page is held: this chip stands in KEEPCHIPS, or KEEPDIES is nonzero. -/
def isHeldPage (s : State) (h : Option (BitVec 256)) : Bool :=
  match h with
  | none => false
  | some r => hKeepDies r != 0 || (List.range 4).any fun i => fld r (207 + 16 * i) (192 + 16 * i) == s.chip.toNat && s.chip != 0xFFFF

/-- The frame lies in the wrong place for the hint of its page. -/
def wrongPlace (h : Option (BitVec 256)) (frame psz : Nat) : Bool :=
  !frameOk frame psz ||
    match h with
    | none => 3 < spaceOf frame
    | some r => match hHome r with
      | 0 => spaceOf frame != hDie r
      | 1 => spaceOf frame != 4
      | _ => spaceOf frame != 5

/-! ### Entries (R342) -/

/-- The table of `size` bytes that an entry names. -/
def tableOf (e : BitVec 64) (size : Nat) : Option Nat :=
  let a := fld e 43 8 * 256
  if entryOk e && fld e 62 61 == 0 && a % size == 0 && offsetOf a + size ≤ populated (spaceOf a) then some a else none

/-- The address of the entry for a page of size code `psz` at `va`, when the tables above it exist. -/
def entryPlace (s : State) (ctx : Fin 32) (va psz : Nat) : Option Nat :=
  let l1 := (ctxAt s ctx).root.toNat + 8 * (va / 2 ^ 30 % 2 ^ 18)
  if psz = 2 then some l1
  else
    (tableOf (readEntry s l1) 4096).bind fun t2 =>
      let l2 := t2 + 8 * (va / 2 ^ 21 % 512)
      if psz = 1 then some l2
      else (tableOf (readEntry s l2) 256).map fun t3 => t3 + 8 * (va / 2 ^ 16 % 32)

/-- The place of a new table of `size` bytes: the spec does not say where the firmware puts it, so it is a free value, in
populated memory and aligned to its size (R342). See notes/assumptions/48.md. -/
def newTable (s : State) (size : Nat) : Nat :=
  let v := (freeVal s (4030 + size) 128).toNat
  let sp := v % 6
  sp * 2 ^ 40 + v / 6 % (populated sp / size) * size

/-- The table that the entry at `a` names; where it names none, a new one with no entry present, and the entry names it. -/
def tableUnder (s : State) (a size : Nat) : State × Nat :=
  match tableOf (readEntry s a) size with
  | some t => (s, t)
  | none =>
    let t := newTable s size
    (writeEntry { s with mem := s.mem.filter fun c => !(t ≤ c.1 && c.1 < t + size) } a (BitVec.ofNat 64 (1 <<< 63 + t)), t)

/-- The entry for a page of size code `psz` at `va`, the tables above it made where they are absent. -/
def entryFor (s : State) (ctx : Fin 32) (va psz : Nat) : State × Nat :=
  let l1 := (ctxAt s ctx).root.toNat + 8 * (va / 2 ^ 30 % 2 ^ 18)
  if psz = 2 then (s, l1)
  else
    let x := tableUnder s l1 4096
    let l2 := x.2 + 8 * (va / 2 ^ 21 % 512)
    if psz = 1 then (x.1, l2)
    else
      let y := tableUnder x.1 l2 256
      (y.1, y.2 + 8 * (va / 2 ^ 16 % 32))

/-- The entries of a table of `n` bytes at `base` that may be present, by number: P is a byte's top bit. -/
def entriesIn (s : State) (base n : Nat) : List Nat :=
  s.mem.filterMap fun c => if base + 7 ≤ c.1 && c.1 < base + n && (c.1 - base) % 8 == 7 then some ((c.1 - base) / 8) else none

/-- The addresses at which pages of a context may begin. -/
def pagesOf (s : State) (ctx : Fin 32) : List Nat :=
  let root := (ctxAt s ctx).root.toNat
  (entriesIn s root (2 ^ 21)).flatMap fun i => match tableOf (readEntry s (root + 8 * i)) 4096 with
    | none => [i * 2 ^ 30]
    | some t => (entriesIn s t 4096).flatMap fun j => match tableOf (readEntry s (t + 8 * j)) 256 with
      | none => [i * 2 ^ 30 + j * 2 ^ 21]
      | some u => (entriesIn s u 256).map fun k => i * 2 ^ 30 + (j * 2 ^ 21 + k * 2 ^ 16)

/-- A present page entry. -/
def leafWord (frame : Nat) (rd wr : Bool) (st : Nat) : BitVec 64 :=
  BitVec.ofNat 64 (1 <<< 63 + 1 <<< 61 + rd.toNat <<< 60 + wr.toNat <<< 59 + st <<< 56 + frame)

/-- The page that holds `va` is Moving or Rebound. -/
def moveAt (s : State) (ctx : Fin 32) (va : Nat) : Option PageMove :=
  s.moves.find? fun m => m.ctx == ctx && m.va.toNat ≤ va && va < m.va.toNat + pageSize m.psz.val

/-- The frame of a leaf. -/
def leafFrame (l : Leaf) : Nat := fld l.entry 43 8 * 256

/-! ### Requests (R350) -/

def mapEvent (s : State) (ctx : Fin 32) (va psz frame : Nat) (rd wr : Bool) : State :=
  let va := va / pageSize psz * pageSize psz
  let h := hintOf s ctx va
  if !ctxLives s ctx then answer s 0x01
  else if (walk s ctx va).isSome || (moveAt s ctx va).isSome then answer s 0x03
  else if wrongPlace h frame psz then answer s 0x02
  else
    let x := entryFor s ctx va psz
    if (readEntry x.1 x.2).getLsbD 63 then answer s 0x03
    else answer (writeEntry x.1 x.2 (leafWord frame rd wr (if isHeldPage s h then 2 else 0))) 0

/-- The bytes of a page as they stand at its home, at another frame; poison is carried with them. -/
def copyPage (s : State) (old new size : Nat) : State :=
  let inside (b a : Nat) : Bool := b ≤ a && a < b + size
  let cells := (s.mem.filter fun c => inside old c.1).map fun c => (c.1 - old + new, c.2)
  let keep := s.mem.filter fun c => !inside new c.1
  let bad := (s.poison.filter (inside old)).map fun g => g - old + new
  { s with mem := memWrite keep cells, poison := s.poison.filter (fun g => !inside new g) ++ bad }

/-- A page is copied to a frame on each die (R350); frame i is judged against die i, where R345 would have a page of HOME 0
on the hint's die: see notes/assumptions/96.md. -/
def replicateEvent (s : State) (ctx : Fin 32) (va : Nat) (frames : List Nat) : State :=
  let h := hintOf s ctx va
  match (if ctxLives s ctx then walk s ctx va else none) with
  | none => answer s 0x03
  | some l =>
    let base := leafFrame l
    let size := pageSize l.psz
    let bad := (h.any fun r => hHome r != 0) ||
      (List.range frames.length).any fun i => spaceOf (frames.getD i 0) != i || !frameOk (frames.getD i 0) l.psz
    if (moveAt s ctx va).isSome || isReplicated s base then answer s 0x03
    else if !(match h with | some r => hMu r | none => false) then answer s 0x04
    else if bad then answer s 0x02
    else
      let s := (frames.filter (· != base)).foldl (fun s f => copyPage s base f size) s
      answer (setLeafState (purgeLeaf { s with replicas := s.replicas ++ [(base, size, l.at_)] } base) l.at_ 1) 0

/-- A page goes to Moving. -/
def startMove (s : State) (ctx : Fin 32) (va : Nat) (l : Leaf) (frame : Option Nat) (held : Bool) : State :=
  let base := leafFrame l
  let psz : Fin 3 := Fin.ofNat 3 l.psz
  let m : PageMove :=
    { ctx := ctx, va := BitVec.ofNat 48 (va / pageSize l.psz * pageSize l.psz), psz := psz, old := BitVec.ofNat 44 base
      frame := frame.map (BitVec.ofNat 44), rebound := false, held := held }
  let s := unreplicate s base
  setLeafState (purgeLeaf { s with moves := s.moves ++ [m] } base) l.at_ 3

def moveEvent (s : State) (ctx : Fin 32) (va frame : Nat) : State :=
  let h := hintOf s ctx va
  match (if ctxLives s ctx then walk s ctx va else none) with
  | none => answer s 0x03
  | some l =>
    let held := fld l.entry 58 56 == 2
    let dies := (h.map hKeepDies).getD 0
    if (moveAt s ctx va).isSome then answer s 0x03
    else if h.any fun r => hHome r != 0 then answer s 0x02
    else if held && dies != 0 && !(spaceOf frame < 4 && dies.testBit (spaceOf frame)) then answer s 0x01
    else if wrongPlace h frame l.psz then answer s 0x02
    else answer (startMove s ctx va l (some frame) held) 0

def unmapEvent (s : State) (ctx : Fin 32) (va : Nat) : State :=
  match (if ctxLives s ctx then walk s ctx va else none) with
  | none => answer s 0x03
  | some l =>
    if (moveAt s ctx va).isSome then answer s 0x03
    else if fld l.entry 58 56 == 2 then answer s 0x01
    else answer (startMove s ctx va l none false) 0

/-! ### The move (R351) -/

/-- The keep list of a range is cleared: its record holds no chip and no die (R344). -/
def clearKeep (r : BitVec 256) : BitVec 256 := putFld (putFld r 179 176 0) 255 192 (2 ^ 64 - 1)

/-- A range holds an address. -/
def inRange (r : BitVec 256) (va : Nat) : Bool := hBaseVa r ≤ va && va < hBaseVa r + hLen r

/-- A Held page is Resident again. -/
def releaseHeld (ctx : Fin 32) (s : State) (va : Nat) : State :=
  match walk s ctx va with
  | some l => if fld l.entry 58 56 == 2 then setLeafState (purgeLeaf s (leafFrame l)) l.at_ 0 else s
  | none => s

/-- The keep list of the range that holds `va` is cleared: its Held pages are Resident (R350). It waits while a page of the
range moves. -/
def keepEvent (s : State) (ctx : Fin 32) (va : Nat) : State :=
  match (if ctxLives s ctx then hintOf s ctx va else none) with
  | none => s
  | some r =>
    if s.moves.any fun m => m.ctx == ctx && inRange r m.va.toNat then s
    else
      ((pagesOf s ctx).filter (inRange r)).foldl (releaseHeld ctx)
        (modCtx s ctx fun c => { c with hints := c.hints.map fun x => if inRange x va then clearKeep x else x })

/-- A valid handle whose PBASE is the frame's is revoked. -/
def revokeOn (base : Nat) (h : Handle) : Handle := if hValid h && hBase h == base then revokeHandle h else h

/-- The core's handles on the frame, and its `xlat`s in flight that found it. -/
def revokeCore (base : Nat) (c : Core) : Core :=
  let p := c.pend.map fun e => match e.act with
    | .xlat n h r => { e with act := .xlat n h (r || (hPresent h && hBase h == base)) }
    | _ => e
  { c with h := c.h.map (revokeOn base), pend := p }

def revokeAll (s : State) (base : Nat) : State := { s with cores := s.cores.map fun e => (e.1, revokeCore base e.2) }

/-- Lines and load-blocks of a frame leave every die. -/
def dropFrame (s : State) (base size : Nat) : State :=
  let inside (l : Nat) : Bool := base ≤ 128 * l && 128 * l < base + size
  let s := (List.range 4).foldl (fun s d => dropLines s d inside) s
  { s with dies := s.dies.map fun d => { d with l2Blocks := d.l2Blocks.filter fun b => !b.any inside } }

/-- A fabric access counts as busy on a page. -/
def busyFabric (s : State) (base size : Nat) : Bool :=
  s.fabric.any fun x => x.raised && x.units.any fun u => base ≤ u.1 && u.1 < base + size

/-- The busy count of a Moving page is 0: the page is copied and rebound, its leaf purged, its handles
revoked. -/
def boundEvent (s : State) (ctx : Fin 32) (va : Nat) : State :=
  match moveAt s ctx va with
  | none => s
  | some m =>
    let base := m.old.toNat
    let size := pageSize m.psz.val
    if m.rebound || countOf s.busy base != 0 || busyFabric s base size then s
    else
      let s := match m.frame, entryPlace s ctx va m.psz.val with
        | some f, some a => writeEntry (copyPage s base f.toNat size) a (putFld (putFld (readEntry s a) 58 56 4) 43 8 (f.toNat / 256))
        | some f, none => copyPage s base f.toNat size
        | none, some a => writeEntry s a (putFld (readEntry s a) 63 63 0)
        | none, none => s
      let s := dropFrame (revokeAll (purgeLeaf s base) base) base size
      { s with moves := s.moves.map fun x => if x == m then { x with rebound := true } else x }

/-- A waiting copy goes on at the new binding, or as a copy of an absent page. -/
def releaseCopy (base : Nat) (f : Option (BitVec 44)) (k : Copy) : Copy :=
  if k.raised || k.absent then k
  else if f.map BitVec.toNat == some (hBase k.h) then { k with raised := true }
  else if hBase k.h != base then k
  else
    match f with
    | some f => { k with raised := true, h := { k.h with w0 := putFld k.h.w0 43 16 (f.toNat / 65536) } }
    | none => { k with absent := true }

/-- The copies that a move releases. -/
def waitingOn (s : State) (base : Nat) (f : Option (BitVec 44)) : Nat :=
  s.cores.foldl (fun a e => a + e.2.copies.countP fun k =>
    !k.raised && !k.absent && (hBase k.h == base || f.map BitVec.toNat == some (hBase k.h))) 0

/-- A fabric access's waiting units on the page go to the new frame, or have no effect: its completion is an error (see
notes/assumptions/72.md). It goes on unless another move holds it. -/
def releaseReq (s : State) (base size : Nat) (f : Option (BitVec 44)) (x : FabReq) : FabReq :=
  let on (a : Nat) : Bool := base ≤ a && a < base + size
  if x.raised then x
  else
    let x := match f with
      | some f => { x with units := x.units.map fun (u : Nat × Nat × Nat) => if on u.1 then (u.1 - base + f.toNat, u.2) else u
                           covers := x.covers.map fun g => if on g then g - base + f.toNat else g }
      | none => { x with units := x.units.filter fun u => !on u.1, bad := x.bad || x.units.any fun u => on u.1 }
    { x with raised := !x.units.any fun u => meetsMove s u.1 u.2.1 }

/-- Revocation is complete: the page returns to its state, and the waiting accesses go on. -/
def moveDone (s : State) (ctx : Fin 32) (va : Nat) : State :=
  match moveAt s ctx va with
  | none => s
  | some m =>
    if !m.rebound then s
    else
      let base := m.old.toNat
      let n := waitingOn s base m.frame
      let s := match m.frame with
        | some f =>
          let s := if n = 0 then s else { s with busy := countAdd s.busy f.toNat n }
          match entryPlace s ctx va m.psz.val with
          | some a => setLeafState (purgeLeaf s f.toNat) a (if m.held then 2 else 0)
          | none => s
        | none => s
      let l := s.cores.map fun e => (e.1, { e.2 with copies := e.2.copies.map (releaseCopy base m.frame) })
      let s := { s with moves := s.moves.filter fun x => x != m, cores := l }
      let fab := s.fabric.map (releaseReq s base (pageSize m.psz.val) m.frame)
      { s with fabric := fab }

/-- A table of a context or a page, its new frame in a move and its replicas among them, meets `n` bytes at `pa`. -/
def inUse (s : State) (pa n : Nat) : Bool :=
  let meets (b size : Nat) : Bool := b < pa + n && pa < b + size
  inTables s pa n ||
    ((List.range 32).any fun i => let x := Fin.ofNat 32 i
      ctxLives s x && (pagesOf s x).any fun va => match walk s x va with
        | some l => meets (leafFrame l) (pageSize l.psz)
        | none => false) ||
    (s.moves.any fun m => meets m.old.toNat (pageSize m.psz.val) || m.frame.any fun f => meets f.toNat (pageSize m.psz.val)) ||
    s.replicas.any fun r => meets r.1 r.2.1

/-- `n` populated bytes at `pa` that are in no use come into use through this view, with what they held, and the poison they
held, through space `sp` (R341). Which bytes of that view they are no rule says: see notes/assumptions/18.md. -/
def reuseEvent (s : State) (pa n sp : Nat) : State :=
  let was (a : Nat) : Nat := Config.viewByte sp a
  let l := (List.range n).map (pa + ·)
  let bad := (l.filter fun a => s.poison.contains (was a / 32 * 32)).map fun a => a / 32 * 32
  if n = 0 || spaceOf pa == sp || populated (spaceOf pa) < offsetOf pa + n || inUse s pa n ||
      l.any (fun a => spaceOf (was a) != sp || populated sp ≤ offsetOf (was a) || inUse s (was a) 1) then s
  else
    { s with mem := memWrite s.mem (l.map fun a => (a, memByte s.mem (was a)))
             poison := s.poison.filter (fun g => !(pa ≤ g && g + 32 ≤ pa + n) && !bad.contains g) ++ bad.eraseDups }

/-! ### The events -/

/-- What the page unit and the runtime firmware do only while they run: in Safe every engine is halted (R29, R400). -/
def unlessSafe (s : State) (f : State → State) : State := if s.boot == .safe then s else f s

def execHintRecord (ctx : Fin 32) (record : BitVec 256) (s : State) : Host.Outcome State Fault Refusal := .next (unlessSafe s fun s => hintEvent s ctx record)
def execMap (ctx : Fin 32) (va : BitVec 48) (psz : Fin 3) (frame : BitVec 44) (rd wr : Bool) (s : State) : Host.Outcome State Fault Refusal :=
  .next (unlessSafe s fun s => mapEvent s ctx va.toNat psz.val frame.toNat rd wr)
def execReplicate (ctx : Fin 32) (va : BitVec 48) (frames : List (BitVec 44)) (s : State) : Host.Outcome State Fault Refusal :=
  .next (unlessSafe s fun s => replicateEvent s ctx va.toNat (frames.map BitVec.toNat))
def execMove (ctx : Fin 32) (va : BitVec 48) (frame : BitVec 44) (s : State) : Host.Outcome State Fault Refusal :=
  .next (unlessSafe s fun s => moveEvent s ctx va.toNat frame.toNat)
def execUnmap (ctx : Fin 32) (va : BitVec 48) (s : State) : Host.Outcome State Fault Refusal := .next (unlessSafe s fun s => unmapEvent s ctx va.toNat)
def execBusyCountZero (ctx : Fin 32) (va : BitVec 48) (s : State) : Host.Outcome State Fault Refusal := .next (unlessSafe s fun s => boundEvent s ctx va.toNat)
def execRevocationComplete (ctx : Fin 32) (va : BitVec 48) (s : State) : Host.Outcome State Fault Refusal := .next (unlessSafe s fun s => moveDone s ctx va.toNat)

end Sys2Proof.Machine
end

