-- ==== Sys2Proof/Machine/Links.lean ====
section
/-!
DEFINITION. Links.lean: the states of a link, alignment, and PTP time (20_link.md R352 to R357, R364).
-/
namespace Sys2Proof.Machine

/-! ### Fields (R352) -/

def setLState (s : State) (p st : Nat) : State := modLink s p fun l => setField l 63 61 st

/-- A UALink port that joins this chip to another of the pod. -/
def isPodLink (s : State) (p : Nat) : Bool := isUaLink p && lPeer s p != 0xFFFF

/-- Every pod kernel whose group holds a chip that `p` picks ends Aborted. -/
def endSpanning (s : State) (p : BitVec 16 → Bool) : State :=
  (s.kernels.filter fun k => isPlaced k && (otherChips s k).any p).foldl (fun s k => afterEvent (endKernel s k.id .aborted 0 none)) s

/-- A link has failed. No link to another chip of the pod carries traffic: no route remains from this chip to any; else
transfers that were not acknowledged are sent again over the others (R364, R374). -/
def rerouteFrom (s : State) : State :=
  if (List.range 16).any fun p => isPodLink s p && carries (linkAt s p) then resend s fun _ => true
  else endSpanning s fun _ => true

/-- No route to a chip remains beyond this chip's own links; a link to the chip itself would be one (R364, R374). -/
def routeLost (s : State) (chip : BitVec 16) : State :=
  if (List.range 16).any fun p => isPodLink s p && lPeer s p == chip.toNat && carries (linkAt s p) then s
  else endSpanning s (· == chip)

/-- The links that still align this chip, with their DEPTH. -/
def alignedLinks (s : State) : List (Fin 20 × Nat) :=
  ((List.finRange 20).map fun p => (p, fld (linkAt s p.val).entry 35 32)).filter fun x => isPodLink s x.1.val && x.2 != 0

/-- The aligned link of least depth. -/
def leastDepth (l : List (Fin 20 × Nat)) : Option (Fin 20 × Nat) :=
  l.foldl (fun a x => match a with | some y => if x.2 < y.2 then some x else a | none => some x) none

/-- A link is aligned no more: DEPTH reads 0; this chip is aligned over another aligned link, the one of least depth, if
it has one (R352, R354; see notes/assumptions/43.md). -/
def loseAlignment (s : State) (p : Nat) : State :=
  let s := modLink s p fun l => { (setField l 35 32 0) with sent := [], probes := [] }
  if s.upLink.map (·.val) == some p then
    match leastDepth (alignedLinks s) with
    | some x => { s with upLink := some x.1, depth := x.2 }
    | none => { s with upLink := none, depth := 0 }
  else s

/-! ### The states of a link (R353) -/

/-- The runtime firmware enables a port: a Down or Failed link trains. -/
def enableEvent (s : State) (p : Nat) : State :=
  if lState s p == 0 || lState s p == 5 then modLink (setLState s p 1) p fun l => { l with attempts := 0 } else s

/-- Any link but a Down one fails. -/
def failLink (s : State) (p : Nat) : State := if lState s p == 0 then s else rerouteFrom (setLState (loseAlignment s p) p 5)

def trainedEvent (s : State) (p lanes : Nat) (peer : BitVec 16) (peerPort : BitVec 4) : State :=
  if lState s p != 1 then s
  else if lanes = 4 then
    modLink (setLState s p 2) p fun l => setField (setField (setField l 60 58 4) 55 40 peer.toNat) 39 36 peerPort.toNat
  else if lanes = 1 || lanes = 2 then modLink (setLState s p 4) p fun l => setField l 60 58 lanes
  else s

/-- The third attempt that does not train fails the link. -/
def timeoutEvent (s : State) (p : Nat) : State :=
  if lState s p != 1 then s
  else
    let s := modLink s p fun l => { l with attempts := l.attempts + 1 }
    if 3 ≤ (linkAt s p).attempts then rerouteFrom (setLState s p 5) else s

/-- A lane is lost, or retries pass the limit: traffic goes on, DEPTH stays, LAT is measured again. -/
def degradeEvent (s : State) (p lanes : Nat) (lat : BitVec 16) : State :=
  if (lState s p != 2 && lState s p != 3) || !(lanes = 1 || lanes = 2 || lanes = 4) then s
  else
    modLink (setLState s p 4) p fun l =>
      setField (setField l 60 58 lanes) 31 16 (if isUaLink p then lat.toNat else 0)

/-- A Degraded link retrains at 4 lanes: it is Up, and alignment starts again. -/
def retrainedEvent (s : State) (p : Nat) : State :=
  if lState s p != 4 then s
  else modLink (setLState (loseAlignment s p) p 2) p fun l => setField l 60 58 4

/-- A retry of the link layer is counted. -/
def retryEvent (s : State) (p : Nat) : State := if carries (linkAt s p) then modLink s p countErr else s

/-! ### Alignment (R354) -/

/-- This chip is the pod's time root: it runs PTP, or the pod has it as its root. -/
def isRoot (s : State) : Bool := s.epochSet || s.chip == Config.timeRoot

/-- The link is Aligned, with its depth and latency. -/
def alignLink (s : State) (p depth lat : Nat) : State :=
  modLink (setLState s p 3) p fun l => { (setField (setField l 35 32 depth) 31 16 lat) with sent := [], probes := [] }

/-- GTC steps forward to tick t, once; no cycle begins in between, and a multiple of 8 000 000 that it steps over takes no
sample (R396). -/
def jumpTo (s : State) (t : Nat) : State :=
  if t ≤ tickOf s then s
  else
    let now := 252 * t
    let l := s.cores.map fun e => (e.1, { e.2 with next := boundaryAt (max e.2.next now) (periodOf s e.1) })
    { s with now := now, cores := l, beatAt := s.beatAt.map fun b => max b ((t - 1) / 8000000 * 8000000) }

/-- A link over which alignment runs: Up, between two chips of the pod. -/
def alignable (s : State) (p : Nat) : Bool := lState s p == 2 && isPodLink s p

/-- This chip, nearer the time root, sends one of 16 probes, 10 microseconds apart. -/
def probeEvent (s : State) (p : Fin 16) : State :=
  let l := linkAt s p.val
  if !alignable s p.val || !(isRoot s || s.upLink.isSome) || 16 ≤ l.sent.length ||
      l.sent.any (fun t => tickOf s < t + 8000) then s
  else
    report (modLink s p.val fun l => { l with sent := l.sent ++ [tickOf s] })
      (.probe (Fin.castLE (by decide) p) (BitVec.ofNat 16 (lPeer s p.val)) none)

/-- This chip, the farther one, answers a probe. A probe that carries the measured LAT ends the alignment: the chip
takes the stamp plus LAT, unless it is the root or another link has aligned it already. -/
def probeArrives (s : State) (v : Via) (depth lat : Nat) : State :=
  receive s v 6 0 false fun s =>
    let p := v.port.val
    if !alignable s p then s
    else
      let s := report s (.probe v.port (BitVec.ofNat 16 (lPeer s p)) (some (vTag v.hdr)))
      if lat = 0 || depth = 0 || 8 < depth then s
      else
        let s := alignLink s p depth lat
        if isRoot s || s.upLink.isSome then s
        else { (jumpTo s (vStamp v.hdr + lat)) with depth := depth, upLink := some v.port }

/-- An answer to the probe that left at tick `sent` returns; after sixteen, LAT is half the least round trip, rounded
up. -/
def answerReturns (s : State) (v : Via) (sent : Nat) : State :=
  receive s v 6 0 false fun s =>
    let p := v.port.val
    if !alignable s p || !(linkAt s p).sent.contains sent then s
    else
      let trips := (tickOf s - sent) :: (linkAt s p).probes
      let s := modLink s p fun l => { l with probes := trips }
      if trips.length < 16 then s
      else
        let least := trips.foldl min (trips.headD 0)
        if 8 < s.depth + 1 then modLink s p fun l => { l with sent := [], probes := [] }
        else alignLink s p (s.depth + 1) ((least + 1) / 2)

/-! ### PTP (R355, R357) -/

/-- GTC as PTP time τ, in nanoseconds, gives it. -/
def gtcOf (s : State) (tau : Nat) : Int := ((tau : Int) - s.epoch.toNat) * 4 / 5

/-- A PTP message over Ultra Ethernet port 0 or 2 gives the time: the root slews its tick period toward it, by at most
20 parts per million (see notes/assumptions/21.md); over another port it is discarded and counted. -/
def ptpEvent (s : State) (port : Fin 20) (tau : Nat) : State :=
  if !carries (linkAt s port.val) then s
  else if port != 16 && port != 18 then modLink s port.val countErr
  else if s.epochSet then { s with slew := max (-20) (min 20 (gtcOf s tau - tickOf s)) }
  else s

/-- The runtime firmware writes EPOCH once. -/
def epochEvent (s : State) (v : BitVec 64) : State := if s.epochSet then s else { s with epoch := v, epochSet := true }

/-! ### The events -/

def execPtpMessage (m : PtpMsg) (s : State) : Host.Outcome State Fault Refusal := .next (ptpEvent s m.port m.tau)
def execProbeSend (port : Fin 16) (s : State) : Host.Outcome State Fault Refusal := .next (probeEvent s port)
def execAlignmentProbe (port : Fin 20) (hdr : BitVec 128) (depth : Fin 16) (lat : BitVec 16) (s : State) :
    Host.Outcome State Fault Refusal := .next (probeArrives s ⟨port, hdr⟩ depth.val lat.toNat)
def execProbeAnswer (via : Via) (sent : BitVec 64) (s : State) : Host.Outcome State Fault Refusal := .next (answerReturns s via sent.toNat)
def execPortEnable (port : Fin 20) (s : State) : Host.Outcome State Fault Refusal := .next (enableEvent s port.val)
def execPortDisable (port : Fin 20) (s : State) : Host.Outcome State Fault Refusal := .next (failLink s port.val)
def execLinkTrained (port : Fin 20) (lanes : Fin 5) (peer : BitVec 16) (peerPort : BitVec 4) (s : State) : Host.Outcome State Fault Refusal :=
  .next (trainedEvent s port.val lanes.val peer peerPort)
def execTrainingTimeout (port : Fin 20) (s : State) : Host.Outcome State Fault Refusal := .next (timeoutEvent s port.val)
def execLinkDegrade (port : Fin 20) (lanes : Fin 5) (lat : BitVec 16) (s : State) : Host.Outcome State Fault Refusal :=
  .next (degradeEvent s port.val lanes.val lat)
def execLinkRetrained (port : Fin 20) (s : State) : Host.Outcome State Fault Refusal := .next (retrainedEvent s port.val)
def execAckTimeout (port : Fin 20) (s : State) : Host.Outcome State Fault Refusal := .next (failLink s port.val)
def execEpochWrite (v : BitVec 64) (s : State) : Host.Outcome State Fault Refusal := .next (epochEvent s v)

end Sys2Proof.Machine
end

