-- ==== Sys2Proof/Machine/Rows.lean ====
section
/-!
DEFINITION. Rows.lean: row classes, live maps, and the steps between operating points (21_rows.md R375 to
R387).
-/
namespace Sys2Proof.Machine

/-! ### Classes and maps (R375 to R378) -/

/-- The class of physical row r. -/
def rowClass (c : Core) (r : Nat) : Nat := ((alGet c.rowCls r).map BitVec.toNat).getD 0

/-- Physical rows good at OPn, rising. -/
def goodRows (c : Core) (n : Nat) : List Nat := (List.range 2176).filter fun r => goodAt (rowClass c r) n

/-- CAP_n that a set of classes gives. -/
def capOf (c : Core) (n : Nat) : Nat := min 2048 (2176 - c.rowCls.countP fun e => !goodAt e.2.toNat n)

/-- M(q) (R377). -/
def liveRow (c : Core) (op q : Nat) : Nat :=
  match alGet c.live q with
  | some r => r
  | none => (goodRows c op).getD q 0

/-! ### Requests (R381) -/

def reqDies (r : BitVec 64) : Nat := fld r 3 0
def reqTarget (r : BitVec 64) : Nat := fld r 6 4

/-- A kernel has a member on a die of the set. -/
def touches (k : Kernel) (dies : BitVec 4) : Bool := k.group != .free && k.members.any fun n => dies.getLsbD (dieOf n)

/-- Groups with a member on a named die. -/
def affected (s : State) (dies : BitVec 4) : List Kernel := s.kernels.filter fun k => touches k dies

def inDies (r : BitVec 64) (d : Nat) : Bool := (reqDies r).testBit d

/-- The outcome code that refuses a request, or 0. -/
def stepRefusal (s : State) (r : BitVec 64) : Nat :=
  let t := reqTarget r
  let named := (List.range 4).filter (inDies r)
  if fld r 31 7 != 0 || 5 < t || (match s.permit with | some p => t < p.val | none => true) || s.boot == .safe then 0x02
  else if named.any (inStep s) then 0x03
  else if (affected s (BitVec.ofNat 4 (reqDies r))).any fun k => recLevel k.record == 4 then 0x04
  else if named.any (fun d => t < opNow s d) && named.any (fun d => opNow s d < t) then 0x05
  else 0

/-- DETAIL of cause 0x10 on core `n` (R282). -/
def noticeDetail (s : State) (target n : Nat) : BitVec 32 :=
  let cap := if leadsPair s n then min (capAt s n target) (capAt s (n + 1) target) else capAt s n target
  BitVec.ofNat 32 (target + cap <<< 16)

/-- A step down makes its notice pending on every member of a group, held until the member's landing; a vacant core
accepts. -/
def notify (s : State) (target : Nat) (k : Kernel) : State :=
  let l := residents k
  modKernel ((l.filter fun n => !isOff s k n).foldl (fun s n => modCore s n fun c => addCause c 0x10 (noticeDetail s target n) true) s)
    k.id fun x => { x with answers := (l.filter (isOff s k)).map fun n => (n, true) }

def stepEvent (s : State) (r : BitVec 64) : State :=
  let code := stepRefusal s r
  let t := reqTarget r
  let dies : BitVec 4 := BitVec.ofNat 4 (packN 1 (fun d => (inDies r d && opNow s d != t).toNat) 4)
  if code != 0 then answer s code
  else if dies = 0 then answer s 0x00
  else
    let up := (List.range 4).any fun d => dies.getLsbD d && t < opNow s d
    let x : OpStep :=
      { id := s.nextStep, dies := dies, target := Fin.ofNat 6 t, deadline := tickOf s + fld r 63 32, up := up
        judged := false, refused := 0, evacuated := false }
    let s := { s with steps := s.steps ++ [x], nextStep := s.nextStep + 1 }
    if up then s else (affected s dies).foldl (fun s k => notify s t k) s

/-! ### Answers (R382, R385) -/

def answered (k : Kernel) (n : Nat) : Bool := k.answers.any fun a => a.1 == n
def refuses (k : Kernel) : Bool := k.answers.any fun a => !a.2

/-- Every member of the group has answered, or is off its core. -/
def allAnswered (s : State) (k : Kernel) : Bool := (residents k).all fun n => answered k n || isOff s k n

/-- Dies as a set. -/
def diesOf (k : Kernel) : BitVec 4 := k.members.foldl (fun (a : BitVec 4) n => a ||| BitVec.ofNat 4 (2 ^ dieOf n)) 0

/-- R of R382: the refusing dies, grown until they stop growing. -/
def growRefused (ks : List Kernel) : Nat → BitVec 4 → BitVec 4
  | 0, r => r
  | n + 1, r => growRefused ks n (ks.foldl (fun a k => if diesOf k &&& a != 0 then a ||| diesOf k else a) r)

/-- The dies that do not step, as the answers stand. -/
def refusedDies (s : State) (x : OpStep) : BitVec 4 :=
  let ks := affected s x.dies
  growRefused ks 4 ((ks.filter fun k => refuses k || !allAnswered s k).foldl (fun a k => a ||| diesOf k) 0)

def findStep (s : State) (id : Nat) : Option OpStep := s.steps.find? fun x => x.id == id

def modStep (s : State) (id : Nat) (f : OpStep → OpStep) : State :=
  { s with steps := s.steps.map fun x => if x.id == id then f x else x }

/-- DEADLINE passes: the dies of groups that have not answered refuse. -/
def deadlineEvent (s : State) (id : Nat) : State :=
  match findStep s id with
  | none => s
  | some x =>
    if x.up || x.judged || tickOf s < x.deadline then s
    else modStep s id fun x => { x with judged := true, refused := refusedDies s x }

/-! ### Evacuation (R383) -/

/-- The core is frozen by a notice. -/
def noticed (s : State) (n : Nat) : Bool :=
  match (coreOf s n).run with
  | .trapped r => fld r 55 48 == 0x10
  | _ => false

/-- A core's record, queued or held, ends and it resumes as by `thaw` in replay mode; a skip that an earlier `thaw` set for
the word after its `land` stands (R446). -/
def resumeUnchanged (s : State) (n : Nat) : State := dropRecords (modCore s n fun c => resumeCore c.skip c) n

/-- The cores of the dies of a set. -/
def coresIn (dies : BitVec 4) : List Nat := (List.range 256).filter fun n => dies.getLsbD (dieOf n)

/-- Cause 0x10 no longer pending, the frozen cores of these dies resume unchanged. -/
def callOff (s : State) (dies : BitVec 4) : State :=
  (coresIn dies).foldl (fun s n =>
    let s := if (coreOf s n).causes.any (fun x => x.code == 0x10)
      then modCore s n fun c => { c with causes := c.causes.filter fun x => x.code != 0x10 } else s
    if noticed s n then resumeUnchanged s n else s) s

/-- Declared rows of a core that stand on rows not good at OPb. -/
def badRows (s : State) (n rows b : Nat) : List Nat :=
  let c := coreOf s n
  let op := opOf' s n
  let good := goodRows c op
  (List.range rows).filter fun q => !goodAt (rowClass c (match alGet c.live q with | some r => r | none => good.getD q 0)) b

/-- Rows that a core's resident kernel declares. -/
def declaredRows (s : State) (n : Nat) : Nat := match kernelAt s n with | some k => recRows k.record | none => 0

/-- The core covers its rows at OPb, and so does the other of its pair. -/
def rowsFit (s : State) (n b : Nat) : Bool :=
  declaredRows s n ≤ capAt s n b && (!leadsPair s n || declaredRows s n ≤ capAt s (n + 1) b)

/-- Every group has answered, or the deadline has passed: the refusing dies are called off, and the cores
of the others evacuate. A kernel accepted wrongly is Faulted (R385). -/
def evacuationEvent (s : State) (id : Nat) : State :=
  match findStep s id with
  | none => s
  | some x =>
    if x.up || x.evacuated || !(x.judged || (affected s x.dies).all (allAnswered s)) then s
    else
      let r := if x.judged then x.refused else refusedDies s x
      let go := x.dies &&& ~~~r
      let b := x.target.val
      let s := callOff s r
      let wrong := (affected s go).filter fun k => (residents k).any fun n => go.getLsbD (dieOf n) && !rowsFit s n b
      let s := wrong.foldl (fun s k => afterEvent (endKernel s k.id .faulted 0x0A none)) s
      let s := (coresIn go).foldl (fun s n =>
        match kernelAt s n with
        | some k => if k.group == .vacating then s else
            let l := badRows s n (recRows k.record) b
            if l.isEmpty then s else modCore s n fun c => { c with evac := l }
        | none => s) s
      modStep s id fun x => { x with judged := true, refused := r, evacuated := true }

/-- The lowest-numbered row good at OPb that holds no declared row. -/
def destination (c : Core) (op rows b : Nat) : Option Nat :=
  let good := goodRows c op
  let used := (List.range rows).map fun q => match alGet c.live q with | some r => r | none => good.getD q 0
  (goodRows c b).find? fun r => !used.contains r

/-- The target of the step that a core's die is in. -/
def stepTarget (s : State) (n : Nat) : Option Nat :=
  (s.steps.find? fun x => !x.up && x.evacuated && x.dies.getLsbD (dieOf n)).map fun x => x.target.val

/-- The migration copy engine copies one row whose busy count is 0, and M(q) changes. -/
def rowCopyEvent (s : State) (n q : Nat) : State :=
  let c := coreOf s n
  match stepTarget s n with
  | none => s
  | some b =>
    if !c.evac.contains q || countOf c.rowBusy q != 0 then s
    else
      match destination c (opOf' s n) (declaredRows s n) b with
      | none => s
      | some r => setCore s n { c with evac := c.evac.filter fun x => x != q, live := alSet c.live q r }

/-! ### The switch (R382, R384, R386) -/

/-- Logical rows from ROWS up to CAP_b are mapped to the remaining good rows, undefined until written. -/
def remap (s : State) (n b : Nat) (c : Core) : Core :=
  let rows := declaredRows s n
  let good := goodRows c (opOf' s n)
  let mine := (List.range rows).map fun q => (q, match alGet c.live q with | some r => r | none => good.getD q 0)
  let used := mine.map (·.2)
  let rest := (goodRows c b).filter fun r => !used.contains r
  let more := (List.range (capOf c b - rows)).map fun i => (rows + i, rest.getD i 0)
  { c with live := mine ++ more
           undef := spOf 2048 fun q => if q < rows then spGet c.undef q else BitVec.allOnes 4096 }

/-- The RDC of die d gives up lines until `lim` are left. Which lines stand in the ways that are mapped out the spec
does not say: see notes/assumptions/45.md. -/
def shrinkRdc (d lim : Nat) : Nat → State → State
  | 0, s => s
  | f + 1, s =>
    let x := dieAt s d
    if x.rdc.length ≤ lim then s
    else match x.rdc[(freeDraw s 4022 f).toNat % max 1 x.rdc.length]? with
      | some v => shrinkRdc d lim f (dropLines s d fun l => l == v.line)
      | none => s

/-- Die d runs at OPb: its cores' next cycles begin on its boundaries, ways not good at b hold no line. -/
def switchDie (b : Fin 6) (s : State) (d : Nat) : State :=
  let x := dieAt s d
  let s := (coresIn (BitVec.ofNat 4 (2 ^ d))).foldl (fun s n =>
    if (coreOf s n).kernel.isSome then modCore s n (remap s n b.val) else s) s
  let s := setDie s d { x with op := b, l2Blocks := shrinkBlocks (l2Limit x b.val) (freeDraw s 4023) x.l2Blocks.length x.l2Blocks }
  let s := shrinkRdc d (rdcLimit x b.val) x.rdc.length s
  let now := s.now
  let p := period b.val
  let l := s.cores.map fun e =>
    if e.1 < 288 && dieOf e.1 == d then (e.1, { e.2 with next := boundaryAt (max e.2.next now) p }) else e
  { s with cores := l }

/-- The management core follows the lowest-numbered operating point in force (R380). -/
def followMgmt (s : State) : State :=
  let p := periodOf s 288
  let now := s.now
  if (alGet s.cores 288).isSome then modCore s 288 fun c => { c with next := boundaryAt (max c.next now) p } else s

/-- Cores frozen by the step resume as by `thaw` in replay mode. -/
def resumeDies (s : State) (dies : BitVec 4) : State :=
  (coresIn dies).foldl (fun s n =>
    if noticed s n then resumeUnchanged s n
    else if (coreOf s n).run == .stepping then modCore s n (fun c => resumeCore c.skip c) else s) s

/-- Every member of a group is frozen for a step up; a vacant core is (R290). -/
def groupFrozen (s : State) (k : Kernel) : Bool :=
  (residents k).all fun n => isOff s k n || ((coreOf s n).run == .stepping && (coreOf s n).copies.isEmpty)

/-- The dies of a step up whose every group is frozen. -/
def readyDies (s : State) (x : OpStep) : BitVec 4 :=
  let open_ := (affected s x.dies).filter fun k => !groupFrozen s k
  BitVec.ofNat 4 (packN 1 (fun d => (x.dies.getLsbD d && !open_.any fun k => k.members.any fun n => dieOf n == d).toNat) 4)

/-- Members of affected groups frozen for a step that is over. -/
def resumeStepping (s : State) : State :=
  (List.range 256).foldl (fun s n =>
    if (coreOf s n).run == .stepping && !stepsUp s n then modCore s n (fun c => resumeCore c.skip c) else s) s

/-- Newel lowers or raises the dies that step; the step ends with its outcome code (R381). -/
def switchEvent (s : State) (id : Nat) : State :=
  match findStep s id with
  | none => s
  | some x =>
    let each (dies : BitVec 4) (s : State) : State :=
      followMgmt (((List.range 4).filter fun d => dies.getLsbD d).foldl (switchDie x.target) s)
    if x.up then
      let go := readyDies s x
      if go = 0 then s
      else
        let s := each go s
        let left := x.dies &&& ~~~go
        if left = 0 then
          afterEvent (answer (resumeStepping { s with steps := s.steps.filter fun y => y.id != id }) 0x00)
        else resumeStepping (modStep s id fun x => { x with dies := left })
    else
      let go := x.dies &&& ~~~x.refused
      if !x.evacuated || (coresIn go).any (fun n => !(coreOf s n).evac.isEmpty) then s
      else
        let s := resumeDies (each go s) go
        afterEvent (answer { s with steps := s.steps.filter fun y => y.id != id } (if x.refused &&& x.dies = 0 then 0x00 else 0x01))

/-- The runtime firmware withdraws a step up (R384). -/
def withdrawEvent (s : State) (id : Nat) : State :=
  match findStep s id with
  | none => s
  | some x =>
    if !x.up then s
    else afterEvent (answer (resumeStepping { s with steps := s.steps.filter fun y => y.id != id }) 0x00)

/-! ### The events -/

def execStepRequest (request : BitVec 64) (s : State) : Host.Outcome State Fault Refusal := .next (stepEvent s request)
def execStepDeadline (id : Nat) (s : State) : Host.Outcome State Fault Refusal := .next (deadlineEvent s id)
def execStepWithdraw (id : Nat) (s : State) : Host.Outcome State Fault Refusal := .next (withdrawEvent s id)
def execEvacuation (id : Nat) (s : State) : Host.Outcome State Fault Refusal := .next (evacuationEvent s id)
def execRowCopy (n : Fin 256) (row : Nat) (s : State) : Host.Outcome State Fault Refusal := .next (rowCopyEvent s n.val row)
def execStepSwitch (id : Nat) (s : State) : Host.Outcome State Fault Refusal := .next (switchEvent s id)

end Sys2Proof.Machine
end

