-- ==== Sys2Proof/Machine/Reliability.lean ====
section
/-!
DEFINITION. Reliability.lean: rewinds asked for, pairs, heartbeat, scrubbing, evictions, the Safe state
(18_barrier.md R339, 22_reliability.md R388 to R398, 13_ordering.md R265, 23_startup.md R399, R400).
-/
namespace Sys2Proof.Machine

/-! ### The Safe state (R29, R399, R400) -/

/-- A core halted for good; what self-test measured of it stays. -/
def haltCore (c : Core) : Core := { Core.zero with run := .halted, rowCls := c.rowCls, caps := c.caps }

/-- What is on its way over the fabric is answered as it is in Safe. -/
def flushFabric (s : State) : State :=
  s.fabric.foldl (fun s x => match x.body with
    | .packet sender p => match senderVia sender with | some v => packetActs s v p | none => s
    | .entryRead _ _ | .entryWrite _ _ _ _ => s
    | .read | .write => report s (.errorCompletion x.port x.src x.tag)) { s with fabric := [], patching := [] }

/-- Newel halts every core and engine; the state of running kernels is lost. -/
def enterSafe (s : State) (cause : Nat) (unit : BitVec 16) : State :=
  flushFabric
    { s with boot := .safe, bootCause := BitVec.ofNat 8 cause, bootUnit := unit
             cores := (List.range 289).map fun n => (n, haltCore (coreOf s n))
             kernels := [], reserved := [], landings := [], runs := [], flights := [], steps := [] }

/-! ### Rewinds asked for by the runtime firmware (R339) -/

/-- The core is frozen with a record: its segment's shadow is restored, or the request is refused. -/
def rewindEvent (s : State) (n : Nat) : State :=
  let c := coreOf s n
  match c.run with
  | .trapped _ =>
    if c.seg.isNone then answer s 0x01
    else if !c.copies.isEmpty then s
    else answer (withdrawArrival (modCore s n (rewindCore (freeVal s 4003 32768))) n) 0
  | _ => answer s 0x01

/-! ### Pairs (R392 to R394) -/

/-- The cycle of the word whose signatures differ, else of the oldest whose signatures have not been compared yet. -/
def unmatchedFrom (c : Core) : Nat := c.differs.getD (((c.sigs.head?).map (·.cycle)).getD c.cyc)

/-- What the words not compared yet have sent does not leave the pair: their line requests have no effect, their messages
and launches go, an arrival is withdrawn. -/
def dropUnmatched (s : State) (n : Nat) : State :=
  let c := coreOf s n
  let from_ := unmatchedFrom c
  let t := c.next - (c.cyc - from_) * periodOf s n
  let late (id : Nat) : Bool := c.copies.any fun k => k.id == id && from_ ≤ k.issued
  let s := { s with flights := s.flights.filter fun f => !(f.src == n && match f.body with
    | .msg _ => t ≤ f.posted
    | .unit _ _ _ _ id _ => late id) }
  let s := c.copies.foldl (fun s k =>
    if k.issued < from_ then s
    else match k.kind with
      | .xput ts _ _ _ => copyEnd (modCore s n fun c => endStoring c ts.val) n k.id
      | _ => modCore s n fun c => modCopy c k.id fun k => { k with absent := true }) s
  let s := match c.arrival with
    | some a => if t / 252 ≤ a.tick then withdrawArrival s n else s
    | none => s
  modCore s n fun c => { c with sigs := [], differs := none, upset := 0, owed := [], aborting := false }

/-- Every kernel with a member in the hall ends Faulted with CODE 0x0F. -/
def endHall (s : State) (h : Nat) : State :=
  (s.kernels.filter fun k => isPlaced k && k.members.any fun n => n / 8 == h).foldl
    (fun s k => afterEvent (endKernel s k.id .faulted 0x0F none)) s

/-- A service core pair fails: it halts and its handler state is lost. What it sent before is performed. -/
def servicePairFails (s : State) (h : Nat) : State :=
  let n := 256 + h
  let s := drainCopies 1000000 (dropUnmatched s n) n
  let s := (coreOf s n).copies.foldl (fun s k => copyEnd s n k.id) s
  endHall (modCore s n fun c =>
    { c with run := .halted, ret := none, handler := false, returning := false, queue := [], request := none, reply := none }) h

/-- Both cores of a compute pair take cause 0x0F; one record stands for both (see notes/assumptions/73.md). A pair that
has frozen for a service or to exit, on a word not compared yet, freezes for the mismatch instead. -/
def computePairFails (s : State) (n : Nat) : State :=
  let rec_ := trapRecord n 0 0x0F 0
  let fresh := !(coreOf s n).sigs.isEmpty || (coreOf s n).differs.isSome
  let s := dropUnmatched s n
  let instead : Bool := match (coreOf s n).run with
    | .exiting => fresh && !(kernelAt s n).any fun k => k.group == .vacating
    | .trapped r => fresh && fld r 55 48 == 0 && !heldRecord s n
    | _ => false
  if instead then queueRecord (modCore (dropRecords s n) n fun c => { c with run := .trapped rec_ }) n rec_
  else [n, n + 1].foldl (fun s m => modCore s m fun c => addCause c 0x0F 0 false) s

/-- A signature mismatch. -/
def mismatchEvent (s : State) (a : Agent) : State :=
  match a with
  | .compute n => if leadsPair s n.val then computePairFails s n.val else s
  | .service h => servicePairFails s h.val
  | .mgmt => enterSafe s 0x05 0

/-- A core with its kernel, restarted from its image at word 0. -/
def startFirmware (s : State) (n : Nat) : State :=
  let ws := Config.firmwareWords s.firmware n
  let next := boundaryAfter s.now (periodOf s n)
  let s := if n < 288 then { s with beatAt := s.beatAt.setIfInBounds (n - 256) (tickOf s), muted := s.muted.filter fun h => h.val != n - 256 } else s
  modCore s n fun c =>
    { Core.zero with run := .running, next := next, istore := spOf 4096 fun i => ws.getD i 0, nextId := c.nextId
                     feat := s.neg, queue := c.queue }

/-- The runtime firmware restarts a halted service core pair. -/
def restartEvent (s : State) (h : Nat) : State :=
  match (coreOf s (256 + h)).run with
  | .halted => if s.boot == .safe then s else startFirmware s (256 + h)
  | _ => s

/-! ### The heartbeat (R396 to R398) -/

/-- Ticks between beats. -/
def beatTicks : Nat := 8000000

/-- In a declared wait now (R397). -/
def waitsNow (c : Core) : Bool := c.run != .running || c.arrival.isSome || c.kernel.isNone

/-- One core's beat: BEATS rises, and a second consecutive miss makes cause 0x12 pending. -/
def beatCore (c : Core) : Core :=
  let miss := !c.prog && !(c.waited || waitsNow c)
  let c' := { c with beats := c.beats + 1, misses := if miss then c.misses + 1 else 0, prog := false, waited := waitsNow c }
  if miss && 1 ≤ c.misses then addCause c' 0x12 0 false else c'

/-- A service core pair that has halted, or that is mute, sends no beat. -/
def beatsAtAll (s : State) (h : Fin 32) : Bool :=
  match (coreOf s (256 + h.val)).run with
  | .halted | .vacant => false
  | _ => !s.muted.contains h

/-- The cores that the heartbeat unit of a hall samples: a pair is one core, and the service core pair is another. -/
def beatCores (s : State) (h : Nat) : List Nat :=
  ((List.range 8).map (8 * h + ·)).filter (fun n => (coreOf s n).run != .trailing) ++ [256 + h]

/-- The heartbeat unit of a hall samples its cores, at the tick that is a multiple of 8 000 000. -/
def beatEvent (s : State) (h : Fin 32) : State :=
  let t := tickOf s / beatTicks * beatTicks
  if t ≤ s.beatAt[h] || !beatsAtAll s h then s
  else
    let ns := beatCores s h.val
    let s := report s (.beat h (ns.map fun n => (coreOf s n).words) (ns.map fun n => (coreOf s n).prog))
    let s := ns.foldl (fun s n => modCore s n beatCore) s
    { s with beatAt := s.beatAt.set h t }

/-- No beat has come from a hall for 20 ms. -/
def beatOverdue (s : State) (h : Fin 32) : Bool :=
  s.boot != .safe && (coreOf s (256 + h.val)).run != .vacant && !beatsAtAll s h && s.beatAt[h] + 2 * beatTicks ≤ tickOf s

/-- No beat for 20 ms: a service-pair failure. -/
def beatLost (s : State) (h : Fin 32) : State :=
  if beatOverdue s h then { (servicePairFails s h.val) with beatAt := s.beatAt.set h (tickOf s) } else s

/-! ### Scrubbing and evictions (R390, R265) -/

/-- An uncorrectable error of a store of a die is counted, stopping at 0xFFFFFFFF. -/
def countUncorrectable (s : State) (d st : Nat) : State :=
  let x := dieAt s d
  let e := x.errs.toList.getD st (0, 0)
  setDie s d { x with errs := x.errs.setIfInBounds st (e.1, satAdd32 e.2 1) }

/-- The scrubber reads and rewrites the granule at an address of a page with granule code `gran` (R345); one that is
uncorrectable is poisoned, and counts on the die that is its home (R390). -/
def scrubEvent (s : State) (pa gran : Nat) (bad : Bool) : State :=
  let g := pa / 32 * 32
  if !bad then s
  else
    let s := countUncorrectable s (homeDie g gran) 1
    if s.poison.contains g then s else { s with poison := s.poison ++ [g] }

/-- The routine is in a step of a pass or in a promotion, or before one that it will come to (R222). -/
def midStep (c : Core) (r : Routine) : Bool :=
  !r.halted && !r.abort &&
    match decodeMicro (spGet c.mx.ustore r.upc.toNat) with
    | some (.passMicroOp _ _ _ _ _) => 2 ≤ r.phase
    | some (.prom _ _ _ _ _) => true
    | _ => false

/-- What happens at a moment no rule fixes: an error of the hardware (a residue mismatch, R223 to R225; a corrected
single-bit error, an uncorrectable granule, R388, R390), the next part of something in progress, what the other chips of
the pod do. What cannot happen leaves the state as it is. -/
def softEvent (s : State) : Soft → State
  | .mismatch n k =>
    let c := coreOf s n.val
    match c.mx.run with
    | none => s
    | some r =>
      if !midStep c r then s
      else modCore s n.val fun c => modRun c fun r => { r with mism := r.mism + k }
  | .corrected d st =>
    let x := dieAt s d.val
    let e := x.errs[st]
    setDie s d.val { x with errs := x.errs.set st (satAdd32 e.1 1, e.2) }
  | .tileByte n a =>
    let g := a / 8 * 8
    if capRows s n.val * 4096 ≤ a then s
    else
      countUncorrectable (modCore s n.val fun c => if c.tPoison.contains g then c else { c with tPoison := c.tPoison ++ [g] })
        (dieOf n.val) 0
  | .wordPart n pc k =>
    let g := 4 * pc.toNat + k.val
    countUncorrectable (modCore s n.val fun c => if c.iPoison.contains g then c else { c with iPoison := c.iPoison ++ [g] })
      (dieOf n.val) 3
  | .rdcByte d a =>
    let g := a / 32 * 32
    let x := dieAt s d.val
    if !x.rdc.any (fun l => l.line == a / 128) then s
    else countUncorrectable (setDie s d.val (if x.rdcPoison.contains g then x else { x with rdcPoison := x.rdcPoison ++ [g] })) d.val 2
  | .fabric id k => fabricActs s id k
  | .patch id k => patchReaches s id k
  | .served n => servedEvent s n.val
  | .keepCleared ctx va => unlessSafe s fun s => keepEvent s ctx va.toNat
  | .grant n h ctx va => unlessSafe s fun s => grantEvent s n.val h ctx va.toNat
  | .reused pa n sp => unlessSafe s fun s => reuseEvent s pa n sp.val
  | .place ctx => unlessSafe s fun s => placeRequest s ctx
  | .saved ctx => unlessSafe s fun s => savedRequest s ctx
  | .retry p => retryEvent s p.val
  | .delivered id => deliveredEvent s id
  | .others k num tick lat => othersArrive s k num tick lat
  | .noRoute chip => routeLost s chip
  | .podRun r h es t => podRunStart s r h es t
  | .podJoined r => modTRun s r fun r => { r with others := true }
  | .acked r j chip => ackEvent s r j chip
  | .lostLink chip => resend s (· == chip)
  | .podFail r pn => podRunFails s r pn.val
  | .upset n bits => if isPaired s n.val then modCore s n.val fun c => { c with upset := bits } else s
  | .stageVerified => s
  | .mute h => { s with muted := if s.muted.contains h then s.muted else s.muted ++ [h] }

/-- A copy leaves the RDC of a die, or a load-block whole. -/
def evictEvent (s : State) (d line : Nat) : State :=
  let s := dropLines s d (· == line)
  let x := dieAt s d
  setDie s d { x with l2Blocks := x.l2Blocks.filter fun b => !b.contains line }

/-! ### Refused words (R108) -/

/-- A word whose slot holds no instruction is refused with fault 0x01. -/
def slotIllegal (k : Fin 8) (_ : State) (_ : Nat) : SlotOp := SlotOp.illegal k.val

/-! ### The events -/

def execRewind (n : Fin 256) (s : State) : Host.Outcome State Fault Refusal := .next (rewindEvent s n.val)
def execPairMismatch (a : Agent) (s : State) : Host.Outcome State Fault Refusal := .next (mismatchEvent s a)
def execServicePairRestart (hall : Fin 32) (s : State) : Host.Outcome State Fault Refusal := .next (restartEvent s hall.val)
def execBeat (hall : Fin 32) (s : State) : Host.Outcome State Fault Refusal := .next (beatEvent s hall)
def execBeatTimeout (hall : Fin 32) (s : State) : Host.Outcome State Fault Refusal := .next (beatLost s hall)
def execScrub (g : GranuleRef) (uncorrectable : Bool) (s : State) : Host.Outcome State Fault Refusal :=
  .next (scrubEvent s g.pa g.gran.val uncorrectable)
def execEviction (die : Fin 4) (line : Nat) (s : State) : Host.Outcome State Fault Refusal := .next (evictEvent s die.val line)
def execIllegalEncoding (slot : Fin 8) (s : State) : Host.Outcome State Fault Refusal := runSlot s (slotIllegal slot)

end Sys2Proof.Machine
end

