-- ==== Sys2Proof/Machine/Startup.lean ====
section
/-!
DEFINITION. Startup.lean: the start-up sequence, signed images, the diagnostic mailbox (23_startup.md R399
to R407).
-/
namespace Sys2Proof.Machine

/-! ### Signed images (R401) -/

/-- The image is accepted, for image kind i: 0 the newel signed stage, 1 the runtime firmware. -/
def accepts (s : State) (i : Fin 2) (x : SignedImage) : Bool :=
  sha512 x.key == Config.romDigest && verifies x.key (sha512 (x.key ++ (toBytes 4 x.version.toNat ++ x.code))) x.sig &&
    s.fusedMin[i] ≤ x.version

/-- The whole image, as digested for attestation. -/
def imageOfSigned (x : SignedImage) : List Byte := x.key ++ (toBytes 4 x.version.toNat ++ (x.code ++ x.sig))

/-! ### The sequence (R399) -/

/-- Power good: the ROM stage runs on the newel block, and begins to verify the signed stage. -/
def powerEvent (s : State) (x : SignedImage) : State :=
  if s.boot != .reset then s else { s with boot := .newel, rom := some x }

/-- The signed stage verifies, or does not. -/
def stageEvent (s : State) : State :=
  match s.boot, s.rom with
  | .newel, some x =>
    let s := { s with rom := none }
    if accepts s 0 x then { s with boot := .selfTest, stage := imageOfSigned x } else enterSafe s 0x01 0
  | _, _ => s

/-- The rows floor of R25. -/
def rowFloor : List Nat := [2048, 2048, 2016, 1984, 1920, 1856]

/-- Classes as self-test reports them, by 2176 * core + row: a core's rows. -/
def classesOf (l : List (Nat × BitVec 3)) (n : Nat) : List (Nat × BitVec 3) :=
  (l.filter fun e => e.1 / 2176 == n && e.2 != 0).map fun e => (e.1 % 2176, e.2)

/-- A core after self-test. -/
def measured (l : List (Nat × BitVec 3)) (n : Nat) (c : Core) : Core :=
  let c := { c with rowCls := classesOf l n }
  { c with caps := Vector.ofFn fun i => BitVec.ofNat 12 (capOf c i.val) }

/-- The core meets R25. -/
def meetsFloor (s : State) (n : Nat) : Bool :=
  (List.range 6).all fun i => rowFloor.getD i 0 ≤ ((coreOf s n).caps.toList.getD i 0).toNat

/-- The die's L2 loses no more than 2 of its 16 ways at any operating point (R22). -/
def l2Meets (x : Die) : Bool := (List.range 6).all fun i => x.l2Cls.countP (fun e => !goodAt e.2.toNat i) ≤ 2

/-- The unit that fails the floors of R22 and R25, if any. -/
def unitBelow (s : State) : Option (BitVec 16) :=
  (((List.range 256).find? fun n => !meetsFloor s n).map Config.coreUnit).or
    (((List.range 4).find? fun d => !l2Meets (dieAt s d)).map Config.l2Unit)

/-- Classes of a die's ways, after the rows': 32 to a die, L2 ways first, then RDC ways. -/
def wayClasses (l : List (Nat × BitVec 3)) (d lo : Nat) : List (Nat × BitVec 3) :=
  (l.filter fun e => 557056 + 32 * d + lo ≤ e.1 && e.1 < 557056 + 32 * d + lo + 16 && e.2 != 0).map fun e => ((e.1 - 557056) % 16, e.2)

/-- Self-test completes: tables installed, every die at OP5, or Safe with the failing unit. -/
def selfTestEvent (s : State) (failing : Option (BitVec 16)) (l : List (Nat × BitVec 3)) : State :=
  if s.boot != .selfTest then s
  else
    match failing with
    | some u => enterSafe s 0x02 u
    | none =>
      let s' := { s with
        boot := .firmwareLoad, offer := 0xFF
        cores := (List.range 256).map fun n => (n, measured l n (coreOf s n))
        dies := Vector.ofFn fun d => { s.dies[d] with op := 5, l2Cls := wayClasses l d.val 0, rdcCls := wayClasses l d.val 16 } }
      match unitBelow s' with
      | none => s'
      | some u => enterSafe s' 0x02 u

/-- The runtime firmware image verifies: the management pair and the service pairs start. -/
def firmwareEvent (s : State) (x : SignedImage) : State :=
  if s.boot != .firmwareLoad then s
  else if accepts s 1 x then
    let s := { s with boot := .negotiating, firmware := imageOfSigned x
                      fusedMin := s.fusedMin.set 1 (if s.fusedMin[1] ≤ x.version then x.version else s.fusedMin[1]) }
    (List.range 33).foldl (fun s i => startFirmware s (256 + i)) s
  else enterSafe s 0x03 0

/-! ### The mailbox (R403 to R405, R407) -/

def bootNo : Boot → Nat
  | .reset => 0 | .newel => 1 | .selfTest => 2 | .firmwareLoad => 3 | .negotiating => 4 | .operational => 5 | .safe => 6

/-- STATUS of a request before its own rules: malformed, or not served in this state. -/
def gate (s : State) (op : Nat) (hdr : BitVec 64) (bad : Bool) : Nat :=
  if fld hdr 63 8 != 0 || bad then 0x01
  else if bootNo s.boot < 3 && op != 1 && op != 6 then 0x02
  else if s.boot == .safe && op == 2 then 0x02
  else 0

/-- The answer. -/
def reply (s : State) (dest : Sender) (op status : Nat) (data : List Byte) : State :=
  report s (.mailbox dest (BitVec.ofNat 8 op) (BitVec.ofNat 8 status) data)

/-- A request reaches newel: from the management core, or from a host node as a vendor message of type 7 with `len` units
of payload. One from anywhere else is discarded and counted (R359, R403). -/
def mailIn (s : State) (dest : Sender) (len : Nat) (f : State → State) : State :=
  let drop (v : Via) (s : State) : State := modLink s v.port.val countErr
  match dest with
  | .mgmt => f s
  | .host v => receive s v 7 len true fun s => if vSrc v.hdr = 0xFFFF then f s else drop v s
  | .scheduler v => receive s v 7 len true (drop v)

/-- A request with header `hdr` whose OP is none of R403's: with a nonzero bit above OP it is malformed. From the
management core it is one that R402 does not permit; from a host it is malformed (see notes/assumptions/75.md). -/
def unlisted (s : State) (dest : Sender) (op : Nat) (hdr : BitVec 64) : State :=
  if fld hdr 63 8 != 0 then reply s dest op 0x01 []
  else if bootNo s.boot < 3 then reply s dest op 0x02 []
  else match dest with
    | .mgmt => reply s dest op 0x03 []
    | _ => reply s dest op 0x01 []

/-- A request with header `hdr` whose OP is `op`: its effect where the gate lets it pass. -/
def serve (s : State) (dest : Sender) (op : Nat) (hdr : BitVec 64) (bad : Bool) (f : State → State) (len : Nat := 1) : State :=
  mailIn s dest len fun s =>
    let o := fld hdr 7 0
    if o = 0 || 8 < o then unlisted s dest o hdr
    else if o != op then s
    else
      let g := gate s op hdr bad
      if g != 0 then reply s dest op g [] else f s

def stateData (s : State) : List Byte :=
  toBytes 4 (bootNo s.boot + s.bootCause.toNat <<< 8 + s.bootUnit.toNat <<< 16)

def negData (s : State) : List Byte := toBytes 8 s.offer.toNat ++ toBytes 8 s.neg.toNat

/-- Negotiation: the first request after Firmware-load fixes NEG. -/
def negotiateEvent (s : State) (dest : Sender) (hdr want : BitVec 64) : State :=
  mailIn s dest 1 fun s =>
    let o := fld hdr 7 0
    if o = 0 || 8 < o then unlisted s dest o hdr
    else if o != 2 then s
    else if gate s 2 hdr false = 1 then reply s dest 2 1 []
    else if s.boot == .negotiating && !s.negSet then
      let s := { s with neg := s.offer &&& want &&& 0xFF#64, negSet := true, boot := .operational }
      let s := { s with cores := s.cores.map fun e => if 256 ≤ e.1 then (e.1, { e.2 with feat := s.neg }) else e }
      reply s dest 2 0 (negData s)
    else reply s dest 2 0x02 (negData s)

/-- The 3-bit codes of a core's rows. -/
def rowData (s : State) (n : Nat) : List Byte := toBytes 816 (packN 3 (fun r => rowClass (coreOf s n) r) 2176)

def errData (s : State) (d st : Nat) : List Byte :=
  let e := (dieAt s d).errs.toList.getD st (0, 0)
  toBytes 4 e.1.toNat ++ toBytes 4 e.2.toNat

/-- The first 224 bytes of an attestation report. -/
def reportBody (s : State) (nonce : List Byte) : List Byte :=
  nonce ++ (bytesBE 64 (sha512 s.firmware).toNat ++ (bytesBE 64 (sha512 s.stage).toNat ++
    (toBytes 8 (if bootNo s.boot < 5 then 0 else s.neg.toNat) ++ (toBytes 8 s.offer.toNat ++
      (toBytes 1 (match s.permit with | some p => p.val | none => 0xFF) ++ (toBytes 1 (bootNo s.boot) ++
        (toBytes 6 0 ++ toBytes 8 (tickOf s))))))))

/-- The attestation report (R407). -/
def attestReport (s : State) (nonce : List Byte) : List Byte :=
  let b := reportBody s nonce
  b ++ (identitySign (sha512 b) ++ toBytes 12 0)

/-- The device enters Reset; the fused minima and what lies outside the device stay. -/
def deviceReset (s : State) : State :=
  { State.reset with fusedMin := s.fusedMin, outbox := s.outbox, agenda := s.agenda, ties := s.ties, fresh := s.fresh
                     chip := s.chip }

def resetEvent (s : State) (dest : Sender) (hdr arg : BitVec 64) : State :=
  serve s dest 7 hdr (arg != 0) fun s =>
    match dest with
    | .mgmt => deviceReset (reply s dest 7 0 [])
    | _ => if s.boot == .safe then deviceReset (reply s dest 7 0 []) else reply s dest 7 0x02 []

/-- The highest permitted operating point is set, once, by the management core; heads in Capacity-wait are
judged again. -/
def permitEvent (s : State) (dest : Sender) (hdr arg : BitVec 64) : State :=
  serve s dest 8 hdr (fld arg 63 3 != 0 || 5 < fld arg 2 0) fun s =>
    match dest with
    | .mgmt =>
      if s.permit.isSome then reply s dest 8 0x03 []
      else reply (afterEvent { s with permit := some (Fin.ofNat 6 (fld arg 2 0)) }) dest 8 0 []
    | _ => reply s dest 8 0x03 []

/-- The row map of a core is read. The runtime firmware, on the management core, may not read one (R278, R402). -/
def rowMapEvent (s : State) (dest : Sender) (hdr arg : BitVec 64) : State :=
  serve s dest 3 hdr (fld arg 63 8 != 0) fun s =>
    match dest with
    | .mgmt => reply s dest 3 0x03 []
    | _ => reply s dest 3 0 (rowData s (fld arg 7 0))

/-! ### What befalls the machine -/

/-- What happens at a moment no rule fixes. -/
def befall (s : State) : Soft → State
  | .stageVerified => stageEvent s
  | x => softEvent s x

/-! ### The events -/

def execPowerGood (img : SignedImage) (s : State) : Host.Outcome State Fault Refusal := .next (powerEvent s img)
def execSelfTest (failing : Option (BitVec 16)) (classes : List (Nat × BitVec 3)) (s : State) : Host.Outcome State Fault Refusal :=
  .next (selfTestEvent s failing classes)
def execFirmwareImageVerify (img : SignedImage) (s : State) : Host.Outcome State Fault Refusal := .next (firmwareEvent s img)
def execThermalTrip (s : State) : Host.Outcome State Fault Refusal := .next (enterSafe s 0x04 0)
def execMailboxState (sender : Sender) (hdr arg : BitVec 64) (s : State) : Host.Outcome State Fault Refusal :=
  .next (serve s sender 1 hdr (arg != 0) fun s => reply s sender 1 0 (stateData s))
def execNegotiate (sender : Sender) (hdr want : BitVec 64) (s : State) : Host.Outcome State Fault Refusal := .next (negotiateEvent s sender hdr want)
def execRowMap (sender : Sender) (hdr arg : BitVec 64) (s : State) : Host.Outcome State Fault Refusal :=
  .next (rowMapEvent s sender hdr arg)
def execErrorCounts (sender : Sender) (hdr arg : BitVec 64) (s : State) : Host.Outcome State Fault Refusal :=
  .next (serve s sender 4 hdr (fld arg 63 4 != 0) fun s => reply s sender 4 0 (errData s (fld arg 1 0) (fld arg 3 2)))
def execAttestation (sender : Sender) (hdr arg : BitVec 64) (nonce : List Byte) (s : State) : Host.Outcome State Fault Refusal :=
  .next (serve s sender 5 hdr (arg != 0 || nonce.length != 64) (fun s => reply s sender 5 0 (attestReport s nonce)) 5)
def execIdentity (sender : Sender) (hdr arg : BitVec 64) (s : State) : Host.Outcome State Fault Refusal :=
  .next (serve s sender 6 hdr (arg != 0) fun s => reply s sender 6 0 identityKey)
def execReset (sender : Sender) (hdr arg : BitVec 64) (s : State) : Host.Outcome State Fault Refusal := .next (resetEvent s sender hdr arg)
def execPermit (sender : Sender) (hdr arg : BitVec 64) (s : State) : Host.Outcome State Fault Refusal := .next (permitEvent s sender hdr arg)

end Sys2Proof.Machine
end

