-- ==== Sys2Proof/Machine/Slots.lean ====
section
/-!
DEFINITION. Slots.lean: the slot operation of each instruction that stands in a slot of a word (05_word.md
R65, R67).
-/
namespace Sys2Proof.Machine

/-- What the instruction is as a slot of the word of an agent; none for `nop` and `knop`, which do
nothing, and for micro-operations and events. -/
def slotOf : Instr → Option (State → Nat → SlotOp)
  | .nop => none
  | .knop => none
  | .add g a b => some (slotAdd g a b)
  | .sub g a b => some (slotSub g a b)
  | .mul g a b => some (slotMul g a b)
  | .mulh g a b => some (slotMulh g a b)
  | .mulhu g a b => some (slotMulhu g a b)
  | .div g a b => some (slotDiv g a b)
  | .divu g a b => some (slotDivu g a b)
  | .rem g a b => some (slotRem g a b)
  | .remu g a b => some (slotRemu g a b)
  | .and g a b => some (slotAnd g a b)
  | .or g a b => some (slotOr g a b)
  | .xor g a b => some (slotXor g a b)
  | .andn g a b => some (slotAndn g a b)
  | .shl g a b => some (slotShl g a b)
  | .shr g a b => some (slotShr g a b)
  | .sar g a b => some (slotSar g a b)
  | .min g a b => some (slotMin g a b)
  | .max g a b => some (slotMax g a b)
  | .minu g a b => some (slotMinu g a b)
  | .maxu g a b => some (slotMaxu g a b)
  | .clz g a => some (slotClz g a)
  | .ctz g a => some (slotCtz g a)
  | .popc g a => some (slotPopc g a)
  | .limm g i => some (slotLimm g i)
  | .limmh g p c => some (slotLimmh g p c)
  | .pass g a => some (slotPass g a)
  | .mov g d a => some (slotMov g d a)
  | .sel g a b p => some (slotSel g a b p)
  | .sext g a k => some (slotSext g a k)
  | .cmpeq g d a b => some (slotCmpeq g d a b)
  | .cmpne g d a b => some (slotCmpne g d a b)
  | .cmplt g d a b => some (slotCmplt g d a b)
  | .cmple g d a b => some (slotCmple g d a b)
  | .cmpltu g d a b => some (slotCmpltu g d a b)
  | .cmpleu g d a b => some (slotCmpleu g d a b)
  | .pand g d a b => some (slotPand g d a b)
  | .por g d a b => some (slotPor g d a b)
  | .pxor g d a b => some (slotPxor g d a b)
  | .pandn g d a b => some (slotPandn g d a b)
  | .ldt g sz t a => some (slotLdt g sz t a)
  | .stt g wide t a b => some (slotStt g wide t a b)
  | .br g off => some (slotBr g off)
  | .brl g off => some (slotBrl g off)
  | .jr g a => some (slotJr g a)
  | .brbank g i => some (slotBrbank g i)
  | .ifence g => some (slotIfence g)
  | .fdef g k f n => some (slotFdef g k f n)
  | .fcnt g k a => some (slotFcnt g k a)
  | .fstr g k w a => some (slotFstr g k w a)
  | .fpipe g n => some (slotFpipe g n)
  | .stair g n => some (slotStair g n)
  | .sbrk g => some (slotSbrk g)
  | .getc g d n => some (slotGetc g d n)
  | .setc g n b => some (slotSetc g n b)
  | .brk g c => some (slotBrk g c)
  | .svc g n => some (slotSvc g n)
  | .lnch g h a => some (slotLnch g h a)
  | .qstat g a => some (slotQstat g a)
  | .qstatO g a b => some (slotQstatO g a b)
  | .thaw g a skip => some (slotThaw g a skip)
  | .rfh g => some (slotRfh g)
  | .vaddF32 u g a b mk rm => some (slotVaddF32 u g a b mk rm)
  | .vsubF32 u g a b mk rm => some (slotVsubF32 u g a b mk rm)
  | .vmulF32 u g a b mk rm => some (slotVmulF32 u g a b mk rm)
  | .vfmaF32 u g a b c mk rm => some (slotVfmaF32 u g a b c mk rm)
  | .vfmsF32 u g a b c mk rm => some (slotVfmsF32 u g a b c mk rm)
  | .vminF32 u g a b mk => some (slotVminF32 u g a b mk)
  | .vmaxF32 u g a b mk => some (slotVmaxF32 u g a b mk)
  | .vdivF32 u g a b mk rm => some (slotVdivF32 u g a b mk rm)
  | .vsqrtF32 u g a mk rm => some (slotVsqrtF32 u g a mk rm)
  | .vabsF32 u g a mk => some (slotVabsF32 u g a mk)
  | .vnegF32 u g a mk => some (slotVnegF32 u g a mk)
  | .vaddI32 u g a b mk => some (slotVaddI32 u g a b mk)
  | .vsubI32 u g a b mk => some (slotVsubI32 u g a b mk)
  | .vmulI32 u g a b mk => some (slotVmulI32 u g a b mk)
  | .vminI32 u g a b mk => some (slotVminI32 u g a b mk)
  | .vmaxI32 u g a b mk => some (slotVmaxI32 u g a b mk)
  | .vand u g a b mk => some (slotVand u g a b mk)
  | .vor u g a b mk => some (slotVor u g a b mk)
  | .vxor u g a b mk => some (slotVxor u g a b mk)
  | .vshl u g a b mk => some (slotVshl u g a b mk)
  | .vshr u g a b mk => some (slotVshr u g a b mk)
  | .vsar u g a b mk => some (slotVsar u g a b mk)
  | .vsel u g a b mk => some (slotVsel u g a b mk)
  | .vcmpF32 u g cc d a b => some (slotVcmpF32 u g cc d a b)
  | .vcmpI32 u g cc d a b => some (slotVcmpI32 u g cc d a b)
  | .mand u g d a b => some (slotMand u g d a b)
  | .mor u g d a b => some (slotMor u g d a b)
  | .mxor u g d a b => some (slotMxor u g d a b)
  | .mandn u g d a b => some (slotMandn u g d a b)
  | .vmu u g d mk care => some (slotVmu u g d mk care)
  | .vmov u g d a => some (slotVmov u g d a)
  | .vcvt u g src dst sat a mk rm => some (slotVcvt u g src dst sat a mk rm)
  | .vperm u g a b mk => some (slotVperm u g a b mk)
  | .vslide u g rot a b mk => some (slotVslide u g rot a b mk)
  | .vldt u g t a => some (slotVldt u g t a)
  | .vstt u g masked t a b => some (slotVstt u g masked t a b)
  | .vgath u g masked t a => some (slotVgath u g masked t a)
  | .vscat u g masked t a b => some (slotVscat u g masked t a b)
  | .vredAdd u g int a mk => some (slotVredAdd u g int a mk)
  | .vredMax u g int a mk => some (slotVredMax u g int a mk)
  | .vredMin u g int a mk => some (slotVredMin u g int a mk)
  | .vscanAdd u g int a mk => some (slotVscanAdd u g int a mk)
  | .vexp2 u g a mk rm => some (slotVexp2 u g a mk rm)
  | .vlog2 u g a mk rm => some (slotVlog2 u g a mk rm)
  | .vrcp u g a mk rm => some (slotVrcp u g a mk rm)
  | .vrsqrt u g a mk rm => some (slotVrsqrt u g a mk rm)
  | .vtanh u g a mk rm => some (slotVtanh u g a mk rm)
  | .vqnt u g f col a => some (slotVqnt u g f col a)
  | .vdqnt u g f col a => some (slotVdqnt u g f col a)
  | .mcall g i => some (slotMcall g i)
  | .mpset g n a => some (slotMpset g n a)
  | .mwait g a => some (slotMwait g a)
  | .mstat g => some (slotMstat g)
  | .mabort g => some (slotMabort g)
  | .mlucode g t a b => some (slotMlucode g t a b)
  | .mlucodeEnt g t a b => some (slotMlucodeEnt g t a b)
  | .mlsf g half => some (slotMlsf g half)
  | .mlsfT g half t a => some (slotMlsfT g half t a)
  | .kst col i a => some (slotKst col i a)
  | .kcfg w row col sat => some (slotKcfg w row col sat)
  | .klds col t a => some (slotKlds col t a)
  | .tdef u g t a b => some (slotTdef u g t a b)
  | .tld u g t h cl a => some (slotTld u g t h cl a)
  | .tst u g t h cl a => some (slotTst u g t h cl a)
  | .tamo u g op wide h cl a c => some (slotTamo u g op wide h cl a c)
  | .tlbk u g pn h cl a => some (slotTlbk u g pn h cl a)
  | .tcpy u g td ts => some (slotTcpy u g td ts)
  | .tfill u g t a b => some (slotTfill u g t a b)
  | .tldi u g bank h cl a => some (slotTldi u g bank h cl a)
  | .bkc u g t h cl a => some (slotBkc u g t h cl a)
  | .waitc u g kind a b => some (slotWaitc u g kind a b)
  | .waitf u g any clr a => some (slotWaitf u g any clr a)
  | .rdcinv u g h a b => some (slotRdcinv u g h a b)
  | .xlat u g h a => some (slotXlat u g h a)
  | .hstat u g va h => some (slotHstat u g va h)
  | .hclr u g h => some (slotHclr u g h)
  | .hclrPn u g a => some (slotHclrPn u g a)
  | .ipatch u g a b => some (slotIpatch u g a b)
  | .frd u g a => some (slotFrd u g a)
  | .fwr u g a b => some (slotFwr u g a b)
  | .csave u g h a b => some (slotCsave u g h a b)
  | .crest u g h a b => some (slotCrest u g h a b)
  | .xsend g vec tag a b => some (slotXsend g vec tag a b)
  | .xrecv g tag a => some (slotXrecv g tag a)
  | .xradd g int tag a b => some (slotXradd g int tag a b)
  | .xrmax g int tag a b => some (slotXrmax g int tag a b)
  | .xput g ts a b => some (slotXput g ts a b)
  | .xbegin g h a b => some (slotXbegin g h a b)
  | .xtrig g k a => some (slotXtrig g k a)
  | .xstat g => some (slotXstat g)
  | .land g scope => some (slotLand g scope)
  | .align g a => some (slotAlign g a)
  | .seg g => some (slotSeg g)
  | .trapm _ => none
  | .passMicroOp _ _ _ _ _ => none
  | .prom _ _ _ _ _ => none
  | .clra => none
  | .ldpl _ _ _ => none
  | .stpl _ _ => none
  | .drain _ => none
  | .idpl _ => none
  | .coef _ _ => none
  | .loop _ _ _ _ _ => none
  | .endl _ => none
  | .brf _ _ _ => none
  | .setw _ => none
  | .setf _ _ => none
  | .rprc _ _ => none
  | .done => none
  | .trap _ => none
  | .handlerEntry _ => none
  | .translationWalk _ => none
  | .lineRequestPerformed _ _ _ => none
  | .copyOutRead _ => none
  | .tamoPerformed _ => none
  | .tldiEnd _ => none
  | .tileCopyDone _ => none
  | .csaveDone _ => none
  | .crestDone _ => none
  | .vld _ => none
  | .gemv _ => none
  | .gemvAcc _ => none
  | .axpy _ => none
  | .fill _ => none
  | .sum _ => none
  | .timetableRunStart _ => none
  | .timetableCopy _ _ => none
  | .timetableReduce _ _ => none
  | .timetableReduceAndWrite _ _ => none
  | .landingConditionsHold _ => none
  | .landingRelease _ => none
  | .triggerFire _ _ => none
  | .xMessage _ => none
  | .xMessageEntry _ => none
  | .xputUnit _ => none
  | .collectiveChunk _ _ _ => none
  | .launchPacket _ _ _ => none
  | .groupAbort _ => none
  | .patchWrite _ _ _ _ _ _ _ => none
  | .fabricRead _ _ _ => none
  | .fabricWrite _ _ => none
  | .unsupportedRequest _ _ => none
  | .ptpMessage _ => none
  | .probeSend _ => none
  | .alignmentProbe _ _ _ _ => none
  | .probeAnswer _ _ => none
  | .portEnable _ => none
  | .portDisable _ => none
  | .linkTrained _ _ _ _ => none
  | .trainingTimeout _ => none
  | .linkDegrade _ _ _ => none
  | .linkRetrained _ => none
  | .ackTimeout _ => none
  | .contextCreate _ => none
  | .setupDone _ => none
  | .destroy _ => none
  | .teardownComplete _ => none
  | .trapUnrecoverable _ => none
  | .faultDrainDone _ => none
  | .queueCreate _ _ => none
  | .suspend _ _ => none
  | .resume _ _ => none
  | .teardown _ _ => none
  | .supplyDeclaration _ _ => none
  | .choose => none
  | .memberLoaded _ _ => none
  | .t0Start _ => none
  | .kernelDone _ => none
  | .hintRecord _ _ => none
  | .map _ _ _ _ _ _ => none
  | .replicate _ _ _ => none
  | .move _ _ _ => none
  | .unmap _ _ => none
  | .busyCountZero _ _ => none
  | .revocationComplete _ _ => none
  | .stepRequest _ => none
  | .stepDeadline _ => none
  | .stepWithdraw _ => none
  | .evacuation _ => none
  | .rowCopy _ _ => none
  | .stepSwitch _ => none
  | .rewind _ => none
  | .pairMismatch _ => none
  | .beat _ => none
  | .beatTimeout _ => none
  | .scrub _ _ => none
  | .powerGood _ => none
  | .selfTest _ _ => none
  | .firmwareImageVerify _ => none
  | .thermalTrip => none
  | .mailboxState _ _ _ => none
  | .negotiate _ _ _ => none
  | .rowMap _ _ _ => none
  | .errorCounts _ _ _ => none
  | .attestation _ _ _ _ => none
  | .identity _ _ _ => none
  | .reset _ _ _ => none
  | .permit _ _ _ => none
  | .illegalEncoding slot => some (slotIllegal slot)
  | .eviction _ _ => none
  | .servicePairRestart _ => none
  | .epochWrite _ => none

end Sys2Proof.Machine
end

