-- ==== Sys2Proof/Machine/Dispatch.lean ====
section
/-!
DEFINITION. Dispatch.lean: the meaning of every instruction.
-/
namespace Sys2Proof.Machine

def exec (i : Instr) (s : State) : Host.Outcome State Fault Refusal :=
  match i with
  | .nop => Sys2Proof.Machine.execNop s
  | .knop => Sys2Proof.Machine.execKnop s
  | .add g a b => Sys2Proof.Machine.execAdd g a b s
  | .sub g a b => Sys2Proof.Machine.execSub g a b s
  | .mul g a b => Sys2Proof.Machine.execMul g a b s
  | .mulh g a b => Sys2Proof.Machine.execMulh g a b s
  | .mulhu g a b => Sys2Proof.Machine.execMulhu g a b s
  | .div g a b => Sys2Proof.Machine.execDiv g a b s
  | .divu g a b => Sys2Proof.Machine.execDivu g a b s
  | .rem g a b => Sys2Proof.Machine.execRem g a b s
  | .remu g a b => Sys2Proof.Machine.execRemu g a b s
  | .and g a b => Sys2Proof.Machine.execAnd g a b s
  | .or g a b => Sys2Proof.Machine.execOr g a b s
  | .xor g a b => Sys2Proof.Machine.execXor g a b s
  | .andn g a b => Sys2Proof.Machine.execAndn g a b s
  | .shl g a b => Sys2Proof.Machine.execShl g a b s
  | .shr g a b => Sys2Proof.Machine.execShr g a b s
  | .sar g a b => Sys2Proof.Machine.execSar g a b s
  | .min g a b => Sys2Proof.Machine.execMin g a b s
  | .max g a b => Sys2Proof.Machine.execMax g a b s
  | .minu g a b => Sys2Proof.Machine.execMinu g a b s
  | .maxu g a b => Sys2Proof.Machine.execMaxu g a b s
  | .clz g a => Sys2Proof.Machine.execClz g a s
  | .ctz g a => Sys2Proof.Machine.execCtz g a s
  | .popc g a => Sys2Proof.Machine.execPopc g a s
  | .limm g n => Sys2Proof.Machine.execLimm g n s
  | .limmh g p c => Sys2Proof.Machine.execLimmh g p c s
  | .pass g a => Sys2Proof.Machine.execPass g a s
  | .mov g d a => Sys2Proof.Machine.execMov g d a s
  | .sel g a b p => Sys2Proof.Machine.execSel g a b p s
  | .sext g a k => Sys2Proof.Machine.execSext g a k s
  | .cmpeq g d a b => Sys2Proof.Machine.execCmpeq g d a b s
  | .cmpne g d a b => Sys2Proof.Machine.execCmpne g d a b s
  | .cmplt g d a b => Sys2Proof.Machine.execCmplt g d a b s
  | .cmple g d a b => Sys2Proof.Machine.execCmple g d a b s
  | .cmpltu g d a b => Sys2Proof.Machine.execCmpltu g d a b s
  | .cmpleu g d a b => Sys2Proof.Machine.execCmpleu g d a b s
  | .pand g d a b => Sys2Proof.Machine.execPand g d a b s
  | .por g d a b => Sys2Proof.Machine.execPor g d a b s
  | .pxor g d a b => Sys2Proof.Machine.execPxor g d a b s
  | .pandn g d a b => Sys2Proof.Machine.execPandn g d a b s
  | .ldt g sz t a => Sys2Proof.Machine.execLdt g sz t a s
  | .stt g wide t a b => Sys2Proof.Machine.execStt g wide t a b s
  | .br g off => Sys2Proof.Machine.execBr g off s
  | .brl g off => Sys2Proof.Machine.execBrl g off s
  | .jr g a => Sys2Proof.Machine.execJr g a s
  | .brbank g n => Sys2Proof.Machine.execBrbank g n s
  | .ifence g => Sys2Proof.Machine.execIfence g s
  | .fdef g k f n => Sys2Proof.Machine.execFdef g k f n s
  | .fcnt g k a => Sys2Proof.Machine.execFcnt g k a s
  | .fstr g k w a => Sys2Proof.Machine.execFstr g k w a s
  | .fpipe g n => Sys2Proof.Machine.execFpipe g n s
  | .stair g n => Sys2Proof.Machine.execStair g n s
  | .sbrk g => Sys2Proof.Machine.execSbrk g s
  | .getc g d n => Sys2Proof.Machine.execGetc g d n s
  | .setc g n b => Sys2Proof.Machine.execSetc g n b s
  | .brk g c => Sys2Proof.Machine.execBrk g c s
  | .svc g n => Sys2Proof.Machine.execSvc g n s
  | .lnch g h a => Sys2Proof.Machine.execLnch g h a s
  | .qstat g a => Sys2Proof.Machine.execQstat g a s
  | .qstatO g a b => Sys2Proof.Machine.execQstatO g a b s
  | .thaw g a skip => Sys2Proof.Machine.execThaw g a skip s
  | .rfh g => Sys2Proof.Machine.execRfh g s
  | .vaddF32 u g a b mk rm => Sys2Proof.Machine.execVaddF32 u g a b mk rm s
  | .vsubF32 u g a b mk rm => Sys2Proof.Machine.execVsubF32 u g a b mk rm s
  | .vmulF32 u g a b mk rm => Sys2Proof.Machine.execVmulF32 u g a b mk rm s
  | .vfmaF32 u g a b c mk rm => Sys2Proof.Machine.execVfmaF32 u g a b c mk rm s
  | .vfmsF32 u g a b c mk rm => Sys2Proof.Machine.execVfmsF32 u g a b c mk rm s
  | .vminF32 u g a b mk => Sys2Proof.Machine.execVminF32 u g a b mk s
  | .vmaxF32 u g a b mk => Sys2Proof.Machine.execVmaxF32 u g a b mk s
  | .vdivF32 u g a b mk rm => Sys2Proof.Machine.execVdivF32 u g a b mk rm s
  | .vsqrtF32 u g a mk rm => Sys2Proof.Machine.execVsqrtF32 u g a mk rm s
  | .vabsF32 u g a mk => Sys2Proof.Machine.execVabsF32 u g a mk s
  | .vnegF32 u g a mk => Sys2Proof.Machine.execVnegF32 u g a mk s
  | .vaddI32 u g a b mk => Sys2Proof.Machine.execVaddI32 u g a b mk s
  | .vsubI32 u g a b mk => Sys2Proof.Machine.execVsubI32 u g a b mk s
  | .vmulI32 u g a b mk => Sys2Proof.Machine.execVmulI32 u g a b mk s
  | .vminI32 u g a b mk => Sys2Proof.Machine.execVminI32 u g a b mk s
  | .vmaxI32 u g a b mk => Sys2Proof.Machine.execVmaxI32 u g a b mk s
  | .vand u g a b mk => Sys2Proof.Machine.execVand u g a b mk s
  | .vor u g a b mk => Sys2Proof.Machine.execVor u g a b mk s
  | .vxor u g a b mk => Sys2Proof.Machine.execVxor u g a b mk s
  | .vshl u g a b mk => Sys2Proof.Machine.execVshl u g a b mk s
  | .vshr u g a b mk => Sys2Proof.Machine.execVshr u g a b mk s
  | .vsar u g a b mk => Sys2Proof.Machine.execVsar u g a b mk s
  | .vsel u g a b mk => Sys2Proof.Machine.execVsel u g a b mk s
  | .vcmpF32 u g cc d a b => Sys2Proof.Machine.execVcmpF32 u g cc d a b s
  | .vcmpI32 u g cc d a b => Sys2Proof.Machine.execVcmpI32 u g cc d a b s
  | .mand u g d a b => Sys2Proof.Machine.execMand u g d a b s
  | .mor u g d a b => Sys2Proof.Machine.execMor u g d a b s
  | .mxor u g d a b => Sys2Proof.Machine.execMxor u g d a b s
  | .mandn u g d a b => Sys2Proof.Machine.execMandn u g d a b s
  | .vmu u g d mk care => Sys2Proof.Machine.execVmu u g d mk care s
  | .vmov u g d a => Sys2Proof.Machine.execVmov u g d a s
  | .vcvt u g src dst sat a mk rm => Sys2Proof.Machine.execVcvt u g src dst sat a mk rm s
  | .vperm u g a b mk => Sys2Proof.Machine.execVperm u g a b mk s
  | .vslide u g rot a b mk => Sys2Proof.Machine.execVslide u g rot a b mk s
  | .vldt u g t a => Sys2Proof.Machine.execVldt u g t a s
  | .vstt u g masked t a b => Sys2Proof.Machine.execVstt u g masked t a b s
  | .vgath u g masked t a => Sys2Proof.Machine.execVgath u g masked t a s
  | .vscat u g masked t a b => Sys2Proof.Machine.execVscat u g masked t a b s
  | .vredAdd u g int a mk => Sys2Proof.Machine.execVredAdd u g int a mk s
  | .vredMax u g int a mk => Sys2Proof.Machine.execVredMax u g int a mk s
  | .vredMin u g int a mk => Sys2Proof.Machine.execVredMin u g int a mk s
  | .vscanAdd u g int a mk => Sys2Proof.Machine.execVscanAdd u g int a mk s
  | .vexp2 u g a mk rm => Sys2Proof.Machine.execVexp2 u g a mk rm s
  | .vlog2 u g a mk rm => Sys2Proof.Machine.execVlog2 u g a mk rm s
  | .vrcp u g a mk rm => Sys2Proof.Machine.execVrcp u g a mk rm s
  | .vrsqrt u g a mk rm => Sys2Proof.Machine.execVrsqrt u g a mk rm s
  | .vtanh u g a mk rm => Sys2Proof.Machine.execVtanh u g a mk rm s
  | .vqnt u g f col a => Sys2Proof.Machine.execVqnt u g f col a s
  | .vdqnt u g f col a => Sys2Proof.Machine.execVdqnt u g f col a s
  | .mcall g n => Sys2Proof.Machine.execMcall g n s
  | .mpset g n a => Sys2Proof.Machine.execMpset g n a s
  | .mwait g a => Sys2Proof.Machine.execMwait g a s
  | .mstat g => Sys2Proof.Machine.execMstat g s
  | .mabort g => Sys2Proof.Machine.execMabort g s
  | .mlucode g t a b => Sys2Proof.Machine.execMlucode g t a b s
  | .mlucodeEnt g t a b => Sys2Proof.Machine.execMlucodeEnt g t a b s
  | .mlsf g half => Sys2Proof.Machine.execMlsf g half s
  | .mlsfT g half t a => Sys2Proof.Machine.execMlsfT g half t a s
  | .kst col n a => Sys2Proof.Machine.execKst col n a s
  | .kcfg w row col sat => Sys2Proof.Machine.execKcfg w row col sat s
  | .klds col t a => Sys2Proof.Machine.execKlds col t a s
  | .tdef u g t a b => Sys2Proof.Machine.execTdef u g t a b s
  | .tld u g t h cl a => Sys2Proof.Machine.execTld u g t h cl a s
  | .tst u g t h cl a => Sys2Proof.Machine.execTst u g t h cl a s
  | .tamo u g op wide h cl a c => Sys2Proof.Machine.execTamo u g op wide h cl a c s
  | .tlbk u g pn h cl a => Sys2Proof.Machine.execTlbk u g pn h cl a s
  | .tcpy u g td ts => Sys2Proof.Machine.execTcpy u g td ts s
  | .tfill u g t a b => Sys2Proof.Machine.execTfill u g t a b s
  | .tldi u g bank h cl a => Sys2Proof.Machine.execTldi u g bank h cl a s
  | .bkc u g t h cl a => Sys2Proof.Machine.execBkc u g t h cl a s
  | .waitc u g kind a b => Sys2Proof.Machine.execWaitc u g kind a b s
  | .waitf u g any clr a => Sys2Proof.Machine.execWaitf u g any clr a s
  | .rdcinv u g h a b => Sys2Proof.Machine.execRdcinv u g h a b s
  | .xlat u g h a => Sys2Proof.Machine.execXlat u g h a s
  | .hstat u g va h => Sys2Proof.Machine.execHstat u g va h s
  | .hclr u g h => Sys2Proof.Machine.execHclr u g h s
  | .hclrPn u g a => Sys2Proof.Machine.execHclrPn u g a s
  | .ipatch u g a b => Sys2Proof.Machine.execIpatch u g a b s
  | .frd u g a => Sys2Proof.Machine.execFrd u g a s
  | .fwr u g a b => Sys2Proof.Machine.execFwr u g a b s
  | .csave u g h a b => Sys2Proof.Machine.execCsave u g h a b s
  | .crest u g h a b => Sys2Proof.Machine.execCrest u g h a b s
  | .xsend g vec tag a b => Sys2Proof.Machine.execXsend g vec tag a b s
  | .xrecv g tag a => Sys2Proof.Machine.execXrecv g tag a s
  | .xradd g int tag a b => Sys2Proof.Machine.execXradd g int tag a b s
  | .xrmax g int tag a b => Sys2Proof.Machine.execXrmax g int tag a b s
  | .xput g ts a b => Sys2Proof.Machine.execXput g ts a b s
  | .xbegin g h a b => Sys2Proof.Machine.execXbegin g h a b s
  | .xtrig g k a => Sys2Proof.Machine.execXtrig g k a s
  | .xstat g => Sys2Proof.Machine.execXstat g s
  | .land g scope => Sys2Proof.Machine.execLand g scope s
  | .align g a => Sys2Proof.Machine.execAlign g a s
  | .seg g => Sys2Proof.Machine.execSeg g s
  | .trapm code => Sys2Proof.Machine.execTrapm code s
  | .passMicroOp keep row col kf kfLv => Sys2Proof.Machine.execPassMicroOp keep row col kf kfLv s
  | .prom d e dg lvA lvB => Sys2Proof.Machine.execProm d e dg lvA lvB s
  | .clra => Sys2Proof.Machine.execClra s
  | .ldpl d tr td => Sys2Proof.Machine.execLdpl d tr td s
  | .stpl p td => Sys2Proof.Machine.execStpl p td s
  | .drain td => Sys2Proof.Machine.execDrain td s
  | .idpl d => Sys2Proof.Machine.execIdpl d s
  | .coef rst field => Sys2Proof.Machine.execCoef rst field s
  | .loop n param reg stop count => Sys2Proof.Machine.execLoop n param reg stop count s
  | .endl n => Sys2Proof.Machine.execEndl n s
  | .brf cond reg target => Sys2Proof.Machine.execBrf cond reg target s
  | .setw w => Sys2Proof.Machine.execSetw w s
  | .setf p f => Sys2Proof.Machine.execSetf p f s
  | .rprc field off => Sys2Proof.Machine.execRprc field off s
  | .done => Sys2Proof.Machine.execDone s
  | .trap a => Sys2Proof.Machine.execTrap a s
  | .handlerEntry hall => Sys2Proof.Machine.execHandlerEntry hall s
  | .translationWalk a => Sys2Proof.Machine.execTranslationWalk a s
  | .lineRequestPerformed c row line => Sys2Proof.Machine.execLineRequestPerformed c row line s
  | .copyOutRead c => Sys2Proof.Machine.execCopyOutRead c s
  | .tamoPerformed c => Sys2Proof.Machine.execTamoPerformed c s
  | .tldiEnd c => Sys2Proof.Machine.execTldiEnd c s
  | .tileCopyDone c => Sys2Proof.Machine.execTileCopyDone c s
  | .csaveDone c => Sys2Proof.Machine.execCsaveDone c s
  | .crestDone c => Sys2Proof.Machine.execCrestDone c s
  | .vld c => Sys2Proof.Machine.execVld c s
  | .gemv c => Sys2Proof.Machine.execGemv c s
  | .gemvAcc c => Sys2Proof.Machine.execGemvAcc c s
  | .axpy c => Sys2Proof.Machine.execAxpy c s
  | .fill c => Sys2Proof.Machine.execFill c s
  | .sum c => Sys2Proof.Machine.execSum c s
  | .timetableRunStart run => Sys2Proof.Machine.execTimetableRunStart run s
  | .timetableCopy run entry => Sys2Proof.Machine.execTimetableCopy run entry s
  | .timetableReduce run entry => Sys2Proof.Machine.execTimetableReduce run entry s
  | .timetableReduceAndWrite run entry => Sys2Proof.Machine.execTimetableReduceAndWrite run entry s
  | .landingConditionsHold l => Sys2Proof.Machine.execLandingConditionsHold l s
  | .landingRelease l => Sys2Proof.Machine.execLandingRelease l s
  | .triggerFire a k => Sys2Proof.Machine.execTriggerFire a k s
  | .xMessage m => Sys2Proof.Machine.execXMessage m s
  | .xMessageEntry n => Sys2Proof.Machine.execXMessageEntry n s
  | .xputUnit u => Sys2Proof.Machine.execXputUnit u s
  | .collectiveChunk via run m => Sys2Proof.Machine.execCollectiveChunk via run m s
  | .launchPacket scheduler via payload => Sys2Proof.Machine.execLaunchPacket scheduler via payload s
  | .groupAbort m => Sys2Proof.Machine.execGroupAbort m s
  | .patchWrite via ctx queue seq word pair value => Sys2Proof.Machine.execPatchWrite via ctx queue seq word pair value s
  | .fabricRead from_ pa n => Sys2Proof.Machine.execFabricRead from_ pa n s
  | .fabricWrite from_ data => Sys2Proof.Machine.execFabricWrite from_ data s
  | .unsupportedRequest from_ request => Sys2Proof.Machine.execUnsupportedRequest from_ request s
  | .ptpMessage m => Sys2Proof.Machine.execPtpMessage m s
  | .probeSend port => Sys2Proof.Machine.execProbeSend port s
  | .alignmentProbe port hdr depth lat => Sys2Proof.Machine.execAlignmentProbe port hdr depth lat s
  | .probeAnswer via sent => Sys2Proof.Machine.execProbeAnswer via sent s
  | .portEnable port => Sys2Proof.Machine.execPortEnable port s
  | .portDisable port => Sys2Proof.Machine.execPortDisable port s
  | .linkTrained port lanes peer peerPort => Sys2Proof.Machine.execLinkTrained port lanes peer peerPort s
  | .trainingTimeout port => Sys2Proof.Machine.execTrainingTimeout port s
  | .linkDegrade port lanes lat => Sys2Proof.Machine.execLinkDegrade port lanes lat s
  | .linkRetrained port => Sys2Proof.Machine.execLinkRetrained port s
  | .ackTimeout port => Sys2Proof.Machine.execAckTimeout port s
  | .contextCreate root => Sys2Proof.Machine.execContextCreate root s
  | .setupDone ctx => Sys2Proof.Machine.execSetupDone ctx s
  | .destroy ctx => Sys2Proof.Machine.execDestroy ctx s
  | .teardownComplete ctx => Sys2Proof.Machine.execTeardownComplete ctx s
  | .trapUnrecoverable n => Sys2Proof.Machine.execTrapUnrecoverable n s
  | .faultDrainDone ctx => Sys2Proof.Machine.execFaultDrainDone ctx s
  | .queueCreate ctx base => Sys2Proof.Machine.execQueueCreate ctx base s
  | .suspend ctx queue => Sys2Proof.Machine.execSuspend ctx queue s
  | .resume ctx queue => Sys2Proof.Machine.execResume ctx queue s
  | .teardown ctx queue => Sys2Proof.Machine.execTeardown ctx queue s
  | .supplyDeclaration ctx record => Sys2Proof.Machine.execSupplyDeclaration ctx record s
  | .choose => Sys2Proof.Machine.execChoose s
  | .memberLoaded kernel n => Sys2Proof.Machine.execMemberLoaded kernel n s
  | .t0Start kernel => Sys2Proof.Machine.execT0Start kernel s
  | .kernelDone kernel => Sys2Proof.Machine.execKernelDone kernel s
  | .hintRecord ctx record => Sys2Proof.Machine.execHintRecord ctx record s
  | .map ctx va psz frame rd wr => Sys2Proof.Machine.execMap ctx va psz frame rd wr s
  | .replicate ctx va frames => Sys2Proof.Machine.execReplicate ctx va frames s
  | .move ctx va frame => Sys2Proof.Machine.execMove ctx va frame s
  | .unmap ctx va => Sys2Proof.Machine.execUnmap ctx va s
  | .busyCountZero ctx va => Sys2Proof.Machine.execBusyCountZero ctx va s
  | .revocationComplete ctx va => Sys2Proof.Machine.execRevocationComplete ctx va s
  | .stepRequest request => Sys2Proof.Machine.execStepRequest request s
  | .stepDeadline id => Sys2Proof.Machine.execStepDeadline id s
  | .stepWithdraw id => Sys2Proof.Machine.execStepWithdraw id s
  | .evacuation id => Sys2Proof.Machine.execEvacuation id s
  | .rowCopy n row => Sys2Proof.Machine.execRowCopy n row s
  | .stepSwitch id => Sys2Proof.Machine.execStepSwitch id s
  | .rewind n => Sys2Proof.Machine.execRewind n s
  | .pairMismatch a => Sys2Proof.Machine.execPairMismatch a s
  | .beat hall => Sys2Proof.Machine.execBeat hall s
  | .beatTimeout hall => Sys2Proof.Machine.execBeatTimeout hall s
  | .scrub g uncorrectable => Sys2Proof.Machine.execScrub g uncorrectable s
  | .powerGood img => Sys2Proof.Machine.execPowerGood img s
  | .selfTest failing classes => Sys2Proof.Machine.execSelfTest failing classes s
  | .firmwareImageVerify img => Sys2Proof.Machine.execFirmwareImageVerify img s
  | .thermalTrip => Sys2Proof.Machine.execThermalTrip s
  | .mailboxState sender hdr arg => Sys2Proof.Machine.execMailboxState sender hdr arg s
  | .negotiate sender hdr want => Sys2Proof.Machine.execNegotiate sender hdr want s
  | .rowMap sender hdr arg => Sys2Proof.Machine.execRowMap sender hdr arg s
  | .errorCounts sender hdr arg => Sys2Proof.Machine.execErrorCounts sender hdr arg s
  | .attestation sender hdr arg nonce => Sys2Proof.Machine.execAttestation sender hdr arg nonce s
  | .identity sender hdr arg => Sys2Proof.Machine.execIdentity sender hdr arg s
  | .reset sender hdr arg => Sys2Proof.Machine.execReset sender hdr arg s
  | .permit sender hdr arg => Sys2Proof.Machine.execPermit sender hdr arg s
  | .illegalEncoding slot => Sys2Proof.Machine.execIllegalEncoding slot s
  | .eviction die line => Sys2Proof.Machine.execEviction die line s
  | .servicePairRestart hall => Sys2Proof.Machine.execServicePairRestart hall s
  | .epochWrite v => Sys2Proof.Machine.execEpochWrite v s

end Sys2Proof.Machine
end

