-- ==== Sys2Proof/Machine/Fetch.lean ====
section
/-!
DEFINITION. Fetch.lean: the word an agent fetches, its slots, and its issue (05_word.md R65, R66;
06_encoding.md R103, R109, R113; 11_tile.md R232; 22_reliability.md R389).
-/
namespace Sys2Proof.Machine

/-- The word at the PC, as the instruction store holds it now (R134 leaves old or new words open before an `ifence`:
see notes/assumptions/77.md). -/
def fetchWord (c : Core) : Word := spGet c.istore c.pc.toNat

/-- Poisoned granules of the word at the PC. -/
def fetchPoison (c : Core) : Bool := c.iPoison.any fun g => g / 4 == c.pc.toNat

/-- Tile registers that a copy-slot instruction names as operands. -/
def tilesOf : Instr → List (Fin 64)
  | .tdef _ _ t _ _ | .tld _ _ t _ _ _ | .tst _ _ t _ _ _ | .tfill _ _ t _ _ | .bkc _ _ t _ _ _ => [t]
  | .tcpy _ _ td ts => [td, ts]
  | _ => []

/-- CA and CB of a word name one tile register (R232). -/
def sharedTile (l : List (Option Instr)) : Bool :=
  let tiles (k : Nat) : List (Fin 64) := match l.getD k none with | some i => tilesOf i | none => []
  (tiles 4).any fun t => (tiles 5).contains t

/-- The header's target field. -/
def headerTarget : Header → Option Nat
  | .imm t _ | .third t _ _ => some t.toNat
  | _ => none

/-- Slot k of a word is refused because a service or management core issues it (R109); of the management core see
notes/assumptions/88.md. -/
def serviceRefuses (w : Word) (k : Nat) : Bool :=
  let b := slotBits w k
  if 1 ≤ k && k ≤ 3 then b != 0
  else if k = 7 then
    (b != 0 && b.extractLsb' 30 2 == 0) ||
      (match (decodeHeader b).bind headerTarget with | some t => 1 ≤ t && t ≤ 3 | none => false)
  else false

/-- The word without its V slots and its M slot, whose maps a service core does not decode (R109). -/
def withoutV (w : Word) : Word := putFld w 127 32 0

/-- Slot k of the word of agent `n`, where it asks anything of the machine. -/
def slotOpAt (w : Word) (l : List (Option Instr)) (s : State) (n k : Nat) : Option SlotOp :=
  if !isCompute n && serviceRefuses w k then some (SlotOp.illegal k)
  else
    match l.getD k none with
    | none => some (SlotOp.illegal k)
    | some i =>
      (slotOf i).map fun f =>
        let o := f s n
        if (k = 4 || k = 5) && sharedTile l then { o with pre := (0x01, 0) :: o.pre } else o

/-- The slots of a word that ask something of the machine, in slot order. -/
def wordOps (w : Word) (s : State) (n : Nat) : List SlotOp :=
  let l := decodeWord (if isCompute n then w else withoutV w)
  [0, 1, 2, 3, 4, 5, 6, 7].filterMap (slotOpAt w l s n)

/-- The word after a landing that a `thaw` is to skip is skipped as it comes to issue (R446). -/
def skipDue (c : Core) : Bool :=
  c.skip && c.run == .running && c.arrival.isNone && c.request.isNone && (nextCause c.causes).isNone

/-- One cycle of agent `n`: a poisoned granule of the word it would fetch is consumed in place of the
word (R389), then the word issues, stalls or traps. -/
def issueCycle (s : State) (n : Nat) : Host.Outcome State Fault Refusal :=
  let s := if skipDue (coreOf s n) then modCore s n fun c => skipWord { c with skip := false } else s
  let c := coreOf s n
  let s := { s with turn := agentOf n }
  let s := if fetchPoison c && c.arrival.isNone then modCore s n fun c => consume c 3 else s
  let w := fetchWord c
  runWord s n (w != 0) (wordOps w)

/-! ### A word put where the next step fetches -/

/-- The word that holds the table's bits in the slot whose map reads them. -/
def tableWord (w : Nat) : Word :=
  let b := BitVec.ofNat 32 w
  let k := (tableSlot b).getD 0
  slotWord k b ||| slotWord 7 (encodeHeader (tableHeader k b))

/-- Core 0 runs, first in order, with the word at its PC. -/
def placeWord (s : State) (w : Word) : State :=
  { (modCore s 0 fun c =>
      { c with run := .running, next := 0, causes := [], arrival := none, request := none, reply := none, skip := false, iPoison := []
               istore := spSet c.istore c.pc.toNat w }) with agenda := [.issue], ties := [0] }

end Sys2Proof.Machine
end

