-- ==== Sys2Proof/Machine/Schedule.lean ====
section
/-!
DEFINITION. Schedule.lean: what the machine does next. Events whose moment a rule fixes come first, in the order of
their ticks, but that what the agenda names may come before those of its tick (R264); with nothing on the agenda the
machine performs what it can, then the agent with the earliest cycle issues. See notes/assumptions/2.md.
-/
namespace Sys2Proof.Machine

/-! ### What follows without a choice -/

/-- Agents, by number, whose state a test picks. -/
def agentsWith (s : State) (p : Core → Bool) : List Nat := (s.cores.filter fun e => p e.2).map (·.1)

/-- One of a list: of several, a free one. -/
def oneOf (s : State) (i : Nat) {α : Type} (l : List α) : Option α :=
  match l with
  | [] => none
  | [x] => some x
  | l => l[(freeVal s i 64).toNat % l.length]?

/-- A member of a lock-step group waits for the group's T0 (R325, R329). -/
def waitsForT0 (s : State) (n : Nat) : Bool :=
  (kernelAt s n).any fun k => recLock k.record && (k.group == .held || k.group == .starting)

/-- Core `n` has still to send a message that a trigger holds; a kernel that is ending discards it (R337). -/
def holdsMessage (s : State) (n : Nat) : Bool :=
  (coreOf s n).trig.toList.any (fun x => match x with | .holding _ _ => true | _ => false) &&
    !(kernelAt s n).any fun k => k.group == .vacating

/-- The first agent with signatures that `p` picks and whose pair has come to rest. -/
def restedWith (s : State) (p : Core → Bool) : Option Nat := ((agentsWith s fun c => c.run != .running && p c).filter (pairRested s)).head?

/-- An agent whose pair's signatures have differed (R394). -/
def differing (s : State) : Option Nat := oneOf s 4027 (agentsWith s fun c => c.differs.isSome)

/-- A pair at rest compares its last signatures, and a member that aborts leaves it. A frozen core's copies are all
performed: it issues again, or leaves; an ended kernel's group is free. Nothing of this comes before a mismatch that has
been found (R394). -/
def settleStep (s : State) : Option State :=
  if (differing s).isSome then none
  else match restedWith s fun c => !c.sigs.isEmpty with
  | some n => some (catchUp s n)
  | none =>
  match restedWith s fun c => c.run == .exiting && c.aborting with
  | some n => some (abortService (modCore s n fun c => { c with aborting := false }) n)
  | none =>
    match ((agentsWith s fun c => c.run == .resuming && c.copies.isEmpty).filter fun n => !waitsForT0 s n).head? with
    | some n =>
      let t := boundaryAfter s.now (periodOf s n)
      some (modCore s n fun c => { c with run := .running, next := t })
    | none =>
      match ((agentsWith s fun c => c.run == .exiting && !c.aborting && c.copies.isEmpty).filter fun n => !holdsMessage s n && pairRested s n).head? with
      | some n => some (afterEvent (coreLeaves s n))
      | none => (oneOf s 4028 (s.kernels.filter (canFinish s))).map fun k => afterEvent (finishKernel s k)

/-- The message can be performed at its destination, or leave for another chip. -/
def flightGoes (s : State) (f : XFlight) : Bool :=
  isOver s f ||
    (1000 ≤ f.dst && !isHeldFlight s f && mayLeave s f) ||
    (f.dst < 1000 && !isHeldFlight s f && isFirst s f &&
      (dstExited s f ||
        (mayArrive s f &&
          match f.body with
          | .msg _ => true
          | .unit td off len _ _ _ =>
            let a := (coreOf s f.dst).t[td].a
            tRows a == 0 || tRows a * 4096 < off + len || !(unitRows (tileAddr a off) len).any (coreOf s f.dst).evac.contains)))

def flightInstr (f : XFlight) : Instr :=
  match f.body with
  | .msg _ => .xMessage (.own f.id)
  | .unit _ _ _ _ _ _ => .xputUnit (.own f.id)

/-- What happens at a moment that a rule fixes: an event, or a hall's heartbeat unit samples, or misses a beat too long. -/
inductive Timed where
  | ev (i : Instr)
  | beat (hall : Fin 32)
  | timeout (hall : Fin 32)
  deriving DecidableEq, Repr

/-- Something whose moment has come, and the tick in which it came. -/
abbrev Due := Nat × Timed

/-- A landing's next event. -/
def landingDue (s : State) (l : Landing) : Option Due :=
  match l.tr with
  | some t => if t ≤ s.now then some (t / 252, .ev (.landingRelease l.id)) else none
  | none => if conditionsHold s l then some (tickOf s, .ev (.landingConditionsHold l.id)) else none

/-- The held messages of an agent whose time has come. -/
def triggersDue (s : State) (n : Nat) : List Due :=
  (List.finRange 4).filterMap fun k => match trigAt (coreOf s n) k.val with
    | .holding tick i => (s.flights.find? fun f => f.id == i).bind fun f =>
        let t := fireTime s n tick f
        if t ≤ s.now then some (t / 252, .ev (.triggerFire (agentOf n) k)) else none
    | _ => none

def t0Due (s : State) (k : Kernel) : Option Due :=
  match k.t0 with
  | some t => if k.group == .starting && t ≤ tickOf s then some (t, .ev (.t0Start k.id)) else none
  | none => none

def handlerDue (s : State) (h : Fin 32) : Bool :=
  let c := coreOf s (256 + h.val)
  c.run == .running && !c.handler && !c.queue.isEmpty && c.request.isNone && c.reply.isNone && recordsIn s h.val

def flightDue (s : State) (f : XFlight) : Option Due :=
  if (f.due ≤ s.now || 1000 ≤ f.dst) && flightGoes s f then some (min (f.due / 252) (tickOf s), .ev (flightInstr f)) else none

/-- A hall's heartbeat unit samples, or its beat has not come for too long. -/
def beatDue (s : State) (h : Fin 32) : List Due :=
  let t := tickOf s / beatTicks * beatTicks
  (if beatTicks ≤ tickOf s && s.beatAt[h] < t && beatsAtAll s h then [(t, .beat h)] else []) ++
    if beatOverdue s h then [(s.beatAt[h] + 2 * beatTicks, .timeout h)] else []

/-- Everything whose moment has come. -/
def dueList (s : State) : List Due :=
  s.landings.filterMap (landingDue s) ++
  (agentsWith s fun c => c.trig.toList.any fun x => match x with | .holding _ _ => true | _ => false).flatMap (triggersDue s) ++
  s.kernels.filterMap (t0Due s) ++
  (agentsWith s fun c => !c.queue.isEmpty).filterMap (fun n =>
    if h : n - 256 < 32 then if handlerDue s ⟨n - 256, h⟩ then some (tickOf s, .ev (.handlerEntry ⟨n - 256, h⟩)) else none else none) ++
  s.flights.filterMap (flightDue s) ++
  (agentsWith s fun c => !c.await.isEmpty).filterMap (fun n =>
    if h : n < 256 then if entryFree s n then some (tickOf s, .ev (.xMessageEntry ⟨n, h⟩)) else none else none) ++
  (s.steps.filter fun x => !x.up && !x.judged && x.deadline ≤ tickOf s).map (fun x => (x.deadline, .ev (.stepDeadline x.id))) ++
  (List.finRange 32).flatMap (beatDue s)

/-- The first tick in which something has come due. -/
def firstDue (s : State) : Option Nat :=
  match dueList s with
  | [] => none
  | x :: r => some (r.foldl (fun a y => min a y.1) x.1)

/-- What comes next of what is due: what came in the first tick, and of several that came in one tick any one (R264). -/
def dueEvent (s : State) : Option Timed :=
  (firstDue s).bind fun t => (oneOf s 4024 ((dueList s).filter fun x => x.1 == t)).map (·.2)

/-- What has come due and is performed now, if anything; a mismatch of a pair before everything else (R394). -/
def dueStep (s : State) : Option (Host.Outcome State Fault Refusal) :=
  ((differing s).map fun n => execPairMismatch (agentOf n) s).or <| (dueEvent s).map fun x => match x with
    | .ev i => exec i s
    | .beat h => execBeat h s
    | .timeout h => execBeatTimeout h s

/-- A rule orders a due event before the cycle of agent `n` that begins in its tick: the event acts on that agent. -/
def actsOn (s : State) (n : Nat) : Timed → Bool
  | .beat h | .timeout h => hallOf n == h.val
  | .ev i => match i with
    | .landingRelease id | .landingConditionsHold id => (findLanding s id).any fun l => l.arrived.any fun a => a.1 == n
    | .triggerFire a _ => agentNo a == n
    | .t0Start id => (findKernel s id).any fun k => k.members.contains n
    | .handlerEntry h => 256 + h.val == n
    | .xMessage (.own id) | .xputUnit (.own id) => (findFlight s id).any fun f => f.src == n || f.dst == n
    | .xMessageEntry m => m.val == n
    | .stepDeadline _ => false
    | _ => true

/-- Nothing is due but what has come due in this tick: what else happens in it may come first (R264). -/
def onlyThisTick (s : State) : Bool := (differing s).isNone && (dueList s).all fun x => tickOf s ≤ x.1

/-! ### What may be performed at any time -/

/-- The bank command that a record holds, for copy `ref`. -/
def bankInstr (cmd : Nat) (ref : CopyRef) : Instr :=
  match cmd with
  | 2 => .gemv ref
  | 3 => .gemvAcc ref
  | 4 => .axpy ref
  | 5 => .fill ref
  | 6 => .sum ref
  | _ => .vld ref

/-- The next event of copy `k` of core `n`. -/
def copyNext (s : State) (n : Nat) (k : Copy) : Option Instr :=
  let c := coreOf s n
  let ref : CopyRef := { agent := agentOf n, id := k.id }
  let line (l : List (Nat × Nat)) : Option Instr :=
    (l.find? fun x => !k.done.contains x).map fun x => .lineRequestPerformed ref x.1 x.2
  let may := mayPerform s n k
  match k.kind with
  | .tld _ => if may then line (tileLines k) else none
  | .tst _ =>
    if k.data.isNone && afterIssue c k && fitsInFlight c k then some (.copyOutRead ref)
    else if may && storeReady c k then line (tileLines k) else none
  | .tlbk _ lines => if may then line ((List.range lines).map fun i => (0, k.off / 128 + i)) else none
  | .tldi bank =>
    if !may then none
    else
      let got := k.data.getD []
      if (expand got (copyLimit k) (protectedWord c bank)).status == .more then some (.lineRequestPerformed ref 0 ((k.off + got.length) / 128))
      else some (.tldiEnd ref)
  | .tamo _ _ _ _ => if may then some (.tamoPerformed ref) else none
  | .bkc _ => if may then some (bankInstr (rCmd (bankRecord s k)) ref) else none
  | .ipatch _ _ _ => if afterIssue c k then some (.tileCopyDone ref) else none
  | .csave m =>
    if may && heldRecord s m && (coreOf s m).copies.isEmpty && messagesDone s m then some (.csaveDone ref) else none
  | .crest m => if may && (coreOf s m).run == .vacant then some (.crestDone ref) else none
  | .tcpy _ _ | .tfill _ _ _ | .xput _ _ _ _ => none

/-- The next event of some copy. -/
def anyCopy (s : State) : Option Instr :=
  (agentsWith s fun c => !c.copies.isEmpty).findSome? fun n => (coreOf s n).copies.findSome? (copyNext s n)

/-- The member that is to be loaded next. -/
def loadNext (k : Kernel) : Option Instr :=
  if k.group == .held && !k.saved then
    (residents k).findSome? fun n => if k.loaded.contains n then none
      else if h : n < 256 then some (.memberLoaded k.id ⟨n, h⟩) else none
  else none

/-- The next event of a timetable run, if it is due. -/
def runNext (s : State) (r : TRun) : List Instr :=
  if r.ended then []
  else if r.start.isNone then [.timetableRunStart r.id]
  else
    ((List.range r.entries.length).find? fun j =>
        match findKernel s r.kernel with | some k => entryDue s k r j | none => false).toList.map fun j =>
      match eKind (r.entries.getD j 0) with
      | 0 => .timetableCopy r.id j
      | 1 => .timetableReduce r.id j
      | _ => .timetableReduceAndWrite r.id j

/-- Row copies and the other events of the steps in progress. -/
def stepNext (s : State) (x : OpStep) : List Instr :=
  [.evacuation x.id] ++
    ((agentsWith s fun c => !c.evac.isEmpty).filterMap fun n =>
      if h : n < 256 then ((coreOf s n).evac.head?).map fun q => .rowCopy ⟨n, h⟩ q else none) ++ [.stepSwitch x.id]

/-- The step up that the runtime firmware asks for, for a head in Capacity-wait (R387); while newel would refuse it the
firmware waits. -/
def firmwareAsks (s : State) : List Instr :=
  if !s.steps.isEmpty then []
  else
    ((s.kernels.filter fun k => k.st == .capWait).filterMap fun k => stepUpFor s (recLevel k.record) (recRows k.record)).filter
      (fun r => stepRefusal s r == 0) |>.map Instr.stepRequest

/-- Events that the machine may perform now and that may be without effect yet. -/
def tryEvents (s : State) : List Instr :=
  s.runs.foldr (fun r l => runNext s r ++ l) [] ++ s.steps.foldr (fun x l => stepNext s x ++ l) [] ++
    s.moves.foldr (fun m l => [.busyCountZero m.ctx m.va, .revocationComplete m.ctx m.va] ++ l) [] ++
    ((s.kernels.filter fun k => k.st == .faulted && k.group == .vacating).map fun k => .faultDrainDone k.ctx) ++ firmwareAsks s

/-- The event does something. -/
def doesSomething (s : State) (i : Instr) : Bool :=
  match exec i s with
  | .next t => t != s
  | _ => false

/-- The ROM stage's verdict, the next part of a fabric access, of a patch write, of a service of the runtime firmware,
the firmware's words that a kernel of a context is placed, and that a context's images are saved. -/
def freeSoft (s : State) : Option Soft :=
  (if s.boot == .newel then some Soft.stageVerified else none).or <|
  ((s.fabric.find? (reqReady s)).map fun x => Soft.fabric x.id 0).or <|
  ((patchDue s).map fun x => Soft.patch x.1 x.2).or <|
  (((List.finRange 32).find? fun x => s.boot != .safe && placedReady s x).map Soft.place).or <|
  (((List.finRange 32).find? fun x => s.boot != .safe && allSaved s x).map Soft.saved).or <|
  (agentsWith s requestOut).head?.bind fun n => if h : n < 289 then some (.served ⟨n, h⟩) else none

/-- What the machine performs of its own when the agenda is empty, of the instructions. -/
def freeInstr (s : State) : Option Instr :=
  (anyCopy s).or <|
  ((agentsWith s fun c => match c.run with | .walking _ => true | _ => false).head?.map fun n => .translationWalk (agentOf n)).or <|
  (s.kernels.findSome? loadNext).or <|
  ((s.kernels.find? fun k => (k.st == .running || k.st == .landing) && (residents k).isEmpty).map fun k => .kernelDone k.id).or <|
  (if (s.kernels.any fun k => k.st == .queued) && choiceDue s then some .choose else none).or <|
  ((tryEvents s).find? (doesSomething s))

/-- What the machine performs of its own when the agenda is empty. -/
def freeEvent (s : State) : Option Sched := ((freeSoft s).map Sched.soft).or ((freeInstr s).map Sched.ev)

/-! ### The next cycle -/

/-- Agents that run words, with the start of their next cycle. -/
def runners (s : State) : List (Nat × Nat) := (s.cores.filter fun e => e.2.run == .running).map fun e => (e.1, e.2.next)

/-- The agent whose next cycle begins in the earliest tick; of several that begin in one tick the first that `ties` names, else
any one (R264). -/
def nextAgent (s : State) : Option Nat :=
  match runners s with
  | [] => none
  | x :: r =>
    let t := r.foldl (fun a y => min a (y.2 / 252)) (x.2 / 252)
    let l := ((x :: r).filter fun y => y.2 / 252 == t).map (·.1)
    (s.ties.find? l.contains).or (oneOf s 4025 l)

/-- Time reaches the start of agent `n`'s next cycle. -/
def timeTo (s : State) (n : Nat) : State := { s with now := max s.now (coreOf s n).next }

/-- The next tick begins. -/
def nextTick (s : State) : State := { s with now := (tickOf s + 1) * 252 }

/-! ### One step -/

/-- Draws of free values in later steps take new keys. -/
def freshen (s : State) : State := { s with fresh := s.fresh + 1 }

def drawn (o : Host.Outcome State Fault Refusal) : Host.Outcome State Fault Refusal :=
  match o with
  | .next s => .next (freshen s)
  | o => o

/-- The instruction is an event: it stands in no word and in no microprogram. -/
def isEvent (i : Instr) : Bool := (slotOf i).isNone && (microOf i).isNone && i != .nop && i != .knop

/-- The cycle of agent `n` that begins in this tick may come before all that is due (R264): the agenda asks for it. -/
def cycleFirst (s : State) (n : Nat) : Bool :=
  s.agenda.head? == some .issue && onlyThisTick s && (dueList s).all fun x => !actsOn s n x.2

/-- Time goes on: the next cycle's agent issues, unless an event that is to come first has come due as it begins; `rest` is
the agenda once a cycle has been issued. -/
def cycleStep (s : State) (rest : List Sched) : Host.Outcome State Fault Refusal :=
  match nextAgent s with
  | none => .next (freshen { (nextTick s) with agenda := rest })
  | some n =>
    let s := timeTo s n
    match (if cycleFirst s n then none else dueStep s) with
    | some o => drawn o
    | none => drawn (issueCycle { s with agenda := rest } n)

/-- What the agenda, or the machine of its own, does when nothing is due. -/
def choiceStep (s : State) : Host.Outcome State Fault Refusal :=
  match s.agenda with
  | .ev i :: rest => if isEvent i then drawn (exec i { s with agenda := rest }) else .next (freshen { s with agenda := rest })
  | .issue :: rest => cycleStep s rest
  | .soft x :: rest => .next (freshen (befall { s with agenda := rest } x))
  | [] =>
    match freeEvent s with
    | some (.ev i) => drawn (exec i s)
    | some (.soft x) => .next (freshen (befall s x))
    | _ => cycleStep s []

/-- What the agenda names may come before what is due, all of which came due in this tick (R264): an event, or the next
cycle, if it begins in this tick too. -/
def agendaFirst (s : State) : Bool :=
  match s.agenda with
  | [] => false
  | .issue :: _ => (nextAgent s).any fun n => (coreOf s n).next / 252 ≤ tickOf s && cycleFirst (timeTo s n) n
  | .ev _ :: _ | .soft _ :: _ => onlyThisTick s

/-- One step of the machine. -/
def stepOnce (s : State) : Host.Outcome State Fault Refusal :=
  match settleStep s with
  | some s' => .next (freshen s')
  | none =>
    match (if agendaFirst s then none else dueStep s) with
    | some o => drawn o
    | none => choiceStep s

end Sys2Proof.Machine
end

