-- ==== Sys2Proof/Machine/Step.lean ====
section
/-!
DEFINITION. Step.lean: one step of the machine, and a word put where the next step fetches.
-/
namespace Sys2Proof.Machine

/-- One step: an event, or one cycle of one agent. -/
def step (s : State) : Host.Outcome State Fault Refusal := stepOnce s

/-- The instruction whose table bits are `w`, where the next step fetches: in its slot of the word at the
PC of compute core 0, which runs. Programs come to run from reset as notes/assumptions/12.md says. -/
def State.withFetchWord (s : State) (nbits w : Nat) : State := placeWord s (tableWord (w % 2 ^ nbits))

end Sys2Proof.Machine
end

