-- ==== Sys2Proof/Safety.lean ====
section
/-!
DEFINITION. Safety.lean: what a safe run is, and the words the claims are stated in.
-/
namespace Sys2Proof.Safety

open Sys2Proof.Machine

/-! ### Runs -/

/-- The machine takes `k` steps from `s` without a fault or a refusal. -/
def runsOn (s : State) (k : Nat) : Prop := ∃ t, Sys2Proof.core.run k s = .next t

/-- The run from `s` never stops. -/
def safe (s : State) : Prop := ∀ k, runsOn s k

/-! ### The agent whose turn it is -/

/-- Its number. -/
abbrev me (s : State) : Nat := agentNo s.turn

/-- Its core. -/
abbrev mine (s : State) : Core := coreOf s (me s)

/-- It issues the word at its PC in this cycle: it runs, no cause is to be taken first, it waits at no
landing and for no service (R66, R144, R283, R332). -/
structure Issues (s : State) : Prop where
  running : (mine s).run = .running
  quiet   : nextCause (mine s).causes = none
  free    : (mine s).arrival = none
  served  : (mine s).request = none

/-- The ring reads of `l` raise no latency trap and hold no word: every latch they name is defined, or
the core checks neither (R72, R77, R78). -/
def readsPass (c : Core) (l : List Src) : Prop :=
  (c.profile ≠ 1 ∧ c.chklat = false) ∨ ∀ a ∈ l, srcEarly c a = false

/-- The guard of a slot holds (R81, R94). -/
def holds (c : Core) (g : Guard) : Bool := (predVal c g.pred != g.sense) && stairOk c g

/-- The core once its word is counted and the sequencer has moved on (R65, R91). -/
def moved (c : Core) (k : Ctl) : Core :=
  { advance c k with words := c.words + 1, prog := true, walked := [] }

/-! ### What an instruction in a word does -/

/-- Core `c` of agent `n`, with the signature of its word if two cores run it (R392). -/
def signed (s : State) (n : Nat) (c : Core) : Core := if isPaired s n then holdSignature true (sentBytes s n) (coreOf s n) c else c

/-- The instruction completes: the cycle ends from a state that differs from `s` in this agent's core
alone, which is then `c'`; `P` says what `c'` is, and of the core once the cycle has ended. A pair's core
holds the word's signature besides. -/
def Completes (i : Instr) (s : State) (P : Core → Core → Prop) : Prop :=
  ∃ c' t, exec i s = .next t ∧ t = endCycle (setCore s (me s) (signed s (me s) c')) (me s) ∧ P c' (coreOf t (me s))

/-- Ring `u` turns by one latch, and `u.q0` is `l` where the guard holds (R67, R71). -/
def Turns (c c' : Core) (u : RingId) (g : Guard) (l : Latch) : Prop :=
  (latchOf c' u 0 = if holds c g then l else latchOf c u 7) ∧
    (∀ k : Fin 8, k ≠ 7 → latchOf c' u (k + 1) = latchOf c u k) ∧ ∀ w, w ≠ u → ringOf c' w = ringOf c w

/-- A result of latency `lat`. -/
def result (c : Core) (v : Vec) (lat : Nat) : Latch := { val := v, due := c.cyc + lat, wait := none }

/-- A DEPOSIT: the result goes to the unit's ring, and beside that ring only the sequencer moves. -/
def Deposits (i : Instr) (s : State) (u : RingId) (g : Guard) (v : Vec) (lat : Nat) : Prop :=
  Completes i s fun c' _ =>
    Turns (mine s) c' u g (result (mine s) v lat) ∧ { c' with rings := (mine s).rings } = moved (mine s) .seq

/-- The core with one more write or access on its way, to take effect at the end of cycle c + `lat` - 1. -/
def pending (c : Core) (a : Act) (lat : Nat) : Core :=
  { c with pend := c.pend ++ [{ when_ := c.cyc + lat - 1, by_ := c.cyc, act := a }] }

/-- A write of latency `lat`: where the guard holds it is on its way; nothing else but the sequencer moves.
`P` holds of the core once the cycle has ended, where the guard holds. -/
def Writes (i : Instr) (s : State) (g : Guard) (a : Act) (lat : Nat) (P : Core → Prop) : Prop :=
  Completes i s fun c' c'' =>
    c' = moved (if holds (mine s) g then pending (mine s) a lat else mine s) .seq ∧
      (holds (mine s) g = true → P c'')

/-- A slot that takes effect on its own core alone: `f` where the guard holds, then the sequencer moves. -/
def Effects (i : Instr) (s : State) (g : Guard) (f : Core → Core) (k : Ctl) : Prop :=
  Completes i s fun c' _ =>
    c' = moved (if holds (mine s) g then f (mine s) else mine s) (if holds (mine s) g then k else .seq)

/-- The state a slot takes effect on: its unit's ring, if it has one, has turned (R71). -/
def turned (s : State) (u : Option RingId) : State :=
  setCore s (me s) (match u with | some w => rotate (mine s) w | none => mine s)

/-- A slot whose effect reaches beyond its core: the whole next state. -/
def Performs (i : Instr) (s : State) (g : Guard) (u : Option RingId) (f : State → State) : Prop :=
  exec i s = .next (endCycle
    (modCore (signCycle (isPaired s (me s)) (if holds (mine s) g then f (turned s u) else turned s u) (me s) true (mine s))
      (me s) fun c => moved c .seq) (me s))

/-- The core with vector flags on their way to VFLAGS (R150). -/
def raising (c : Core) (f : Flags) (lat : Nat) : Core := if f = 0 then c else pending c (.flags f) lat

/-- A vector result with its flags. -/
def VDeposits (i : Instr) (s : State) (u : VSlot) (g : Guard) (v : Vec) (f : Flags) (lat : Nat) : Prop :=
  Completes i s fun c' _ =>
    Turns (mine s) c' (vRing u) g (result (mine s) v lat) ∧
      { c' with rings := (mine s).rings } = moved (if holds (mine s) g then raising (mine s) f lat else mine s) .seq

/-- The lanes of a masked result: `r i` in the lanes of the mask, lane i of A elsewhere; the flags are those
that some lane of the mask raises (R149, R150). -/
def LaneWise (c : Core) (mk : Fin 8) (x : Vec) (r : Nat → LaneRes) (v : Vec) (f : Flags) : Prop :=
  (∀ i, i < 128 → lane v i = if (maskVal c mk).getLsbD i then (r i).1 else lane x i) ∧
    ∀ k, f.getLsbD k = true ↔ ∃ i, i < 128 ∧ (maskVal c mk).getLsbD i = true ∧ (r i).2.getLsbD k = true

/-- The guard of a slot that has none (R101, R190). -/
def always : Guard := { pred := 0, sense := false, first := false, last := false }

/-- A micro-operation carried out to its end: `f` of its core, and the routine goes on at `up` (R217, R218). -/
def Carries (i : Instr) (s : State) (up : Nat) (f : Core → Core) : Prop :=
  exec i s = .next (setCore s (me s) (modRun (f (mine s)) fun r => { r with upc := BitVec.ofNat 12 up, phase := 0 }))

/-- A micro-operation that ends its routine: the core is then `f` of it. -/
def Ends (i : Instr) (s : State) (f : Core → Core) : Prop := exec i s = .next (setCore s (me s) (f (mine s)))

/-- The low 11 bits `x` in the bank of the PC (R65). -/
def inBank (c : Core) (x : BitVec 11) : BitVec 12 := c.pc.extractLsb' 11 1 ++ x

/-- The PC's place in its bank. -/
def place (c : Core) : BitVec 11 := c.pc.extractLsb' 0 11

/-! ### Numbers -/

/-- m * 2^e = k * 2^q. -/
abbrev SameMag (m : Nat) (e : Int) (k : Nat) (q : Int) : Prop :=
  m * 2 ^ (e - min e q).toNat = k * 2 ^ (q - min e q).toNat

/-- m * 2^e ≤ k * 2^q. -/
abbrev MagLe (m : Nat) (e : Int) (k : Nat) (q : Int) : Prop :=
  m * 2 ^ (e - min e q).toNat ≤ k * 2 ^ (q - min e q).toNat

/-- `x` is the number k * 2^q; a zero has either sign. -/
def IsValue (x : Ext) (k q : Int) : Prop := ∃ s m e, x = .num s m e ∧ SameMag m e k.natAbs q ∧ (k ≠ 0 → s = decide (k < 0))

/-- An FP32 NaN, and a signalling one (R32, R35). -/
def isNan32 (x : BitVec 32) : Bool := x.extractLsb' 23 8 == 0xFF#8 && x.extractLsb' 0 23 != 0#23
def isSig32 (x : BitVec 32) : Bool := isNan32 x && !x.getLsbD 22

/-- An FP32 value in units of 2^-149, an infinity beyond all of them (R32). -/
def units32 (x : BitVec 32) : Int :=
  let e := (x.extractLsb' 23 8).toNat
  let f := (x.extractLsb' 0 23).toNat
  let m : Nat := if e = 0 then f else (f + 2 ^ 23) * 2 ^ (e - 1)
  if x.msb then -(m : Int) else m

/-! ### What comes over the links -/

/-- A vendor message of type `vtype` with `len` units of payload reaches this chip, from a host node or from another
chip, and the device takes it (R355, R358, R359, R400). -/
def Reaches (s : State) (v : Via) (vtype len : Nat) (host : Bool) : Prop :=
  carries (linkAt s v.port.val) = true ∧ v.port.val < 16 ∧ vType v.hdr = vtype ∧ vLen v.hdr = len ∧ vDst v.hdr = s.chip ∧
    (host = true ∨ vSrc v.hdr ≠ 0xFFFF) ∧ s.boot ≠ .safe

/-! ### Traps -/

/-- The word at the PC is not committed: its core takes a trap of this cause (R112, R280, R281). -/
def Traps (i : Instr) (s : State) (mask cause : Nat) (detail : BitVec 32) : Prop :=
  exec i s = .next (takeTrap (setCore s (me s) { mine s with walked := [] }) (me s) mask cause detail)

/-- The word stalls for a cycle. -/
def Stalls (i : Instr) (s : State) (declared : Bool) : Prop := exec i s = .next (stallCycle s (me s) declared)

end Sys2Proof.Safety
end

