-- ==== Sys2Proof/Certificates/Slice0/Obligations.lean ====
section
/-!
DEFINITION. Obligations.lean: what is claimed of the model. Each statement cites the rule of spec/ it comes from.
-/

open Sys2Proof Sys2Proof.Machine Sys2Proof.Safety

/-! ### Slot 0: results -/

/-- R116, latency 1: sums and bitwise logic. R116, latency 1: shifts by B[5:0], and the lesser and greater in both
orders. R116, R117: products, latency 3, and quotients and remainders, latency 20, a divisor of 0 included. -/
def Obligations.ScalarArithmetic : Prop :=
  ((∀ (s : State) (g : Guard) (a b : Src), Issues s → readsPass (mine s) [a, b] →
    let x := sVal s (me s) 0 0 a
    let y := sVal s (me s) 0 1 b
    let R (i : Instr) (v : BitVec 64) : Prop := Deposits i s .s g (v.setWidth 4096) 1
    R (.add g a b) (x + y) ∧ R (.sub g a b) (x - y) ∧ R (.and g a b) (x &&& y) ∧ R (.or g a b) (x ||| y) ∧
      R (.xor g a b) (x ^^^ y) ∧ R (.andn g a b) (x &&& ~~~y)) ∧
  (∀ (s : State) (g : Guard) (a b : Src), Issues s → readsPass (mine s) [a, b] →
    let x := sVal s (me s) 0 0 a
    let y := sVal s (me s) 0 1 b
    let R (i : Instr) (v : BitVec 64) : Prop := Deposits i s .s g (v.setWidth 4096) 1
    R (.shl g a b) (x <<< (y.setWidth 6)) ∧ R (.shr g a b) (x >>> (y.setWidth 6)) ∧
      R (.sar g a b) (x.sshiftRight' (y.setWidth 6)) ∧
      R (.min g a b) (if x.toInt ≤ y.toInt then x else y) ∧ R (.max g a b) (if x.toInt ≤ y.toInt then y else x) ∧
      R (.minu g a b) (if x.toNat ≤ y.toNat then x else y) ∧ R (.maxu g a b) (if x.toNat ≤ y.toNat then y else x))) ∧
  (∀ (s : State) (g : Guard) (a b : Src), Issues s → readsPass (mine s) [a, b] →
    let x := sVal s (me s) 0 0 a
    let y := sVal s (me s) 0 1 b
    let R (i : Instr) (v : BitVec 64) (lat : Nat) : Prop := Deposits i s .s g (v.setWidth 4096) lat
    R (.mul g a b) (x * y) 3 ∧
      R (.mulh g a b) ((x.signExtend 128 * y.signExtend 128).extractLsb' 64 64) 3 ∧
      R (.mulhu g a b) ((x.setWidth 128 * y.setWidth 128).extractLsb' 64 64) 3 ∧
      R (.div g a b) (if y = 0 then BitVec.allOnes 64 else x.sdiv y) 20 ∧
      R (.divu g a b) (if y = 0 then BitVec.allOnes 64 else x / y) 20 ∧
      R (.rem g a b) (if y = 0 then x else x.srem y) 20 ∧ R (.remu g a b) (if y = 0 then x else x % y) 20)

/-- R116, R118, R120, R122, R123: counts of bits, immediates, selects. R119: `limmh` replaces 16 bits of `s.q0`.
R121: `mov` writes a scalar register or the base of a walk register at the end of its cycle. R124, R125: compares
and predicate logic write their predicate. R79, R93: a write to `p0`, to `mk0`, or to a stage predicate while a
pipelined stair runs is dropped; `p0` reads true and `mk0` reads all ones. In the word that starts or ends a stair
the write is judged at its landing (log 15). -/
def Obligations.ScalarCountsMovesWrites : Prop :=
  (∀ (s : State) (g : Guard) (a b : Src), Issues s → readsPass (mine s) [a, b] →
    let x := sVal s (me s) 0 0 a
    let R (i : Instr) (v : BitVec 64) : Prop := Deposits i s .s g (v.setWidth 4096) 1
    (∃ r, r ≤ 64 ∧ R (.clz g a) (BitVec.ofNat 64 r) ∧ (∀ j, j < r → x.getLsbD (63 - j) = false) ∧
        (r < 64 → x.getLsbD (63 - r) = true)) ∧
      (∃ r, r ≤ 64 ∧ R (.ctz g a) (BitVec.ofNat 64 r) ∧ (∀ j, j < r → x.getLsbD j = false) ∧
        (r < 64 → x.getLsbD r = true)) ∧
      R (.popc g a) (BitVec.ofNat 64 ((List.range 64).countP fun j => x.getLsbD j)) ∧ R (.pass g a) x ∧
      (∀ i : BitVec 21, R (.limm g i) (i.signExtend 64)) ∧
      (∀ p : Fin 16, R (.sel g a b p) (if predVal (mine s) p then x else sVal s (me s) 0 1 b)) ∧
      ∀ k : Fin 64, ∃ v : BitVec 64, R (.sext g a k) v ∧ ∀ j, j < 64 → v.getLsbD j = x.getLsbD (min j k.val)) ∧
  (∀ (s : State) (g : Guard) (p : Fin 4) (h : BitVec 16), Issues s → readsPass (mine s) [.latch .s 0] →
    ∃ v : BitVec 64, Deposits (.limmh g p h) s .s g (v.setWidth 4096) 1 ∧
      ∀ j, j < 64 → v.getLsbD j =
        if j / 16 = p.val then h.getLsbD (j % 16) else (sVal s (me s) 0 0 (.latch .s 0)).getLsbD j) ∧
  (∀ (s : State) (g : Guard) (a : Src), Issues s → readsPass (mine s) [a] →
    let x := sVal s (me s) 0 0 a
    (∀ n : Fin 32, Writes (.mov g (.s n) a) s g (.s n x) 1 fun c => c.s[n] = x) ∧
      ∀ w : Fin 4, Writes (.mov g (.walk w) a) s g (.walk w x) 1 fun c => c.walk[w] = x) ∧
  (∀ (s : State) (g : Guard) (d : Fin 16) (a b : Src) (m n : PredOp), Issues s → readsPass (mine s) [a, b] →
    let x := sVal s (me s) 0 0 a
    let y := sVal s (me s) 0 1 b
    let u := predVal (mine s) m.n != m.inv
    let w := predVal (mine s) n.n != n.inv
    let R (i : Instr) (v : Bool) : Prop := Writes i s g (.p d v) 1 fun c =>
      d ≠ 0 → ¬ (12 ≤ d.val ∧ pipelined (moved (mine s) .seq) = true) → c.p.getLsbD d.val = v
    R (.cmpeq g d a b) (decide (x = y)) ∧ R (.cmpne g d a b) (decide (x ≠ y)) ∧
      R (.cmplt g d a b) (decide (x.toInt < y.toInt)) ∧ R (.cmple g d a b) (decide (x.toInt ≤ y.toInt)) ∧
      R (.cmpltu g d a b) (decide (x.toNat < y.toNat)) ∧ R (.cmpleu g d a b) (decide (x.toNat ≤ y.toNat)) ∧
      R (.pand g d m n) (u && w) ∧ R (.por g d m n) (u || w) ∧ R (.pxor g d m n) (xor u w) ∧
      R (.pandn g d m n) (u && !w)) ∧
  (∀ (c : Core) (d : Fin 16) (b : Bool) (m : BitVec 128),
    writePred c 0 b = c ∧ (12 ≤ d.val → pipelined c = true → writePred c d b = c) ∧ writeMask c 0 m = c ∧
      predVal c 0 = true ∧ maskVal c 0 = BitVec.allOnes 128)

/-- R55, R63: a window step of width W: what NaNs, infinities and zeros give; of finite terms, each is cut to the
quantum 2^(E - W + 1) of the largest, the cut terms are summed exactly, a carry out of the window is cut again, and
what was lost anywhere sets the sticky bit and the last bit of the result. Where every term is a multiple of one
quantum 2^q, and the magnitudes of all sum to less than 2^(q + W), the steps of a sum lose nothing, and it is exact.
The exact product of two elements, and the sign of a zero product. -/
def Obligations.WindowSums : Prop :=
  (∀ (w : Nat) (t : List Ext),
    ((∃ x ∈ t, x.isNan = true) → wstep w t = (.nan false, false)) ∧
    ((∀ x ∈ t, x.isNan = false) → .inf false ∈ t → .inf true ∈ t → wstep w t = (.nan false, false)) ∧
    (∀ n, (∀ x ∈ t, x.isNan = false) → .inf n ∈ t → .inf (!n) ∉ t → wstep w t = (.inf n, false)) ∧
    ((∀ x ∈ t, ∃ n e, x = .num n 0 e) → wstep w t = (.num (decide (t ≠ [] ∧ ∀ x ∈ t, x.negative = true)) 0 0, false)) ∧
    ∀ E : Int, (∀ x ∈ t, ∃ n m e, x = .num n m e) → (∃ n m e, .num n m e ∈ t ∧ 0 < m ∧ (Nat.log2 m : Int) + e = E) →
      (∀ n m e, .num n m e ∈ t → 0 < m → (Nat.log2 m : Int) + e ≤ E) →
      let Q := E - w + 1
      let cut (m : Nat) (e : Int) : Nat := if Q ≤ e then m * 2 ^ (e - Q).toNat else m / 2 ^ (Q - e).toNat
      let S : Int := (t.map fun x => match x with
        | .num n m e => if n then -(cut m e : Int) else (cut m e : Int)
        | _ => 0).sum
      let lost : Prop := ∃ n m e, .num n m e ∈ t ∧ e < Q ∧ m % 2 ^ (Q - e).toNat ≠ 0
      (S = 0 → ∃ st, wstep w t = (.num false 0 0, st) ∧ (st = true ↔ lost)) ∧
      (S ≠ 0 →
        let E2 : Int := (Nat.log2 S.natAbs : Int) + Q
        let Q2 := E2 - w + 1
        let k : Nat := if E < E2 then S.natAbs / 2 ^ (Q2 - Q).toNat else S.natAbs * 2 ^ (Q - Q2).toNat
        let st : Prop := lost ∨ (E < E2 ∧ S.natAbs % 2 ^ (Q2 - Q).toNat ≠ 0)
        (st → wstep w t = (.num (decide (S < 0)) (k ||| 1) Q2, true)) ∧ (¬ st → wstep w t = (.num (decide (S < 0)) k Q2, false)))) ∧
  (∀ (w g n : Nat) (q : Int) (l : List (Ext × Int)), (∀ x ∈ l, IsValue x.1 x.2 q) → (l.map fun x => x.2.natAbs).sum < 2 ^ w →
    l.length ≤ n * g →
    let v := windowSum w g n none false (l.map (·.1))
    v.2 = false ∧ IsValue v.1 (l.map (·.2)).sum q) ∧
  ∀ (f h : Fmt) (s t : Bool) (m k : Nat) (e q : Int) (x : Ext),
    (m * k ≠ 0 ∨ fmtInt f = false ∨ fmtInt h = false → prodExt f h (.num s m e) (.num t k q) = .num (s != t) (m * k) (e + q)) ∧
    (m * k = 0 → fmtInt f = true → fmtInt h = true → prodExt f h (.num s m e) (.num t k q) = .num false 0 0) ∧
    (m ≠ 0 → prodExt f h (.inf s) (.num t m e) = .inf (s != t) ∧ prodExt f h (.num t m e) (.inf s) = .inf (s != t)) ∧
    prodExt f h (.inf s) (.inf t) = .inf (s != t) ∧ prodExt f h (.inf s) (.num t 0 e) = .nan false ∧
    prodExt f h (.num t 0 e) (.inf s) = .nan false ∧ prodExt f h (.nan s) x = .nan false ∧ prodExt f h x (.nan s) = .nan false

/-! ### Slot 0: tile store -/

/-- R126: `ldt` takes a latch defined from c + 6 and reads the tile store in cycle c + 1. R126: what a scalar load
of n bytes delivers: the bytes, the lowest address least significant, extended by the sign or by zeros. It reads the
tile store as it was before the cycle's writes (R82). R127: `stt` stores 4 or 8 bytes of B at the end of cycle c +
1. R82, R127, R128: a store that lands writes its own bytes of the tile store, least significant first, and no
others; a byte that an access of another register is writing becomes undefined. R126, R127, R282: an access beyond
the register's rows, or not a multiple of its size, is refused with fault 0x07; one past CAPROWS with fault 0x0A. -/
def Obligations.ScalarMemory : Prop :=
  ((∀ (s : State) (g : Guard) (sz : LdSize) (t : Fin 64) (a : Src), Issues s → readsPass (mine s) [a] →
    let c := mine s
    let x := (sVal s (me s) 0 0 a).toNat
    let d := (c.t[t]).a
    tileBusy c t = false → capFails s (me s) d = false → x < tRows d * 4096 → x % ldBytes sz = 0 →
      Completes (.ldt g sz t a) s fun c' _ =>
        Turns c c' .s g (result c 0 6) ∧
          { c' with rings := c.rings } =
            moved (if holds c g then
                pending c (.load .s ((ringOf c .s).ptr - 1) t [some (tileAddr d x)] (ldBytes sz) (ldSigned sz)) 2
              else c) .seq) ∧
  (∀ (fv : BitVec 32768) (c : Core) (l : Fin 8) (t : Fin 64) (x n w b : Nat) (sign : Bool), 0 < n →
    (∀ i, i < n → tileUndef c (x + i) = false ∧ beingWritten c t.val (x + i) = false) → c.tPoison = [] →
    let v := ofBytes ((List.range n).map fun i => tileByte c (x + i))
    let r := ringOf (applyRead fv c { when_ := w, by_ := b, act := .load .s l t [some x] n sign }) .s
    (latchAt r l).val =
        (if sign = true ∧ 2 ^ (8 * n - 1) ≤ v then BitVec.ofNat 64 (v + 2 ^ 64 - 2 ^ (8 * n)) else BitVec.ofNat 64 v).setWidth 4096 ∧
      (latchAt r l).due = (latchAt (ringOf c .s) l).due ∧ r.ptr = (ringOf c .s).ptr)) ∧
  ((∀ (s : State) (g : Guard) (wide : Bool) (t : Fin 64) (a b : Src), Issues s → readsPass (mine s) [a, b] →
    let c := mine s
    let x := (sVal s (me s) 0 0 a).toNat
    let n := if wide then 8 else 4
    let d := (c.t[t]).a
    tileBusy c t = false → routineHolds c t = false → capFails s (me s) d = false → x < tRows d * 4096 → x % n = 0 →
      Effects (.stt g wide t a b) s g
        (fun c => pending c (.store t (at_ (tileAddr d x) (toBytes n (sVal s (me s) 0 1 b).toNat))) 2) .seq) ∧
  (∀ (fv : BitVec 32768) (c : Core) (t : Fin 64) (x : Nat) (l : List Byte) (w b : Nat),
    let c' := applyWrite fv c { when_ := w, by_ := b, act := .store t (at_ x l) }
    (∀ i, (h : i < l.length) → coverOf (openOf c) (fun _ => true) (x + i) 1 = 0 →
      tileByte c' (x + i) = l[i] ∧ tileUndef c' (x + i) = false) ∧
      (∀ i, i < l.length → beingWritten c t.val (x + i) = true → tileUndef c' (x + i) = true) ∧
      ∀ y, y < x ∨ x + l.length ≤ y → tileByte c' y = tileByte c y)) ∧
  (∀ (s : State) (g : Guard) (sz : LdSize) (wide : Bool) (t : Fin 64) (a b : Src), Issues s →
    readsPass (mine s) [a, b] →
    let c := mine s
    let x := (sVal s (me s) 0 0 a).toNat
    let d := (c.t[t]).a
    tileBusy c t = false → routineHolds c t = false →
      (capFails s (me s) d = true → Traps (.ldt g sz t a) s 1 0x0A (capDetail s (me s) t) ∧
        Traps (.stt g wide t a b) s 1 0x0A (capDetail s (me s) t)) ∧
      (capFails s (me s) d = false → tRows d * 4096 ≤ x ∨ x % ldBytes sz ≠ 0 → Traps (.ldt g sz t a) s 1 0x07 0) ∧
      (capFails s (me s) d = false → tRows d * 4096 ≤ x ∨ x % (if wide then 8 else 4) ≠ 0 →
        Traps (.stt g wide t a b) s 1 0x07 0))

/-! ### Slot 0: control flow -/

/-- R98, R101: NOP and `knop` do nothing: only the sequencer moves on; one with a nonzero field is refused with
fault 0x01. R129, R285: the two words after a taken branch, and the end of a handler after the second. R134:
`ifence` completes once no `tldi` and no `ipatch` is outstanding, and holds its word until then. -/
def Obligations.SequencerWords : Prop :=
  ((∀ s : State, Issues s → ∀ i ∈ [Instr.nop, .knop],
    Completes i s fun c' _ => c' = { moved (mine s) .seq with prog := (mine s).prog }) ∧
  (∀ (k : Fin 8) (h : Header) (w : BitVec 32) (s : State),
    (k.val < 7 → w.extractLsb' 26 6 = 0 → decodeSlot k.val h w = if w = 0 then some .nop else none) ∧
      (w.extractLsb' 30 2 = 0 → w.extractLsb' 24 6 = 0 → decodeSlot 7 h w = if w = 0 then some .knop else none) ∧
      (Issues s → Traps (.illegalEncoding k) s (2 ^ k.val) 0x01 0)) ∧
  decodeWord 0 = [some .nop, some .nop, some .nop, some .nop, some .nop, some .nop, some .nop, some .knop] ∧
  (∀ (s : State) (t : BitVec 12), Issues s →
    let c := mine s
    (c.delay = some { left := 2, target := t } →
      Completes .nop s fun c' _ => c'.pc = inBank c (place c + 1) ∧ c'.delay = some { left := 1, target := t }) ∧
    (c.delay = some { left := 1, target := t } → c.returning = false →
      Completes .nop s fun c' _ => c'.pc = t ∧ c'.delay = none) ∧
    ∀ pc d, c.delay = some { left := 1, target := t } → c.returning = true → c.ret = some (pc, d) →
      Completes .nop s fun c' _ => c'.pc = pc ∧ c'.delay = d ∧ c'.handler = false ∧ c'.returning = false ∧ c'.ret = none)) ∧
  (∀ (s : State) (g : Guard), Issues s →
    let busy := ∃ k ∈ (mine s).copies, (∃ b, k.kind = .tldi b) ∨ ∃ w p v, k.kind = .ipatch w p v
    (¬ busy → Effects (.ifence g) s g id .seq) ∧ (busy → holds (mine s) g = true → Stalls (.ifence g) s false))

/-- R129 to R133: a taken branch issues two more words and then the word at its target; `brl` leaves L + 3 on the s
ring. A branch not taken only moves on. R113: each of the four in a delay word is refused. -/
def Obligations.Branches : Prop :=
  (∀ (s : State) (g : Guard) (off : BitVec 12) (i : BitVec 11) (a : Src), Issues s → readsPass (mine s) [a] →
    (mine s).delay = none →
    let c := mine s
    let B (j : Instr) (t : BitVec 12) : Prop := Completes j s fun c' _ =>
      c' = moved c (if holds c g then .branch t else .seq) ∧
        (holds c g = true → c'.pc = inBank c (place c + 1) ∧ c'.delay = some { left := 2, target := t })
    B (.br g off) (inBank c (place c + off.setWidth 11)) ∧
      B (.jr g a) (inBank c ((sVal s (me s) 0 0 a).setWidth 11)) ∧
      ((∀ k ∈ c.copies, k.kind ≠ .tldi (!c.pc.getLsbD 11)) → B (.brbank g i) (BitVec.ofBool (!c.pc.getLsbD 11) ++ i)) ∧
      Completes (.brl g off) s fun c' _ =>
        let t := inBank c (place c + off.setWidth 11)
        Turns c c' .s g (result c ((inBank c (place c + 3)).setWidth 4096) 1) ∧
          { c' with rings := c.rings } = moved c (if holds c g then .branch t else .seq) ∧
          (holds c g = true → c'.delay = some { left := 2, target := t })) ∧
  (∀ (s : State) (g : Guard) (off : BitVec 12) (i : BitVec 11) (a : Src), Issues s → (mine s).delay ≠ none →
    Traps (.br g off) s 1 0x01 0 ∧ Traps (.brl g off) s 1 0x01 0 ∧ Traps (.jr g a) s 1 0x01 0 ∧
      ((∀ k ∈ (mine s).copies, k.kind ≠ .tldi (!(mine s).pc.getLsbD 11)) → Traps (.brbank g i) s 1 0x01 0))

/-! ### Slot 0: stairs -/

/-- R135 to R138: the writes of a flight and of the stages, between stairs. R90, R135 to R138: a write of the
flights while a stair runs is refused. -/
def Obligations.FlightWrites : Prop :=
  (∀ (s : State) (g : Guard) (k : Fin 6) (w : Fin 4) (f n : BitVec 9) (m : Fin 5) (a : Src), Issues s →
    readsPass (mine s) [a] → me s < 256 → (mine s).stair.running = 0 →
    let c := mine s
    let x := sVal s (me s) 0 0 a
    let first := inBank c (place c + f.setWidth 11)
    let F (i : Instr) (h : Flight → Flight) : Prop := Effects i s g
      (fun c => { c with stair := { c.stair with flights := c.stair.flights.set k (h c.stair.flights[k]) } }) .seq
    F (.fdef g k f n) (fun y => { y with first := first, last := inBank c (place c + f.setWidth 11 + n.setWidth 11) }) ∧
      F (.fcnt g k a) (fun y => { y with count := if x.setWidth 32 = 0#32 then 0x100000000#33 else (x.setWidth 32).setWidth 33 }) ∧
      F (.fstr g k w a) (fun y => { y with stride := y.stride.set w x }) ∧
      Effects (.fpipe g m) s g (fun c => { c with stair := { c.stair with stages := BitVec.ofNat 3 m.val } }) .seq) ∧
  (∀ (s : State) (g : Guard) (k : Fin 6) (w : Fin 4) (f n : BitVec 9) (m : Fin 5) (a : Src), Issues s →
    readsPass (mine s) [a] → (mine s).stair.running ≠ 0 →
    ∀ i ∈ [Instr.fdef g k f n, .fcnt g k a, .fstr g k w a, .fpipe g m], Traps i s 1 0x01 0)

/-- R89, R90, R91, R139: `stair` starts the stair at the next word with every index 0. It is refused where a
condition of R90 does not hold: no stair runs, the outermost flight starts at the next word, each flight lies in the
word's bank and in the flight around it; and in a delay word (R113). R91: the last word of an innermost flight that
has iterations left: its index rises, the flights inside it start again, and its first word is next. R89, R92, R93,
R140: `sbrk` ends the running stair: the walk registers keep their values as their bases, the indices become 0, and
the stage predicates of a pipelined stair become false. -/
def Obligations.Stairs : Prop :=
  (∀ (s : State) (g : Guard) (m : Fin 7), Issues s → me s < 256 → (mine s).delay = none →
    let c := mine s
    let F (k : Nat) : Flight := flightAt c.stair k
    let here (x : BitVec 12) : Prop := x.getLsbD 11 = c.pc.getLsbD 11
    let fits : Prop := c.stair.running = 0 ∧ (F (m.val - 1)).first = inBank c (place c + 1) ∧
      (∀ k, k < m.val → here (F k).first ∧ here (F k).last ∧ (F k).first ≤ (F k).last) ∧
      ∀ k, k + 1 < m.val → (F (k + 1)).first ≤ (F k).first ∧ (F k).last ≤ (F (k + 1)).last
    (fits → Completes (.stair g m) s fun c' _ =>
      c' = moved c (if holds c g then .stair m.val else .seq) ∧
        (holds c g = true → c'.pc = inBank c (place c + 1) ∧ c'.stair.running.toNat = m.val ∧
          ∀ k, (flightAt c'.stair k).idx = 0 ∧ (flightAt c'.stair k).count = (flightAt c.stair k).count)) ∧
    (¬ fits → Traps (.stair g m) s 1 0x01 0)) ∧
  (∀ (s : State) (g : Guard) (m : Fin 7), Issues s → me s < 256 → (mine s).delay ≠ none → Traps (.stair g m) s 1 0x01 0) ∧
  ((∀ (s : State) (k : Nat), Issues s → (mine s).delay = none →
    let c := mine s
    let f := flightAt c.stair k
    k < c.stair.running.toNat → c.stair.running.toNat ≤ 6 → f.last = c.pc → f.idx.toNat + 1 < iters c.stair k →
    (∀ j, j < k → (flightAt c.stair j).last = c.pc → iters c.stair j ≤ (flightAt c.stair j).idx.toNat + 1) →
      Completes .nop s fun c' _ =>
        c'.pc = f.first ∧ (flightAt c'.stair k).idx = f.idx + 1 ∧ (∀ j, j < k → (flightAt c'.stair j).idx = 0) ∧
          (∀ j, k < j → flightAt c'.stair j = flightAt c.stair j) ∧ c'.stair.running = c.stair.running) ∧
  (∀ (s : State) (g : Guard), Issues s → me s < 256 → (mine s).delay = none → holds (mine s) g = true →
    (mine s).stair.running ≠ 0 →
    let c := mine s
    Completes (.sbrk g) s fun c' _ =>
      c'.pc = inBank c (place c + 1) ∧ c'.stair.running = 0 ∧ (∀ w : Fin 4, c'.walk[w] = walkVal c w) ∧
        (∀ k, (flightAt c'.stair k).idx = 0) ∧
        (∀ j, j < 12 → c'.p.getLsbD j = c.p.getLsbD j) ∧
        (c.stair.stages ≠ 0 → ∀ j, 12 ≤ j → c'.p.getLsbD j = false) ∧
        { c' with stair := c.stair, walk := c.walk, p := c.p } =
          { c with pc := c'.pc, words := c.words + 1, prog := true, walked := [] }))

/-! ### Slot 0: control registers, services, launches, ends of a handler -/

/-- R83, R141: `getc` writes the register's value to its scalar register; TRAPREC is for service cores. R83, R86,
R142: `setc` clears flags of VFLAGS, sets the block counts and CHKLAT.EN; a read-only register ignores the write; EN
= 1 without its feature and TRAPREC on a compute core are refused. -/
def Obligations.ControlRegisters : Prop :=
  (∀ (s : State) (g : Guard) (d : Fin 32), Issues s →
    let c := mine s
    let R (n : Fin 26) (v : BitVec 64) : Prop := Writes (.getc g d n) s g (.s d v) 1 fun c => c.s[d] = v
    R 0x00 (c.coreIdx.setWidth 64) ∧ R 0x01 c.domain ∧ (∀ k : Fin 6, R ⟨2 + k, by omega⟩ c.sbase[k]) ∧
      (∀ k : Fin 6, R ⟨8 + k, by omega⟩ c.sext[k]) ∧ R 0x0E (BitVec.ofNat 64 (opOf' s (me s))) ∧
      R 0x0F (if s.boot = .reset then 0 else BitVec.ofNat 64 (capRows s (me s))) ∧ R 0x10 (BitVec.ofNat 64 (s.now / 252)) ∧
      R 0x11 (BitVec.ofNat 64 c.cyc) ∧ R 0x12 c.feat ∧ R 0x13 (c.vflags.setWidth 64) ∧ R 0x14 (c.bsat.setWidth 64) ∧
      R 0x15 (c.bzero.setWidth 64) ∧ R 0x16 (c.profile.setWidth 64) ∧
      R 0x17 (if c.chklat then 1 else 0) ∧ R 0x18 (c.beats ++ c.words) ∧
      (256 ≤ me s → R 0x19 c.traprec) ∧ (me s < 256 → Traps (.getc g d 0x19) s 1 0x03 0)) ∧
  (∀ (s : State) (g : Guard) (b : Src), Issues s → readsPass (mine s) [b] →
    let x := sVal s (me s) 0 1 b
    let W (n : Fin 26) (f : Core → Core) : Prop := Effects (.setc g n b) s g f .seq
    W 0x13 (fun c => { c with vflags := c.vflags &&& ~~~ x.setWidth 6 }) ∧
      W 0x14 (fun c => { c with bsat := x.setWidth 32 }) ∧ W 0x15 (fun c => { c with bzero := x.setWidth 32 }) ∧
      (x.getLsbD 0 = false ∨ (mine s).feat.getLsbD 2 = true →
        W 0x17 fun c => { c with chklat := x.getLsbD 0 }) ∧
      (coreOf State.reset (me s)).chklat = false ∧
      (x.getLsbD 0 = true → (mine s).feat.getLsbD 2 = false → Traps (.setc g 0x17 b) s 1 0x02 2) ∧
      (∀ n : Fin 26, n ≠ 0x13 → n ≠ 0x14 → n ≠ 0x15 → n ≠ 0x17 → n ≠ 0x19 ∨ 256 ≤ me s → W n id) ∧
      (me s < 256 → Traps (.setc g 0x19 b) s 1 0x03 0))

/-- R143, R144, R280, R312: `brk` is refused with fault 0x0C and its code; a compute core's `svc` commits its word,
and the core then freezes: to exit, for the abort service, which leaves a pair once its word's signatures have
matched (R393), or for its handler with cause 0 and the service number. A service core's `svc` asks the runtime
firmware and holds its word until the answer has come; what the answer writes to `s0` is written as the word commits
(log 22). -/
def Obligations.BreakAndService : Prop :=
  ∀ (s : State) (g : Guard) (code : BitVec 16) (num : BitVec 12), Issues s →
    let c := mine s
    let t := endCycle (setCore s (me s) (signed s (me s) (moved c .seq))) (me s)
    (holds c g = true → Traps (.brk g code) s 1 0x0C (code.setWidth 32)) ∧
      (holds c g = false → exec (.brk g code) s = .next t ∧ exec (.svc g num) s = .next t) ∧
      (holds c g = true → me s < 256 →
        exec (.svc g 0) s = .next (freeze t (me s) .exiting) ∧
          (leadsPair t (me s) = false → exec (.svc g 1) s = .next (abortService t (me s))) ∧
          (leadsPair t (me s) = true →
            exec (.svc g 1) s = .next (freeze (modCore t (me s) fun c => { c with aborting := true }) (me s) .exiting)) ∧
          (2 ≤ num.toNat → exec (.svc g num) s = .next (takeTrap t (me s) 0 0 (num.setWidth 32)))) ∧
      (256 ≤ me s → c.reply = none → holds c g = true →
        exec (.svc g num) s = .next (stallCycle (modCore s (me s) fun c => { c with request := some num }) (me s) false)) ∧
      (256 ≤ me s → ∀ x, c.reply = some x → Effects (.svc g num) s g (fun c =>
        let y := { c with reply := none }
        match x with | some v => pending y (.s 0 v) 1 | none => y) .seq) ∧
      ∀ u : State, (mine u).run = .running → (mine u).request ≠ none → (mine u).arrival = none → nextCause (mine u).causes = none →
        exec (.svc g num) u = .next (stallCycle u (me u) false)

/-- R306: `lnch` waits for the core's stores, and on a pair for the words before it to be compared (R393; its place
is log 71); then the descriptor at its home arrives and it deposits the ticket. R301, R302: a launch takes the
queue's next sequence number, or is refused by the first code that applies, changes nothing and has number 0. A
launch whose kernel was pre-empted is not pending (R294; log 82). R307: what `qstat` and `qstat.o` deposit, latency
8. That `qstat` of no queue reads its other fields as 0 is log 86. -/
def Obligations.Launches : Prop :=
  ((∀ (s : State) (g : Guard) (h : Fin 16) (a : Src), Issues s → me s < 256 → readsPass (mine s) [a] →
    let c := mine s
    let off := (sVal s (me s) 0 0 a).toNat
    let x := c.h[h]
    let T (k : Nat) : Prop := Traps (.lnch g h a) s 1 k (BitVec.ofNat 32 h.val)
    let busy : Prop := (∃ cl : Fin 16, c.stcnt[cl] ≠ 0) ∨ ∃ x ∈ c.sigs, x.word = true
    (busy → holds c g = true → Stalls (.lnch g h a) s false) ∧ ((holds c g = true → ¬ busy) →
    (hValid x = false → T (if hRevoked x then 0x06 else 0x05)) ∧
      (hPresent x = true → hSize x < off + 64 ∨ off % 64 ≠ 0 → T 0x07) ∧
      (hPresent x = true → off + 64 ≤ hSize x → off % 64 = 0 → hRead x = false → T 0x08) ∧
      (hPresent x = true → off + 64 ≤ hSize x → off % 64 = 0 → hRead x = true →
        Performs (.lnch g h a) s g (some .s) fun s' =>
          let d := BitVec.ofNat 512 (ofBytes (memRead s'.mem (hBase x + off) 64))
          let r := arrive s' (ctxOf c) d 0 0 none (some (me s, c.kernel.getD s'.nextKernel)) false
          let ticket := (if r.2.1 = 0 then 0 else 2 ^ 63) + r.2.1 * 2 ^ 48 + descQueue d * 2 ^ 32 + r.2.2.toNat
          modCore r.1 (me s) fun c => deposit64 c .s (BitVec.ofNat 64 ticket) 1))) ∧
  (∀ (s : State) (ctx : Fin 32) (d : BitVec 512) (src tag : BitVec 16) (pod : Option Pod) (who : Nat × Nat) (r : Bool),
    let code := acceptCode s ctx d r
    let shut : Prop := r = true ∨ fld d 255 140 ≠ 0 ∨ fld d 127 112 ≠ 0 ∨ fld d 63 48 ≠ 0 ∨
      (∃ k, k < 4 ∧ fld d (317 + 64 * k) (292 + 64 * k) ≠ 0) ∨ descRec d % 64 ≠ 0 ∨ descCw d % 8 ≠ 0
    let lost (x : BitVec 64) : Prop := ∀ j p, queueIndex s ctx (fld x 35 32) = some j → queueAt s j = some p →
      let seq : BitVec 32 := x.setWidth 32
      seq = 0 ∨ p.nextSeq ≤ seq ∨
        (isLive s j seq = false ∧ (p.nextSeq.toNat ≤ seq.toNat + 256 → outcomeAt p seq = none))
    let gone : Prop := ∃ k, k < 4 ∧ d.getLsbD (319 + 64 * k) = true ∧ lost (d.extractLsb' (256 + 64 * k) 64)
    let seen (va : Nat) : Prop := hPresent (bindOf s ctx va) = true ∧ hRead (bindOf s ctx va) = true
    (code ≠ 0 → arrive s ctx d src tag pod (some who) r = (s, code, 0)) ∧ (shut → code = 1) ∧
      (¬ shut → queueIndex s ctx (descQueue d) = none → code = 2) ∧
      ∀ i q, queueIndex s ctx (descQueue d) = some i → queueAt s i = some q → ¬ shut →
        (code = 0 → (arrive s ctx d src tag pod (some who) r).2 = (0, q.nextSeq)) ∧
        (q.st = .torn → code = 2) ∧
        (q.st ≠ .torn → 64 ≤ pendingOf s q → code = 3) ∧
        (q.st ≠ .torn → pendingOf s q < 64 → (gone → code = 4) ∧
          (¬ gone → (¬ seen (descRec d) ∨ (descCw d ≠ 0 ∧ ¬ seen (descCw d)) → code = 5) ∧
            (seen (descRec d) → descCw d = 0 ∨ seen (descCw d) → code = 0))))) ∧
  (∀ (s : State) (g : Guard) (a b : Src), Issues s → readsPass (mine s) [a, b] →
    let num := (sVal s (me s) 0 0 a).toNat % 16
    let seq : BitVec 32 := (sVal s (me s) 0 1 b).setWidth 32
    let D (i : Instr) (v : Nat) : Prop := Deposits i s .s g ((BitVec.ofNat 64 v).setWidth 4096) 8
    let O (noq o : Nat) : Prop := D (.qstatO g a b) (seq.toNat * 2 ^ 32 + noq * 8 + o)
    (queueIndex s (ctxOf (mine s)) num = none → D (.qstat g a) (5 * 2 ^ 61) ∧ O 1 0) ∧
      ∀ i q, queueIndex s (ctxOf (mine s)) num = some i → queueAt s i = some q →
        D (.qstat g a) (queueStNo q.st * 2 ^ 61 + q.base.val * 2 ^ 58 +
          (match q.pending.head? with | some l => effOf s q l | none => q.base.val) * 2 ^ 55 +
          pendingOf s q * 2 ^ 48 + q.nextSeq.toNat) ∧
        (seq = 0 ∨ q.nextSeq ≤ seq → O 0 7) ∧
        (seq ≠ 0 → seq < q.nextSeq → isLive s i seq = true → O 0 0) ∧
        (seq ≠ 0 → seq < q.nextSeq → isLive s i seq = false →
          let shown := if q.nextSeq.toNat ≤ seq.toNat + 256 then outcomeAt q seq else none
          (shown = none → O 0 6) ∧ ∀ o, shown = some o → O 0 o.toNat))

/-- R285, R289, R446: `thaw` ends the freeze of a core whose record the handler holds, its word counted as committed
with `skip`, or the word after its `land` once that would issue; `rfh` is a taken branch to the return state. Both
are refused outside a handler's reach. That a second `thaw` before the word after a `land` may replace the mode of
the first is log 25. -/
def Obligations.HandlerEnds : Prop :=
  ∀ (s : State) (g : Guard) (a : Src) (skip : Bool), Issues s → readsPass (mine s) [a] → 256 ≤ me s → me s < 288 →
    let c := mine s
    let m := 8 * (me s - 256) + (sVal s (me s) 0 0 a).toNat % 8
    (heldRecord s m = true → Performs (.thaw g a skip) s g none fun s => modCore s m fun k =>
        { (if k.arrival.isSome = true ∨ k.skip = true then { k with skip := skip }
           else if skip then { advance k .seq with
             words := k.words + 1, prog := k.prog || spGet k.istore k.pc.toNat != 0 } else k) with
          run := .resuming, mx := { k.mx with run := k.mx.run.map fun r => { r with halted := false } } }) ∧
      (heldRecord s m = false → Traps (.thaw g a skip) s 1 0x07 0) ∧
      (c.delay = none → c.handler = true → Completes (.rfh g) s fun c' _ =>
        c' = moved c (if holds c g then .ret else .seq) ∧
          (holds c g = true → c'.pc = inBank c (place c + 1) ∧ c'.returning = true ∧
            c'.delay = some { left := 2, target := (c.ret.map (·.1)).getD 0 })) ∧
      (c.delay ≠ none ∨ c.handler = false → Traps (.rfh g) s 1 0x01 0)

/-! ### Slots 1 and 2 -/

/-- R42: the rounding of (-1)^neg * m * 2^e to a multiple k * 2^q: `lost` says that it was inexact; the five modes.
R44, R45, R186: every conversion, by format, saturation and mode: what a NaN, an infinity and a value beyond the
format give; else the rounded value, at the format's precision or its least normal value's; the flags NV, OF, UF and
NX; whether the value had left the format. -/
def Obligations.Rounding : Prop :=
  (∀ (rm : Rm) (neg : Bool) (m : Nat) (e q : Int), q ≤ e → roundAt rm neg m e q = (m * 2 ^ (e - q).toNat, false)) ∧
  (∀ (rm : Rm) (neg : Bool) (m : Nat) (e q : Int), e < q →
    let u := 2 ^ (q - e).toNat
    let k := (roundAt rm neg m e q).1
    ((roundAt rm neg m e q).2 = true ↔ m % u ≠ 0) ∧ (m % u = 0 → k * u = m) ∧ (k = m / u ∨ k = m / u + 1) ∧
      (m % u ≠ 0 → match rm with
        | .rz => k = m / u
        | .rd => k = if neg then m / u + 1 else m / u
        | .ru => k = if neg then m / u else m / u + 1
        | .ro => k % 2 = 1 ∧ (m / u % 2 = 1 → k = m / u)
        | .rn => (2 * (m % u) < u → k = m / u) ∧ (u < 2 * (m % u) → k = m / u + 1) ∧ (2 * (m % u) = u → k % 2 = 0))) ∧
  ∀ (f : Fmt) (rm : Rm) (sat : Bool),
    let w := fmtWidth f
    let sgn (n : Bool) : Nat := if n then 2 ^ (w - 1) else 0
    let fb : Nat := match f with | .fp32 => 23 | .bf16 => 7 | .e5m2 => 2 | .e4m3 => 3 | _ => 1
    let emin : Int := match f with | .fp32 | .bf16 => -126 | .e5m2 => -14 | .e4m3 => -6 | _ => 0
    let top : Nat × Int := match f with | .fp32 => (2 ^ 24 - 1, 104) | .bf16 => (255, 120) | .e5m2 => (7, 13) | .e4m3 => (7, 6) | _ => (3, 1)
    let topBits : Nat := match f with | .fp32 => 0x7F7FFFFF | .bf16 => 0x7F7F | .e5m2 => 0x7B | .e4m3 => 0x7E | _ => 0x7
    let infBits : Nat := match f with | .fp32 => 0x7F800000 | .bf16 => 0x7F80 | _ => 0x7C
    let nanBits : Nat := match f with | .fp32 => 0x7FC00000 | .bf16 => 0x7FC0 | .e5m2 => 0x7E | _ => 0x7F
    let int : Prop := f = .int8 ∨ f = .int4 ∨ f = .int32
    let bounded : Prop := f = .e2m1 ∨ sat = true
    (int → (∀ s, cvt (.nan s) f rm sat = ⟨0, fNV, true⟩) ∧
      (∀ n, cvt (.inf n) f rm sat = ⟨if n then 2 ^ (w - 1) else 2 ^ (w - 1) - 1, fNV, true⟩) ∧
      ∀ (n : Bool) (m : Nat) (e : Int),
        let k := (roundAt rm n m e 0).1
        let c := cvt (.num n m e) f rm sat
        (n = true → 2 ^ (w - 1) < k → c = ⟨2 ^ (w - 1), fNV, true⟩) ∧ (n = false → 2 ^ (w - 1) ≤ k → c = ⟨2 ^ (w - 1) - 1, fNV, true⟩) ∧
        (k < 2 ^ (w - 1) ∨ (n = true ∧ k = 2 ^ (w - 1)) → IsValue (elemVal f c.val) (if n then -(k : Int) else (k : Int)) 0 ∧ c.val < 2 ^ w ∧
          c.left = false ∧ c.flags = if (roundAt rm n m e 0).2 = true then fNX else 0)) ∧
    (¬ int → (∀ s, (f = .e2m1 → cvt (.nan s) f rm sat = ⟨0, fNV, true⟩) ∧
        (f ≠ .e2m1 → cvt (.nan s) f rm sat = ⟨nanBits, if s then fNV else 0, true⟩)) ∧
      (∀ n, (bounded → cvt (.inf n) f rm sat = ⟨sgn n + topBits, fNV, true⟩) ∧
        (¬ bounded → f = .e4m3 → cvt (.inf n) f rm sat = ⟨nanBits, fNV, true⟩) ∧
        (¬ bounded → f ≠ .e4m3 → cvt (.inf n) f rm sat = ⟨sgn n + infBits, 0, true⟩)) ∧
      (∀ n e, cvt (.num n 0 e) f rm sat = ⟨sgn n, 0, false⟩) ∧
      ∀ (n : Bool) (m : Nat) (e : Int), 0 < m →
        let q0 : Int := (Nat.log2 m : Int) + e - fb
        let q := max q0 (emin - fb)
        let r := roundAt rm n m e q
        let c := cvt (.num n m e) f rm sat
        (¬ MagLe r.1 q top.1 top.2 →
          (bounded → c = ⟨sgn n + topBits, fOF ||| fNX, true⟩) ∧ (¬ bounded → f = .e4m3 → c = ⟨nanBits, fOF ||| fNX, true⟩) ∧
          (¬ bounded → f ≠ .e4m3 → c = ⟨sgn n + (match rm with
            | .rn => infBits
            | .rz | .ro => topBits
            | .rd => if n then infBits else topBits
            | .ru => if n then topBits else infBits), fOF ||| fNX, true⟩)) ∧
        (MagLe r.1 q top.1 top.2 → (∃ k q', elemVal f c.val = .num n k q' ∧ SameMag k q' r.1 q) ∧ c.val < 2 ^ w ∧ c.left = false ∧
          c.flags = if r.2 = true then (if MagLe 1 emin (roundAt rm n m e q0).1 q0 then fNX else fNX ||| fUF) else 0))

/-- R74, R99, R100, R147: what each operand form reads, as a scalar and as a vector, in slots 1 and 2 (vec) and in
the others; slots 1 and 2 name no latch of the m, ca, cb and k rings. The lane index read as a scalar gives 0 (log
14). -/
def Obligations.OperandReads : Prop :=
  ∀ (c : Core) (fv : BitVec 32768) (vec fp : Bool) (n : Fin 32) (v : BitVec 4) (i : BitVec 25) (h : BitVec 18) (w : Fin 4)
      (u : RingId) (k : Fin 8) (j : Nat), j < 128 →
    let S (a : Src) (x : BitVec 64) : Prop := scalarVal vec c fv a = x
    let L (a : Src) (x : BitVec 32) : Prop := lane (vectorVal vec fp c fv a) j = x
    S (.reg n) (if vec then (c.v[n]).setWidth 64 else c.s[n]) ∧
      S (.small v) (BitVec.ofInt 64 (v.toNat - 8)) ∧ S (.imm25 i) (i.signExtend 64) ∧ S (.imm18 h) (h.signExtend 64) ∧
      S .core (c.coreIdx.setWidth 64) ∧ S .lane 0 ∧ S (.walk w) (walkVal c w) ∧
      ((latchOf c u k).wait = none → (latchOf c u k).due ≤ c.cyc → S (.latch u k) ((latchOf c u k).val.setWidth 64)) ∧
      L (.reg n) (if vec then lane c.v[n] j else (c.s[n]).setWidth 32) ∧
      (fp = false → L (.small v) (BitVec.ofInt 32 (v.toNat - 8)) ∧ L (.imm25 i) (i.signExtend 32) ∧ L (.imm18 h) (h.signExtend 32)) ∧
      (fp = true → L (.imm25 i) (i ++ 0#7) ∧ L (.imm18 h) (h ++ 0#14)) ∧
      (fp = true → ∃ x, L (.small v) x ∧ x = [0xC1000000#32, 0xC0E00000#32, 0xC0C00000#32, 0xC0A00000#32, 0xC0800000#32, 0xC0400000#32,
        0xC0000000#32, 0xBF800000#32, 0#32, 0x3F800000#32, 0x40000000#32, 0x40400000#32, 0x40800000#32, 0x40A00000#32, 0x40C00000#32,
        0x40E00000#32].getD v.toNat 0) ∧
      L .core c.coreIdx ∧ (vec = true → L .lane (BitVec.ofNat 32 j)) ∧ (vec = false → L .lane 0) ∧
      (∀ (slot : Nat) (g : Header) (sel : BitVec 7), slot = 1 ∨ slot = 2 →
        (0x38 ≤ sel.toNat ∧ sel.toNat < 0x50) ∨ (0x58 ≤ sel.toNat ∧ sel.toNat < 0x60) → decodeSrc slot g sel = none) ∧ L (.walk w) ((walkVal c w).setWidth 32) ∧
      ((latchOf c u k).wait = none → (latchOf c u k).due ≤ c.cyc →
        L (.latch u k) (if ringWidth u = 64 then (latchOf c u k).val.setWidth 32 else lane (latchOf c u k).val j))

/-- R148 to R150, R153, R154: the FP32 instructions, lane by lane, with their flags and latencies. R42 to R44, R153:
with a finite FP32 number counted in units of 2^-149, a sum, product or fused sum is the exact one rounded (Rounding
says how `roundAt` rounds), NX telling that it was inexact; a quotient toward zero is the largest that does not pass
the exact one, to nearest none is nearer; a root is bounded by its square. R152 to R154: NaN operands, zero sums,
divisors of 0, the lesser and the greater. -/
def Obligations.VectorFloat : Prop :=
  (∀ (s : State) (u : VSlot) (g : Guard) (a b k : Src) (mk : Fin 8) (rm : Rm), Issues s → me s < 256 →
    readsPass (mine s) [a, b, k] →
    let x := vVal u true s (me s) 0 a
    let y := vVal u true s (me s) 1 b
    let z := vVal u true s (me s) 2 k
    let V (i : Instr) (lat : Nat) (r : BitVec 32 → BitVec 32 → BitVec 32 → LaneRes) : Prop :=
      ∃ v f, VDeposits i s u g v f lat ∧ LaneWise (mine s) mk x (fun j => r (lane x j) (lane y j) (lane z j)) v f
    V (.vaddF32 u g a b mk rm) 2 (fun p q _ => fAdd rm p q) ∧ V (.vsubF32 u g a b mk rm) 2 (fun p q _ => fSub rm p q) ∧
      V (.vmulF32 u g a b mk rm) 4 (fun p q _ => fMul rm p q) ∧ V (.vfmaF32 u g a b k mk rm) 4 (fun p q r => fFma false rm p q r) ∧
      V (.vfmsF32 u g a b k mk rm) 4 (fun p q r => fFma true rm p q r) ∧
      V (.vminF32 u g a b mk) 2 (fun p q _ => fMinMax false p q) ∧ V (.vmaxF32 u g a b mk) 2 (fun p q _ => fMinMax true p q) ∧
      V (.vdivF32 u g a b mk rm) 8 (fun p q _ => fDiv rm p q) ∧ V (.vsqrtF32 u g a mk rm) 8 (fun p _ _ => fSqrt rm p) ∧
      V (.vabsF32 u g a mk) 2 (fun p _ _ => (0#1 ++ p.extractLsb' 0 31, 0)) ∧
      V (.vnegF32 u g a mk) 2 (fun p _ _ => (~~~(p.extractLsb' 31 1) ++ p.extractLsb' 0 31, 0))) ∧
  (∀ (rm : Rm) (x y z : BitVec 32),
    let fin (p : BitVec 32) : Prop := p.extractLsb' 23 8 ≠ 255
    let nan (p : BitVec 32) : Prop := p.extractLsb' 23 8 = 255 ∧ p.extractLsb' 0 23 ≠ 0
    let Q (p : BitVec 32) : Int :=
      let e := (p.extractLsb' 23 8).toNat
      let m : Int := if e = 0 then (p.extractLsb' 0 23).toNat else ((p.extractLsb' 0 23).toNat + 2 ^ 23) * 2 ^ (e - 1)
      if p.getLsbD 31 = true then -m else m
    let Is (S : Int) (u : Int) (r : LaneRes) : Prop :=
      let m := S.natAbs
      let q : Int := max (Nat.log2 m + u - 23) (-149)
      let k := roundAt rm (decide (S < 0)) m u q
      (S = 0 → Q r.1 = 0 ∧ r.2 = 0) ∧
        (S ≠ 0 → k.1 * 2 ^ (q + 149).toNat ≤ (2 ^ 24 - 1) * 2 ^ 253 →
          fin r.1 ∧ Q r.1 = (if S < 0 then -1 else 1) * ((k.1 * 2 ^ (q + 149).toNat : Nat) : Int) ∧ (r.2.getLsbD 0 = true ↔ k.2 = true)) ∧
        (S ≠ 0 → (2 ^ 24 - 1) * 2 ^ 253 < k.1 * 2 ^ (q + 149).toNat → r.2 = fOF ||| fNX)
    (fin x → fin y →
      Is (Q x + Q y) (-149) (fAdd rm x y) ∧ Is (Q x - Q y) (-149) (fSub rm x y) ∧ Is (Q x * Q y) (-298) (fMul rm x y) ∧
        (Q x + Q y = 0 → Q x ≠ 0 → (fAdd rm x y).1 = if rm = .rd then 0x80000000#32 else 0#32) ∧
        (fin z → Is (Q x * Q y + Q z * 2 ^ 149) (-298) (fFma false rm x y z) ∧
          Is (Q x * Q y - Q z * 2 ^ 149) (-298) (fFma true rm x y z)) ∧
        (Q x ≠ 0 → Q y = 0 → fDiv rm x y = ((if x.getLsbD 31 = y.getLsbD 31 then 0x7F800000#32 else 0xFF800000#32), fDZ)) ∧
        (Q x = 0 → Q y = 0 → fDiv rm x y = (0x7FC00000#32, fNV)) ∧
        (Q y ≠ 0 → let r := fDiv rm x y
          let miss (w : BitVec 32) : Nat := (Q w * Q y - Q x * 2 ^ 149).natAbs
          (rm = .rz → fin r.1 ∧ (Q r.1 * Q y).natAbs ≤ (Q x).natAbs * 2 ^ 149 ∧ 0 ≤ Q r.1 * Q y * Q x ∧
            ∀ w, fin w → (Q w * Q y).natAbs ≤ (Q x).natAbs * 2 ^ 149 → (Q w).natAbs ≤ (Q r.1).natAbs) ∧
          (rm = .rn → r.2.getLsbD 2 = false → fin r.1 ∧ ∀ w, fin w → miss r.1 ≤ miss w)) ∧
        (∀ t, (fMinMax t x y).2 = 0 ∧ ((fMinMax t x y).1 = x ∨ (fMinMax t x y).1 = y) ∧
          (t = false → Q (fMinMax t x y).1 ≤ Q x ∧ Q (fMinMax t x y).1 ≤ Q y) ∧
          (t = true → Q x ≤ Q (fMinMax t x y).1 ∧ Q y ≤ Q (fMinMax t x y).1))) ∧
      (fin x → Q x < 0 → fSqrt rm x = (0x7FC00000#32, fNV)) ∧
      (fin x → 0 < Q x → let r := (fSqrt rm x).1
        fin r ∧ 0 < Q r ∧
          (rm = .rz ∨ rm = .rd → Q r * Q r ≤ Q x * 2 ^ 149 ∧ ∀ w, fin w → Q w * Q w ≤ Q x * 2 ^ 149 → Q w ≤ Q r) ∧
          (rm = .ru → Q x * 2 ^ 149 ≤ Q r * Q r ∧ ∀ w, fin w → 0 ≤ Q w → Q x * 2 ^ 149 ≤ Q w * Q w → Q r ≤ Q w)) ∧
      (nan x ∨ nan y → ∀ r ∈ [fAdd rm x y, fSub rm x y, fMul rm x y, fDiv rm x y, fMinMax false x y, fMinMax true x y],
        r.1 = 0x7FC00000#32) ∧
      (nan x → (fSqrt rm x).1 = 0x7FC00000#32))

/-- R149, R156, R159: the INT32 and bitwise instructions, lane by lane, and `vsel`. -/
def Obligations.VectorInteger : Prop :=
  ∀ (s : State) (u : VSlot) (g : Guard) (a b : Src) (mk : Fin 8), Issues s → me s < 256 → readsPass (mine s) [a, b] →
    let x := vVal u false s (me s) 0 a
    let y := vVal u false s (me s) 1 b
    let V (i : Instr) (lat : Nat) (r : BitVec 32 → BitVec 32 → BitVec 32) : Prop :=
      ∃ v, Deposits i s (vRing u) g v lat ∧
        ∀ j, j < 128 → lane v j = if (maskVal (mine s) mk).getLsbD j then r (lane x j) (lane y j) else lane x j
    V (.vaddI32 u g a b mk) 2 (· + ·) ∧ V (.vsubI32 u g a b mk) 2 (· - ·) ∧ V (.vmulI32 u g a b mk) 4 (· * ·) ∧
      V (.vminI32 u g a b mk) 2 (fun p q => if p.toInt ≤ q.toInt then p else q) ∧
      V (.vmaxI32 u g a b mk) 2 (fun p q => if p.toInt ≤ q.toInt then q else p) ∧
      V (.vand u g a b mk) 2 (· &&& ·) ∧ V (.vor u g a b mk) 2 (· ||| ·) ∧ V (.vxor u g a b mk) 2 (· ^^^ ·) ∧
      V (.vshl u g a b mk) 2 (fun p q => p <<< q.setWidth 5) ∧ V (.vshr u g a b mk) 2 (fun p q => p >>> q.setWidth 5) ∧
      V (.vsar u g a b mk) 2 (fun p q => p.sshiftRight' (q.setWidth 5)) ∧
      ∃ v, Deposits (.vsel u g a b mk) s (vRing u) g v 2 ∧
        ∀ j, j < 128 → lane v j = if (maskVal (mine s) mk).getLsbD j then lane x j else lane y j

/-- R150, R157, R158, R161: compares and mask logic write their mask, and `vmov` its register, latency 2; every
condition, on numbers and NaNs, signed and unsigned, and when it raises NV. R160: `vmu` writes its predicate where
the lanes of the care mask agree; a mixed mask is refused with fault 0x04 and the predicate's number. -/
def Obligations.VectorMasks : Prop :=
  (∀ (s : State) (u : VSlot) (g : Guard) (fc : FCond) (ic : ICond) (d : Fin 8) (e : Fin 32) (a b : Src) (m n : MaskOp),
    Issues s → me s < 256 → readsPass (mine s) [a, b] →
    let c := mine s
    let x := vVal u true s (me s) 0 a
    let y := vVal u true s (me s) 1 b
    let p := vVal u false s (me s) 0 a
    let q := vVal u false s (me s) 1 b
    let M (i : Instr) (v : BitVec 128) : Prop := Effects i s g (fun c => pending c (.mk d v) 2) .seq
    let B (o : MaskOp) : BitVec 128 := if o.inv then ~~~ maskVal c o.n else maskVal c o.n
    (∃ v f, Effects (.vcmpF32 u g fc d a b) s g (fun c => raising (pending c (.mk d v) 2) f 2) .seq ∧
      (∀ j, j < 128 → v.getLsbD j = (fCmp fc (lane x j) (lane y j)).1) ∧
      ∀ k, f.getLsbD k = true ↔ ∃ j, j < 128 ∧ (fCmp fc (lane x j) (lane y j)).2.getLsbD k = true) ∧
      (∃ v, M (.vcmpI32 u g ic d a b) v ∧ ∀ j, j < 128 → v.getLsbD j = iCmp ic (lane p j) (lane q j)) ∧
      M (.mand u g d m n) (B m &&& B n) ∧ M (.mor u g d m n) (B m ||| B n) ∧ M (.mxor u g d m n) (B m ^^^ B n) ∧
      M (.mandn u g d m n) (B m &&& ~~~ B n) ∧
      Effects (.vmov u g e a) s g (fun c => pending c (.v e p) 2) .seq) ∧
  (∀ (s : State) (u : VSlot) (g : Guard) (d : Fin 16) (mk care : Fin 8), Issues s → me s < 256 →
    let m := maskVal (mine s) mk &&& maskVal (mine s) care
    let P (v : Bool) : Prop := Effects (.vmu u g d mk care) s g (fun c => pending c (.p d v) 1) .seq
    (m = maskVal (mine s) care → P true) ∧ (m = 0 → m ≠ maskVal (mine s) care → P false) ∧
      (m ≠ 0 → m ≠ maskVal (mine s) care → holds (mine s) g = true →
        Traps (.vmu u g d mk care) s (2 ^ vSlotNo u) 0x04 (BitVec.ofNat 32 d.val))) ∧
  ∀ (x y : BitVec 32) (fc : FCond),
    let un := isNan32 x = true ∨ isNan32 y = true
    let v := units32
    ((fCmp .eq x y).1 = true ↔ ¬ un ∧ v x = v y) ∧ ((fCmp .ne x y).1 = true ↔ un ∨ v x ≠ v y) ∧
      ((fCmp .lt x y).1 = true ↔ ¬ un ∧ v x < v y) ∧ ((fCmp .le x y).1 = true ↔ ¬ un ∧ v x ≤ v y) ∧
      ((fCmp .gt x y).1 = true ↔ ¬ un ∧ v y < v x) ∧ ((fCmp .ge x y).1 = true ↔ ¬ un ∧ v y ≤ v x) ∧
      ((fCmp .un x y).1 = true ↔ un) ∧ ((fCmp .ord x y).1 = true ↔ ¬ un) ∧
      (fc ∈ [FCond.lt, .le, .gt, .ge] → (un → (fCmp fc x y).2 = fNV) ∧ (¬ un → (fCmp fc x y).2 = 0)) ∧
      (fc ∈ [FCond.eq, .ne, .un, .ord] → (fCmp fc x y).2 = if isSig32 x || isSig32 y then fNV else 0) ∧
      (iCmp .eq x y = true ↔ x = y) ∧ (iCmp .ne x y = true ↔ x ≠ y) ∧ (iCmp .lt x y = true ↔ x.toInt < y.toInt) ∧
      (iCmp .le x y = true ↔ x.toInt ≤ y.toInt) ∧ (iCmp .ltu x y = true ↔ x.toNat < y.toNat) ∧ (iCmp .leu x y = true ↔ x.toNat ≤ y.toNat)

/-- R163 to R165: conversions, permutes and slides. A conversion between equal integer formats copies. -/
def Obligations.VectorConvertPermute : Prop :=
  ∀ (s : State) (u : VSlot) (g : Guard) (src dst : Fmt) (sat rot : Bool) (a b : Src) (mk : Fin 8) (rm : Rm), Issues s →
    me s < 256 → readsPass (mine s) [a, b] →
    let c := mine s
    let on (j : Nat) : Prop := (maskVal c mk).getLsbD j = true
    let x := vVal u false s (me s) 0 a
    let y := vVal u false s (me s) 1 b
    let w := vVal u (src == .fp32) s (me s) 0 a
    let n : Int := ((vScalar u s (me s) 1 b).setWidth 8).toInt
    let cv (e : BitVec 32) : LaneRes :=
      if src = dst ∧ fmtInt src = true then (BitVec.ofNat 32 (e.toNat % 2 ^ fmtWidth src), 0)
      else (BitVec.ofNat 32 (cvt (elemVal src e.toNat) dst rm sat).val, (cvt (elemVal src e.toNat) dst rm sat).flags)
    (((src = .int4 ∨ dst = .int4) → c.feat.getLsbD 7 = true) →
      ∃ v f, VDeposits (.vcvt u g src dst sat a mk rm) s u g v f 3 ∧ LaneWise c mk w (fun j => cv (lane w j)) v f) ∧
    ((src = .int4 ∨ dst = .int4) → c.feat.getLsbD 7 = false →
      Traps (.vcvt u g src dst sat a mk rm) s (2 ^ vSlotNo u) 0x02 7) ∧
    (∃ v, Deposits (.vperm u g a b mk) s (vRing u) g v 4 ∧ ∀ j, j < 128 →
      (on j → lane v j = lane x ((lane y j).toNat % 128)) ∧ (¬ on j → lane v j = lane x j)) ∧
    ∃ v, Deposits (.vslide u g rot a b mk) s (vRing u) g v 4 ∧ ∀ j, j < 128 →
      (on j → 0 ≤ j + n → j + n < 128 → lane v j = lane x (j + n).toNat) ∧
      (on j → ¬ (0 ≤ j + n ∧ j + n < 128) → lane v j = if rot then lane x ((j + n) % 128).toNat else 0) ∧
      (¬ on j → lane v j = lane x j)

/-- R82, R166 to R169: vector loads and stores of the tile store: when and where each lane goes, and their refusals.
R166, R168: the vector that a load delivers when it reads: lane i its 4 bytes, little-endian, 0 in a lane that reads
none. -/
def Obligations.VectorTileAccess : Prop :=
  (∀ (s : State) (u : VSlot) (g : Guard) (masked : Bool) (t : Fin 64) (a b : Src), Issues s → me s < 256 →
    readsPass (mine s) [a, b] →
    let c := mine s
    let d := (c.t[t]).a
    let T (i : Instr) (k : Nat) (e : BitVec 32) : Prop := Traps i s (2 ^ vSlotNo u) k e
    let full := capDetail s (me s) t
    let x := (vScalar u s (me s) 0 a).toNat
    let o := vVal u false s (me s) 0 a
    let y := vVal u false s (me s) 1 b
    let on (j : Nat) : Bool := !masked || (maskVal c 7).getLsbD j
    let Ld (i : Instr) (lat : Nat) (p : Nat → Option Nat) : Prop := Completes i s fun c' _ =>
      Turns c c' (vRing u) g (result c 0 lat) ∧ { c' with rings := c.rings } =
        moved (if holds c g then
          pending c (.load (vRing u) ((ringOf c (vRing u)).ptr - 1) t ((List.range 128).map p) 4 false) 2 else c) .seq
    let St (i : Instr) (p : Nat → Nat) : Prop := Effects i s g (fun c => pending c (.store t
      (((List.range 128).filter on).flatMap fun j => at_ (p j) (toBytes 4 (lane y j).toNat))) 2) .seq
    tileBusy c t = false →
    (capFails s (me s) d = true → T (.vldt u g t a) 0x0A full ∧ (routineHolds c t = false → T (.vstt u g masked t a b) 0x0A full) ∧
      ((∃ j, j < 128 ∧ on j = true) → T (.vgath u g masked t a) 0x0A full ∧
        (routineHolds c t = false → T (.vscat u g masked t a b) 0x0A full))) ∧
    (capFails s (me s) d = false →
      (x < tRows d * 4096 → x % 512 = 0 → Ld (.vldt u g t a) 6 fun j => some (tileAddr d (x + 4 * j))) ∧
      (x < tRows d * 4096 → x % 512 = 0 → routineHolds c t = false →
        St (.vstt u g masked t a b) fun j => tileAddr d (x + 4 * j)) ∧
      (tRows d * 4096 ≤ x ∨ x % 512 ≠ 0 → T (.vldt u g t a) 0x07 0 ∧
        (routineHolds c t = false → T (.vstt u g masked t a b) 0x07 0)) ∧
      ((∀ j, j < 128 → on j = true → (lane o j).toNat % 4 = 0 ∧ (lane o j).toNat < tRows d * 4096) →
        Ld (.vgath u g masked t a) 8 (fun j => if on j then some (tileAddr d (lane o j).toNat) else none) ∧
        (routineHolds c t = false → St (.vscat u g masked t a b) fun j => tileAddr d (lane o j).toNat)) ∧
      ((∃ j, j < 128 ∧ on j = true ∧ ((lane o j).toNat % 4 ≠ 0 ∨ tRows d * 4096 ≤ (lane o j).toNat)) →
        T (.vgath u g masked t a) 0x07 0 ∧ (routineHolds c t = false → T (.vscat u g masked t a b) 0x07 0)))) ∧
  (∀ (fv : BitVec 32768) (c : Core) (u : VSlot) (l : Fin 8) (t : Fin 64) (p : Nat → Option Nat) (w b : Nat),
    (∀ j x i, j < 128 → i < 4 → p j = some x → tileUndef c (x + i) = false ∧ beingWritten c t.val (x + i) = false) →
    c.tPoison = [] →
    let act : Act := .load (vRing u) l t ((List.range 128).map p) 4 false
    let r := ringOf (applyRead fv c { when_ := w, by_ := b, act := act }) (vRing u)
    (latchAt r l).due = (latchAt (ringOf c (vRing u)) l).due ∧ r.ptr = (ringOf c (vRing u)).ptr ∧
      ∀ j, j < 128 → lane (latchAt r l).val j = match p j with
        | some x => BitVec.ofNat 32 (ofBytes ((List.range 4).map fun i => tileByte c (x + i)))
        | none => 0#32)

/-- R171 to R175: reductions fill every lane, a scan lane i from the lanes up to i; FP32 sums are one window step of
width 64, rounded once, with their flags; integer sums wrap; the greatest and least lane, a zero's sign told apart,
a NaN, and no lane at all; transcendental lanes: their special operands and their exact results. -/
def Obligations.VectorReduceTranscend : Prop :=
  (∀ (s : State) (u : VSlot) (g : Guard) (int : Bool) (a : Src) (mk : Fin 8) (rm : Rm), Issues s → me s < 256 →
    readsPass (mine s) [a] →
    let c := mine s
    let on (j : Nat) : Bool := (maskVal c mk).getLsbD j
    let x := vVal u (!int) s (me s) 0 a
    let y := vVal u true s (me s) 0 a
    let sum (p : Nat → Bool) : LaneRes :=
      if int then (((List.range 128).filter p).foldl (fun z j => z + lane x j) 0, 0)
      else sumLanes (((List.range 128).filter p).map fun j => fp (lane x j))
    let All (i : Instr) (r : LaneRes) : Prop := ∃ v, VDeposits i s u g v r.2 6 ∧ ∀ j, j < 128 → lane v j = r.1
    let T (i : Instr) (f : BitVec 32 → LaneRes) : Prop := ∃ v fl, VDeposits i s u g v fl 8 ∧ LaneWise c mk y (fun j => f (lane y j)) v fl
    All (.vredAdd u g int a mk) (sum on) ∧ All (.vredMax u g int a mk) (redMinMax true int on x) ∧
      All (.vredMin u g int a mk) (redMinMax false int on x) ∧
      (∃ v f, VDeposits (.vscanAdd u g int a mk) s u g v f 6 ∧
        (∀ j, j < 128 → lane v j = (sum fun i => on i && decide (i ≤ j)).1) ∧
        ∀ k, f.getLsbD k = true ↔ ∃ j, j < 128 ∧ (sum fun i => on i && decide (i ≤ j)).2.getLsbD k = true) ∧
      T (.vexp2 u g a mk rm) (fExp2 rm) ∧ T (.vlog2 u g a mk rm) (fLog2 rm) ∧ T (.vrcp u g a mk rm) (fRcp rm) ∧
      T (.vrsqrt u g a mk rm) (fRsqrt rm) ∧ T (.vtanh u g a mk rm) (fTanh rm)) ∧
  (sumLanes [] = (0, 0) ∧ ∀ l : List Ext, l ≠ [] →
    let v := wstep 64 l
    let r := cvt (if v.1.isNan then .nan false else v.1) .fp32 .rn false
    let z := sumLanes l
    z.1 = BitVec.ofNat 32 r.val ∧ (z.2.getLsbD 5 = true ↔ v.2 = true) ∧
      (z.2.getLsbD 4 = true ↔ .nan true ∈ l ∨ (.inf false ∈ l ∧ .inf true ∈ l)) ∧ z.2.getLsbD 3 = false ∧
      (z.2.getLsbD 2 = true ↔ r.flags.getLsbD 2 = true) ∧ (z.2.getLsbD 1 = true ↔ r.flags.getLsbD 1 = true) ∧
      (z.2.getLsbD 0 = true ↔ r.flags.getLsbD 0 = true ∨ v.2 = true)) ∧
  (∀ (mx : Bool) (p : Nat → Bool) (x : Vec),
    let on (j : Nat) : Prop := j < 128 ∧ p j = true
    let some' : Prop := ∃ j, on j
    let i := redMinMax mx true p x
    let r := redMinMax mx false p x
    (i.2 = 0 ∧ (¬ some' → i.1 = if mx then 0x80000000 else 0x7FFFFFFF) ∧ (some' → ∃ j, on j ∧ i.1 = lane x j) ∧
      ∀ j, on j → if mx then (lane x j).toInt ≤ i.1.toInt else i.1.toInt ≤ (lane x j).toInt) ∧
    ((∃ j, on j ∧ isNan32 (lane x j) = true) → r.1 = 0x7FC00000 ∧ (r.2 = fNV ∨ r.2 = 0) ∧
      (r.2 = fNV ↔ ∃ j, on j ∧ isSig32 (lane x j) = true)) ∧
    ((∀ j, on j → isNan32 (lane x j) = false) → r.2 = 0 ∧ (¬ some' → r.1 = if mx then 0xFF800000 else 0x7F800000) ∧
      (some' → ∃ j, on j ∧ r.1 = lane x j) ∧ ∀ j, on j →
        let y := lane x j
        if mx then units32 y ≤ units32 r.1 ∧ (units32 y = units32 r.1 → r.1.msb = true → y.msb = true)
        else units32 r.1 ≤ units32 y ∧ (units32 y = units32 r.1 → y.msb = true → r.1.msb = true))) ∧
  ∀ (rm : Rm) (a : BitVec 32),
    let inf (n : Bool) : BitVec 32 := if n then 0xFF800000 else 0x7F800000
    let zero (n : Bool) : BitVec 32 := if n then 0x80000000 else 0
    let one (n : Bool) : BitVec 32 := if n then 0xBF800000 else 0x3F800000
    let nan : BitVec 32 := 0x7FC00000
    (isNan32 a = true → ∀ f ∈ [fExp2 rm, fLog2 rm, fRcp rm, fRsqrt rm, fTanh rm], f a = (nan, if isSig32 a then fNV else 0)) ∧
    (∀ n, fExp2 rm (zero n) = (one false, 0) ∧ fLog2 rm (zero n) = (inf true, fDZ) ∧ fRcp rm (zero n) = (inf n, fDZ) ∧
      fRsqrt rm (zero n) = (inf n, fDZ) ∧ fTanh rm (zero n) = (zero n, 0) ∧ fRcp rm (inf n) = (zero n, 0) ∧ fTanh rm (inf n) = (one n, 0) ∧
      fRcp rm (one n) = (one n, 0)) ∧
    fExp2 rm (inf false) = (inf false, 0) ∧ fExp2 rm (inf true) = (0, 0) ∧ fLog2 rm (inf false) = (inf false, 0) ∧
    fRsqrt rm (inf false) = (0, 0) ∧ fLog2 rm (one false) = (0, 0) ∧ fRsqrt rm (one false) = (one false, 0) ∧
    (isNan32 a = false → units32 a < 0 → fLog2 rm a = (nan, fNV) ∧ fRsqrt rm a = (nan, fNV)) ∧
    (∀ n : Int, -149 ≤ n → n ≤ 127 → IsValue (fp a) n 0 → IsValue (fp (fExp2 rm a).1) 1 n ∧ (fExp2 rm a).2 = 0) ∧
    (isNan32 a = false → a ≠ inf false → 128 * 2 ^ 149 ≤ units32 a →
      fExp2 rm a = (if rm = .rn ∨ rm = .ru then 0x7F800000 else 0x7F7FFFFF, fOF ||| fNX)) ∧
    (∀ n : Int, IsValue (fp a) 1 n → IsValue (fp (fLog2 rm a).1) n 0 ∧ (fLog2 rm a).2 = 0) ∧
    (∀ s n : Int, s = 1 ∨ s = -1 → -127 ≤ n → n ≤ 127 → IsValue (fp a) s n → IsValue (fp (fRcp rm a).1) s (-n) ∧ (fRcp rm a).2 = 0) ∧
    (∀ n : Int, IsValue (fp a) 1 (2 * n) → IsValue (fp (fRsqrt rm a).1) 1 (-n) ∧ (fRsqrt rm a).2 = 0) ∧
    (units32 a ≠ 0 → -(2 ^ 23) < units32 a → units32 a < 2 ^ 23 → (fTanh rm a).2 = fNX ||| fUF)

/-- R52, R53, R176 to R178: quantising counts its blocks and dequantising scales its elements; a table without a
valid entry, or a table entry of 255 that a block names, is refused with fault 0x13, INT4 without its feature with
0x02 (R37). R52: the index of a block, of the valid entries that fit or else of all, its elements rounded and cut at
QMAX, and its block flags; that an infinity alone sets blocksat beside a fitting index is log 87. -/
def Obligations.QuantiseDequantise : Prop :=
  (∀ (s : State) (u : VSlot) (g : Guard) (f : Fmt) (col : Bool) (a : Src), Issues s → me s < 256 → readsPass (mine s) [a] →
    let c := mine s
    let tab := if col then c.mx.colT else c.mx.rowT
    let x := vVal u true s (me s) 0 a
    let y := vVal u false s (me s) 0 a
    let q := (List.range 4).map fun b => quant ((List.range 32).map fun i => fp (lane x (32 * b + i))) f tab
    let idx (b : Nat) : Nat := ((lane y 127).toNat / 16 ^ b) % 16
    let one (e : Nat) : LaneRes := deliver (scaleExt (elemVal f (quantElem f y e)) (tabEntry tab (idx (e / 32)))) .rn 0
    (f = .int4 → c.feat.getLsbD 7 = false → Traps (.vqnt u g f col a) s (2 ^ vSlotNo u) 0x02 7 ∧
      Traps (.vdqnt u g f col a) s (2 ^ vSlotNo u) 0x02 7) ∧
    ((f = .int4 → c.feat.getLsbD 7 = true) →
      (tabValid tab = true → Completes (.vqnt u g f col a) s fun c' _ =>
        let fl : Flags := if q.any (·.nv) then fNV else 0
        Turns c c' (vRing u) g (result c (packQuant f q) 6) ∧ { c' with rings := c.rings } = moved (if holds c g then
          pending (raising c fl 6) (.blocks (q.countP (·.sat)) (q.countP (·.zer))) 6 else c) .seq) ∧
      (tabValid tab = false → holds c g = true → Traps (.vqnt u g f col a) s (2 ^ vSlotNo u) 0x13 0) ∧
      ((∀ b, b < 4 → tabEntry tab (idx b) ≠ 255) → ∃ v fl, VDeposits (.vdqnt u g f col a) s u g v fl 6 ∧
        (∀ j, j < 128 → lane v j = (one j).1) ∧ ∀ k, fl.getLsbD k = true ↔ ∃ j, j < 128 ∧ (one j).2.getLsbD k = true) ∧
      (∀ b, b < 4 → tabEntry tab (idx b) = 255 → (∀ d, d < b → tabEntry tab (idx d) ≠ 255) → holds c g = true →
        Traps (.vdqnt u g f col a) s (2 ^ vSlotNo u) 0x13 (BitVec.ofNat 32 (idx b))))) ∧
  ∀ (f : Fmt) (tab : BitVec 128) (l : List (BitVec 32)), f ∈ [Fmt.e4m3, .e5m2, .e2m1, .int8, .int4] → tabValid tab = true →
    let Q := quant (l.map fp) f tab
    let T := tabEntry tab
    let fb : Nat := match f with | .e5m2 => 2 | .e4m3 => 3 | _ => 1
    let emin : Int := match f with | .e5m2 => -14 | .e4m3 => -6 | _ => 0
    let int : Prop := f = .int8 ∨ f = .int4
    let qmax : Nat × Int := match f with | .e4m3 => (7, 6) | .e5m2 => (7, 13) | .e2m1 => (3, 1) | .int8 => (127, 0) | _ => (7, 0)
    let Rounds (m : Nat) (e : Int) (k : Nat) (q : Int) : Prop := k = (roundAt .rn false m e q).1 ∧
      (int → q = 0) ∧ (¬ int → m ≠ 0 → q = max ((Nat.log2 m : Int) + e - fb) (emin - fb))
    let isInf (x : BitVec 32) : Prop := x = 0x7F800000 ∨ x = 0xFF800000
    ∃ (A : Nat) (a : Int), (A = 0 ∨ ∃ x ∈ l, ∃ s, fp x = .num s A a) ∧ (∀ x ∈ l, ∀ s m e, fp x = .num s m e → MagLe m e A a) ∧
      let valid (j : Nat) : Prop := j < 16 ∧ T j ≠ 255
      let fits (j : Nat) : Prop := ∀ k q, Rounds A (a + 127 - T j) k q → MagLe k q qmax.1 qmax.2
      let none' : Prop := ∀ j, valid j → ¬ fits j
      valid Q.idx ∧ Q.q.length = l.length ∧
      (¬ none' → fits Q.idx ∧ (∀ j, valid j → fits j → T Q.idx < T j ∨ (T Q.idx = T j ∧ Q.idx ≤ j)) ∧ (Q.sat = true ↔ ∃ x ∈ l, isInf x)) ∧
      (none' → (∀ j, valid j → T j < T Q.idx ∨ (T j = T Q.idx ∧ Q.idx ≤ j)) ∧ Q.sat = true) ∧
      (∀ i, (h : i < l.length) → (h' : i < Q.q.length) →
        let y := Q.q[i]
        y < 2 ^ fmtWidth f ∧ (isNan32 l[i] = true → y = if f = .e4m3 then 0x7F else if f = .e5m2 then 0x7E else 0) ∧
        (isInf l[i] → IsValue (elemVal f y) (if l[i].msb then -(qmax.1 : Int) else qmax.1) qmax.2) ∧
        ∀ s m e k q, fp l[i] = .num s m e → Rounds m (e + 127 - T Q.idx) k q →
          (k = 0 → y = 0) ∧ (k ≠ 0 → MagLe k q qmax.1 qmax.2 → IsValue (elemVal f y) (if s then -(k : Int) else k) q) ∧
            (¬ MagLe k q qmax.1 qmax.2 → IsValue (elemVal f y) (if s then -(qmax.1 : Int) else qmax.1) qmax.2)) ∧
      (Q.zer = true ↔ A ≠ 0 ∧ ∀ y ∈ Q.q, y = 0) ∧
      (Q.nv = true ↔ (∃ x ∈ l, isNan32 x = true) ∧ f ≠ .e4m3 ∧ f ≠ .e5m2)

/-! ### Slots 3 and 7, and the matrix unit -/

/-- R197, R200, R210, R211: `mcall` starts the routine of its entry with its snapshot and a new sequence number, its
result tiles Writing, and deposits ROUTINE and SEQ on the m ring. A held cause, which the trap releases, a window
code of 7 or a tile past CAPROWS refuses it; it waits for a running routine. -/
def Obligations.MatrixCall : Prop :=
  ∀ (s : State) (g : Guard) (i : Fin 64), Issues s → me s < 256 →
    let c := mine s
    let e := calledEntry c i
    let seq := (mSeq c + 1) % 2 ^ 32
    (c.mx.run.isSome = true → holds c g = true → Stalls (.mcall g i) s false) ∧
    (c.mx.run = none → ucodeBusy c = false → (∀ d ∈ declared e c.mp[0], tileBusy c (BitVec.ofNat 6 d.2.1).toFin = false) →
      let tile (d : Nat × Nat × Nat) : BitVec 64 := (c.t.toList.getD d.2.1 TileReg.zero).a
      let past (d : Nat × Nat × Nat) : Prop := tRows (tile d) ≠ 0 ∧ capRows s (me s) < tBase (tile d) + tRows (tile d)
      (∀ d ∈ declared e c.mp[0], d.2.2 = 1 ∨ d.2.2 = 2 → tRows (tile d) = 0 ∨ tFactors (tile d) = false ∨ tElems (tile d) % 32 = 0) →
      (∀ l d r, declared e c.mp[0] = l ++ d :: r → past d → (∀ y ∈ l, ¬ past y) → mHeld c = false →
        Traps (.mcall g i) s 8 0x0A (BitVec.ofNat 32 (d.2.1 % 64 + capRows s (me s) * 65536))) ∧
      ((∀ d ∈ declared e c.mp[0], ¬ past d) →
      (mHeld c = true → mCause c = 0x01 ∨ mCause c = 0x07 ∨ (mCause c = 0x13 ∧ holds c g = true) →
        exec (.mcall g i) s = .next (takeTrap (setCore s (me s) { setStatus c 28 28 0 with walked := [] }) (me s) 8
          (mCause c) c.mx.heldDet)) ∧
      (mHeld c = false → fld c.mx.cfg 23 21 ≠ 7 → Completes (.mcall g i) s fun c' _ =>
        Turns c c' .m g (result c (BitVec.ofNat 4096 (i.val * 2 ^ 32 + seq)) 1) ∧
          { c' with rings := c.rings } = moved (if holds c g then startRoutine c i e else c) .seq) ∧
      (mHeld c = false → fld c.mx.cfg 23 21 = 7 → holds c g = true → Traps (.mcall g i) s 8 0x14 0))) ∧
    (let k := startRoutine c i e
     mSeq k = seq ∧ mState k = 1 ∧ mHeld k = false ∧
      ∃ r, k.mx.run = some r ∧ r.cfg = c.mx.cfg ∧ r.rowT = c.mx.rowT ∧ r.colT = c.mx.colT ∧ r.mp = c.mp ∧
        r.upc = e.extractLsb' 48 12 ∧ r.ci = 0xFFFF ∧ r.alpha = 0x3F800000 ∧ r.beta = 0 ∧ r.gamma = 0 ∧
        r.win = c.mx.cfg.extractLsb' 21 3 ∧ r.start = c.cyc + 1 ∧
        ∀ t : Fin 64, t.val ∈ resultTiles r → c.t[t].st ≠ .free → k.t[t].st = .writing)

/-- R198, R200, R201, R203: `mpset` writes a parameter, `mstat` deposits the status, `mabort` marks the running
routine or clears HELD, `mwait` waits for its call, and raises the held cause, which is then released. -/
def Obligations.MatrixSlot : Prop :=
  ∀ (s : State) (g : Guard) (m : Fin 8) (a : Src), Issues s → me s < 256 → readsPass (mine s) [a] →
    let c := mine s
    let x := sVal s (me s) 3 0 a
    let mine' := x.toNat % 2 ^ 32 = mSeq c
    Effects (.mpset g m a) s g (fun c => pending c (.mp m x) 1) .seq ∧
      Deposits (.mstat g) s .m g (c.mx.status.setWidth 4096) 1 ∧
      (∀ r, c.mx.run = some r → Effects (.mabort g) s g (fun c => modRun c fun r => { r with abort := true }) .seq) ∧
      (c.mx.run = none → Effects (.mabort g) s g (fun c => setStatus c 28 28 0) .seq) ∧
      (¬ mine' ∨ (c.mx.run = none ∧ mHeld c = false) → Effects (.mwait g a) s g id .seq) ∧
      (mine' → c.mx.run.isSome = true → holds c g = true → Stalls (.mwait g a) s false) ∧
      (mine' → c.mx.run = none → mHeld c = true → mCause c = 0x01 ∨ mCause c = 0x07 →
        exec (.mwait g a) s = .next (takeTrap (setCore s (me s) { setStatus c 28 28 0 with walked := [] }) (me s) 8
          (mCause c) c.mx.heldDet))

/-- R204: `mlucode` and `mlucode.ent` read 64 bytes a cycle from cycle c + 1 on, block j in cycle c + 1 + j; their
checks. That R204's reads take those cycles, and that the plane stored is the one of the issue cycle, is log 16.
R205: `mlsf` deposits which of 64 rows hold a lost-significance flag, latency 2; `mlsf.t` also stores the flag
plane, its register Writing meanwhile. -/
def Obligations.MicrocodeStores : Prop :=
  (∀ (s : State) (g : Guard) (t : Fin 64) (a b : Src), Issues s → me s < 256 → readsPass (mine s) [a, b] →
    let c := mine s
    let first := (sVal s (me s) 3 0 a).toNat
    let n := (sVal s (me s) 3 1 b).toNat
    let d := (c.t[t]).a
    let k := (n + 7) / 8
    let L (i : Instr) (ent : Bool) (size : Nat) : Prop :=
      (c.feat.getLsbD 4 = false → Traps i s 8 0x02 4) ∧
      (c.feat.getLsbD 4 = true → capFails s (me s) d = false →
        (n = 0 ∨ size < first + n ∨ tRows d * 4096 < 8 * n → Traps i s 8 0x07 0) ∧
        (0 < n → first + n ≤ size → 8 * n ≤ tRows d * 4096 → Effects i s g (fun c =>
          let c' := (List.range k).foldl (fun c j =>
            pending c (.uload ent t (tileAddr d (64 * j)) (first + 8 * j) (min 8 (n - 8 * j))) (j + 2)) c
          { c' with mx := { c'.mx with ucodeEnd := c.cyc + k } }) .seq))
    c.mx.run = none → ucodeBusy c = false → tileBusy c t = false →
      L (.mlucode g t a b) false 4096 ∧ L (.mlucodeEnt g t a b) true 64) ∧
  (∀ (s : State) (g : Guard) (half : Bool) (t : Fin 64) (a : Src), Issues s → me s < 256 → readsPass (mine s) [a] →
    let c := mine s
    let x := (sVal s (me s) 3 0 a).toNat
    let d := (c.t[t]).a
    c.mx.run = none → ∃ v : BitVec 64, Deposits (.mlsf g half) s .m g (v.setWidth 4096) 2 ∧
      (∀ k, k < 64 → (v.getLsbD k = true ↔ lsRow c.mx (64 * half.toNat + k) ≠ 0)) ∧
      (tileBusy c t = false → capFails s (me s) d = false →
        (tRows d * 4096 < x + 2048 ∨ x % 512 ≠ 0 → Traps (.mlsfT g half t a) s 8 0x07 0) ∧
        (x + 2048 ≤ tRows d * 4096 → x % 512 = 0 → Completes (.mlsfT g half t a) s fun c' _ =>
          Turns c c' .m g (result c (v.setWidth 4096) 2) ∧ { c' with rings := c.rings } = moved (if holds c g then
            let y := openRun t.val c (tileAddr d x) 2048
            pending { y with t := c.t.set t { c.t[t] with st := .writing } } (.lsf t (at_ (tileAddr d x)
              ((List.range 128).flatMap fun i => toBytes 16 (lsRow c.mx i).toNat))) 5 else c) .seq)))

/-- R190 to R194: the K ops have no guard; `kst` and `kcfg` replace an entry or the configuration at the end of
cycle c + 2 and leave the value replaced on the k ring; `klds` reads 16 bytes of the tile store. R190, R193, R194,
R198: what these writes leave when they land. -/
def Obligations.ScaleAndMatrixWrites : Prop :=
  (∀ (s : State) (col : Bool) (i : Fin 16) (a : Src) (w : Fin 8) (row fcol : Fmt) (sat : Bool) (t : Fin 64), Issues s →
    me s < 256 → readsPass (mine s) [a] →
    let c := mine s
    let x := sVal s (me s) 7 0 a
    let d := (c.t[t]).a
    let p := (ringOf c .k).ptr - 1
    let K (j : Instr) (act : Act) : Prop := Completes j s fun c' _ =>
      Turns c c' .k always (result c 0 3) ∧ { c' with rings := c.rings } = moved (pending c act 3) .seq
    holds c always = true ∧ K (.kst col i a) (.entry col i (x.setWidth 8) p) ∧
      (∃ v : BitVec 24, K (.kcfg w row fcol sat) (.cfg v p) ∧ v.extractLsb' 21 3 = BitVec.ofNat 3 w.val ∧
        v.extractLsb' 18 3 = encodeFmt row ∧ v.extractLsb' 15 3 = encodeFmt fcol ∧ v.getLsbD 14 = sat ∧
        v.extractLsb' 0 14 = 0) ∧
      (tileBusy c t = false → capFails s (me s) d = false →
        (x.toNat < tRows d * 4096 → x.toNat % 16 = 0 → Completes (.klds col t a) s fun c' _ =>
          c' = moved (pending c (.tload col t (tileAddr d x.toNat) (c.cyc + 5)) 2) .seq) ∧
        (tRows d * 4096 ≤ x.toNat ∨ x.toNat % 16 ≠ 0 → Traps (.klds col t a) s 128 0x07 0))) ∧
  (∀ (c : Core) (col : Bool) (i : Fin 16) (v : BitVec 8) (l : Fin 8) (f : BitVec 24) (tab : BitVec 128) (m : Fin 8)
      (x : BitVec 64) (w b : Nat) (fv : BitVec 32768),
    let T (c : Core) (col : Bool) : BitVec 128 := if col then c.mx.colT else c.mx.rowT
    let E := applyWrite fv c { when_ := w, by_ := b, act := .entry col i v l }
    let F := applyWrite fv c { when_ := w, by_ := b, act := .cfg f l }
    let G := applyWrite fv c { when_ := w, by_ := b, act := .table col tab }
    let H := applyWrite fv c { when_ := w, by_ := b, act := .mp m x }
    (∀ j, j < 16 → tabEntry (T E col) j = if j = i.val then v.toNat else tabEntry (T c col) j) ∧ T E (!col) = T c (!col) ∧
      (latchAt (ringOf E .k) l).val = BitVec.ofNat 4096 (tabEntry (T c col) i.val) ∧
      F.mx.cfg = f ∧ (latchAt (ringOf F .k) l).val = c.mx.cfg.setWidth 4096 ∧
      T G col = tab ∧ T G (!col) = T c (!col) ∧ H.mp[m] = x ∧ ∀ k : Fin 8, k ≠ m → H.mp[k] = c.mp[k])

/-- R184 to R188: what the array operations leave in each cell. LS is cleared with the first step of a pass (log
93). -/
def Obligations.ArrayCells : Prop :=
  ∀ (c : Core) (fv : BitVec 32768) (d e p : Fin 4) (al be ga : BitVec 32) (sat fresh : Bool) (rf cf : Fmt) (w n : Nat)
      (rT cT : BitVec 128) (sc : List (List Nat) × List (List Nat)) (a b : Side) (i j : Nat), i < 128 → j < 128 →
    let acc := accImg (accRow c.mx i) j
    let P := passStep c rf cf w (passFeed c fv rf cf rT cT sc a b n) fresh
    let g := stepG rf cf
    let terms := ((sideVals c fv rT sc.1 false a i (n * g) g).zip (sideVals c fv cT sc.2 true b j (n * g) g)).map fun x => prodExt rf cf x.1 x.2
    let t := wstep w (if fresh then terms else xaVal acc :: terms)
    planeElem (ident c d.val).mx p.val i j = (if p = d then
        (if i = j then BitVec.ofNat 32 (cvt (.num false 1 0) (planeFmt c.mx d.val) .rn false).val else 0)
      else planeElem c.mx p.val i j) ∧
    planeElem (promote c d.val e.val al be ga sat).mx p.val i j = (if p = d then
        BitVec.ofNat 32 (cvt (promExact (fp al) (fp be) (fp ga) (xaVal acc)
          (elemVal (planeFmt c.mx e.val) (planeElem c.mx e.val i j).toNat) (i == j)) (planeFmt c.mx d.val) .rn sat).val
      else planeElem c.mx p.val i j) ∧
    accImg (accRow P.mx i) j = xaOf t.1 ∧
    (lsRow P.mx i).getLsbD j = (t.2 || (!fresh && (lsRow c.mx i).getLsbD j)) ∧ P.mx.planes = c.mx.planes

/-- R186 to R188, R214 to R218: CLRA, IDPL, PROM, LDPL, STPL and DRAIN of a running routine. R182 to R185, R217,
R218: PASS makes its checks and reads its scale indices before its first step and then sums its k-groups in order;
what it reads of a poisoned granule it consumes (R389). R223 to R225, R391: a promotion that mismatches changes no
cell; it is executed again, or, its retries used up, the routine halts with cause 0x0D pending; a re-execution is
counted once it is made. The idx of a level that is not active, which PASS and PROM take, is log 79. That a PASS
which fails in its setup leaves its progress, and that indices are read anew after an image or a write of the
window, is log 93. -/
def Obligations.MicroArray : Prop :=
  (∀ (s : State) (r : Routine) (d e : Fin 4) (dg tr : Bool) (lvA lvB : Fin 4) (td : TileDesc),
    (mine s).mx.run = some r → r.phase = 0 → r.abort = false → r.halted = false → r.mism = 0 → r.tries = 0 → r.owe = 0 → r.feed = none → r.scales = none → r.upc.toNat < 0xFFF →
    let c := mine s
    let up := r.upc.toNat + 1
    let o := operandOf c r td
    let role := roleOf r td.field.val
    Carries .clra s up (fun c => { c with mx := { c.mx with acc := [], ls := [] } }) ∧ Carries (.idpl d) s up (fun c => ident c d.val) ∧
      Carries (.prom d e dg lvA lvB) s up (fun c =>
        promote c d.val e.val r.alpha (if dg = true ∧ r.loops[lvA].idx ≠ r.loops[lvB].idx then 0 else r.beta) r.gamma (satOf r)) ∧
      (1 ≤ role → role ≤ 4 → o.isFree = true ∨
          (isPlaneFmt o.format = true ∧ o.isScaled = false ∧ o.rows ≤ 128 ∧ o.elems ≤ 128) →
        Carries (.ldpl d tr td) s up fun c => planeLoad (consumeOperand c o (dataMeets o 0 128)) (freeVal s 4005 32768) d.val tr o) ∧
      (role = 4 → o.isFree = true ∨ (o.format = planeFmt c.mx d.val ∧ o.isScaled = false) →
        Carries (.stpl d td) s up fun c => planeStore (freeVal s 4005 32768) c d.val o) ∧
      (role = 4 → o.isFree = true ∨ (o.format ≠ .int4 ∧ o.format ≠ .int32 ∧ o.isScaled = false) →
        Carries (.drain td) s up fun c => drainTo (freeVal s 4005 32768) c o (satOf r)) ∧
      (role ≠ 4 → Ends (.stpl d td) s (fun c => failRoutine c 0x01 r.upc.toNat 0) ∧
        Ends (.drain td) s fun c => failRoutine c 0x01 r.upc.toNat 0)) ∧
  (∀ (s : State) (r : Routine) (keep kf : Bool) (a b : PassSrc) (lv : Fin 4),
    (mine s).mx.run = some r → r.phase = 0 → r.abort = false → r.halted = false → r.mism = 0 → r.tries = 0 → r.owe = 0 → r.feed = none → r.scales = none → r.upc.toNat < 0xFFF → sideFits r 1 a = true → sideFits r 2 b = true →
    let c := mine s
    let fv := freeVal s 4005 32768
    let A := sideOf c r a
    let B := sideOf c r b
    let g := stepG (rowFmt r) (colFmt r)
    let steps := passK A B / g
    let sc := (sideScales c fv A, sideScales c fv B)
    let Q (c : Core) : Core := consumeScales (consumeScales c A) B
    let D (c : Core) (n : Nat) : Core := consumeData (n * g) g (consumeData (n * g) g c A) B
    let i := Instr.passMicroOp keep a b kf lv
    (passSetupFails c r a b = true → Ends i s fun c => failRoutine c 0x01 r.upc.toNat 0) ∧
      (passSetupFails c r a b = false → passBadScale fv c r a b = true → Ends i s fun c => failRoutine (Q c) 0x13 r.upc.toNat 0) ∧
      (passSetupFails c r a b = false → passBadScale fv c r a b = false → 0 < steps →
        Carries i s (r.upc.toNat + 1) fun c =>
          let c' := (List.range steps).foldl (fun c n =>
            passStep (D c n) (rowFmt r) (colFmt r) (windowOf r.win.toNat)
              (passFeed (D c n) fv (rowFmt r) (colFmt r) r.rowT r.colT sc A B n)
              (n = 0 && !(keep || (kf && r.loops[lv].idx != 0)))) (Q c)
          { c' with mx := { c'.mx with progress := progressOf r.upc.toNat steps 0 } })) ∧
  (∀ (c : Core) (fv : BitVec 32768) (r : Routine) (d e : Fin 4) (dg : Bool) (lvA lvB : Fin 4),
    c.mx.run = some r → r.phase = 3 → r.halted = false → r.mism ≠ 0 → r.owe = 0 → r.upc.toNat < 0xFFF →
    let t := microTick (microProm d e dg lvA lvB) fv c
    let counted := c.mx.reruns + if r.tries = 0 then 0 else 1
    (r.tries < fld r.entry 62 60 → t = { c with mx := { c.mx with
      reruns := counted, run := some { r with phase := 0, tries := r.tries + 1, mism := r.mism - 1 } } }) ∧
    (fld r.entry 62 60 ≤ r.tries → (∃ x ∈ t.causes, x.code = 0x0D) ∧
      t.mx = { c.mx with reruns := counted, run := some { r with phase := 0, tries := 0, mism := 0, feed := none, halted := true } }))

/-- R199, R214, R216 to R219: the control micro-operations of a running routine. What idx an inactive level gives to
RPRC is log 79. That a COEF which fails leaves CI is log 93. -/
def Obligations.MicroControl : Prop :=
  ∀ (s : State) (r : Routine) (n p : Fin 4) (par rst : Bool) (reg cond w f : Fin 8) (field : Fin 16) (stop code : BitVec 12)
      (count : BitVec 32) (off : BitVec 16),
    (mine s).mx.run = some r → r.phase = 0 → r.abort = false → r.halted = false → r.mism = 0 → r.tries = 0 → r.owe = 0 → r.feed = none → r.scales = none → r.upc.toNat < 0xFFF → stop.toNat < 0xFFF →
    let c := mine s
    let up := r.upc.toNat + 1
    let fail (k code : Nat) (c : Core) : Core := failRoutine c k r.upc.toNat code
    let cnt : BitVec 32 := if par then r.mp[reg].setWidth 32 else count
    let l := r.loops[n]
    let d := (fieldOperand c r field).a
    let t := (fieldOperand c r field).t
    let ci := if rst then 0 else r.ci + 1
    let word (k : Nat) : BitVec 32 := BitVec.ofNat 32 (tileNat c t (freeVal s 4005 32768) (tileAddr d (16 * ci.toNat) + 4 * k) 4)
    Carries (.loop n par reg stop count) s (if cnt = 0 then stop.toNat + 1 else up)
        (fun c => modRun c fun r => { r with loops := r.loops.set n { active := cnt != 0, count := cnt, idx := 0, top := r.upc + 1, stop := stop } }) ∧
      (l.active = true → Carries (.endl n) s (if l.idx + 1 < l.count then l.top.toNat else up)
        fun c => modRun c fun r => { r with loops := r.loops.set n { l with idx := l.idx + 1, active := l.idx + 1 < l.count } }) ∧
      (l.active = false → Ends (.endl n) s (fail 0x01 0)) ∧
      (cond ≠ 7 → Carries (.brf cond reg stop) s (if brfHolds c r cond reg then stop.toNat else up) id) ∧
      Ends (.brf 7 reg stop) s (fail 0x01 0) ∧
      (w ≠ 7 → Carries (.setw w) s up fun c => modRun c fun r => { r with win := BitVec.ofNat 3 w.val }) ∧
      Ends (.setw 7) s (fail 0x01 0) ∧
      (f.val ≤ 4 → Carries (.setf p f) s up fun c => { c with mx := { c.mx with pf := c.mx.pf.set p (BitVec.ofNat 3 f.val) } }) ∧
      Ends (.setf p 5) s (fail 0x01 0) ∧ Ends (.setf p 6) s (fail 0x01 0) ∧
      (fmtInt (rowFmt r) = false →
        Carries (.setf p 7) s up fun c => { c with mx := { c.mx with pf := c.mx.pf.set p (encodeFmt (rowFmt r)) } }) ∧
      (fmtInt (rowFmt r) = true → Ends (.setf p 7) s (fail 0x01 0)) ∧
      Ends (.trapm code) s (fail 0x01 code.toNat) ∧ Ends .done s (fun c => endRoutine c 2) ∧
      (1 ≤ roleOf r field.val → roleOf r field.val ≤ 4 → 16 * ci.toNat + 16 ≤ tRows d * 4096 →
        Carries (.coef rst field) s up fun c => modRun (if poisonIn c (tileAddr d (16 * ci.toNat)) 12 then consume c 0 else c)
          fun r => { r with ci := ci, alpha := word 0, beta := word 1, gamma := word 2 }) ∧
      (1 ≤ roleOf r field.val → roleOf r field.val ≤ 4 → tRows d * 4096 < 16 * ci.toNat + 16 →
        Ends (.coef rst field) s (fail 0x07 0)) ∧
      (roleOf r field.val = 4 → 32 * off.toNat + 32 ≤ tRows d * 4096 → Carries (.rprc field off) s up fun c =>
        tileStore t (freeVal s 4005 32768) c (tileAddr d (32 * off.toNat)) 32 (c.mx.progress.toNat + r.ci.toNat * 2 ^ 64 +
          packN 32 (fun i => (r.loops.toList.getD i ⟨false, 0, 0, 0, 0⟩).idx.toNat) 4 * 2 ^ 128)) ∧
      (roleOf r field.val = 4 → tRows d * 4096 < 32 * off.toNat + 32 → Ends (.rprc field off) s (fail 0x07 0))

/-! ### Slots 4 and 5 -/

/-- R233, R349: `tdef` writes a descriptor, or frees its register; its refusals. `hclr` makes a handle Invalid,
`hclr.pn` clears pennants, `hstat` deposits a word of a handle. R233, R228: what `tdefBad` refuses of a descriptor
of a compute core. -/
def Obligations.TileAndHandleWrites : Prop :=
  (∀ (s : State) (u : CSlot) (g : Guard) (t : Fin 64) (h : Fin 16) (a b : Src), Issues s → readsPass (mine s) [a, b] →
    let c := mine s
    let x := cVal u s (me s) 0 a
    let y := cVal u s (me s) 1 b
    let T (k : Nat) (d : BitVec 32) : Prop := Traps (.tdef u g t a b) s (2 ^ cSlotNo u) k d
    (tileBusy c t = false → routineHolds c t = false →
      (x = 0 ∧ y = 0 ∨ (tdefBad (me s) x y = false ∧ (tFmt x = .int4 → c.feat.getLsbD 7 = true) ∧ capFails s (me s) x = false) →
        Effects (.tdef u g t a b) s g (fun c => pending c (.tdef t x y) 1) .seq) ∧
      (x ≠ 0 ∨ y ≠ 0 → tdefBad (me s) x y = true → T 0x01 0) ∧
      (x ≠ 0 ∨ y ≠ 0 → tdefBad (me s) x y = false → tFmt x = .int4 → c.feat.getLsbD 7 = false → T 0x02 7) ∧
      (x ≠ 0 ∨ y ≠ 0 → tdefBad (me s) x y = false → tFmt x ≠ .int4 → capFails s (me s) x = true → T 0x0A (capDetail s (me s) t))) ∧
    (tileBusy c t = true → holds c g = true → Stalls (.tdef u g t a b) s false) ∧
    Effects (.hclr u g h) s g (fun c => pending c (.hnd h Handle.zero) 1) .seq ∧
    Effects (.hclrPn u g a) s g (fun c => { c with pn := c.pn &&& ~~~ x }) .seq ∧
    Deposits (.hstat u g false h) s (cRing u) g ((c.h[h]).w0.setWidth 4096) 1 ∧
    Deposits (.hstat u g true h) s (cRing u) g ((c.h[h]).w1.setWidth 4096) 1) ∧
  (∀ (n : Nat) (a b : BitVec 64), n < 256 → tdefBad n a b = false →
    a.extractLsb' 54 10 = 0 ∧ b.extractLsb' 44 20 = 0 ∧ 0 < tRows a ∧ tBase a + tRows a ≤ 2048 ∧ 0 < tErows a ∧
      0 < tElems a ∧ tElems a * fmtWidth (tFmt a) % 32 = 0 ∧
      (tScaled a = true → tElems a % 32 = 0 ∧ tFmt a ≠ .fp32 ∧ tFmt a ≠ .bf16 ∧ tFmt a ≠ .int32) ∧
      (tScaled a = true → tErows a * tP a ≤ tScoff b * 4096 ∧ tScoff b * 4096 + tErows a * tSP a ≤ tRows a * 4096) ∧
      (tScaled a = false → tScoff b = 0 ∧ tErows a * tP a ≤ tRows a * 4096) ∧
      tStride b % 4 = 0 ∧ (tStride b = 0 ∨ tMB a ≤ tStride b))

/-- R237, R245: `waitc` and `waitf` hold their word until their condition is met; `waitf` deposits the pennants, and
with `.clr` clears those of its mask. -/
def Obligations.Waits : Prop :=
  ∀ (s : State) (u : CSlot) (g : Guard) (k : WaitKind) (any clr : Bool) (a b : Src), Issues s → readsPass (mine s) [a, b] →
    let c := mine s
    let m := cVal u s (me s) 0 a
    let bound := (cVal u s (me s) 1 b).toNat
    let full := ∃ cl : Fin 16, m.getLsbD cl.val = true ∧
      ((k ≠ .st ∧ bound < (c.ldcnt[cl]).toNat) ∨ (k ≠ .ld ∧ bound < (c.stcnt[cl]).toNat))
    let met := m = 0 ∨ if any then c.pn &&& m ≠ 0 else c.pn &&& m = m
    (¬ full → Effects (.waitc u g k a b) s g id .seq) ∧
      (full → holds c g = true → Stalls (.waitc u g k a b) s false) ∧
      (met → Completes (.waitf u g any clr a) s fun c' _ =>
        Turns c c' (cRing u) g (result c (c.pn.setWidth 4096) 1) ∧ { c' with rings := c.rings } =
          moved (if holds c g ∧ clr = true then { c with pn := c.pn &&& ~~~ m } else c) .seq) ∧
      (¬ met → holds c g = true → Stalls (.waitf u g any clr a) s false)

/-- R234, R239, R240: `tld` and `tst` join the queue with their descriptor, handle and class, their register Loading
or Storing, the class's count raised by their lines; their refusals. R8, R342: a store that meets a page table,
whose fields are RW-F, is refused with fault 0x03 below the management core (log 83). R234, R239: the count a tile
copy raises is the number of its line requests, one for each line that an element row meets. -/
def Obligations.TileCopies : Prop :=
  (∀ (s : State) (u : CSlot) (g : Guard) (t : Fin 64) (h cl : Fin 16) (a : Src), Issues s → readsPass (mine s) [a] →
    let c := mine s
    let d := c.t[t]
    let x := c.h[h]
    let off := (cVal u s (me s) 0 a).toNat
    let m := 2 ^ cSlotNo u
    let det := BitVec.ofNat 32 h.val
    tileBusy c t = false → routineHolds c t = false → c.copies.length < 32 → capFails s (me s) d.a = false →
    tRows d.a ≠ 0 → hPresent x = true →
      (off % 4 = 0 → copyExtent off d.a d.b ≤ hSize x →
        (hRead x = true → Performs (.tld u g t h cl a) s g none fun s' =>
          modCore (enqueue s' (me s) (.tld t) (some cl) d.a d.b x off none 0 true) (me s) fun c =>
            addCounts (startLoading c t) cl (lineCount off d.a d.b) 0) ∧
        (hRead x = false → Traps (.tld u g t h cl a) s m 0x08 det) ∧
        (hWrite x = true → tErows d.a ≤ 1 ∨ tStride d.b ≠ 0 → tableFails s (me s) x (outSpans off d.a d.b) = true →
          Traps (.tst u g t h cl a) s m 0x03 0) ∧
        (hWrite x = true → tErows d.a ≤ 1 ∨ tStride d.b ≠ 0 → tableFails s (me s) x (outSpans off d.a d.b) = false →
          Performs (.tst u g t h cl a) s g none fun s' =>
          modCore (enqueue s' (me s) (.tst t) (some cl) d.a d.b x off none 0 true) (me s) fun c =>
            addCounts (startStoring c t) cl 0 (lineCount off d.a d.b)) ∧
        (hWrite x = false → tErows d.a ≤ 1 ∨ tStride d.b ≠ 0 → tableFails s (me s) x (outSpans off d.a d.b) = false →
          Traps (.tst u g t h cl a) s m 0x08 det) ∧
        (1 < tErows d.a → tStride d.b = 0 → Traps (.tst u g t h cl a) s m 0x01 0)) ∧
      (off % 4 ≠ 0 ∨ hSize x < copyExtent off d.a d.b →
        Traps (.tld u g t h cl a) s m 0x07 det ∧
          (tErows d.a ≤ 1 ∨ tStride d.b ≠ 0 → tableFails s (me s) x (outSpans off d.a d.b) = false →
            Traps (.tst u g t h cl a) s m 0x07 det))) ∧
  (∀ k : Copy, lineCount k.off k.a k.b = (tileLines k).length ∧
    ∀ r l, (r, l) ∈ tileLines k ↔ r < tErows k.a ∧ 0 < tMB k.a ∧
      k.off + r * tStride k.b < 128 * l + 128 ∧ 128 * l < k.off + r * tStride k.b + tMB k.a)

/-- R241 to R244, R247, R259: `tamo`, `tlbk`, `tldi` and `bkc` join the queue; all but `tlbk` take the latch in
which their result will land. R8, R342: a `tamo` of a page-table entry below the management core is refused with
fault 0x03 (log 83). R233, R346, R347: a copy through an Invalid or a Revoked handle is refused with fault 0x05 or
0x06, whatever its guard. -/
def Obligations.MemoryCopies : Prop :=
  (∀ (s : State) (u : CSlot) (g : Guard) (op : AmoOp) (wide bank : Bool) (t pn : Fin 64) (h cl : Fin 16) (a k : Src), Issues s →
    readsPass (mine s) [a, k] →
    let c := mine s
    let x := c.h[h]
    let v := cVal u s (me s) 0 a
    let off := v.toNat
    let size := if wide then 8 else 4
    let o := amoOperands u s (me s) op wide k
    let lines := off % 64 + 1
    let base := off / 128 * 128
    let d := c.t[t]
    c.copies.length < 32 → hPresent x = true →
      (off % size = 0 → off + size ≤ hSize x → hWrite x = true → tableFails s (me s) x [(off, size)] = true →
        Traps (.tamo u g op wide h cl a k) s (2 ^ cSlotNo u) 0x03 0) ∧
      (off % size = 0 → off + size ≤ hSize x → hWrite x = true → tableFails s (me s) x [(off, size)] = false → Performs (.tamo u g op wide h cl a k) s g (some (cRing u))
        fun s' => enqueueRing s' (me s) u (.tamo op wide o.1 o.2) cl 0 0 x off 1 1) ∧
      (off % 32 = 0 → off + 32 ≤ hSize x → hRead x = true → Performs (.tldi u g bank h cl a) s g (some (cRing u))
        fun s' => enqueueRing s' (me s) u (.tldi bank) cl 0 0 x off 1 0) ∧
      (v.getLsbD 6 = false → base + 128 * lines ≤ hSize x → hRead x = true → Performs (.tlbk u g pn h cl a) s g none
        fun s' => modCore (enqueue s' (me s) (.tlbk pn lines) (some cl) 0 0 x base none 0 true) (me s) fun c =>
          addCounts c cl lines 0) ∧
      (me s < 256 → c.feat.getLsbD 0 = true → tileBusy c t = false → routineHolds c t = false → capFails s (me s) d.a = false →
        tRows d.a ≠ 0 → off % 64 = 0 → off + 64 ≤ hSize x → hRead x = true →
        Performs (.bkc u g t h cl a) s g (some (cRing u)) fun s' =>
          modCore (enqueueRing s' (me s) u (.bkc t) cl d.a d.b x off 1 1) (me s) fun c =>
            { c with t := c.t.set t { c.t[t] with st := .loading } })) ∧
  (∀ (s : State) (u : CSlot) (g : Guard) (op : AmoOp) (wide bank : Bool) (t pn : Fin 64) (h cl : Fin 16) (a k : Src), Issues s →
    readsPass (mine s) [a, k] →
    let c := mine s
    let x := c.h[h]
    tileBusy c t = false → routineHolds c t = false → c.copies.length < 32 → capFails s (me s) (c.t[t]).a = false →
    tErows (c.t[t]).a ≤ 1 ∨ tStride (c.t[t]).b ≠ 0 → hValid x = false →
    ∀ i ∈ [Instr.tld u g t h cl a, .tst u g t h cl a, .tamo u g op wide h cl a k, .tlbk u g pn h cl a, .tldi u g bank h cl a],
      Traps i s (2 ^ cSlotNo u) (if hRevoked x then 0x06 else 0x05) (BitVec.ofNat 32 h.val))

/-- R246, R319: `tcpy`, `tfill` and `ipatch`. -/
def Obligations.CoreCopies : Prop :=
  ∀ (s : State) (u : CSlot) (g : Guard) (td ts : Fin 64) (a b : Src), Issues s → readsPass (mine s) [a, b] →
    let c := mine s
    let d := c.t[td]
    let e := c.t[ts]
    let x := cVal u s (me s) 0 a
    let y := cVal u s (me s) 1 b
    let last := c.cyc + 1 + (copyLength d.a + 511) / 512
    let word : Fin 2048 := (x.setWidth 11).toFin
    let pair : Fin 4 := (x.extractLsb' 11 2).toFin
    c.copies.length < 32 → tileBusy c td = false → routineHolds c td = false → capFails s (me s) d.a = false → tRows d.a ≠ 0 →
      Performs (.tfill u g td a b) s g none (fun s' =>
        modCore (enqueue s' (me s) (.tfill td x (y.setWidth 4)) none d.a d.b Handle.zero 0 none last false) (me s) fun c =>
          startLoading c td) ∧
      (tileBusy c ts = false → capFails s (me s) e.a = false → tRows e.a ≠ 0 →
        (td ≠ ts → tFmt d.a = tFmt e.a → tScaled d.a = tScaled e.a → tErows d.a = tErows e.a → tElems d.a = tElems e.a →
          Performs (.tcpy u g td ts) s g none fun s' =>
            modCore (enqueue s' (me s) (.tcpy td ts) none d.a d.b Handle.zero 0 none last false) (me s) fun c =>
              startStoring (startLoading c td) ts) ∧
        (td = ts ∨ tFmt d.a ≠ tFmt e.a → Traps (.tcpy u g td ts) s (2 ^ cSlotNo u) 0x01 0)) ∧
      (me s < 256 → x.toNat < 2 ^ 13 →
        ((word.val, pair.val) ∈ c.patches → Performs (.ipatch u g a b) s g none fun s' =>
          enqueue s' (me s) (.ipatch word pair y) none 0 0 Handle.zero 0 none 0 false) ∧
        ((word.val, pair.val) ∉ c.patches → Traps (.ipatch u g a b) s (2 ^ cSlotNo u) 0x08 0))

/-- R343, R349: `xlat` binds the page the core has walked, freezing for the walk where it has not, and makes the
handle Invalid for an address above 48 bits; `rdcinv` drops the lines that its bytes meet. -/
def Obligations.PageInstructions : Prop :=
  ∀ (s : State) (u : CSlot) (g : Guard) (h : Fin 16) (a b : Src), Issues s → readsPass (mine s) [a, b] →
    let c := mine s
    let va := cVal u s (me s) 0 a
    let len := (cVal u s (me s) 1 b).toNat
    let x := c.h[h]
    (2 ^ 48 ≤ va.toNat → Effects (.xlat u g h a) s g (fun c => pending c (.hnd h Handle.zero) 6) .seq) ∧
      (∀ k, va.toNat < 2 ^ 48 → knownAt c va.toNat = some k →
        Effects (.xlat u g h a) s g (fun c => pending c (.xlat h k false) 6) .seq) ∧
      (va.toNat < 2 ^ 48 → knownAt c va.toNat = none → holds c g = true →
        exec (.xlat u g h a) s = .next (freeze (turned s none) (me s) (.walking (va.setWidth 48)))) ∧
      (c.feat.getLsbD 6 = false → hPresent x = true → Traps (.rdcinv u g h a b) s (2 ^ cSlotNo u) 0x02 6) ∧
      (c.feat.getLsbD 6 = true → hPresent x = true →
        (va.toNat + len ≤ hSize x → Performs (.rdcinv u g h a b) s g none fun s' =>
          if len = 0 then s' else dropLines s' (dieOf (me s)) fun l =>
            128 * l < hBase x + va.toNat + len && hBase x + va.toNat < 128 * l + 128) ∧
        (hSize x < va.toNat + len → Traps (.rdcinv u g h a b) s (2 ^ cSlotNo u) 0x07 (BitVec.ofNat 32 h.val)))

/-- R110, R288, R290, R292: `frd` and `fwr` reach a word of the window of a core the handler holds, or of a halted
service pair; `frd` waits for the copies of a core that is freezing; `csave` and `crest` join the queue. A compute
core is refused. The length that `crest` checks is log 70. What `frd` reads of a poisoned granule it consumes
(R388). R286, R288: a word written through the window is the word read back, for the scalar and vector registers,
walk bases, `mp`, pennants, planes and instruction store; reserved bits of an accumulator read 0 (R38). That `fwr`
of a micro-word or of a routine entry writes nothing is log 68. -/
def Obligations.StateWindow : Prop :=
  (∀ (s : State) (u : CSlot) (g : Guard) (h : Fin 16) (a b : Src), Issues s → readsPass (mine s) [a, b] →
    let c := mine s
    let x := cVal u s (me s) 0 a
    let y := cVal u s (me s) 1 b
    let k := 2 ^ cSlotNo u
    let off := fld x 23 0
    let Reaches (m : Nat) (zeros : Prop) : Prop :=
      (zeros → reachable s m = true → mapped s m off = true →
        (isCompute m = false ∨ (coreOf s m).copies = [] → Completes (.frd u g a) s fun c' _ =>
          Turns c c' (cRing u) g
              (result c ((windowGet (turned s none) m (coreOf s m) (freeVal s 4011 32768) off).setWidth 4096) 4) ∧
            { c' with rings := c.rings } =
              moved (if holds c g = true ∧ wordPoisoned (coreOf s m) off = true then consume c 0 else c) .seq) ∧
        (isCompute m = true → (coreOf s m).copies ≠ [] → holds c g = true → Stalls (.frd u g a) s false) ∧
        Performs (.fwr u g a b) s g none fun s' => modCore s' m fun c => windowSet false (freeVal s' 4013 32768) c off y) ∧
      (¬ zeros ∨ reachable s m = false ∨ mapped s m off = false →
        Traps (.frd u g a) s k 0x07 0 ∧ Traps (.fwr u g a b) s k 0x07 0)
    (me s < 256 → Traps (.frd u g a) s k 0x03 0 ∧ Traps (.fwr u g a b) s k 0x03 0) ∧
      (me s = 288 → Reaches (256 + fld x 31 27) (fld x 26 24 = 0 ∧ fld x 63 32 = 0)) ∧
      (256 ≤ me s → me s < 288 →
        Reaches (8 * (me s - 256) + fld x 26 24) (fld x 63 27 = 0) ∧
        (let n := 8 * (me s - 256) + y.toNat % 8
         let z := c.h[h]
         hPresent z = true → c.copies.length < 32 → x.toNat % 128 = 0 →
          let len := imageLen (kernelRows s n) (coreOf s n).seg.isSome
          (hWrite z = true → heldRecord s n = true → x.toNat + len ≤ hSize z → tableFails s (me s) z [(x.toNat, len)] = false →
            Performs (.csave u g h a b) s g (some (cRing u)) fun s' => enqueueRing s' (me s) u (.csave n) 15 0 0 z x.toNat 0 1) ∧
          (hRead z = true → (coreOf s n).run = .vacant → x.toNat + 64 ≤ hSize z → x.toNat + storedLen s z x.toNat n ≤ hSize z →
            Performs (.crest u g h a b) s g (some (cRing u)) fun s' => enqueueRing s' (me s) u (.crest n) 15 0 0 z x.toNat 1 0)))) ∧
  (∀ (s : State) (n : Nat) (c : Core) (raw : Bool) (fv : BitVec 32768) (off : Nat) (v : BitVec 64),
    (off < 0x20 ∨ (0x23 ≤ off ∧ off < 0x30) ∨ (0x20000 ≤ off ∧ off < 0x20800) ∨ (0x100000 ≤ off ∧ off < 0x108000) ∨
      (0x400000 ≤ off ∧ off < 0x404000) → windowGet s n (windowSet raw fv c off v) fv off = v) ∧
    (0x140000 ≤ off ∧ off < 0x148000 →
      windowGet s n (windowSet raw fv c off v) fv off = if off % 2 = 0 then v else v &&& 0x1FFF#64) ∧
    (0x170000 ≤ off ∧ off < 0x171040 → windowSet false fv c off v = c ∧ windowGet s n (windowSet true fv c off v) fv off = v))

/-! ### Slot 6 -/

/-- R361, R366 to R369: messages. `xsend` sends its operand to a member, or leaves it in the lowest armed trigger;
the receives wait for the oldest entry from S with their tag, take it and deposit it, or what they combine of it;
`xput` joins the queue; `xstat` deposits the status. A partner that is no member is refused with fault 0x07, on a
service core all are refused with 0x01. -/
def Obligations.MessageSlots : Prop :=
  ∀ (s : State) (g : Guard) (vec int : Bool) (tag : Fin 64) (ts : Fin 64) (a b : Src), Issues s → readsPass (mine s) [a, b] →
    let c := mine s
    let p := sVal s (me s) 6 0 a
    let q := sVal s (me s) 6 1 b
    let B (f : Bool) : Vec := vectorVal false f c (fvOp s 6 1) b
    let d := (c.t[ts]).a
    (me s < 256 → p.toNat < fld c.domain 23 8 →
      Performs (.xsend g vec tag a b) s g none (fun s' => sendMsg s' (me s) (partnerCore s (me s) p.toNat)
        { src := c.coreIdx.toNat, dst := p.toNat, tag := tag, vec := vec, val := if vec then B false else q.setWidth 4096 }) ∧
      (∀ before m after, c.abuf = before ++ m :: after → m.src = p.toNat → m.tag = tag →
        (∀ x ∈ before, ¬ (x.src = p.toNat ∧ x.tag = tag)) →
        let R (i : Instr) (lat : Nat) (v : Vec) : Prop := Completes i s fun c' _ =>
          Turns c c' .x g (result c v lat) ∧ { c' with rings := c.rings } =
            moved (if holds c g then { c with abuf := before ++ after } else c) .seq
        let M (i : Instr) (f : BitVec 32 → BitVec 32 → BitVec 32) (y : Vec) : Prop := ∃ v, R i 2 v ∧
          (m.vec = true → ∀ j, j < 128 → lane v j = f (lane m.val j) (lane y j)) ∧
          (m.vec = false → v = (f (lane m.val 0) (lane y 0)).setWidth 4096)
        R (.xrecv g tag a) 1 (if m.vec = true then m.val else (m.val.setWidth 64).setWidth 4096) ∧
          M (.xradd g true tag a b) (· + ·) (B false) ∧ M (.xradd g false tag a b) (fun x y => (fAdd .rn x y).1) (B true) ∧
          M (.xrmax g true tag a b) (fun x y => if x.toInt < y.toInt then y else x) (B false) ∧
          M (.xrmax g false tag a b) (fun x y => (fMinMax true x y).1) (B true)) ∧
      ((∀ x ∈ c.abuf, ¬ (x.src = p.toNat ∧ x.tag = tag)) → holds c g = true →
        ∀ i ∈ [Instr.xrecv g tag a, .xradd g int tag a b, .xrmax g int tag a b], Stalls i s false) ∧
      (tileBusy c ts = false → c.copies.length < 32 → capFails s (me s) d = false →
        (fld q 31 6 = 0 → fld q 63 32 % 512 = 0 → tRows d ≠ 0 → Performs (.xput g ts a b) s g none fun s' =>
          modCore (enqueue s' (me s) (.xput ts (partnerCore s (me s) p.toNat) (q.setWidth 6).toFin (fld q 63 32)) none d
            (c.t[ts]).b Handle.zero 0 none (c.cyc + 1 + (copyLength d + 511) / 512) false) (me s) fun c => startStoring c ts) ∧
        (fld q 31 6 ≠ 0 ∨ fld q 63 32 % 512 ≠ 0 ∨ tRows d = 0 → Traps (.xput g ts a b) s 64 0x07 0))) ∧
    (me s < 256 → ∃ v : BitVec 64, Deposits (.xstat g) s .x g (v.setWidth 4096) 1 ∧
      (c.abuf.length < 128 → runsOf s (me s) < 16 → fld v 7 0 = c.abuf.length ∧ fld v 23 20 = runsOf s (me s) ∧ fld v 63 24 = 0 ∧ fld v 11 10 = 0 ∧ v.getLsbD 8 = c.xerr ∧ v.getLsbD 9 = c.tterr ∧
        ∀ k : Fin 4, fld v (13 + 2 * k) (12 + 2 * k) = trigNo c.trig[k])) ∧
    (fld c.domain 23 8 ≤ p.toNat → tileBusy c ts = false → c.copies.length < 32 → capFails s (me s) d = false → me s < 256 →
      ∀ i ∈ [Instr.xsend g vec tag a b, .xrecv g tag a, .xradd g int tag a b, .xrmax g int tag a b, .xput g ts a b],
        Traps i s 64 0x07 0) ∧
    (256 ≤ me s → ∀ i ∈
      [Instr.xsend g vec tag a b, .xrecv g tag a, .xradd g int tag a b, .xrmax g int tag a b, .xput g ts a b, .xstat g],
      Traps i s 64 0x01 0)

/-- R332, R336 to R338, R371: `land` arrives at the next landing of its scope, `align` waits for its tick and
deposits the ticks since, `seg` shadows the core once every result has landed, `xtrig` arms an idle trigger,
`xbegin` joins a run. -/
def Obligations.LandingSlots : Prop :=
  ∀ (s : State) (g : Guard) (scope : Fin 5) (h : Fin 16) (k : Fin 4) (a b : Src), Issues s → readsPass (mine s) [a, b] →
    let c := mine s
    let t := sVal s (me s) 6 0 a
    let d := effScope c scope
    let x := c.h[h]
    (me s < 256 → Performs (.land g scope) s g (some .x) (fun s' => arriveAt s' (me s) scope) ∧
      d.val = min scope.val (fld c.domain 2 0) ∧
      let r := arriveAt (turned s (some .x)) (me s) scope
      (∃ y, (mine r).arrival = some y ∧ y.scope = d ∧ y.num = c.lands[d] + 1 ∧ y.tick = s.now / 252) ∧
        (mine r).lands = c.lands.set d (c.lands[d] + 1) ∧
        ∃ l ∈ r.landings, l.scope = d ∧ l.num = c.lands[d] + 1 ∧ (me s, s.now / 252) ∈ l.arrived) ∧
    (252 * t.toNat ≤ s.now → Deposits (.align g a) s .x g ((BitVec.ofNat 64 (s.now / 252) - t).setWidth 4096) 1) ∧
    (s.now < 252 * t.toNat → holds c g = true → Stalls (.align g a) s true) ∧
    (me s < 256 → allLanded c = true → Effects (.seg g) s g (fun y => { y with seg := some (shadowOf c) }) .seq) ∧
    (me s < 256 → allLanded c = false → holds c g = true → Stalls (.seg g) s false) ∧
    (me s < 256 → c.feat.getLsbD 5 = true → c.trig[k] = .idle →
      Effects (.xtrig g k a) s g (fun y => { y with trig := y.trig.set k (.armed t) }) .seq) ∧
    (me s < 256 → c.feat.getLsbD 5 = true → c.trig[k] ≠ .idle → holds c g = true → Stalls (.xtrig g k a) s false) ∧
    (c.trig[k] = .idle → me s < 256 → c.feat.getLsbD 5 = false → Traps (.xtrig g k a) s 64 0x02 5) ∧
    (me s < 256 → runsOf s (me s) < 4 → hPresent x = true → hRead x = true → t.toNat + 64 ≤ hSize x → t.toNat % 64 = 0 →
      Performs (.xbegin g h a b) s g none fun s' => beginRun s' (me s) x t.toNat (sVal s (me s) 6 1 b).toNat) ∧
    (me s < 256 → 4 ≤ runsOf s (me s) → hPresent x = true → holds c g = true → Stalls (.xbegin g h a b) s false) ∧
    (256 ≤ me s → Traps (.land g scope) s 64 0x01 0 ∧ Traps (.seg g) s 64 0x01 0 ∧ Traps (.xtrig g k a) s 64 0x01 0)

/-! ### Start-up and the mailbox -/

/-- R22, R25, R29, R399 to R402: the start-up sequence: newel verifies the signed stage, self-test, the runtime
firmware; a failure enters Safe with its cause, in which every core is halted and no kernel is left; the thermal
trip. The numbers of failing units are free (notes/assumptions/47.md). R402 to R407: the diagnostic mailbox: what
each request that reaches newel from the management core or from a host is answered in each state, a message of that
type from anywhere else being counted and discarded; negotiation fixes the features once; a reset returns the device
to its reset state; the permit is set once. The model's choices in it: a stage leaves its fused minimum (log 4),
0x01 before the state is judged (log 50), a reset clears memory (log 51), the hash and the curve (log 74), an
unlisted OP from the management core is answered 0x03 (log 75). That the management core may not ask for the row map
is log 50. -/
def Obligations.StartUp : Prop :=
  (∀ (s : State) (x : SignedImage) (failing : Option (BitVec 16)) (l : List (Nat × BitVec 3)),
    let X (i : Instr) (P : State → Prop) : Prop := ∃ u, exec i s = .next u ∧ P u
    let Verdict (P : State → Prop) : Prop := P (befall s .stageVerified)
    let Safe (cause : BitVec 8) (unit : BitVec 16) (u : State) : Prop :=
      u.boot = .safe ∧ u.bootCause = cause ∧ u.bootUnit = unit ∧ (∀ n, n < 289 → (coreOf u n).run = .halted) ∧ u.kernels = [] ∧ u.mem = s.mem
    X .thermalTrip (Safe 4 0) ∧
    (s.boot = .reset → X (.powerGood x) fun u => u = { s with boot := .newel, rom := some x }) ∧
    (s.boot = .newel → s.rom = some x →
      (accepts s 0 x = true → Verdict fun u => u.boot = .selfTest ∧ u.cores = s.cores ∧ u.fusedMin = s.fusedMin) ∧
      (accepts s 0 x = false → Verdict (Safe 1 0))) ∧
    (s.boot ≠ .reset → X (.powerGood x) fun u => u = s) ∧
    (∀ i : Fin 2, accepts s i x = true → x.key.length = 133 ∧ x.sig.length = 132 ∧ s.fusedMin[i] ≤ x.version ∧
      sha512 x.key = Config.romDigest ∧ verifies x.key (sha512 (x.key ++ (toBytes 4 x.version.toNat ++ x.code))) x.sig = true) ∧
    (s.boot = .selfTest → (∀ w, failing = some w → X (.selfTest failing l) (Safe 2 w)) ∧
      (failing = none → X (.selfTest failing l) fun u =>
        let caps (n i : Nat) : Nat := capOf (measured l n (coreOf s n)) i
        let meets (n : Nat) : Prop := ∀ i, i < 6 → rowFloor.getD i 0 ≤ caps n i
        let l2 (d : Nat) : Prop := ∀ i, i < 6 → ((wayClasses l d 0).filter fun e => !goodAt e.2.toNat i).length ≤ 2
        let cores := ∀ n, n < 256 → meets n
        (cores → (∀ d, d < 4 → l2 d) → u.boot = .firmwareLoad ∧ u.offer = 0xFF ∧ (∀ d : Fin 4, (u.dies[d]).op = 5) ∧
          ∀ n, n < 256 → (∀ i : Fin 6, ((coreOf u n).caps[i]).toNat = caps n i.val) ∧ (coreOf u n).rowCls = classesOf l n) ∧
        (∀ n, n < 256 → ¬ meets n → (∀ m, m < n → meets m) → Safe 2 (Config.coreUnit n) u) ∧
        ∀ d, d < 4 → cores → ¬ l2 d → (∀ e, e < d → l2 e) → Safe 2 (Config.l2Unit d) u)) ∧
    (s.boot ≠ .selfTest → X (.selfTest failing l) fun u => u = s) ∧
    (s.boot = .firmwareLoad → (accepts s 1 x = false → X (.firmwareImageVerify x) (Safe 3 0)) ∧
      (accepts s 1 x = true → X (.firmwareImageVerify x) fun u => u.boot = .negotiating ∧ u.fusedMin[1] = x.version ∧
        u.fusedMin[0] = s.fusedMin[0] ∧ (∀ n, 256 ≤ n → n < 289 → (coreOf u n).run = .running ∧ (coreOf u n).pc = 0 ∧ s.now < (coreOf u n).next) ∧
        ∀ n, n < 256 → coreOf u n = coreOf s n)) ∧
    (s.boot ≠ .firmwareLoad → X (.firmwareImageVerify x) fun u => u = s)) ∧
  (∀ (s : State) (w : Sender) (hdr arg : BitVec 64) (nonce : List Byte) (op : Nat),
    let X (i : Instr) (P : State → Prop) : Prop := ∃ u, exec i s = .next u ∧ P u
    let early := s.boot = .reset ∨ s.boot = .newel ∨ s.boot = .selfTest
    let gives (u : State) (st : BitVec 8) (d : List Byte) : Prop := u = report s (.mailbox w (BitVec.ofNat 8 op) st d)
    let Reaches (len : Nat) : Prop := ∀ v, senderVia w = some v → carries (linkAt s v.port.val) = true ∧ v.port.val < 16 ∧
      vType v.hdr = 7 ∧ vLen v.hdr = len ∧ vDst v.hdr = s.chip ∧ vSrc v.hdr = 0xFFFF ∧ w = .host v
    let post (o : Out) : Posted := { stamp := s.now / 252, out := o }
    let Plain (k : Nat) (i : Instr) (bad : Prop) (d : List Byte) (len : Nat) : Prop := op = k → Reaches len →
      (bad → X i fun u => gives u 1 []) ∧ (¬ bad → early → op ≠ 1 → op ≠ 6 → X i fun u => gives u 2 []) ∧
      (¬ bad → ¬ early ∨ op = 1 ∨ op = 6 → X i fun u => gives u 0 d)
    hdr = BitVec.ofNat 64 op →
      (∀ v, w = .scheduler v ∨ (w = .host v ∧ vSrc v.hdr ≠ 0xFFFF) → carries (linkAt s v.port.val) = true →
        ∀ i ∈ [Instr.mailboxState w hdr arg, .negotiate w hdr arg, .rowMap w hdr arg, .errorCounts w hdr arg,
          .attestation w hdr arg nonce, .identity w hdr arg, .reset w hdr arg, .permit w hdr arg],
          X i fun u => u = modLink s v.port.val countErr) ∧
      (w = .mgmt → op = 0 ∨ 8 < op → op < 256 → ¬ early → X (.mailboxState w hdr arg) fun u => gives u 3 []) ∧
      Plain 1 (.mailboxState w hdr arg) (arg ≠ 0) (toBytes 4 (bootNo s.boot + s.bootCause.toNat * 256 + s.bootUnit.toNat * 65536)) 1 ∧
      (w ≠ .mgmt → Plain 3 (.rowMap w hdr arg) (fld arg 63 8 ≠ 0) (toBytes 816 (packN 3 (fun r => rowClass (coreOf s (fld arg 7 0)) r) 2176)) 1) ∧
      (op = 3 → w = .mgmt → fld arg 63 8 = 0 → ¬ early → X (.rowMap w hdr arg) fun u => gives u 3 []) ∧
      Plain 4 (.errorCounts w hdr arg) (fld arg 63 4 ≠ 0)
        (let e := (s.dies.toList.getD (fld arg 1 0) Die.zero).errs.toList.getD (fld arg 3 2) (0, 0)
         toBytes 4 e.1.toNat ++ toBytes 4 e.2.toNat) 1 ∧
      Plain 5 (.attestation w hdr arg nonce) (arg ≠ 0 ∨ nonce.length ≠ 64) (attestReport s nonce) 5 ∧
      (nonce.length = 64 → (attestReport s nonce).length = 368 ∧ (attestReport s nonce).take 64 = nonce) ∧
      Plain 6 (.identity w hdr arg) (arg ≠ 0) identityKey 1 ∧
      (op = 2 → Reaches 1 → (s.boot = .negotiating → s.negSet = false → X (.negotiate w hdr arg) fun u =>
          u.neg = s.offer &&& arg &&& 0xFF ∧ u.negSet = true ∧ u.boot = .operational ∧
            u.outbox = s.outbox ++ [post (.mailbox w 2 0 (toBytes 8 s.offer.toNat ++ toBytes 8 (s.offer &&& arg &&& 0xFF).toNat))]) ∧
        (s.boot ≠ .negotiating ∨ s.negSet = true → X (.negotiate w hdr arg) fun u =>
          gives u 2 (toBytes 8 s.offer.toNat ++ toBytes 8 s.neg.toNat))) ∧
      (op = 7 → Reaches 1 → ¬ early →
        (arg ≠ 0 → X (.reset w hdr arg) fun u => gives u 1 []) ∧
        (arg = 0 → w = .mgmt ∨ s.boot = .safe → X (.reset w hdr arg) fun u => u.boot = .reset ∧ u.cores = [] ∧ u.mem = [] ∧
          u.kernels = [] ∧ u.neg = 0 ∧ u.now = 0 ∧ u.fusedMin = s.fusedMin ∧ u.outbox = s.outbox ++ [post (.mailbox w 7 0 [])]) ∧
        (arg = 0 → w ≠ .mgmt → s.boot ≠ .safe → X (.reset w hdr arg) fun u => gives u 2 [])) ∧
      (op = 8 → Reaches 1 → ¬ early →
        (fld arg 63 3 ≠ 0 ∨ 5 < fld arg 2 0 → X (.permit w hdr arg) fun u => gives u 1 []) ∧
        (fld arg 63 3 = 0 → fld arg 2 0 ≤ 5 →
          (w ≠ .mgmt ∨ s.permit ≠ none → X (.permit w hdr arg) fun u => gives u 3 []) ∧
          ∀ p : Fin 6, p.val = fld arg 2 0 → w = .mgmt → s.permit = none → X (.permit w hdr arg) fun u =>
            u = report (afterEvent { s with permit := some p }) (.mailbox w 8 0 []))))


/-! ### The whole machine -/

/-- R65, R98, R113, R264: where nothing is due, or all that is due came in this tick and the agenda comes first, and
the agent whose cycle begins first issues, a word that holds one instruction runs it: the step is `exec` of that
instruction, of the empty word or of the refused slot, with the time at the start of the cycle and the turn at the
agent. A service core decodes no V and no M slot (R109). An event on the agenda is performed by `exec`. -/
def Obligations.StepRunsDecodedInstruction : Prop :=
  ∀ (s : State) (n : Nat) (i : Instr) (k : Fin 8) (rest : List Sched),
    settleStep s = none → agendaFirst s = true ∨ dueStep s = none →
    (s.agenda = .issue :: rest ∨ s.agenda = [] ∧ rest = [] ∧ freeEvent s = none →
      nextAgent s = some n → n < 289 → cycleFirst (timeTo s n) n = true ∨ dueStep (timeTo s n) = none →
      fetchPoison (coreOf s n) = false ∨ (coreOf s n).arrival.isSome = true → (coreOf s n).skip = false →
      let w := fetchWord (coreOf s n)
      let l := decodeWord (if n < 256 then w else w &&& ~~~ (BitVec.allOnes 96 ++ 0#32).setWidth 256)
      let now : State := { timeTo s n with agenda := rest, turn := agentOf n }
      let quiet (j : Nat) : Prop := j ≠ k.val → l.getD j none = some .nop ∨ l.getD j none = some .knop
      (w = 0 → step s = drawn (exec .nop now)) ∧
      (w ≠ 0 → n < 256 ∨ (∀ j, j < 8 → serviceRefuses w j = false) → (∀ j, j < 8 → quiet j) →
        (l.getD k.val none = some i → slotOf i ≠ none → step s = drawn (exec i now)) ∧
        (l.getD k.val none = none → step s = drawn (exec (.illegalEncoding k) now)))) ∧
    (s.agenda = .ev i :: rest → isEvent i = true → step s = drawn (exec i { s with agenda := rest })) ∧
    ∀ x, s.agenda = .soft x :: rest → step s = .next (freshen (befall { s with agenda := rest } x))

/-- R76, R66: at the end of a cycle the agent's clock and cycle count move on; of the writes that are due in that
cycle the last to a register lands, and a register none is due to is as before; the sequencer, the other agents and
everything outside the cores but message traffic in flight and the count of re-executions (R391) are untouched. -/
def Obligations.EndOfCycle : Prop :=
  ∀ (s : State) (n : Nat),
    let c := coreOf s n
    let t := endCycle s n
    let d := coreOf t n
    let due (e : Pend) : Prop := e ∈ c.pend ∧ e.when_ = c.cyc
    d.cyc = c.cyc + 1 ∧ d.next = c.next + periodOf s n ∧
    d.pc = c.pc ∧ d.delay = c.delay ∧ d.stair = c.stair ∧ d.ret = c.ret ∧ d.run = c.run ∧ d.handler = c.handler ∧
      d.words = c.words ∧ d.queue = c.queue ∧ d.protect = c.protect ∧ d.traprec = c.traprec ∧ d.ctx = c.ctx ∧
      d.kernel = c.kernel ∧ d.ldcnt = c.ldcnt ∧ d.stcnt = c.stcnt ∧ d.lands = c.lands ∧ d.trig = c.trig ∧
    (∀ (r : Fin 32) (x : BitVec 64) (l₁ l₂ : List Pend) (e : Pend), c.pend = l₁ ++ e :: l₂ → e.when_ = c.cyc →
      e.act = .s r x → (∀ e' ∈ l₂, e'.when_ = c.cyc → ∀ y, e'.act ≠ .s r y) → d.s[r] = x) ∧
    (∀ (r : Fin 32), (∀ e, due e → ∀ y, e.act ≠ .s r y) → d.s[r] = c.s[r]) ∧
    (∀ (r : Fin 32) (x : Vec) (l₁ l₂ : List Pend) (e : Pend), c.pend = l₁ ++ e :: l₂ → e.when_ = c.cyc →
      e.act = .v r x → (∀ e' ∈ l₂, e'.when_ = c.cyc → ∀ y, e'.act ≠ .v r y) → d.v[r] = x) ∧
    (∀ (r : Fin 32), (∀ e, due e → ∀ y, e.act ≠ .v r y) → d.v[r] = c.v[r]) ∧
    (∀ m, m ≠ n → coreOf t m = coreOf s m) ∧
    t.mem = s.mem ∧ t.poison = s.poison ∧ t.now = s.now ∧ t.kernels = s.kernels ∧ t.queues = s.queues ∧
      t.contexts = s.contexts ∧ t.landings = s.landings ∧
      (∀ i : Fin 4, { t.dies[i] with residue := 0 } = { s.dies[i] with residue := 0 }) ∧ t.links = s.links ∧ t.outbox = s.outbox ∧
      t.boot = s.boot ∧ t.steps = s.steps ∧ t.runs = s.runs

/-- Every step keeps fabric memory in its canonical form: addresses rise strictly and no listed byte is 0, what an
unlisted byte reads as (the form is the model's own, notes/assumptions/5.md). -/
def Obligations.StepKeepsMemoryForm : Prop :=
  ∀ (s t : State), Memory.wf s.mem = true → step s = .next t → Memory.wf t.mem = true

/-- R399, R401: a step leaves the start-up state as it is or takes it one state further, to Safe, or back to Reset;
a fused minimum version never falls. -/
def Obligations.StartUpOrder : Prop :=
  ∀ (s t : State), step s = .next t →
    (t.boot = s.boot ∨ (s.boot = .reset ∧ t.boot = .newel) ∨ (s.boot = .newel ∧ t.boot = .selfTest) ∨ (s.boot = .selfTest ∧ t.boot = .firmwareLoad) ∨
      (s.boot = .firmwareLoad ∧ t.boot = .negotiating) ∨ (s.boot = .negotiating ∧ t.boot = .operational) ∨
      t.boot = .safe ∨ t.boot = .reset) ∧
    ∀ i : Fin 2, s.fusedMin[i] ≤ t.fusedMin[i]

/-- R83, R352, R399: what reset leaves: the start-up state Reset, every context Free and without page table (that a
root is 0 is log 1), every queue disabled, every link Down with no peer, every control register 0, nothing launched
or in flight; memory in its canonical form with no byte listed (what unlisted bytes read as is the model's choice,
notes/assumptions/5.md). -/
def Obligations.ResetState : Prop :=
  State.reset.boot = .reset ∧ State.reset.bootCause = 0 ∧ State.reset.negSet = false ∧ State.reset.permit = none ∧
    (∀ i : Fin 32, (State.reset.contexts[i]).st = .free ∧ (State.reset.contexts[i]).root = 0) ∧
    (∀ i : Fin 256, State.reset.queues[i] = none) ∧
    (∀ i : Fin 20, (State.reset.links[i]).entry = 0#3 ++ 0#3 ++ 0#2 ++ 0xFFFF#16 ++ 0#40 ∧ (State.reset.links[i]).attempts = 0) ∧
    (∀ n i, i < 26 → controlReg State.reset n i = 0) ∧
    State.reset.kernels = [] ∧ State.reset.landings = [] ∧ State.reset.flights = [] ∧ State.reset.steps = [] ∧
    (∀ n, (coreOf State.reset n).run = .vacant) ∧
    State.reset.mem = [] ∧ Memory.wf State.reset.mem = true ∧ ∀ a, memByte State.reset.mem a = 0

/-- R95 to R111, R213: words written out from the encoding tables, one of each slot and one micro-word, decode to
the instructions they stand for; an all-zero word is `nop` in every slot and `knop` in the last; a reserved
operation code is refused. -/
def Obligations.DecodeWords : Prop :=
  let g : Guard := { pred := 3, sense := true, first := false, last := false }
  decodeSlot 0 .none 0b000001_1_0011_0000101_0100010_0000000#32 = some (.add g (.reg 5) (.latch .s 2)) ∧
  decodeSlot 0 .none 0b101010_1_0011_0000101_0000_101_0_100001#32 = some (.ldt g .sw 33 (.reg 5)) ∧
  decodeSlot 0 .none 0b100110_1_0011_00_1_0100_00_0_1101_000_0010#32 = some (.pand g 2 ⟨4, true⟩ ⟨13, false⟩) ∧
  decodeSlot 1 .none 0b011000_1_0011_0000101_0101010_0100_011#32 = some (.vcmpF32 .va g .gt 3 (.reg 5) (.latch .va 2)) ∧
  decodeSlot 2 .none 0b010011_1_0011_0000101_0101010_0_110_000#32 = some (.vxor .vb g (.reg 5) (.latch .va 2) 6) ∧
  decodeSlot 3 .none 0b000110_1_0011_0000101_0100010_1_001001#32 = some (.mlucodeEnt g 9 (.reg 5) (.latch .s 2)) ∧
  decodeSlot 4 .none 0b000110_1_0011_0_010101_00000000_110010#32 = some (.tcpy .ca g 50 21) ∧
  decodeSlot 5 .none 0b001111_1_0011_0000101_00000000010000#32 = some (.hclrPn .cb g (.reg 5)) ∧
  decodeSlot 6 .none 0b000001_1_0011_0000101_0100010_1_010100#32 = some (.xsend g true 20 (.reg 5) (.latch .s 2)) ∧
  decodeSlot 7 .none 0b000000_10_101_011_010_1_00000000000000#32 = some (.kcfg 5 .e4m3 .e5m2 true) ∧
  decodeMicro 0b0101_01_0_0011_1_10_01_000000000000000000000000000000000000000000000000#64 = some (.stpl 1 ⟨3, true, 2, 1⟩) ∧
  decodeWord 0 = [some .nop, some .nop, some .nop, some .nop, some .nop, some .nop, some .nop, some .knop] ∧
  decodeSlot 0 .none 0b111111_1_0011_0000101_0100010_0000000#32 = none

/-- R95 to R111, R213: for every well-formed instruction that stands in a slot, the word the encoder writes decodes,
in its slot, to the instruction with every operand as it was, and to no operation in every other slot; every
well-formed micro-operation is read back from its micro-word. -/
def Obligations.DecodeEncode : Prop :=
  ∀ (i : Instr), i.wf = true →
    (slotNo i < 8 → (decodeWord (encode i)).getD (slotNo i) none = some i ∧
      ∀ j, j < 8 → j ≠ slotNo i → (decodeWord (encode i)).getD j none = some (if j = 7 then .knop else .nop)) ∧
    (microOf i ≠ none → decodeMicro (encodeMicro i) = some i)

/-! ### Traps, handlers, walks -/

/-- R112, R280, R281, R283, R284, R289, R343: what taking a trap leaves: the core frozen before its word, its record
queued for its hall, those of one cycle in increasing CORE; a pending cause is taken once, a pair's mismatch for
both its cores; a handler begins with the oldest record, giving up a stall unless it is for a service (log 55); a
walk ends; a word with an encoding that is none is refused with fault 0x01. -/
def Obligations.TrapTaking : Prop :=
  (∀ (s : State) (n mask cause : Nat) (detail : BitVec 32), n < 256 → mask < 256 → cause < 256 →
    let c := coreOf s n
    let t := takeTrap s n mask cause detail
    ∃ rec : BitVec 64, (coreOf t n).run = .trapped rec ∧ fld rec 63 56 = mask ∧ fld rec 55 48 = cause ∧ fld rec 47 40 = n % 8 ∧
      fld rec 39 32 = 0 ∧ rec.setWidth 32 = detail ∧
      (let q := coreOf s (256 + n / 8)
       let q' := (coreOf t (256 + n / 8)).queue
       let increasing (l : List (BitVec 64)) : Prop := l.Pairwise fun x y => fld x 42 40 ≤ fld y 42 40
       q'.length = q.queue.length + 1 ∧ (∀ r, r ∈ q' ↔ r = rec ∨ r ∈ q.queue) ∧
         (q.qTime ≠ s.now → q' = q.queue ++ [rec]) ∧
         ∀ old new, q.queue = old ++ new → q.qTime = s.now → q.qNew = new.length → increasing new →
           ∃ new', q' = old ++ new' ∧ increasing new') ∧
      (c.mx.run = none → cause ≠ 0x0E ∨ c.seg = none →
        (coreOf t n).pc = c.pc ∧ (coreOf t n).delay = c.delay ∧ (coreOf t n).stair = c.stair ∧ (coreOf t n).words = c.words ∧
          (coreOf t n).copies.length ≤ c.copies.length) ∧
      ∀ m, m ≠ n → m ≠ 256 + n / 8 → coreOf t m = coreOf s m) ∧
  (∀ (s : State) (a : Agent) (x : Cause),
    let n := agentNo a
    let c := coreOf s n
    c.run = .running → (c.arrival = none ∨ releaseFixed s n = false) → nextCause c.causes = some x →
      let gone (k : Core) : Core := { k with causes := k.causes.filter fun y => y.code != x.code }
      let s' := if x.code = 0x0F ∧ leadsPair s n = true then modCore s (n + 1) gone else s
      exec (.trap a) s = .next (takeTrap (modCore s' n gone) n 0 x.code.toNat x.detail) ∧
        x ∈ c.causes ∧ x.held = false) ∧
  (∀ (s : State) (h : Fin 32) (rec : BitVec 64) (rest : List (BitVec 64)),
    let c := coreOf s (256 + h.val)
    let n := 8 * h.val + fld rec 42 40
    c.run = .running → c.handler = false → c.queue = rec :: rest → c.request = none → c.reply = none →
    c.qTime < s.now → (coreOf s n).sigs = [] → (coreOf s n).differs = none →
      exec (.handlerEntry h) s = .next (setCore s (256 + h.val) { c with
        ret := some (c.pc, c.delay), pc := 0, delay := none, handler := true, traprec := rec, queue := rest
        tcache := [], walked := [] })) ∧
  (∀ (s : State) (a : Agent) (va : BitVec 48),
    let n := agentNo a
    let c := coreOf s n
    let b := bindFor s n va.toNat
    c.run = .walking va → ∃ t, exec (.translationWalk a) s = .next t ∧
      (∀ m, m ≠ n → coreOf t m = coreOf s m) ∧ (coreOf t n).run = .resuming ∧
      walkedAt (coreOf t n) va.toNat = some b ∧
      (hPresent b = true → (coreOf t n).tcache = (BitVec.ofNat 48 (hVa b), b.w0) :: c.tcache) ∧
      (hPresent b = false → (coreOf t n).tcache = c.tcache)) ∧
  ∀ (s : State) (k : Fin 8), Issues s → Traps (.illegalEncoding k) s (2 ^ k.val) 0x01 0

/-! ### Copies in progress -/

/-- R231, R234, R235, R239 to R243, R246, R248, R249, R263, R319: the copy steps complete. A line request of `tld`,
`tst`, `tlbk` and `tldi` that its class, its page and the cycle of its issue let be performed moves the bytes of its
line, lowers its count and ends the copy if it is the last; a copy-out reads its register, which leaves Storing at
once on a core that has stopped; `tamo` replaces its word at its home and its old value lands; the end of a `tldi`;
`tcpy`, for the 512-byte pieces that it has not moved yet, `tfill` and `ipatch` write what they copy. -/
def Obligations.CopiesPerformed : Prop :=
  ∀ (s : State) (ref : CopyRef) (k : Copy) (row line : Nat),
    let n := agentNo ref.agent
    let c := coreOf s n
    let p := rowPart k row line
    let pa := hBase k.h + k.off + row * tStride k.b + p.1
    let last := lineCount k.off k.a k.b ≤ k.done.length + 1
    let Stays (u : State) : Prop := findCopy (coreOf u n) ref.id = some { k with done := (row, line) :: k.done }
    let Gone (u : State) : Prop := findCopy (coreOf u n) ref.id = none
    let alone (t : Fin 64) : Prop := c.mixed = [] ∧ ∀ y, beingWritten c t.val y = false
    refCopy s ref = some k →
    (mayPerform s n k = true → (row, line) ∉ k.done → k.absent = false →
      (∀ t, k.kind = .tld t → (row, line) ∈ tileLines k → ∃ u, exec (.lineRequestPerformed ref row line) s = .next u ∧
        u.mem = s.mem ∧ (∀ cl, k.cls = some cl → (coreOf u n).ldcnt = c.ldcnt.set cl (c.ldcnt[cl] - 1)) ∧
          (throughRdc s (dieOf n) k.h pa = false → poisonedIn s.poison pa p.2 = [] → tScaled k.a = false → alone t →
            ∀ i, i < p.2 → tileByte (coreOf u n) (tileAddr k.a (row * tP k.a + p.1 + i)) = memByte s.mem (pa + i)) ∧
          (¬ last → Stays u) ∧ (last → Gone u ∧ ((coreOf u n).t[t]).st = .ready)) ∧
      (∀ t, k.kind = .tst t → storeReady c k = true → (row, line) ∈ tileLines k →
        isReplicated s (hBase k.h) = false →
        let mb := match k.data with
          | some d => (d.drop (row * tMB k.a)).take (tMB k.a)
          | none => tileRowData c t.val (freeVal s 4008 32768) k.a k.b row
        ∃ u, exec (.lineRequestPerformed ref row line) s = .next u ∧
          (∀ x, x < pa ∨ pa + p.2 ≤ x → memByte u.mem x = memByte s.mem x) ∧
            (∀ i, i < p.2 → (h : p.1 + i < mb.length) → memByte u.mem (pa + i) = mb[p.1 + i]) ∧
            (∀ cl, k.cls = some cl → (coreOf u n).stcnt = c.stcnt.set cl (c.stcnt[cl] - 1)) ∧ (¬ last → Stays u) ∧ (last → Gone u)) ∧
      (∀ pn lines, k.kind = .tlbk pn lines → row = 0 → k.off / 128 ≤ line → line < k.off / 128 + lines →
        ∃ u, exec (.lineRequestPerformed ref row line) s = .next u ∧
          u.mem = s.mem ∧ (k.done.length + 1 < lines → Stays u) ∧
            (lines ≤ k.done.length + 1 → Gone u ∧ (coreOf u n).pn.getLsbD pn.val = true)) ∧
      (∀ b, k.kind = .tldi b → row = 0 →
        let got := k.data.getD []
        let lim := hSize k.h - k.off
        let at_ := k.off + got.length
        let len := min (128 * (line + 1) - at_) (hSize k.h - at_)
        let d := got ++ toBytes len (ofBytes (memRead s.mem (hBase k.h + at_) len))
        let e := expand d lim (protectedWord c b)
        (expand got lim (protectedWord c b)).status = .more → at_ / 128 = line →
        throughRdc s (dieOf n) k.h (hBase k.h + at_) = false → poisonedIn s.poison (hBase k.h + at_) len = [] →
          ∃ u, exec (.lineRequestPerformed ref row line) s = .next u ∧ u.mem = s.mem ∧
            findCopy (coreOf u n) ref.id = some { k with data := some d, until_ := e.words.length } ∧
            ∀ j, k.until_ ≤ j → (h : j < e.words.reverse.length) →
              spGet (coreOf u n).istore (2048 * b.toNat + imageDest d + j) = e.words.reverse[j])) ∧
    (∀ t, k.kind = .tst t → k.data = none → afterIssue c k = true → fitsInFlight c k = true →
      ∃ u, exec (.copyOutRead ref) s = .next u ∧
        findCopy (coreOf u n) ref.id = some { k with data := some (tileRowsData c t.val (freeVal s 4008 32768) k.a k.b), until_ := c.cyc } ∧
        ((coreOf u n).t[t]).st = (if c.run ≠ .running ∧ (c.t[t]).st = .storing then (c.t[t]).mem else (c.t[t]).st) ∧ u.mem = s.mem) ∧
    (∀ op wide a d, k.kind = .tamo op wide a d → mayPerform s n k = true → k.absent = false →
      let size := if wide then 8 else 4
      let old := ofBytes (memRead s.mem (hBase k.h + k.off) size)
      poisonedIn s.poison (hBase k.h + k.off) size = [] → isReplicated s (hBase k.h) = false →
      ∃ u, exec (.tamoPerformed ref) s = .next u ∧
        (∀ x, x < hBase k.h + k.off ∨ hBase k.h + k.off + size ≤ x → memByte u.mem x = memByte s.mem x) ∧
          ofBytes (memRead u.mem (hBase k.h + k.off) size) =
            (match op with
            | .add => (old + a.toNat) % 2 ^ (8 * size)
            | .swap => a.toNat % 2 ^ (8 * size)
            | .cas => if old = a.toNat % 2 ^ (8 * size) then d.toNat % 2 ^ (8 * size) else old
            | .minu => min old (a.toNat % 2 ^ (8 * size))
            | .maxu => max old (a.toNat % 2 ^ (8 * size))
            | .min => if BitVec.slt (BitVec.ofNat (8 * size) a.toNat) (BitVec.ofNat (8 * size) old) then a.toNat % 2 ^ (8 * size) else old
            | .max => if BitVec.slt (BitVec.ofNat (8 * size) old) (BitVec.ofNat (8 * size) a.toNat) then a.toNat % 2 ^ (8 * size) else old) ∧
          (∀ r q, k.slot = some (r, q) → (latchAt (ringOf c r) q).wait = some k.id →
            latchAt (ringOf (coreOf u n) r) q = { val := BitVec.ofNat 4096 old, due := c.cyc, wait := none }) ∧ Gone u) ∧
    (∀ b, k.kind = .tldi b → mayPerform s n k = true →
      let e := expand (k.data.getD []) (hSize k.h - k.off) (protectedWord c b)
      e.status ≠ .more → ∃ u, exec (.tldiEnd ref) s = .next u ∧ Gone u ∧ u.mem = s.mem ∧
        ∀ r q, k.slot = some (r, q) → (latchAt (ringOf c r) q).wait = some k.id →
          (latchAt (ringOf (coreOf u n) r) q).val = (BitVec.ofNat 64 (if e.status = .finished then
            e.words.length * 2 ^ 32 + crc32c (wordBytes e.words.reverse) else 2 ^ 63 + e.words.length * 2 ^ 32)).setWidth 4096) ∧
    (∀ td ts, k.kind = .tcpy td ts → k.until_ < c.cyc → ∃ u, exec (.tileCopyDone ref) s = .next u ∧ Gone u ∧
      ((coreOf u n).t[td]).st = .ready ∧
      (tScaled k.a = false → alone td → c.undef = [] → c.tPoison = [] →
        (∀ i, i < tErows k.a * tP k.a → beingWritten c ts.val (tileAddr (c.t[ts]).a i) = false) →
        ∀ i, i < tErows k.a * tP k.a → (0, i / 512) ∉ k.done →
          tileByte (coreOf u n) (tileAddr k.a i) = tileByte c (tileAddr (c.t[ts]).a i))) ∧
    (∀ t v nib, k.kind = .tfill t v nib → k.until_ < c.cyc → ∃ u, exec (.tileCopyDone ref) s = .next u ∧ Gone u ∧
      ((coreOf u n).t[t]).st = .ready ∧
      (tScaled k.a = false → alone t → ∀ r q, r < tErows k.a → q < tElems k.a * fmtWidth (tFmt k.a) →
        (tileByte (coreOf u n) (tileAddr k.a (r * tP k.a + q / 8))).getLsbD (q % 8) = v.getLsbD (q % fmtWidth (tFmt k.a)))) ∧
    ∀ w q v, k.kind = .ipatch w q v → afterIssue c k = true → c.patched ≠ some (c.cyc, w.val, q.val) →
      ∃ u, exec (.tileCopyDone ref) s = .next u ∧ Gone u ∧
      (spGet (coreOf u n).istore w.val).extractLsb' (64 * q.val) 64 = v ∧
      (∀ x, x ≠ w.val → spGet (coreOf u n).istore x = spGet c.istore x) ∧
      ∀ j, j < 256 → (j < 64 * q.val ∨ 64 * q.val + 64 ≤ j) → (spGet (coreOf u n).istore w.val).getLsbD j = (spGet c.istore w.val).getLsbD j

/-- R254 to R261: bank commands. A command that a check of R258 refuses ends with ERR and its code, and acts on
nothing. The others act engine by engine, segment by segment, in no fixed order: one of those left acts, and the
last ends the command with its status. VLD fills its buffer of an engine, AXPY and FILL write a segment and no other
byte, the sums keep a segment's partial and write t at the end. R253 to R255, R258: when a command is refused, and
with which code; the order of the checks and 0x05 for VLEN are log 29, 0x07 for a page table is log 83. R256: a
result as the sum of its segments' partials in the order of their engines, GEMV-ACC beginning with the old element.
That 0x06 is judged by the page's physical space alone is log 29. -/
def Obligations.BankCommands : Prop :=
  (∀ (s : State) (ref : CopyRef) (k : Copy) (t : Fin 64),
    let n := agentNo ref.agent
    let c := coreOf s n
    let r := bankRecord s k
    let code := bankRefusal s (ctxOf c) k r
    let segs := rRows r * rSegs r
    let w := k.bank.getD (bankStart s k r)
    let End (u : State) (v : Nat) : Prop := findCopy (coreOf u n) ref.id = none ∧ ((coreOf u n).t[t]).st = .ready ∧
      ∀ q j, k.slot = some (q, j) → (latchAt (ringOf c q) j).wait = some k.id →
        latchAt (ringOf (coreOf u n) q) j = { val := (BitVec.ofNat 64 v).setWidth 4096, due := c.cyc, wait := none }
    let parts (j : Nat) := let p := partialOf s k.h r (j / rSegs r) (j % rSegs r); w.parts ++ [(j, p.1, xaOf p.2.1, p.2.2)]
    let Left (u : State) (j : Nat) : Prop := ∃ w', findCopy (coreOf u n) ref.id = some { k with bank := some w' } ∧
      w'.record = r ∧ w'.left = w.left.erase j ∧ w'.vec = w.vec ∧ (rResults r = true → w'.parts = parts j)
    let Goes (u : State) (j v : Nat) : Prop := (w.left = [j] → End u v) ∧ (w.left ≠ [j] → Left u j)
    let seg (j : Nat) : Nat := segAddr k.h r (j / rSegs r) (j % rSegs r)
    let Frame (u : State) (j : Nat) : Prop := ∀ x, x < seg j ∨ seg j + 2048 ≤ x → memByte u.mem x = memByte s.mem x
    refCopy s ref = some k → k.kind = .bkc t → mayPerform s n k = true → k.absent = false →
      (k.bank = none → code ≠ 0 → ∀ i ∈ [Instr.vld ref, .gemv ref, .gemvAcc ref, .axpy ref, .fill ref, .sum ref],
        ∃ u, exec i s = .next u ∧ End u (2 ^ 63 + code * 2 ^ 48) ∧ u.mem = s.mem) ∧
      (k.bank ≠ none ∨ code = 0 → w.left ≠ [] →
        (rCmd r = 1 → ∃ j ∈ w.left, ∃ u, exec (.vld ref) s = .next u ∧ u.mem = s.mem ∧ Goes u j (engines k.h r).length ∧
          bufferOf u j (rBuf r) = some ⟨j, rBuf r, some (ctxOf c), BitVec.ofNat 16384 (ofBytes w.vec)⟩ ∧
          ∀ e b, e ≠ j ∨ b ≠ rBuf r → bufferOf u e b = bufferOf s e b) ∧
        (rCmd r = 2 → ∃ j ∈ w.left, ∃ u, exec (.gemv ref) s = .next u ∧ u.mem = s.mem ∧
          let x := bankResults s n k t r (parts j)
          Goes u j (bankStatus x.ovf x.ls (rRows r)) ∧ (w.left = [j] → (coreOf u n).tile = x.core.tile)) ∧
        (rCmd r = 3 → ∃ j ∈ w.left, ∃ u, exec (.gemvAcc ref) s = .next u ∧ u.mem = s.mem ∧
          let x := bankResults s n k t r (parts j)
          Goes u j (bankStatus x.ovf x.ls (rRows r)) ∧ (w.left = [j] → (coreOf u n).tile = x.core.tile)) ∧
        (rCmd r = 4 → ∃ j ∈ w.left, ∃ u, exec (.axpy ref) s = .next u ∧ Frame u j ∧
          (∃ o : Bool, Goes u j ((if o then 2 ^ 33 else 0) + segs)) ∧
          let f := rMfmt r
          let m := segRead s k.h r (j / rSegs r) (j % rSegs r)
          let x := bufferBytes s (engineOf (seg j)) ((rBuf r + j % rSegs r) % 16)
          fmtWidth (rVfmt r) = fmtWidth f → ∀ e, e < 16384 / fmtWidth f →
            ofBytes (memRead u.mem (seg j) 2048) >>> (fmtWidth f * e) % 2 ^ fmtWidth f =
              (cvt (addExt false (elemVal f (m >>> (fmtWidth f * e)))
                (mulExt (fp (rVal r)) (elemVal (rVfmt r) (x >>> (fmtWidth f * e)))).1).1 f .rn (rSat r)).val % 2 ^ fmtWidth f) ∧
        (rCmd r = 5 → 8 ≤ fmtWidth (rMfmt r) → ∃ j ∈ w.left, ∃ u, exec (.fill ref) s = .next u ∧ Frame u j ∧
          (∃ o : Bool, Goes u j ((if o then 2 ^ 33 else 0) + segs)) ∧
          ∀ i, i < 2048 → memByte u.mem (seg j + i) = BitVec.ofNat 8 ((rVal r).toNat / 256 ^ (i % (fmtWidth (rMfmt r) / 8)))) ∧
        (rCmd r = 6 → ∃ j ∈ w.left, ∃ u, exec (.sum ref) s = .next u ∧ u.mem = s.mem ∧
          let x := bankResults s n k t r (parts j)
          Goes u j (bankStatus x.ovf x.ls (rRows r)) ∧ (w.left = [j] → (coreOf u n).tile = x.core.tile)))) ∧
  (∀ (s : State) (x : Fin 32) (k : Copy) (r : Record),
    let code := bankRefusal s x k r
    let cmd := fld r 3 0
    let gemv : Prop := cmd = 2 ∨ cmd = 3
    let fm := fld r 11 9
    let fv := fld r 14 12
    let byte (f : Nat) : Prop := f = 2 ∨ f = 3 ∨ f = 5
    let bytes := 2048 * ((fld r 63 48 + 1) * (fld r 39 36 + 1))
    let unused : Prop := (cmd ≠ 1 ∧ (fld r 255 224 ≠ 0 ∨ fld r 191 128 ≠ 0)) ∨ (cmd ≠ 4 ∧ cmd ≠ 5 ∧ fld r 223 192 ≠ 0) ∨
      ((cmd = 5 ∨ cmd = 6) ∧ (fld r 35 32 ≠ 0 ∨ fv ≠ 0)) ∨ (cmd = 1 ∧ (fv ≠ 0 ∨ fm ≠ 0)) ∨
      ((cmd = 1 ∨ cmd = 5) ∧ r.getLsbD 8 = true) ∨ ((cmd = 1 ∨ cmd = 4 ∨ cmd = 5) ∧ fld r 7 5 ≠ 0)
    let c1 : Prop := cmd = 0 ∨ 6 < cmd ∨ fld r 511 256 ≠ 0 ∨ fld r 47 40 ≠ 0 ∨ fld r 31 15 ≠ 0 ∨ fld r 4 4 ≠ 0 ∨ unused
    let c3 : Prop := ((cmd = 5 ∨ cmd = 6) ∧ ¬ (fm = 1 ∨ byte fm)) ∨
      ((gemv ∨ cmd = 4) ∧ ¬ ((fm = 1 ∧ fv = 1) ∨ (byte fm ∧ byte fv))) ∨
      (tFmt k.a ≠ .fp32 ∧ tFmt k.a ≠ .bf16) ∨ tScaled k.a = true
    let c4 : Prop := (gemv ∨ cmd = 6) ∧ fld r 7 5 = 7
    let c5 : Prop := fld r 127 64 % 2048 ≠ 0 ∨ hSize k.h < fld r 127 64 + bytes ∨
      (cmd = 1 ∧ (fld r 191 128 % 4 ≠ 0 ∨ fld r 255 224 % 4 ≠ 0 ∨ fld r 255 224 = 0 ∨ 2048 < fld r 255 224 ∨
        hSize k.h < fld r 191 128 + fld r 255 224))
    let c6 : Prop := isPcLocal (hBase k.h) = false
    let c7 : Prop := (cmd = 4 ∨ cmd = 5) ∧ (hWrite k.h = false ∨ inTables s (hBase k.h + fld r 127 64) bytes = true)
    let c8 : Prop := (gemv ∨ cmd = 6) ∧ tErows k.a * tElems k.a < fld r 63 48 + 1
    let c9 : Prop := (gemv ∨ cmd = 4) ∧ ∃ i q, i < rRows r ∧ q < rSegs r ∧
      ∀ b, bufferOf s (engineOf (segAddr k.h r i q)) ((fld r 35 32 + q) % 16) = some b → b.ctx ≠ some x
    (c1 → code = 1) ∧ (¬ c1 → (c3 → code = 3) ∧ (¬ c3 → (c4 → code = 4) ∧ (¬ c4 → (c5 → code = 5) ∧ (¬ c5 →
      (c6 → code = 6) ∧ (¬ c6 → (c7 → code = 7) ∧ (¬ c7 → (c8 → code = 8) ∧ (¬ c8 → (c9 → code = 9) ∧
        (¬ c9 → code = 0)))))))) ∧
    (bankStart s k r).record = r ∧
      (bankStart s k r).left = (if rCmd r = 1 then engines k.h r else List.range (rRows r * rSegs r)) ∧
    ∀ (parts : List (Nat × Nat × BitVec 128 × Bool)) (old : Ext) (i : Nat),
      let mine := (parts.filter fun p => p.1 / rSegs r == i).map (·.2)
      ∃ l : List (Nat × BitVec 128 × Bool), l.Perm mine ∧ (l.map (·.1)).Pairwise (· ≤ ·) ∧
        let terms := (if rCmd r = 3 then [old] else []) ++ l.map fun p => xaVal p.2.1
        (bankSum r parts old i).1 = (windowSum (windowOf (rWin r)) 1 terms.length none false terms).1)

/-- R290, R292, R293, R397: `csave` writes the image of a held core at its place and makes the core vacant, unless
an arrival still stands in its buffer, which refuses it and, of an urgent pre-emption, has cause 0x11 asked again at
the next landing; `crest` leaves the core frozen with a record the handler holds, or changes nothing where the image
is refused: its header, its checksum, its rows. DETAIL of a held cause after it is log 69. That a refused `csave`
answers LEN 0 is log 85, that cause 0x11 is then pending again on the saved core is log 91, and that a LEN beyond
the page gives 0x01 with the reads cut at the page is log 30. -/
def Obligations.Images : Prop :=
  ∀ (s : State) (ref : CopyRef) (k : Copy) (m : Nat),
    let n := agentNo ref.agent
    let c := coreOf s m
    let pa := hBase k.h + k.off
    let Status (v : State) (x : Nat) : Prop := findCopy (coreOf v n) ref.id = none ∧
      ∀ q j, k.slot = some (q, j) → (latchAt (ringOf (coreOf s n) q) j).wait = some k.id →
        (latchAt (ringOf (coreOf v n) q) j).val = (BitVec.ofNat 64 x).setWidth 4096
    refCopy s ref = some k → mayPerform s n k = true → k.absent = false → m < 256 → 256 ≤ n →
      (k.kind = .csave m → heldRecord s m = true → c.copies = [] → messagesDone s m = true →
        (c.abuf ≠ [] → ∃ u, exec (.csaveDone ref) s = .next u ∧ Status u (2 ^ 63 + 3 * 2 ^ 48) ∧ u.mem = s.mem ∧
          coreOf u m = match c.run with
            | .trapped r => if fld r 55 48 = 0x11 ∧ r.getLsbD 8 = true then addCause c 0x11 (r.setWidth 32) true else c
            | _ => c) ∧
        (∀ r, c.abuf = [] → isReplicated s (hBase k.h) = false → c.run = .trapped r → ∃ v,
          exec (.csaveDone ref) s = .next (match c.kernel with
            | some id => afterEvent (if fld r 55 48 = 0x12 then
                modKernel v id fun x => { x with captured := x.captured ++ [(m, r.extractLsb' 48 8)] } else memberSaved v id)
            | none => v) ∧
            (coreOf v m).run = .vacant ∧ (coreOf v m).kernel = none ∧
            let d := imageOf s m (kernelRows s m)
            Status v (imageLen (kernelRows s m) c.seg.isSome) ∧ (∀ i, (h : i < d.length) → memByte v.mem (pa + i) = d[i]) ∧
              ∀ x, x < pa ∨ pa + d.length ≤ x → memByte v.mem x = memByte s.mem x)) ∧
      (k.kind = .crest m → c.run = .vacant →
        let lim := hSize k.h - k.off
        let len := min lim (ofBytes (memRead s.mem (pa + 8) 4))
        let d := toBytes (max 64 len) (ofBytes (memRead s.mem pa (max 64 len)))
        let code := crestRefusal s m lim d
        let x := restoreCore c d
        let v (lo n : Nat) : Nat := ofBytes ((d.drop lo).take n)
        let rows := v 12 2
        let bad : Prop := v 0 8 ≠ 0xC7E50714 ∨ 1 < v 15 1 ∨ v 40 24 ≠ 0 ∨ lim < v 8 4 ∨
          v 8 4 ≠ 723408 + 4096 * rows + if v 15 1 = 1 then 29840 else 0
        let sound : Prop := v 16 4 = crc32c ((d.take (v 8 4)).drop 64)
        (bad → code = 0x01) ∧ (¬ bad → ¬ sound → code = 0x02) ∧ (¬ bad → sound → capRows s m < rows → code = 0x0A) ∧
          (¬ bad → sound → rows ≤ capRows s m → code = 0) ∧
        (poisonedIn s.poison pa (max 64 len) = [] →
          (code ≠ 0 → ∃ u, exec (.crestDone ref) s = .next u ∧ Status u (2 ^ 63 + code * 2 ^ 48) ∧ coreOf u m = c ∧ u.mem = s.mem) ∧
          (code = 0 → ∃ v, exec (.crestDone ref) s = .next (afterEvent (memberRestored v m)) ∧ v.mem = s.mem ∧ Status v len ∧
            (coreOf v m).run = .trapped (trapRecord m 0 0 0) ∧ (coreOf v m).s = x.s ∧ (coreOf v m).pc = x.pc ∧
            (coreOf v m).istore = x.istore)))

/-! ### Timetables -/

/-- R370 to R373, R268: the start of a run, its entries, and the messages of other chips' engines. An entry's lines
are translated as it begins, and are read and written at home word by word, as fabric accesses are (log 49). A
header or an entry that breaks R370, a page that is absent or not writable, or poison ends the run: every member's
pennant and TTERR are set. When an engine reads, and that poison ends what is under way, is log 49; what other chips
send, with a length that is opaque, is log 21. R374: what a chip has not acknowledged is sent again, in its order,
when a link on the route to it fails. -/
def Obligations.Timetables : Prop :=
  ∀ (s : State) (id j : Nat) (r : TRun) (k : Kernel),
    let X (i : Instr) (P : State → Prop) : Prop := ∃ u, exec i s = .next u ∧ P u
    let Fails (pn : Nat) (u : State) : Prop := (∃ x, findRun u id = some x ∧ x.ended = true) ∧ u.mem = s.mem ∧
      (∀ x ∈ u.fabric, ∀ i t ps, x.body ≠ .entryRead id i ∧ x.body ≠ .entryWrite id i t ps) ∧
      ∀ n ∈ residents k, (coreOf s n).kernel = some k.id → (coreOf u n).tterr = true ∧ (coreOf u n).pn.getLsbD pn = true
    let Sets (body : FabBody) (lines : List Nat) (data : List Byte) (u : State) : Prop := ∃ x ∈ u.fabric, x.body = body ∧
      x.id = s.nextReq ∧ x.data = data ∧ x.bad = false ∧ ((∀ a ∈ lines, meetsMove s a 128 = false) → x.raised = true) ∧
      ∀ t, t ∈ x.units ↔ ∃ i w, ∃ h : i < lines.length, w < 16 ∧ t = (lines[i] + 8 * w, 8, 128 * i + 8 * w)
    findRun s id = some r → findKernel s r.kernel = some k →
      (let pa := hBase r.handle + r.offset
       let h := BitVec.ofNat 512 (bankRead s pa 64)
       let es := (List.range (hdrNent h)).map fun i => BitVec.ofNat 256 (bankRead s (pa + 64) (32 * hdrNent h) >>> (256 * i))
       let fits := r.offset + 64 + 32 * hdrNent h ≤ hSize r.handle
       chipsOf k ≤ 1 ∨ r.others = true → r.start = none → r.ended = false → r.tick ≤ s.now / 252 → hValid r.handle = true →
       (∀ n ∈ residents k, ∃ x ∈ r.joined, x.1 = n) →
       (∀ x ∈ r.joined, ∀ y ∈ x.2, (hdrMask h).getLsbD y.2 = true → findCopy (coreOf s x.1) y.1 = none) →
       poisonedIn s.poison pa (64 + 32 * hdrNent h) = [] →
        (headerBad h = false → fits → (∀ e ∈ es, entryBad (recMembers k.record) e = false) → X (.timetableRunStart id) fun u =>
          findRun u id = some { r with start := some (s.now / 252), header := h, entries := es } ∧ u.mem = s.mem ∧
            ∀ n ∈ residents k, (coreOf s n).kernel = some k.id → (∀ e ∈ es, eDstMem e ≠ indexOf k n) →
              (coreOf u n).pn.getLsbD (hdrPn h) = true) ∧
        (headerBad h = true ∨ ¬ fits ∨ (∃ e ∈ es, entryBad (recMembers k.record) e = true) → X (.timetableRunStart id) (Fails (hdrPn h)))) ∧
      (let e := r.entries.getD j 0
       let f := hdrFmt r.header
       let n := eLines e * 1024 / fmtWidth f
       let Done (u : State) : Prop :=
        (∃ x, findRun u id = some x ∧ x.done = j :: r.done ∧
          (x.ended = true ↔ ∀ i, i < r.entries.length → i ∈ j :: r.done)) ∧
        (memberServed r.entries (j :: r.done) (eDstMem e) = true → ∀ m ∈ residents k, (coreOf s m).kernel = some k.id →
          indexOf k m = eDstMem e → (coreOf u m).pn.getLsbD (hdrPn r.header) = true)
       let kind : Instr := if eKind e = 0 then .timetableCopy id j else if eKind e = 1 then .timetableReduce id j
         else .timetableReduceAndWrite id j
       let src := entryLines s k.ctx (eSrcVa e) (eLines e) false
       let dst := entryLines s k.ctx (eDstVa e) (eLines e) true
       (entryDue s k r j = true → eKind e ≤ 2 → memberCore k (eDstMem e) < 1000 →
         (∀ a, src = some a → eKind e = 1 ∨ dst ≠ none → X kind fun u => findRun u id = some r ∧ u.mem = s.mem ∧
           Sets (.entryRead id j) a (List.replicate (128 * eLines e) 0#8) u) ∧
         (src = none ∨ (eKind e ≠ 1 ∧ dst = none) → X kind (Fails (hdrPn r.header)))) ∧
       ∀ (q : Nat) (x : FabReq) (a m o : Nat), s.fabric.find? (fun y => y.id == q) = some x → x.units = [(a, m, o)] →
        reqReady s x = true → r.ended = false → memberCore k (eDstMem e) < 1000 → q < s.nextReq →
        let t := befall s (.fabric q 0)
        let bytes := x.data.take o ++ (memRead s.mem a m ++ x.data.drop (o + m))
        let v := ofBytes bytes
        let ps := reduceInto f (windowOf (hdrWin r.header)) (chunkPartials r (eChunk e)) n v
        let Part : Prop := ∃ y, findRun t id = some y ∧ chunkPartials y (eChunk e) = ps
        (x.body = .entryRead id j → x.bad = true ∨ poisonedIn s.poison a m ≠ [] → Fails (hdrPn r.header) t) ∧
        (x.body = .entryRead id j → x.bad = false → poisonedIn s.poison a m = [] → t.mem = s.mem ∧
          (eKind e = 1 → Done t ∧ Part) ∧
          ∀ b, dst = some b →
            (eKind e = 0 → Sets (.entryWrite id j true (pieces v (8 * eLines e))) b (toBytes (128 * eLines e) v) t) ∧
            (eKind e = 2 → Part ∧ Sets (.entryWrite id j true ps) b (toBytes (128 * eLines e) (roundedBits f ps n)) t)) ∧
        (∀ tell l, x.body = .entryWrite id j tell l → s.replicas = [] → Done t ∧
          (∀ i, i < a ∨ a + m ≤ i → memByte t.mem i = memByte s.mem i) ∧
          ∀ i, i < m → (h : o + i < x.data.length) → memByte t.mem (a + i) = x.data[o + i])) ∧
      (r.ended = false → 1 < chipsOf k → ∀ pn : Fin 64, Fails pn.val (befall s (.podFail id pn))) ∧
      (∀ chip : BitVec 16, let u := befall s (.lostLink chip)
        u.mem = s.mem ∧ u.runs = s.runs ∧ u.outbox = s.outbox ++ s.runs.flatMap fun y =>
          (y.unacked.filter fun x => x.1 == chip).map fun x =>
            { stamp := s.now / 252, out := .chunk chip y.id (eChunk (y.entries.getD x.2.1 0)) x.2.1 x.2.2 }) ∧
      (∀ chip : BitVec 16, let u := befall s (.acked id j chip)
        u.mem = s.mem ∧ ∃ x, findRun u id = some x ∧ ∀ y, y ∈ x.unacked ↔ y ∈ r.unacked ∧ ¬ (y.1 = chip ∧ y.2.1 = j)) ∧
      ∀ (v : Via) (data : List (Nat × BitVec 128)) (dst : List Nat),
        let e := r.entries.getD j 0
        Reaches s v 5 (Config.valueUnits (16 * data.length)).toNat false ∨
          (16 ≤ v.port.val ∧ carries (linkAt s v.port.val) = true ∧ s.boot ≠ .safe) →
        let m : ChunkMsg := ⟨eChunk e, j, data⟩
        (j ∈ r.done → exec (.collectiveChunk v id m) s = .next s) ∧
        (r.ended = false → j < r.entries.length → j ∉ r.done → entryBusy s id j = false → chunkBegun s r j = true →
          1000 ≤ memberCore k (eSrcMem e) → memberCore k (eDstMem e) < 1000 → eKind e = 2 → entryLines s k.ctx (eDstVa e) (eLines e) true = some dst →
          X (.collectiveChunk v id m) fun u => (∃ x, findRun u id = some x ∧ x.done = r.done) ∧ u.mem = s.mem ∧
            Sets (.entryWrite id j false []) dst
              (toBytes (128 * eLines e) (roundedBits (hdrFmt r.header) data (eLines e * 1024 / fmtWidth (hdrFmt r.header)))) u)

/-! ### Landings and messages -/

/-- R269, R330, R332 to R334: a landing holds once every party waits with nothing of its own in flight, its pair's
words compared (R393), and at scope 4 the members on other chips have said so and nothing that they sent is on its
way here; its release tick is the first of the grain after the last arrival and the latency of its scope; the
release lets every party go. The tick counted where a release falls between two is log 95; that a member that has
exited holds nothing back is log 53. -/
def Obligations.Landings : Prop :=
  ∀ (s : State) (id : Nat) (l : Landing), findLanding s id = some l →
    let X (i : Instr) (P : State → Prop) : Prop := ∃ u, exec i s = .next u ∧ P u
    (conditionsHold s l = true → ∀ n ∈ partiesOf s l, hasExited s l n = true ∨ ((coreOf s n).run = .running ∧
      (coreOf s n).copies = [] ∧ (∀ f ∈ s.flights, f.src ≠ n) ∧ (∀ x ∈ (coreOf s n).sigs, x.word = false) ∧ (∃ a, (coreOf s n).arrival = some a ∧ a.scope = l.scope ∧ a.num = l.num) ∧
      ∀ r ∈ s.runs, r.ended = false → ∀ x ∈ r.joined, x.1 ≠ n)) ∧
    (conditionsHold s l = true → l.scope = 4 → (∃ k, findKernel s l.kernel = some k ∧ 1 < chipsOf k) →
      l.remote ≠ none ∧ ∀ f ∈ s.flights, f.kernel = some l.kernel → f.src < 1000) ∧
    (l.tr = none → conditionsHold s l = true → X (.landingConditionsHold id) fun u =>
      u.cores = s.cores ∧ ∃ ta tr, findLanding u id = some { l with ta := some ta, tr := some tr } ∧
        s.now / 252 ≤ ta ∧ (∀ a ∈ l.arrived, a.2 ≤ ta) ∧ (∀ x, l.remote = some x → x.1 ≤ ta) ∧
        (ta = s.now / 252 ∨ (∃ a ∈ l.arrived, a.2 = ta) ∨ ∃ x, l.remote = some x ∧ x.1 = ta) ∧
        let lmax := max (match s.upLink with | some p => lLat s p.val | none => 0) (match l.remote with | some x => x.2 | none => 0)
        let n := (l.arrived.headD (0, 0)).1
        let after (lat g : Nat) : Prop := tr % (252 * g) = 0 ∧ 252 * (ta + lat) ≤ tr ∧ tr < 252 * (ta + lat + g)
        (l.scope = 0 → tr = (coreOf s n).next) ∧ (l.scope = 1 → after 32 (grain (opOf' s n))) ∧
          (l.scope = 2 → after 96 (grain (opOf' s n))) ∧ (l.scope = 3 → after 192 (grain (opOf' s n))) ∧
          (l.scope = 4 → after (2 * lmax + 128) 10)) ∧
    ∀ tr, l.tr = some tr → tr ≤ s.now → X (.landingRelease id) fun u =>
      findLanding u id = none ∧ u.mem = s.mem ∧
        (∀ n, (∀ a ∈ l.arrived, a.1 ≠ n) → coreOf u n = coreOf s n) ∧
        (∀ a ∈ l.arrived, let c := coreOf s a.1
          let d := coreOf u a.1
          d.arrival = none ∧ d.seg = none ∧ d.xerr = false ∧ d.tterr = false ∧ d.pc = c.pc ∧
            d.next = max tr (boundaryAt s.now (periodOf s a.1)) ∧ (latchOf d .x 0).val = BitVec.ofNat 4096 (tr / 252) ∧
            d.run = (if stepsUp s a.1 = true then .stepping else c.run) ∧ ∀ x ∈ d.causes, x.held = false) ∧
        (3 ≤ l.scope.val → ∀ d : Fin 4, (u.dies[d]).rdc = []) ∧
        (l.scope.val < 3 → ∀ d : Fin 4, { u.dies[d] with residue := 0 } = { s.dies[d] with residue := 0 })

/-- R270, R337, R363 to R368: a held message leaves at its trigger's tick; a message enters its destination's buffer
in the order of its sender, or waits for an entry; a unit of an `xput` is written or raises XERR; a message for
another chip leaves in its sender's order and is done once it is performed there; what another chip of the pod sends
sets out here for its member. -/
def Obligations.Messages : Prop :=
  ∀ (s : State) (id : Nat) (f : XFlight), findFlight s id = some f →
    let X (i : Instr) (P : State → Prop) : Prop := ∃ u, exec i s = .next u ∧ P u
    let c := coreOf s f.dst
    let Left (u : State) : Prop := findFlight u id = none ∧ ∀ y, y ≠ id → findFlight u y = findFlight s y
    let Sent (u : State) (o : Out) : Prop := findFlight u id = some { f with sent := true } ∧ u.cores = s.cores ∧
      (∀ y, y ≠ id → findFlight u y = findFlight s y) ∧ u.outbox = s.outbox ++ [{ stamp := s.now / 252, out := o }]
    (∀ (a : Agent) (k : Fin 4) (tick : BitVec 64), ((coreOf s (agentNo a)).trig)[k] = .holding tick id →
      let t := fireTime s (agentNo a) tick f
      252 * tick.toNat ≤ t ∧ f.posted < t ∧ (t ≤ s.now → X (.triggerFire a k) fun u =>
        ((coreOf u (agentNo a)).trig)[k] = .idle ∧ findFlight u id = some { f with due := t + lambda s f.src f.dst, posted := t })) ∧
    (∀ m, f.body = .msg m → X (.xMessage (.own id)) fun u =>
      (isOver s f = true ∨ (dstExited s f = true ∧ isHeldFlight s f = false ∧ isFirst s f = true) → Left u ∧ u.cores = s.cores) ∧
      (isOver s f = false → dstExited s f = false → f.dst < 1000 →
        (mayArrive s f = false → u = s) ∧
        (mayArrive s f = true → (∀ n, n ≠ f.dst → coreOf u n = coreOf s n) ∧
          (c.abuf.length < 64 → c.await = [] → isFirst s f = true →
            Left u ∧ (coreOf u f.dst).abuf = c.abuf ++ [m] ∧ (coreOf u f.dst).await = []) ∧
          (64 ≤ c.abuf.length ∨ c.await ≠ [] ∨ isFirst s f = false →
            u.flights = s.flights ∧ (coreOf u f.dst).abuf = c.abuf ∧ (coreOf u f.dst).await = c.await ++ [id]))) ∧
      (isOver s f = false → dstExited s f = false → isHeldFlight s f = false → mayLeave s f = true →
        Sent u (.xmessage (BitVec.ofNat 16 (remoteChip f.dst)) m))) ∧
    (∀ m, f.body = .msg m → f.sent = true → isFirst s f = true → f.due ≤ s.now →
      Left (befall s (.delivered id)) ∧ (befall s (.delivered id)).cores = s.cores) ∧
    (∀ (n : Fin 256) (m : XMsg) (rest : List Nat), f.body = .msg m → (coreOf s n.val).await = id :: rest →
      ((coreOf s n.val).abuf.length < 64 → isFirst s f = true → X (.xMessageEntry n) fun u => Left u ∧
        (coreOf u n.val).abuf = (coreOf s n.val).abuf ++ [m] ∧ (coreOf u n.val).await = rest) ∧
      (64 ≤ (coreOf s n.val).abuf.length ∨ isFirst s f = false → exec (.xMessageEntry n) s = .next s)) ∧
    (∀ td off len v copy num, f.body = .unit td off len v copy num → isOver s f = false → dstExited s f = false →
      let a := (c.t[td]).a
      (mayLeave s f = true → X (.xputUnit (.own id)) fun u => Sent u (.xunit (BitVec.ofNat 16 (remoteChip f.dst))
        (coreOf s f.src).coreIdx.toNat (remoteMember f.dst) td.val off (toBytes len v.toNat))) ∧
      (f.dst < 1000 → f.src ≠ f.dst → mayArrive s f = true →
        (tRows a = 0 ∨ tRows a * 4096 < off + len → X (.xputUnit (.own id)) fun u => Left u ∧ (coreOf u f.dst).xerr = true ∧
          (coreOf u f.dst).tile = c.tile) ∧
        (tRows a ≠ 0 → off + len ≤ tRows a * 4096 → (∀ q ∈ unitRows (tileAddr a off) len, q ∉ c.evac) → X (.xputUnit (.own id)) fun u => Left u ∧
          (c.run = .running → (coreOf u f.dst).pend = c.pend ++
            [{ when_ := c.cyc, by_ := c.cyc, act := .arrive td (at_ (tileAddr a off) (toBytes len v.toNat)) }]) ∧
          (c.run ≠ .running → c.mixed = [] → (∀ y, beingWritten c td.val y = false) →
            ∀ i, i < len → tileByte (coreOf u f.dst) (tileAddr a off + i) = BitVec.ofNat 8 (v.toNat >>> (8 * i)))))) ∧
    ∀ (v : Via) (k : Kernel), podKernel s = some k →
      let Comes (u : State) (src dst : Nat) (body : Payload) : Prop := u.cores = s.cores ∧ ∃ y, u.flights = s.flights ++ [y] ∧
        y.id = s.nextFlight ∧ y.ord = s.nextFlight ∧ y.src = remoteDst (vSrc v.hdr).toNat src ∧ y.dst = memberCore k dst ∧ y.kernel = some k.id ∧
        y.due = s.now ∧ y.body = body
      (∀ m, m.src < 65536 → m.dst < recMembers k.record → memberCore k m.dst < 1000 →
        Reaches s v 4 (Config.valueUnits (if m.vec then 512 else 8)).toNat false →
        X (.xMessage (.chip v m)) fun u => Comes u m.src m.dst (.msg (if m.vec = true then m else { m with val := (m.val.setWidth 64).setWidth 4096 }))) ∧
      ∀ (src dst off : Nat) (td : Fin 64) (data : List Byte), src < 65536 → dst < recMembers k.record → memberCore k dst < 1000 →
        data.length ≤ 512 → Reaches s v 4 (Config.valueUnits data.length).toNat false →
        X (.xputUnit (.chip v src dst td off data)) fun u =>
          Comes u src dst (.unit td off data.length (BitVec.ofNat 4096 (ofBytes data)) 0 0)

/-! ### What arrives over the fabric -/

/-- R265, R267, R268, R302, R312, R318, R351, R355, R357, R359, R389, R390: launch packets, group aborts and patch
writes, the reads and writes of memory, what is not supported, the epoch, evictions and the scrubber. An access is
performed unit by unit, after those its sender sent before it through the same port and once no page it meets is
moving; a launch packet waits for its sender's writes. In Safe a launch is refused with code 0x02, and memory
requests get an error completion, as does a host's over Ultra Ethernet (R19). Over Ultra Ethernet, for which R355
gives no size, any is served (log 72). -/
def Obligations.FabricTraffic : Prop :=
  ∀ (s : State) (via : Via) (src tag domid : BitVec 16) (p : BitVec 1024) (ctx : Fin 32) (num : Fin 16) (seq : BitVec 32)
      (word : Fin 2048) (pair : Fin 4) (v : BitVec 64) (pa n : Nat) (data : List Byte) (port : Fin 20) (die : Fin 4) (line : Nat)
      (gran : Fin 10) (k : Kernel),
    let X (i : Instr) (P : State → Prop) : Prop := ∃ u, exec i s = .next u ∧ P u
    let gives (u : State) (o : Out) : Prop := u = report s o
    let x : Fin 32 := (p.extractLsb' 512 5).toFin
    let q4 : Fin 16 := (p.extractLsb' 128 4).toFin
    let dst := vSrc via.hdr
    let vtag := vTag via.hdr
    let up := carries (linkAt s port.val) = true
    let ok (pa n : Nat) : Prop := (port.val < 16 ∧ 8 ≤ n ∧ n ≤ 256 ∨ 16 ≤ port.val ∧ 1 ≤ n) ∧ offsetOf pa + n ≤ populated (spaceOf pa)
    let Joins (u : State) (y : FabReq) : Prop := u = { s with fabric := s.fabric ++ [{ y with id := s.nextReq }], nextReq := s.nextReq + 1 }
    let hostUe : Prop := src = 0xFFFF ∧ 16 ≤ port.val
    let writes := ∃ y ∈ s.fabric, y.port = via.port ∧ y.src = dst ∧ y.body = .write
    (∀ sched : Bool, let w : Sender := if sched then .scheduler via else .host via
      carries (linkAt s via.port.val) = true → via.port.val < 16 → vType via.hdr = 1 → vLen via.hdr = 8 →
      vDst via.hdr = s.chip →
      (¬ writes → s.boot = .safe → X (.launchPacket sched via p) fun u => gives u (.report dst vtag 2 2 x q4 0 0)) ∧
      (¬ writes → s.boot ≠ .safe → X (.launchPacket sched via p) fun u =>
        u = (arrive s x (p.setWidth 512) dst vtag (podOf p) none (fld p 575 520 != 0)).1) ∧
      (writes → X (.launchPacket sched via p) fun u => ∃ y, Joins u y ∧ y.body = .packet w p ∧ y.port = via.port ∧ y.src = dst)) ∧
    ((s.kernels.find? fun k => isPlaced k && recLevel k.record == 4 && k.domid == domid) = some k → Reaches s via 2 2 false →
      X (.groupAbort ⟨via, domid⟩) fun u => u = afterEvent (endKernel s k.id .aborted 0 none)) ∧
    (Reaches s via 3 2 true → ((queueIndex s ctx num.val).bind fun q => launchKernel s q seq) = some k →
      (let left := (residents k).filter fun n => k.loaded.contains n || k.saved
       let say : Out := .report dst vtag 5 0 ctx num seq 0
       isPlaced k = true → (word.val, pair.val) ∈ k.patches → X (.patchWrite via ctx num seq word pair v) fun u => u.cores = s.cores ∧
        (left = [] → u.outbox = s.outbox ++ [{ stamp := s.now / 252, out := say }]) ∧
        (left ≠ [] → u.outbox = s.outbox ∧ u.patching = s.patching ++
          [{ id := s.nextReq, kernel := k.id, word := word.val, pair := pair.val, val := v, left := left, answer := say }])) ∧
      (isPlaced k = false ∨ (word.val, pair.val) ∉ k.patches → X (.patchWrite via ctx num seq word pair v) fun u =>
        gives u (.report dst vtag 5 8 ctx num seq 0))) ∧
    (∀ (y : Patching) (j m : Nat), (s.patching.find? fun z => z.id == y.id) = some y → y.left[j]? = some m → y.pair < 4 →
      (isAway s y.kernel m = true → befall s (.patch y.id j) = s) ∧ (isAway s y.kernel m = false → (coreOf s m).kernel = some y.kernel →
      let u := befall s (.patch y.id j)
      (spGet (coreOf u m).istore y.word).extractLsb' (64 * y.pair) 64 = y.val ∧
        (∀ w, w ≠ y.word → spGet (coreOf u m).istore w = spGet (coreOf s m).istore w) ∧ (∀ o, o ≠ m → coreOf u o = coreOf s o) ∧
        ((∀ o ∈ y.left, o = m) → u.outbox = s.outbox ++ [{ stamp := s.now / 252, out := y.answer }]) ∧
        ((∃ o ∈ y.left, o ≠ m) → u.outbox = s.outbox))) ∧
    (up → s.boot ≠ .safe → ok pa n → ¬ hostUe → X (.fabricRead ⟨port, src, tag⟩ pa n) fun u => ∃ y, Joins u y ∧ y.port = port ∧ y.src = src ∧
      y.tag = tag ∧ y.body = .read ∧ y.units = fabricUnits pa n ∧ y.bad = false ∧ (y.raised = true ↔ meetsMove s pa n = false)) ∧
    (up → s.boot ≠ .safe → ok pa data.length → ¬ hostUe → X (.fabricWrite ⟨port, src, tag⟩ ⟨pa, data⟩) fun u => ∃ y, Joins u y ∧ y.port = port ∧
      y.src = src ∧ y.tag = tag ∧ y.body = .write ∧ y.data = data ∧ y.units = fabricUnits pa data.length ∧
      (∀ g, g ∈ y.covers ↔ g % 32 = 0 ∧ pa ≤ g ∧ g + 32 ≤ pa + data.length) ∧ (y.raised = true ↔ meetsMove s pa data.length = false)) ∧
    (up → s.boot = .safe ∨ ¬ ok pa n ∨ hostUe → X (.fabricRead ⟨port, src, tag⟩ pa n) fun u => gives u (.errorCompletion port src tag)) ∧
    (up → s.boot = .safe ∨ ¬ ok pa data.length ∨ hostUe → X (.fabricWrite ⟨port, src, tag⟩ ⟨pa, data⟩) fun u => gives u (.errorCompletion port src tag)) ∧
    (∀ i, i < n → ∃ w ∈ fabricUnits pa n, w.1 ≤ pa + i ∧ pa + i < w.1 + w.2.1) ∧
    (∀ w ∈ fabricUnits pa n, pa ≤ w.1 ∧ w.1 + w.2.1 ≤ pa + n ∧ w.1 % 8 + w.2.1 ≤ 8 ∧ w.2.2 = w.1 - pa) ∧
    (∀ (y : FabReq) (j : Nat) (w : Nat × Nat × Nat), (s.fabric.find? fun z => z.id == y.id) = some y → y.units[j]? = some w →
      let u := befall s (.fabric y.id j)
      let last := ∀ z ∈ y.units, z = w
      let Gone := ∀ z ∈ u.fabric, z.id ≠ y.id
      (reqReady s y = false → u = s) ∧
      (reqReady s y = true → y.body = .read → w.2.2 + w.2.1 ≤ y.data.length → u.mem = s.mem ∧ u.cores = s.cores ∧
        (¬ last → u.outbox = s.outbox ∧ ∃ y', (u.fabric.find? fun z => z.id == y.id) = some y' ∧
          ∀ i, i < w.2.1 → y'.data[w.2.2 + i]? = some (memByte s.mem (w.1 + i))) ∧
        (last → Gone ∧ (y.bad = false → poisonedIn s.poison w.1 w.2.1 = [] → ∃ d, u.outbox = s.outbox ++
            [{ stamp := s.now / 252, out := .readData y.port y.src y.tag d }] ∧ d.length = y.data.length ∧
            ∀ i, i < w.2.1 → d[w.2.2 + i]? = some (memByte s.mem (w.1 + i))) ∧
          (y.bad = true ∨ poisonedIn s.poison w.1 w.2.1 ≠ [] → u.outbox = s.outbox ++
            [{ stamp := s.now / 252, out := .errorCompletion y.port y.src y.tag }]))) ∧
      (reqReady s y = true → y.body = .write → w.2.2 + w.2.1 ≤ y.data.length →
        (∀ e ∈ s.replicas, e.1 + e.2.1 ≤ w.1 ∨ w.1 + w.2.1 ≤ e.1) → u.cores = s.cores ∧
        (∀ i, i < w.2.1 → some (memByte u.mem (w.1 + i)) = y.data[w.2.2 + i]?) ∧
        (∀ z, z < w.1 ∨ w.1 + w.2.1 ≤ z → memByte u.mem z = memByte s.mem z) ∧
        (last → y.bad = false → Gone ∧ u.outbox = s.outbox ∧ ∀ g ∈ y.covers, g ∉ u.poison))) ∧
    (up → X (.unsupportedRequest ⟨port, src, tag⟩ true) fun u => gives u (.errorCompletion port src tag)) ∧
    (up → X (.unsupportedRequest ⟨port, src, tag⟩ false) fun u => u.outbox = s.outbox ∧
      fld (u.links[port]).entry 15 0 = min (fld (s.links[port]).entry 15 0 + 1) 0xFFFF ∧
        fld (u.links[port]).entry 63 16 = fld (s.links[port]).entry 63 16) ∧
    (s.epochSet = false → X (.epochWrite v) fun u => u = { s with epoch := v, epochSet := true }) ∧
    (s.epochSet = true → X (.epochWrite v) fun u => u = s) ∧
    X (.eviction die line) (fun u => u.mem = s.mem ∧ (∀ l ∈ (u.dies[die]).rdc, l.line ≠ line ∧ l ∈ (s.dies[die]).rdc) ∧
      (∀ b ∈ (u.dies[die]).rdcBlocks, line ∉ b) ∧ ∀ b ∈ (u.dies[die]).l2Blocks, line ∉ b) ∧
    X (.scrub ⟨pa, gran⟩ false) (fun u => u = s) ∧
    X (.scrub ⟨pa, gran⟩ true) fun u =>
      let g := pa / 32 * 32
      let d := homeDie g gran.val
      g ∈ u.poison ∧ (∀ y ∈ s.poison, y ∈ u.poison) ∧ u.mem = s.mem ∧ u.cores = s.cores ∧
        (d < 4 → (((dieAt u d).errs[1]).2).toNat = min ((((dieAt s d).errs[1]).2).toNat + 1) 0xFFFFFFFF)

/-! ### Links and time -/

/-- R352 to R354, R357, R364: the states of a link: enabled it trains, trained it is Up or Degraded, the third
failed attempt fails it, a degraded one retrains; one that leaves its alignment reads DEPTH 0; a failure that leaves
no link of the pod with traffic aborts the placed kernels that span chips; alignment by probes, 8000 ticks apart,
the depth one more than the nearer chip's, LAT half the least round trip; the slew of the time root, at most 20
parts per million; a PTP message on another port is counted (R355). The model's choices in it: how LAT and DEPTH
reach the farther chip and what time PTP gives (log 21), which probe ends an alignment and over which link a chip is
aligned when one is lost (log 43), and that the spanning kernels end where no pod link carries traffic (log 57). -/
def Obligations.LinksAndTime : Prop :=
  ∀ (s : State) (p : Fin 20) (q : Fin 16) (lanes : Fin 5) (peer lat : BitVec 16) (pp : BitVec 4) (depth : Fin 16)
      (via : Via) (sent : BitVec 64) (tau : Nat),
    let E (u : State) : BitVec 64 := (u.links[p]).entry
    let e := E s
    let st (u : State) : Nat := fld (E u) 63 61
    let X (i : Instr) (P : State → Prop) : Prop := ∃ u, exec i s = .next u ∧ P u
    let Others (u : State) : Prop := ∀ o : Fin 20, o ≠ p → u.links[o] = s.links[o]
    let ql : Fin 20 := Fin.castLE (by decide) q
    let F (u : State) : BitVec 64 := (u.links[ql]).entry
    let now := s.now / 252
    let other : Prop := ∃ o : Fin 20, o ≠ p ∧ o.val < 16 ∧ fld (s.links[o]).entry 55 40 ≠ 0xFFFF ∧
      (fld (s.links[o]).entry 63 61 = 2 ∨ fld (s.links[o]).entry 63 61 = 3 ∨ fld (s.links[o]).entry 63 61 = 4)
    let spread : List Kernel := s.kernels.filter fun k => isPlaced k && !(otherChips s k).isEmpty
    let failed (u : State) : Prop := st u = 5 ∧ Others u ∧ u.kernels = s.kernels
    let root : Prop := s.epochSet = true ∨ s.chip = Config.timeRoot
    (st s = 0 ∨ st s = 5 → X (.portEnable p) fun u => st u = 1 ∧ fld (E u) 60 0 = fld e 60 0 ∧ (u.links[p]).attempts = 0 ∧ Others u) ∧
    (st s ≠ 0 → ∀ i ∈ [Instr.portDisable p, .ackTimeout p], (other ∨ spread = [] → X i fun u => failed u ∧ fld (E u) 35 32 = 0) ∧
      (¬ other → X i fun u => ∃ f, failed f ∧ fld (E f) 35 32 = 0 ∧
        u = spread.foldl (fun f k => afterEvent (endKernel f k.id .aborted 0 none)) f)) ∧
    (st s = 0 → ∀ i ∈ [Instr.portDisable p, .ackTimeout p], X i fun u => u = s) ∧
    (st s = 1 → (X (.linkTrained p 4 peer pp) fun u => st u = 2 ∧ fld (E u) 60 58 = 4 ∧ fld (E u) 55 40 = peer.toNat ∧
        fld (E u) 39 36 = pp.toNat ∧ fld (E u) 35 0 = fld e 35 0 ∧ Others u) ∧
      ∀ n ∈ [(1 : Fin 5), 2], X (.linkTrained p n peer pp) fun u => st u = 4 ∧ fld (E u) 60 58 = n.val ∧ fld (E u) 57 0 = fld e 57 0 ∧ Others u) ∧
    (st s = 1 → ((s.links[p]).attempts + 1 < 3 → X (.trainingTimeout p) fun u =>
        st u = 1 ∧ (u.links[p]).attempts = (s.links[p]).attempts + 1 ∧ Others u ∧ u.kernels = s.kernels) ∧
      (3 ≤ (s.links[p]).attempts + 1 → (other ∨ spread = []) → X (.trainingTimeout p) failed)) ∧
    (st s ≠ 0 → s.upLink = some p → other ∨ spread = [] → ∀ i ∈ [Instr.portDisable p, .ackTimeout p], X i fun u =>
      let near (o : Fin 20) : Prop := o ≠ p ∧ o.val < 16 ∧ fld (s.links[o]).entry 55 40 ≠ 0xFFFF ∧ fld (s.links[o]).entry 35 32 ≠ 0
      let D (o : Fin 20) : Nat := fld (s.links[o]).entry 35 32
      ((∀ o, ¬ near o) → u.upLink = none ∧ u.depth = 0) ∧
        ((∃ o, near o) → ∃ o, near o ∧ u.upLink = some o ∧ u.depth = D o ∧ ∀ o', near o' → D o ≤ D o')) ∧
    (st s = 2 ∨ st s = 3 → (lanes ∉ [(1 : Fin 5), 2, 4] → X (.linkDegrade p lanes lat) fun u => u = s) ∧
      (lanes ∈ [(1 : Fin 5), 2, 4] → X (.linkDegrade p lanes lat) fun u => st u = 4 ∧ fld (E u) 60 58 = lanes.val ∧
        fld (E u) 57 32 = fld e 57 32 ∧ fld (E u) 31 16 = (if p.val < 16 then lat.toNat else 0) ∧ Others u)) ∧
    (st s = 4 → X (.linkRetrained p) fun u => st u = 2 ∧ fld (E u) 60 58 = 4 ∧ fld (E u) 57 36 = fld e 57 36 ∧ fld (E u) 35 32 = 0 ∧
      fld (E u) 31 0 = fld e 31 0 ∧ (u.links[p]).probes = [] ∧ Others u) ∧
    (let far := BitVec.ofNat 16 (fld (F s) 55 40)
     let trips := (now - sent.toNat) :: (s.links[ql]).probes
     fld (F s) 63 61 = 2 → fld (F s) 55 40 ≠ 0xFFFF →
      (root ∨ s.upLink ≠ none → (s.links[ql]).sent.length < 16 → (∀ t ∈ (s.links[ql]).sent, t + 8000 ≤ now) →
        X (.probeSend q) fun u => (u.links[ql]).sent = (s.links[ql]).sent ++ [now] ∧
          u.outbox = s.outbox ++ [{ stamp := now, out := .probe ql far none }]) ∧
      (¬ root ∧ s.upLink = none ∨ 16 ≤ (s.links[ql]).sent.length → X (.probeSend q) fun u => u = s) ∧
      (via.port = ql → vType via.hdr = 6 → vLen via.hdr = 0 → vDst via.hdr = s.chip → vSrc via.hdr ≠ 0xFFFF →
        (lat = 0 ∨ depth = 0 ∨ 8 < depth.val → X (.alignmentProbe via.port via.hdr depth lat) fun u => u = report s (.probe ql far (some (vTag via.hdr)))) ∧
        (lat ≠ 0 → depth ≠ 0 → depth.val ≤ 8 → X (.alignmentProbe via.port via.hdr depth lat) fun u =>
          fld (F u) 63 61 = 3 ∧ fld (F u) 35 32 = depth.val ∧ fld (F u) 31 16 = lat.toNat ∧
          (¬ root → s.upLink = none → u.depth = depth.val ∧ u.upLink = some ql ∧
            u.now / 252 = max now (vStamp via.hdr + lat.toNat)) ∧
          (root ∨ s.upLink ≠ none → u.depth = s.depth ∧ u.upLink = s.upLink ∧ u.now = s.now)) ∧
        (sent.toNat ∈ (s.links[ql]).sent → (s.links[ql]).probes.length < 15 → X (.probeAnswer via sent) fun u =>
          (u.links[ql]).probes = trips ∧ fld (F u) 63 61 = 2) ∧
        (sent.toNat ∈ (s.links[ql]).sent → (s.links[ql]).probes.length = 15 → s.depth + 1 ≤ 8 → ∀ least, least ∈ trips →
          (∀ y ∈ trips, least ≤ y) → least < 65536 → X (.probeAnswer via sent) fun u =>
            fld (F u) 63 61 = 3 ∧ fld (F u) 35 32 = s.depth + 1 ∧ fld (F u) 31 16 = (least + 1) / 2))) ∧
    (s.epochSet = true → (p.val = 16 ∨ p.val = 18) → carries (linkAt s p.val) = true → X (.ptpMessage ⟨p, tau⟩) fun u =>
      u = { s with slew := max (-20) (min 20 (((tau : Int) - s.epoch.toNat) * 4 / 5 - (now : Int))) }) ∧
    (s.epochSet = false → p.val = 16 ∨ p.val = 18 → X (.ptpMessage ⟨p, tau⟩) fun u => u = s) ∧
    (p.val ≠ 16 → p.val ≠ 18 → carries (linkAt s p.val) = true → X (.ptpMessage ⟨p, tau⟩) fun u => u.outbox = s.outbox ∧ u.slew = s.slew ∧
      fld (E u) 15 0 = min (fld e 15 0 + 1) 0xFFFF ∧ fld (E u) 63 16 = fld e 63 16 ∧ Others u)

/-! ### Contexts, queues, kernels -/

/-- R279, R305, R351, R399: the life of a context: once the device is Operational a Free number is taken, set up and
ready, the runtime firmware says that a kernel of it is placed and that its images are saved, it is destroyed with
its queues torn down and its handles revoked, and Free again once nothing of it is left, a move of its pages
included, what they were forgotten; the end of a kernel whose trap the handler cannot mend. That the lowest Free
number is taken is the model's choice (log entry 56), and so is that only the faulting kernel's cores drain (log
entry 42). The requests that R279 makes the firmware's, and what the other events make of a Ready context with a
kernel placed, are log entry 92. -/
def Obligations.ContextLife : Prop :=
  ∀ (s : State) (root : BitVec 44) (x : Fin 32) (n : Fin 256) (k : Kernel),
    let X (i : Instr) (P : State → Prop) : Prop := ∃ u, exec i s = .next u ∧ P u
    let st (u : State) (y : Fin 32) : CtxSt := (u.contexts[y]).st
    let Answers (u : State) (code value : Nat) : Prop :=
      u.outbox = s.outbox ++ [{ stamp := s.now / 252, out := .firmware (BitVec.ofNat 8 code) (BitVec.ofNat 64 value) }]
    let Others (u : State) : Prop := ∀ y, y ≠ x → u.contexts[y] = s.contexts[y]
    (s.boot ≠ .operational → X (.contextCreate root) fun u => u = answer s 1) ∧
    (s.boot = .operational → st s x = .free → (∀ y, y < x → st s y ≠ .free) → X (.contextCreate root) fun u =>
      st u x = .creating ∧ (u.contexts[x]).root = root ∧ Others u ∧ Answers u 0 x.val) ∧
    (s.boot = .operational → (∀ y, st s y ≠ .free) → X (.contextCreate root) fun u => u = answer s 2) ∧
    (st s x = .creating → X (.setupDone x) fun u => st u x = .ready ∧ Others u ∧ Answers u 0 0 ∧ u.cores = s.cores) ∧
    (st s x ≠ .creating → X (.setupDone x) fun u => u = answer s 1) ∧
    (st s x = .free ∨ st s x = .destroyed → X (.destroy x) fun u => u = answer s 1) ∧
    (st s x ≠ .free → st s x ≠ .destroyed → X (.destroy x) fun u =>
      ∃ v, u = answer (afterEvent v) 0 ∧ st v x = .destroyed ∧
        (∀ m, (coreOf v m).ctx = some x → ∀ h : Fin 16, hValid ((coreOf v m).h[h]) = false) ∧
        ∀ i q, queueAt v i = some q → q.ctx = x → q.st = .torn) ∧
    (st s x = .destroyed → (∀ y ∈ s.kernels, y.ctx ≠ x) → (∀ e ∈ s.cores, e.2.ctx ≠ some x) → (∀ m ∈ s.moves, m.ctx ≠ x) →
      X (.teardownComplete x) fun u =>
      st u x = .free ∧ Others u ∧ (∀ i q, queueAt u i = some q → q.ctx ≠ x ∧ queueAt s i = some q) ∧
        (∀ b ∈ u.buffers, b.ctx ≠ some x) ∧ ∀ y, y ∈ u.replicas ↔ y ∈ s.replicas ∧
          ¬ ∃ t ∈ ctxTables s (s.contexts[x]), t.1 ≤ y.2.2 ∧ y.2.2 < t.1 + t.2) ∧
    (s.boot ≠ .safe → let some' := ∃ y ∈ s.kernels, y.ctx = x ∧ isPlaced y = true
      (st s x = .ready ∧ some' → befall s (.place x) = answer (afterEvent (modCtx s x fun c => { c with st := .running })) 0) ∧
      (¬ (st s x = .ready ∧ some') → befall s (.place x) = answer s 1) ∧
      (st s x = .draining ∧ ¬ some' → befall s (.saved x) = answer (afterEvent (modCtx s x fun c => { c with st := .preempted })) 0) ∧
      (¬ (st s x = .draining ∧ ¬ some') → befall s (.saved x) = answer s 1)) ∧
    (∀ r, kernelAt s n.val = some k → (coreOf s n.val).run = .trapped r → heldRecord s n.val = true → X (.trapUnrecoverable n) fun u =>
      ∃ v, u = afterEvent v ∧ v.contexts = (modCtx (endKernel s k.id .faulted (fld r 55 48) (some n.val)) k.ctx fun c =>
        { c with st := if c.st = .running ∨ c.st = .ready then .faulted else c.st }).contexts ∧
        (isPlaced k = true → ∃ y, findKernel v k.id = some y ∧ y.st = .faulted ∧ y.code_ = BitVec.ofNat 8 (fld r 55 48) ∧ y.group = .vacating)) ∧
    ((s.kernels.find? fun k => k.ctx == x && k.st == .faulted && k.group == .vacating) = some k →
      (∀ m ∈ residents k, (coreOf s m).kernel = some k.id → (∃ r, (coreOf s m).run = .trapped r) ∧ (coreOf s m).copies = []) →
      X (.faultDrainDone x) fun u => ∃ v, u = afterEvent (finishKernel v k) ∧ (∀ m ∈ residents k, (coreOf s m).kernel = some k.id →
        (coreOf v m).run = .vacant ∧ (coreOf v m).kernel = none) ∧
        (st s x = .faulted → ((finishKernel v k).contexts[x]).st = .ready))

/-- R294, R296, R305, R327: the requests on queues and their refusals. That a queue takes the lowest local number
and the lowest device index is the model's choice (log entry 56). That suspend, resume or teardown of no queue, and
queue-create for a context that is Free or Destroyed, are answered 0x01, and that the first code that R327 lists
answers, are the model's choices (log entry 94). -/
def Obligations.QueueRequests : Prop :=
  ∀ (s : State) (x : Fin 32) (base : Fin 8) (num : Fin 16) (r : BitVec 128),
    let X (i : Instr) (P : State → Prop) : Prop := ∃ u, exec i s = .next u ∧ P u
    (ctxLives s x = false → X (.queueCreate x base) fun u => u = answer s 1) ∧
    (ctxLives s x = true → 16 ≤ ((allQueues s).filter fun q => q.2.ctx == x).length → X (.queueCreate x base) fun u => u = answer s 2) ∧
    (ctxLives s x = true → ((allQueues s).filter fun q => q.2.ctx == x).length < 16 → (∀ i, i < 256 → queueAt s i ≠ none) →
      X (.queueCreate x base) fun u => u = answer s 3) ∧
    (∀ i, ctxLives s x = true → ((allQueues s).filter fun q => q.2.ctx == x).length < 16 → i < 256 → queueAt s i = none →
      (∀ j, j < i → queueAt s j ≠ none) → (∀ j q, queueAt s j = some q → q.ctx = x → q.num ≠ num) →
      (∀ m, m < num → ∃ j q, j < 256 ∧ queueAt s j = some q ∧ q.ctx = x ∧ q.num = m) → X (.queueCreate x base) fun u =>
        queueAt u i = some { ctx := x, num := num, base := base, st := .empty, pending := [], nextSeq := 1, outcomes := [], ends := [] } ∧
          (∀ j, j ≠ i → queueAt u j = queueAt s j) ∧
          u.outbox = s.outbox ++ [{ stamp := s.now / 252, out := .firmware 0 (BitVec.ofNat 64 (num.val + 256 * i)) }]) ∧
    (∀ i q, queueIndex s x num.val = some i → queueAt s i = some q →
      (q.st ≠ .torn → X (.suspend x num) fun u => u = answer (setQueue s i { q with st := .suspended }) 0) ∧
      (q.st = .torn → X (.suspend x num) fun u => u = answer s 1) ∧
      (q.st = .suspended → X (.resume x num) fun u => u = answer (afterEvent (setQueue s i { q with st := .empty })) 0) ∧
      (q.st ≠ .suspended → X (.resume x num) fun u => u = answer s 1) ∧
      (q.st = .torn → X (.teardown x num) fun u => u = answer s 0) ∧
      (q.st ≠ .torn → X (.teardown x num) fun u => ∃ v, u = answer (afterEvent v) 0 ∧ ∃ y, queueAt v i = some y ∧ y.st = .torn ∧ y.pending = [] ∧
        ∀ id k, findKernel v id = some k → k.queue = i → isPlaced k = false)) ∧
    (queueIndex s x num.val = none → ∀ i ∈ [Instr.suspend x num, .resume x num, .teardown x num], X i fun u => u = answer s 1) ∧
    (let bad := ctxLives s x = false ∨ fld r 127 100 ≠ 0 ∨ fld r 63 36 ≠ 0
     (bad → X (.supplyDeclaration x r) fun u => u = answer s 1) ∧
     (¬ bad → (queueIndex s x (fld r 99 96) = none ∨ queueIndex s x (fld r 35 32) = none) → X (.supplyDeclaration x r) fun u => u = answer s 2) ∧
     ∀ i j p q, ¬ bad → queueIndex s x (fld r 99 96) = some i → queueIndex s x (fld r 35 32) = some j → queueAt s i = some p → queueAt s j = some q →
      (64 ≤ (s.contexts[x]).decls.length → X (.supplyDeclaration x r) fun u => u = answer s 3) ∧
      ((s.contexts[x]).decls.length < 64 →
        let known := fld r 95 64 ≠ 0 ∧ fld r 95 64 < p.nextSeq.toNat ∧ fld r 31 0 ≠ 0 ∧ fld r 31 0 < q.nextSeq.toNat ∧
          ¬ ((∃ y, launchKernel s j (BitVec.ofNat 32 (fld r 31 0)) = some y ∧ (isPlaced y = true ∨ y.saved = true ∨ y.group ≠ .free)) ∨
            ∃ e ∈ q.ends, e.1.toNat = fld r 31 0 ∧ e.2.2 = true)
        (¬ known → X (.supplyDeclaration x r) fun u => u = answer s 4) ∧
        (known → leadsTo (s.contexts[x]).decls (fld r 35 32, fld r 31 0) 65 (fld r 99 96, fld r 95 64) = true →
          X (.supplyDeclaration x r) fun u => u = answer s 6) ∧
        (known → leadsTo (s.contexts[x]).decls (fld r 35 32, fld r 31 0) 65 (fld r 99 96, fld r 95 64) = false →
          X (.supplyDeclaration x r) fun u =>
            u = answer (afterEvent (modCtx s x fun c => { c with decls := c.decls ++ [r] })) 0)))

/-- R298: the effective level. R295, R299, R303, R308, R311, R323 to R325: a placement decision is followed by the
review of the queues; a decision places no head of a level while a higher one has a group; a loaded member has the
state of R311 and keeps what became pending meanwhile; the placement is reported at once, that of a lock-step pod
group when T0 is fixed, or as it ends before; T0 starts every member; the end of a launch is stored, counted and
reported. Where the reports stand and T0 in them (log entry 34), that no completion word is written when its page is
not present (log entry 39) or is a page table (log entry 83), are the model's choices. -/
def Obligations.KernelsRun : Prop :=
  ∀ (s : State) (id : Nat) (n : Fin 256) (k : Kernel),
    let X (i : Instr) (P : State → Prop) : Prop := ∃ u, exec i s = .next u ∧ P u
    (∀ (q : Queue) (l : Launch),
      let w := s.now / 252 - l.accepted
      effOf s q l = if 6 ≤ q.base.val then q.base.val else min 6 (q.base.val + if w = 0 then 0 else (w - 1) / 1600000)) ∧
    X .choose (fun u => u = afterEvent (chooseGo [7, 6, 5, 4, 3, 2, 1, 0] s)) ∧
    (∀ l qi q x g cores, l < 8 → (∀ m, l < m → candidatesAt s m = []) → nextQueue ((s.rr.toList).getD l 255) (candidatesAt s l) = some qi →
      candidate s qi = some (q, x, k) → findGroup s qi k = some (g, cores) →
        X .choose fun u => u = afterEvent (placeOn { s with rr := s.rr.setIfInBounds l (BitVec.ofNat 8 qi) } qi l k g cores)) ∧
    (∀ qi l g cores, recLock k.record = false ∨ recLevel k.record ≠ 4 → k.launch.issuer = none → (∃ q, queueAt s qi = some q) → k.queue = qi →
      ∃ r, (placeOn s qi l k g cores).outbox = s.outbox ++ [{ stamp := s.now / 252, out := r }] ∧
        ∃ c q w, r = .report k.launch.src k.launch.tag 3 c k.ctx q k.launch.seq w) ∧
    (∀ qi l g cores, recLock k.record = true → recLevel k.record = 4 → (placeOn s qi l k g cores).outbox = s.outbox) ∧
    (findKernel s id = some k → isPlaced k = true → k.group = .held → recLock k.record = true → recLevel k.record = 4 → k.launch.issuer = none →
      (∃ q, queueAt s k.queue = some q) → ∀ e keep code, ∃ c q w, (endKernel s id e code keep).outbox = s.outbox ++
        [{ stamp := s.now / 252, out := .report k.launch.src k.launch.tag 3 c k.ctx q k.launch.seq w }]) ∧
    (recLock k.record = true → k.launch.issuer = none → (∃ q, queueAt s k.queue = some q) → (∀ m ∈ residents k, m ∈ k.loaded) →
      let u := allLoaded s k
      let t := max ((s.now / 252 / 10 + 1) * 10) (if recLevel k.record = 4 then (k.launch.pod.map fun p => p.t0.toNat).getD 0 else 0)
      (∀ y, findKernel s k.id = some y → findKernel u k.id = some { y with group := .starting, t0 := some t }) ∧
        (recLevel k.record ≠ 4 → u.outbox = s.outbox) ∧ (recLevel k.record = 4 →
          ∃ c q w, u.outbox = s.outbox ++ [{ stamp := s.now / 252, out := .report k.launch.src k.launch.tag 3 c k.ctx q k.launch.seq w }] ∧
            (t < 2 ^ 64 → fld w 127 64 = t))) ∧
    (findKernel s id = some k →
      (k.group = .held → k.saved = false → n.val ∈ residents k → n.val ∉ k.loaded → X (.memberLoaded id n) fun u =>
        let d := coreOf u n.val
        let i := indexOf k n.val
        d.pc = BitVec.ofNat 12 k.entry ∧ d.coreIdx = BitVec.ofNat 32 i ∧ d.domain = domainOf k ∧ d.feat = s.neg &&& k.mask ∧
          d.kernel = some k.id ∧ d.ctx = some k.ctx ∧ (∀ j : Fin 32, d.s[j] = if 24 ≤ j.val then recParam k.record (j.val - 24) else 0) ∧
          d.copies = [] ∧ d.causes = (coreOf s n.val).causes ∧ d.pn = 0 ∧ d.p = Core.zero.p ∧ d.delay = none ∧
          (recLock k.record = false → d.run = .running ∧ d.next = boundaryAt s.now (periodOf s n.val)) ∧
          (recLock k.record = true → d.run = .loaded) ∧ ∀ m, m ≠ n.val → coreOf u m = coreOf s m) ∧
      (∀ t, k.t0 = some t → k.group = .starting → t ≤ s.now / 252 → X (.t0Start id) fun u =>
        let ready (m : Nat) : Prop := m ∈ residents k ∧ (k.saved = false ∨ ((coreOf s m).run = .resuming ∧ (coreOf s m).copies = []))
        (∀ m, ready m → (coreOf u m).run = .running ∧ (coreOf u m).next = boundaryAt (252 * t) (periodOf s m) ∧
          (coreOf u m).pc = (coreOf s m).pc) ∧ (∀ m, ¬ ready m → coreOf u m = coreOf s m) ∧
        ∃ y, findKernel u id = some y ∧ y.group = .running ∧
          ((∃ l ∈ s.landings, l.kernel = id) → y.st = .landing) ∧ ((∀ l ∈ s.landings, l.kernel ≠ id) → y.st = .running)) ∧
      (k.st = .running ∨ k.st = .landing → residents k = [] → ∃ y v, exec (.kernelDone id) s = .next (afterEvent (finishKernel v y)) ∧
        findKernel v id = some y ∧ y.st = .done ∧ y.launch = k.launch ∧ y.queue = k.queue ∧ v.mem = s.mem)) ∧
    ∀ (qi : Nat) (l : Launch) (q : Queue) (outcome code : Nat) (placed : Bool), queueAt s qi = some q → qi < 256 → outcome < 8 →
      let u := endLaunch s qi l outcome code placed
      let cw := descCw l.desc
      let h := bindOf s q.ctx cw
      (∃ y, queueAt u qi = some y ∧ y.pending = (q.pending.filter fun p => p.seq != l.seq) ∧
        (q.nextSeq.toNat ≤ l.seq.toNat + 256 → (l.seq, BitVec.ofNat 3 outcome) ∈ y.outcomes) ∧
        y.ends = q.ends ++ [(l.seq, endState outcome, placed)]) ∧
      (l.issuer = none → u.outbox = s.outbox ++
        [{ stamp := s.now / 252, out := .report l.src l.tag 4 (BitVec.ofNat 8 code) q.ctx q.num l.seq (BitVec.ofNat 128 outcome) }]) ∧
      (∀ m y, l.issuer = some (m, y) → descPnen l.desc = true → (coreOf s m).kernel = some y →
        (coreOf u m).pn.getLsbD (descPn l.desc) = true) ∧
      let pa := hBase h + (cw - hVa h)
      (cw = 0 ∨ hPresent h = false ∨ inTables s pa 8 = true → u.mem = s.mem) ∧
      (cw ≠ 0 → hPresent h = true → inTables s pa 8 = false → isReplicated s (hBase h) = false →
        ofBytes (memRead u.mem pa 8) = (outcome + code * 256 + l.seq.toNat * 2 ^ 32) % 2 ^ 64)

/-! ### Pages -/

/-- R342, R344, R345, R350, R351: hint records, and the life of a page: mapped in its place, replicated, moved or
unmapped through Moving and Rebound, its handles revoked and its waiting accesses released; its keep list cleared.
In Safe the page unit does nothing (R29, R400). Where the firmware puts a page table that a map needs (log entry
48), and that a move of a Held page is judged by HOME first (log entry 81), are the model's choices. So is that
frame i of a replicate request is judged against die i (log entry 96). -/
def Obligations.PageLife : Prop :=
  (∀ (s : State) (x : Fin 32) (va : BitVec 48) (psz : Fin 3) (frame : BitVec 44) (rd wr : Bool) (r : BitVec 256),
    let X (i : Instr) (P : State → Prop) : Prop := ∃ u, exec i s = .next u ∧ P u
    let Refused (i : Instr) (c : Nat) : Prop := X i fun u => u = answer s c
    let l := (s.contexts[x]).hints
    let v := va.toNat / pageSize psz.val * pageSize psz.val
    let h := hintOf s x v
    let M := Instr.map x va psz frame rd wr
    let done : Posted := { stamp := s.now / 252, out := .firmware 0 0 }
    s.boot ≠ .safe →
    (ctxLives s x = false → Refused (.hintRecord x r) 1 ∧ Refused M 1) ∧
    (ctxLives s x = true → (hintBad r = true ∨ ∃ y ∈ l, hBaseVa r < hBaseVa y + hLen y ∧ hBaseVa y < hBaseVa r + hLen r) →
      Refused (.hintRecord x r) 5) ∧
    (ctxLives s x = true → hintBad r = false → (∀ y ∈ l, hBaseVa y + hLen y ≤ hBaseVa r ∨ hBaseVa r + hLen r ≤ hBaseVa y) →
      (256 ≤ l.length → Refused (.hintRecord x r) 6) ∧
      (l.length < 256 → X (.hintRecord x r) fun u => (u.contexts[x]).hints = l ++ [r] ∧ u.outbox = s.outbox ++ [done])) ∧
    (ctxLives s x = true → (walk s x v).isSome = true ∨ (moveAt s x v).isSome = true → Refused M 3) ∧
    (ctxLives s x = true → walk s x v = none → moveAt s x v = none →
      (wrongPlace h frame.toNat psz.val = true → Refused M 2) ∧
      (wrongPlace h frame.toNat psz.val = false →
        let w := entryFor s x v psz.val
        (∀ a, entryPlace s x v psz.val = some a → w = (s, a)) ∧
        ((readEntry w.1 w.2).getLsbD 63 = true → Refused M 3) ∧
        ((readEntry w.1 w.2).getLsbD 63 = false → X M fun u =>
          let e := readEntry u w.2
          e.getLsbD 63 = true ∧ fld e 62 61 = 1 ∧ e.getLsbD 60 = rd ∧ e.getLsbD 59 = wr ∧ fld e 43 0 = frame.toNat ∧
            fld e 58 56 = (if isHeldPage s h = true then 2 else 0) ∧ u.outbox = s.outbox ++ [done] ∧
            ∀ y, y < w.2 ∨ w.2 + 8 ≤ y → memByte u.mem y = memByte w.1.mem y)))) ∧
  (∀ (s : State) (a size : Nat), size = 256 ∨ size = 4096 →
    let t := newTable s size
    let w := tableUnder s a size
    t % size = 0 ∧ offsetOf t + size ≤ populated (spaceOf t) ∧
      (∀ b, tableOf (readEntry s a) size = some b → w = (s, b)) ∧
      (tableOf (readEntry s a) size = none → w.2 = t ∧ tableOf (readEntry w.1 a) size = some t ∧
        ∀ y, y < a ∨ a + 8 ≤ y → memByte w.1.mem y = if t ≤ y ∧ y < t + size then 0 else memByte s.mem y)) ∧
  (∀ (s : State) (x : Fin 32) (va : BitVec 48) (frame : BitVec 44) (frames : List (BitVec 44)) (l : Leaf),
    let X (i : Instr) (P : State → Prop) : Prop := ∃ u, exec i s = .next u ∧ P u
    let Refused (i : Instr) (c : Nat) : Prop := X i fun u => u = answer s c
    let h := hintOf s x va.toNat
    let base := leafFrame l
    let state (u : State) : Nat := fld (readEntry u l.at_) 58 56
    let Purged (u : State) : Prop := ∀ e ∈ u.cores, (∀ y ∈ e.2.tcache, fld y.2 43 16 * 65536 ≠ base) ∧ ∀ y ∈ e.2.walked, hBase y.2 ≠ base
    let Moving (f : Option (BitVec 44)) (held : Bool) (u : State) : Prop := state u = 3 ∧ Purged u ∧ ∃ m, u.moves = s.moves ++ [m] ∧
      m.ctx = x ∧ m.va.toNat = va.toNat / pageSize l.psz * pageSize l.psz ∧ m.frame = f ∧ m.rebound = false ∧ m.held = held
    let done : Posted := { stamp := s.now / 252, out := .firmware 0 0 }
    (s.boot = .safe → ∀ i ∈ [Instr.replicate x va frames, .move x va frame, .unmap x va, .busyCountZero x va, .revocationComplete x va],
      X i fun u => u = s) ∧
    (s.boot ≠ .safe →
    (ctxLives s x = false ∨ walk s x va.toNat = none ∨ (moveAt s x va.toNat).isSome = true →
      ∀ i ∈ [Instr.replicate x va frames, .move x va frame, .unmap x va], Refused i 3) ∧
    (ctxLives s x = true → walk s x va.toNat = some l → moveAt s x va.toNat = none →
      (isReplicated s base = true → Refused (.replicate x va frames) 3) ∧
      (isReplicated s base = false → (∀ r, h = some r → hMu r = false) → Refused (.replicate x va frames) 4) ∧
      (∀ r, isReplicated s base = false → h = some r → hMu r = true → hHome r ≠ 0 → Refused (.replicate x va frames) 2) ∧
      (∀ r, isReplicated s base = false → h = some r → hMu r = true → hHome r = 0 → (∀ i, (k : i < frames.length) →
        spaceOf (frames[i]).toNat = i ∧ frameOk (frames[i]).toNat l.psz = true) → X (.replicate x va frames) fun u =>
          isReplicated u base = true ∧ state u = 1 ∧ Purged u ∧ u.outbox = s.outbox ++ [done]) ∧
      (fld l.entry 58 56 = 2 → Refused (.unmap x va) 1) ∧
      (fld l.entry 58 56 ≠ 2 → X (.unmap x va) (Moving none false)) ∧
      (∀ r, h = some r → hHome r ≠ 0 → Refused (.move x va frame) 2) ∧
      (wrongPlace h frame.toNat l.psz = false → (∀ r, h = some r → hHome r = 0) →
        (fld l.entry 58 56 = 2 → ∀ r, h = some r → hKeepDies r ≠ 0 → spaceOf frame.toNat < 4 ∧ (hKeepDies r).testBit (spaceOf frame.toNat) = true) →
        X (.move x va frame) (Moving (some frame) (fld l.entry 58 56 == 2))) ∧
      (∀ r, h = some r → hHome r = 0 → fld l.entry 58 56 = 2 → hKeepDies r ≠ 0 →
        ¬ (spaceOf frame.toNat < 4 ∧ (hKeepDies r).testBit (spaceOf frame.toNat) = true) → Refused (.move x va frame) 1)))) ∧
  (∀ (s : State) (x : Fin 32) (va vb : BitVec 48) (r : BitVec 256) (l : Leaf),
    let k := befall s (.keepCleared x va)
    let In (y : BitVec 256) (a : Nat) : Prop := hBaseVa y ≤ a ∧ a < hBaseVa y + hLen y
    s.boot ≠ .safe → ctxLives s x = true → hintOf s x va.toNat = some r →
    ((∃ m ∈ s.moves, m.ctx = x ∧ In r m.va.toNat) → k = s) ∧
    ((∀ m ∈ s.moves, m.ctx = x → ¬ In r m.va.toNat) →
      (∀ y ∈ (k.contexts[x]).hints, In y va.toNat → hKeepDies y = 0 ∧ fld y 255 192 = 2 ^ 64 - 1) ∧
      (k.outbox = s.outbox ∧ k.moves = s.moves ∧ k.kernels = s.kernels) ∧
      ((s.contexts[x]).root.toNat % 8 = 0 → walk s x vb.toNat = some l → vb.toNat % pageSize l.psz = 0 → In r vb.toNat →
        fld l.entry 58 56 = 2 → fld (readEntry k l.at_) 58 56 = 0 ∧
          ∀ e ∈ k.cores, (∀ y ∈ e.2.tcache, fld y.2 43 16 * 65536 ≠ leafFrame l) ∧ ∀ y ∈ e.2.walked, hBase y.2 ≠ leafFrame l))) ∧
  (∀ (s : State) (x : Fin 32) (va : BitVec 48) (m : PageMove) (a : Nat),
    let X (i : Instr) (P : State → Prop) : Prop := ∃ u, exec i s = .next u ∧ P u
    let base := m.old.toNat
    s.boot ≠ .safe → moveAt s x va.toNat = some m → entryPlace s x va.toNat m.psz.val = some a →
      (m.rebound = false → countOf s.busy base = 0 → busyFabric s base (pageSize m.psz.val) = false → X (.busyCountZero x va) fun u =>
        { m with rebound := true } ∈ u.moves ∧ m ∉ u.moves ∧ (m.frame = none → (readEntry u a).getLsbD 63 = false) ∧
          (∀ f, m.frame = some f → fld (readEntry u a) 43 8 = f.toNat / 256 ∧ fld (readEntry u a) 58 56 = 4) ∧
          (∀ n (h : Fin 16), hValid (coreOf u n).h[h] = true → hBase (coreOf u n).h[h] ≠ base) ∧
          ∀ (d : Fin 4), ∀ y ∈ (u.dies[d]).rdc, 128 * y.line < base ∨ base + pageSize m.psz.val ≤ 128 * y.line) ∧
      (m.rebound = true → X (.revocationComplete x va) fun u =>
        m ∉ u.moves ∧ (∀ f, m.frame = some f → (∀ e ∈ u.cores, ∀ y ∈ e.2.tcache, fld y.2 43 16 * 65536 ≠ f.toNat) ∧
          ∀ y ∈ s.fabric, y.raised = false → ∃ z ∈ u.fabric, z.id = y.id ∧ z.units.length = y.units.length ∧
            ∀ w ∈ z.units, ∃ w' ∈ y.units, w.2 = w'.2 ∧
              w.1 = if base ≤ w'.1 ∧ w'.1 < base + pageSize m.psz.val then w'.1 - base + f.toNat else w'.1) ∧
        (∀ n, (coreOf u n).copies = (coreOf s n).copies.map (releaseCopy base m.frame)) ∧
          (∀ f, m.frame = some f → fld (readEntry u a) 58 56 = if m.held then 2 else 0) ∧ (m.frame = none → u.mem = s.mem))) ∧
  ∀ (s : State) (old new size : Nat), Memory.wf s.mem = true → old + size ≤ new ∨ new + size ≤ old →
    let u := copyPage s old new size
    (∀ i, i < size → memByte u.mem (new + i) = memByte s.mem (old + i)) ∧
      ∀ y, y < new ∨ new + size ≤ y → memByte u.mem y = memByte s.mem y

/-! ### Operating points and rows -/

/-- R377, R381 to R387: steps between operating points: the requests and their refusals, the notices of a step down
to the members not vacant, its deadline, the evacuation and its row copies, and the switch. The order of the
refusals, and the answer 0 where every named die stands at its target, are the model's choices (log entry 61). -/
def Obligations.OperatingPoints : Prop :=
  ∀ (s : State) (r : BitVec 64) (id : Nat) (x : OpStep) (n : Fin 256) (row : Nat),
    let X (i : Instr) (P : State → Prop) : Prop := ∃ u, exec i s = .next u ∧ P u
    let told (code : BitVec 8) : Posted := { stamp := s.now / 252, out := .firmware code 0 }
    let t := fld r 6 4
    let named (d : Fin 4) : Prop := r.getLsbD d.val = true
    let op (u : State) (d : Fin 4) : Fin 6 := (u.dies[d]).op
    let bad := fld r 31 7 ≠ 0 ∨ 5 < t ∨ s.permit = none ∨ (∃ p, s.permit = some p ∧ t < p.val) ∨ s.boot = .safe
    let stepping := ∃ d, named d ∧ ∃ y ∈ s.steps, y.dies.getLsbD d.val = true
    let pod := ∃ k ∈ s.kernels, k.group ≠ .free ∧ (∃ m ∈ k.members, r.getLsbD (dieOf m) = true ∧ dieOf m < 4) ∧ recLevel k.record = 4
    let mixed := (∃ d, named d ∧ t < (op s d).val) ∧ ∃ d, named d ∧ (op s d).val < t
    let Fits := ¬ bad ∧ ¬ stepping ∧ ¬ pod ∧ ¬ mixed
    (bad → X (.stepRequest r) fun u => u = answer s 2) ∧ (¬ bad → stepping → X (.stepRequest r) fun u => u = answer s 3) ∧
    (¬ bad → ¬ stepping → pod → X (.stepRequest r) fun u => u = answer s 4) ∧
    (¬ bad → ¬ stepping → ¬ pod → mixed → X (.stepRequest r) fun u => u = answer s 5) ∧
    (Fits → (∀ d, named d → (op s d).val = t) → X (.stepRequest r) fun u => u = answer s 0) ∧
    (Fits → (∃ d, named d ∧ (op s d).val ≠ t) → X (.stepRequest r) fun u => ∃ y, u.steps = s.steps ++ [y] ∧ y.target.val = t ∧
      (∀ d : Fin 4, y.dies.getLsbD d.val = true ↔ named d ∧ (op s d).val ≠ t) ∧ y.deadline = s.now / 252 + fld r 63 32 ∧
      (y.up = true ↔ ∃ d, named d ∧ t < (op s d).val) ∧ (y.up = true → u.cores = s.cores) ∧
      (y.up = false → ∀ k ∈ affected s y.dies, ∀ m ∈ residents k,
        (isOff s k m = false → ∃ c ∈ (coreOf u m).causes, c.code = 0x10) ∧
          (isOff s k m = true → (∀ k' ∈ s.kernels, k'.id ≠ k.id → m ∉ residents k') → coreOf u m = coreOf s m))) ∧
    (findStep s id = some x →
      (x.up = false → x.judged = false → x.deadline ≤ s.now / 252 → X (.stepDeadline id) fun u =>
        findStep u id = some { x with judged := true, refused := refusedDies s x } ∧ u.cores = s.cores) ∧
      (x.up = true → X (.stepWithdraw id) fun u => ∃ v, u = afterEvent v ∧ findStep v id = none ∧ v.outbox = s.outbox ++ [told 0] ∧
        v.dies = s.dies) ∧
      (x.up = false → X (.stepWithdraw id) fun u => u = s) ∧
      (let ref := if x.judged then x.refused else refusedDies s x
       let go := x.dies &&& ~~~ ref
       x.up = false → x.evacuated = false → (x.judged = true ∨ ∀ k ∈ affected s x.dies, allAnswered s k = true) →
        (∀ k ∈ affected s go, ∀ m ∈ residents k, go.getLsbD (dieOf m) = true → rowsFit s m x.target.val = true) →
        X (.evacuation id) fun u => findStep u id = some { x with judged := true, refused := ref, evacuated := true } ∧
          u.dies = s.dies ∧ u.kernels = s.kernels ∧
          ∀ m, m < 256 → go.getLsbD (dieOf m) = true → ∀ k, kernelAt s m = some k → k.group ≠ .vacating →
            badRows s m (recRows k.record) x.target.val ≠ [] → (coreOf u m).evac = badRows s m (recRows k.record) x.target.val) ∧
      (x.up = false → x.evacuated = true → (∀ m, m < 256 → (x.dies &&& ~~~ x.refused).getLsbD (dieOf m) = true → (coreOf s m).evac = []) →
        X (.stepSwitch id) fun u => ∃ v, u = afterEvent v ∧ findStep v id = none ∧
          v.outbox = s.outbox ++ [told (if x.refused &&& x.dies = 0 then 0 else 1)] ∧
          ∀ d : Fin 4, op v d = if (x.dies &&& ~~~ x.refused).getLsbD d.val = true then x.target else op s d) ∧
      (x.up = true → readyDies s x = x.dies → x.dies ≠ 0 → X (.stepSwitch id) fun u => ∃ v, u = afterEvent v ∧ findStep v id = none ∧
        v.outbox = s.outbox ++ [told 0] ∧ ∀ d : Fin 4, op v d = if x.dies.getLsbD d.val = true then x.target else op s d)) ∧
    ∀ b p, stepTarget s n.val = some b → row ∈ (coreOf s n.val).evac → countOf (coreOf s n.val).rowBusy row = 0 →
      destination (coreOf s n.val) (opOf' s n.val) (declaredRows s n.val) b = some p → X (.rowCopy n row) fun u =>
        row ∉ (coreOf u n.val).evac ∧ (∀ q, q ≠ row → q ∈ (coreOf s n.val).evac → q ∈ (coreOf u n.val).evac) ∧
          liveRow (coreOf u n.val) (opOf' s n.val) row = p ∧ goodAt (rowClass (coreOf s n.val) p) b = true ∧
          (∀ q, q ≠ row → liveRow (coreOf u n.val) (opOf' s n.val) q = liveRow (coreOf s n.val) (opOf' s n.val) q) ∧
          ∀ m, m ≠ n.val → coreOf u m = coreOf s m

/-! ### Rewinds, pairs, the heartbeat -/

/-- R338, R339: a rewind puts every item of the shadow back, keeps the record and withdraws the core's own arrival.
R392 to R394, R396 to R398: a mismatch of a pair, before and after its core has frozen, a hall's beat, and a pair
that stops beating or is restarted. That one record stands for both cores of a pair (log entry 73), that the hall's
own service pair is sampled, and that 20 ms run from the last beat or from the pair's start (log entry 64), are the
model's choices. -/
def Obligations.Reliability : Prop :=
  ∀ (s : State) (n : Fin 256) (h : Fin 32) (sh : Shadow),
    let X (i : Instr) (P : State → Prop) : Prop := ∃ u, exec i s = .next u ∧ P u
    let c := coreOf s n.val
    let sv (u : State) : Core := coreOf u (256 + h.val)
    let t := s.now / 252 / 8000000 * 8000000
    let Fails (v : State) : Prop := (sv v).run = .halted ∧ (sv v).handler = false ∧ (sv v).ret = none ∧ (sv v).returning = false ∧
      (sv v).queue = [] ∧ (sv v).request = none ∧ (sv v).reply = none ∧ ((sv s).copies = [] → v.kernels = s.kernels ∧ v.mem = s.mem ∧ (sv v).copies = [] ∧
        ∀ m, m ≠ 256 + h.val → coreOf v m = coreOf s m)
    let frozen := (c.sigs ≠ [] ∨ c.differs ≠ none) ∧ ((c.run = .exiting ∧ ∀ k, kernelAt s n.val = some k → k.group ≠ .vacating) ∨
      ∃ q, c.run = .trapped q ∧ fld q 55 48 = 0 ∧ heldRecord s n.val = false)
    let sampled := ((List.range 8).map (8 * h.val + ·)).filter (fun m => (coreOf s m).run != .trailing) ++ [256 + h.val]
    let beats := (sv s).run ≠ .halted ∧ (sv s).run ≠ .vacant ∧ h ∉ s.muted
    let overdue := s.boot ≠ .safe ∧ (sv s).run ≠ .vacant ∧ ¬ beats ∧ s.beatAt[h] + 16000000 ≤ s.now / 252
    (∀ q, c.run = .trapped q → c.seg = some sh → c.copies = [] → X (.rewind n) fun u =>
      let d := coreOf u n.val
      d.s = sh.s ∧ d.v = sh.v ∧ d.p = sh.p ∧ d.msk = sh.msk ∧ d.rings = sh.rings ∧ d.walk = sh.walk ∧ d.stair = sh.stair ∧
        d.vflags = sh.vflags ∧ d.bsat = sh.bsat ∧ d.bzero = sh.bzero ∧ d.pc = sh.pc ∧ d.delay = sh.delay ∧ d.run = c.run ∧
        d.arrival = none ∧ (c.arrival = none → d.lands = c.lands) ∧ d.mx.run = none ∧
        u.outbox = s.outbox ++ [{ stamp := s.now / 252, out := .firmware 0 0 }] ∧
        (∀ l ∈ u.landings, l.tr = none → l.kernel = kernelNo s n.val → ∀ a ∈ l.arrived, a.1 ≠ n.val) ∧
        ∀ l ∈ s.landings, l.tr ≠ none ∨ l.kernel ≠ kernelNo s n.val → l ∈ u.landings) ∧
    ((∀ q, c.run ≠ .trapped q) ∨ c.seg = none → X (.rewind n) fun u => u = answer s 1) ∧
    (leadsPair s n.val = true → ¬ frozen → X (.pairMismatch (.compute n)) fun u =>
      (∃ y ∈ (coreOf u n.val).causes, y.code = 0x0F) ∧ (∃ y ∈ (coreOf u (n.val + 1)).causes, y.code = 0x0F) ∧
        ∀ m, m ≠ n.val → m ≠ n.val + 1 → coreOf u m = coreOf s m) ∧
    (leadsPair s n.val = true → frozen → X (.pairMismatch (.compute n)) fun u =>
      (∃ q, (coreOf u n.val).run = .trapped q ∧ fld q 55 48 = 0x0F ∧ q ∈ (coreOf u (256 + n.val / 8)).queue) ∧
        ∀ m, m ≠ n.val → m ≠ 256 + n.val / 8 → coreOf u m = coreOf s m) ∧
    (leadsPair s n.val = false → X (.pairMismatch (.compute n)) fun u => u = s) ∧
    X (.pairMismatch (.service h)) (fun u => ∃ v, Fails v ∧ u = endHall v h.val) ∧
    X (.pairMismatch .mgmt) (fun u => u.boot = .safe ∧ u.bootCause = 5 ∧ ∀ m, m < 289 → (coreOf u m).run = .halted) ∧
    (s.beatAt[h] < t → beats → X (.beat h) fun u => u.beatAt[h] = t ∧
      u.outbox = s.outbox ++ [{ stamp := s.now / 252, out := .beat h (sampled.map fun m => (coreOf s m).words) (sampled.map fun m => (coreOf s m).prog) }] ∧
      (∀ m, m ∉ sampled → coreOf u m = coreOf s m) ∧
      ∀ m ∈ sampled,
        let a := coreOf s m
        let d := coreOf u m
        let miss := a.prog = false ∧ a.waited = false ∧ a.run = .running ∧ a.arrival = none ∧ a.kernel ≠ none
        d.beats = a.beats + 1 ∧ d.prog = false ∧ (miss → d.misses = a.misses + 1) ∧ (¬ miss → d.misses = 0) ∧
          (miss → 1 ≤ a.misses → ∃ y ∈ d.causes, y.code = 0x12) ∧ (¬ miss ∨ a.misses = 0 → d.causes = a.causes)) ∧
    (t ≤ s.beatAt[h] ∨ ¬ beats → X (.beat h) fun u => u = s) ∧
    (overdue → X (.beatTimeout h) fun u =>
      ∃ v, Fails v ∧ u = { endHall v h.val with beatAt := s.beatAt.set h (s.now / 252) }) ∧
    (¬ overdue → X (.beatTimeout h) fun u => u = s) ∧
    ((sv s).run = .halted → s.boot ≠ .safe → X (.servicePairRestart h) fun u =>
      (sv u).run = .running ∧ (sv u).pc = 0 ∧ (sv u).handler = false ∧ s.now < (sv u).next ∧ u.beatAt[h] = s.now / 252 ∧ h ∉ u.muted ∧
        (sv u).next ≤ s.now + periodOf s (256 + h.val) ∧ ∀ m, m ≠ 256 + h.val → coreOf u m = coreOf s m)
end

