-- ==== Sys2Proof/Laws/Bits.lean ====
section
/-!
SUPPORT. Laws/Bits.lean: what replacing a bit field does to every bit.
-/
namespace Sys2Proof.Machine

/-- The part of a number under a field's mask. -/
theorem and_field (x lo w : Nat) : x &&& ((2 ^ w - 1) <<< lo) = (x / 2 ^ lo % 2 ^ w) * 2 ^ lo := by
  apply Nat.eq_of_testBit_eq
  intro i
  rw [Nat.testBit_and, Nat.testBit_shiftLeft, Nat.testBit_two_pow_sub_one, Nat.mul_comm,
    Nat.testBit_two_pow_mul, Nat.testBit_mod_two_pow, Nat.testBit_div_two_pow]
  by_cases h : lo ≤ i
  · by_cases h2 : i - lo < w <;> simp [h, h2, Nat.sub_add_cancel h]
  · simp [h]

/-- A number by the parts above, in and below a field. -/
theorem split_field (x lo w : Nat) :
    x = 2 ^ (lo + w) * (x / 2 ^ (lo + w)) + (2 ^ lo * (x / 2 ^ lo % 2 ^ w) + x % 2 ^ lo) := by
  have h1 := Nat.div_add_mod x (2 ^ lo)
  have h2 := Nat.div_add_mod (x / 2 ^ lo) (2 ^ w)
  rw [Nat.div_div_eq_div_mul, ← Nat.pow_add] at h2
  rw [Nat.pow_add, Nat.mul_assoc, ← Nat.add_assoc, ← Nat.mul_add, ← Nat.pow_add, h2, h1]

theorem putFld_toNat (x : BitVec n) (hi lo v : Nat) :
    (putFld x hi lo v).toNat =
      (2 ^ (lo + (hi + 1 - lo)) * (x.toNat / 2 ^ (lo + (hi + 1 - lo))) +
        (2 ^ lo * (v % 2 ^ (hi + 1 - lo)) + x.toNat % 2 ^ lo)) % 2 ^ n := by
  unfold putFld
  dsimp only
  rw [BitVec.toNat_ofNat, and_field]
  congr 1
  have h := split_field x.toNat lo (hi + 1 - lo)
  rw [Nat.shiftLeft_eq, Nat.mul_comm _ (2 ^ lo), Nat.mul_comm _ (2 ^ lo)]
  omega

/-- Bit j after a field is replaced: a bit of the new value inside the field, the old bit outside it. -/
theorem putFld_getLsbD (x : BitVec n) (hi lo v j : Nat) (hlo : lo ≤ hi) :
    (putFld x hi lo v).getLsbD j = if lo ≤ j ∧ j ≤ hi then (decide (j < n) && v.testBit (j - lo)) else x.getLsbD j := by
  by_cases hj : j < n
  · rw [BitVec.getLsbD, putFld_toNat, Nat.testBit_mod_two_pow]
    simp only [hj, decide_true, Bool.true_and]
    have hw : lo + (hi + 1 - lo) = hi + 1 := by omega
    have hv : v % 2 ^ (hi + 1 - lo) < 2 ^ (hi + 1 - lo) := Nat.mod_lt _ (Nat.two_pow_pos _)
    have hc : x.toNat % 2 ^ lo < 2 ^ lo := Nat.mod_lt _ (Nat.two_pow_pos _)
    have hb : 2 ^ lo * (v % 2 ^ (hi + 1 - lo)) + x.toNat % 2 ^ lo < 2 ^ (lo + (hi + 1 - lo)) := by
      rw [Nat.pow_add]
      calc 2 ^ lo * (v % 2 ^ (hi + 1 - lo)) + x.toNat % 2 ^ lo
          < 2 ^ lo * (v % 2 ^ (hi + 1 - lo)) + 2 ^ lo := by omega
        _ = 2 ^ lo * (v % 2 ^ (hi + 1 - lo) + 1) := by rw [Nat.mul_add, Nat.mul_one]
        _ ≤ _ := Nat.mul_le_mul_left _ (by omega)
    rw [Nat.testBit_two_pow_mul_add _ hb, hw]
    by_cases h1 : j < hi + 1
    · rw [if_pos h1, Nat.testBit_two_pow_mul_add _ hc]
      by_cases h2 : j < lo
      · rw [if_pos h2, if_neg (by omega), Nat.testBit_mod_two_pow]; simp [h2]; rfl
      · rw [if_neg h2, if_pos (by omega), Nat.testBit_mod_two_pow]
        simp only [show j - lo < hi + 1 - lo by omega, decide_true, Bool.true_and]
    · rw [if_neg h1, if_neg (by omega), Nat.testBit_div_two_pow, Nat.sub_add_cancel (by omega)]; rfl
  · rw [BitVec.getLsbD_of_ge _ _ (by omega), BitVec.getLsbD_of_ge _ _ (by omega)]
    simp [hj]

/-- One bit replaced. -/
theorem putFld_bit (x : BitVec n) (k j : Nat) (b : Bool) (hk : k < n) :
    (putFld x k k b.toNat).getLsbD j = if j = k then b else x.getLsbD j := by
  rw [putFld_getLsbD _ _ _ _ _ (Nat.le_refl k)]
  by_cases h : j = k
  · subst h
    simp only [Nat.le_refl, and_self, if_true, hk, decide_true, Bool.true_and, Nat.sub_self]
    cases b <;> rfl
  · rw [if_neg (by omega), if_neg h]

end Sys2Proof.Machine
end

