-- ==== Sys2Proof/Laws/State.lean ====
section
/-!
SUPPORT. Laws/State.lean: what each named update of the state leaves as it was, one lemma for each field.
-/
namespace Sys2Proof.Machine

/-! ### setCore -/

@[simp] theorem setCore_now (s : State) (n : Nat) (c : Core) : (setCore s n c).now = s.now := rfl
@[simp] theorem setCore_agenda (s : State) (n : Nat) (c : Core) : (setCore s n c).agenda = s.agenda := rfl
@[simp] theorem setCore_ties (s : State) (n : Nat) (c : Core) : (setCore s n c).ties = s.ties := rfl
@[simp] theorem setCore_fresh (s : State) (n : Nat) (c : Core) : (setCore s n c).fresh = s.fresh := rfl
@[simp] theorem setCore_turn (s : State) (n : Nat) (c : Core) : (setCore s n c).turn = s.turn := rfl
@[simp] theorem setCore_outbox (s : State) (n : Nat) (c : Core) : (setCore s n c).outbox = s.outbox := rfl
@[simp] theorem setCore_boot (s : State) (n : Nat) (c : Core) : (setCore s n c).boot = s.boot := rfl
@[simp] theorem setCore_bootCause (s : State) (n : Nat) (c : Core) : (setCore s n c).bootCause = s.bootCause := rfl
@[simp] theorem setCore_bootUnit (s : State) (n : Nat) (c : Core) : (setCore s n c).bootUnit = s.bootUnit := rfl
@[simp] theorem setCore_offer (s : State) (n : Nat) (c : Core) : (setCore s n c).offer = s.offer := rfl
@[simp] theorem setCore_neg (s : State) (n : Nat) (c : Core) : (setCore s n c).neg = s.neg := rfl
@[simp] theorem setCore_negSet (s : State) (n : Nat) (c : Core) : (setCore s n c).negSet = s.negSet := rfl
@[simp] theorem setCore_permit (s : State) (n : Nat) (c : Core) : (setCore s n c).permit = s.permit := rfl
@[simp] theorem setCore_fusedMin (s : State) (n : Nat) (c : Core) : (setCore s n c).fusedMin = s.fusedMin := rfl
@[simp] theorem setCore_stage (s : State) (n : Nat) (c : Core) : (setCore s n c).stage = s.stage := rfl
@[simp] theorem setCore_firmware (s : State) (n : Nat) (c : Core) : (setCore s n c).firmware = s.firmware := rfl
@[simp] theorem setCore_mem (s : State) (n : Nat) (c : Core) : (setCore s n c).mem = s.mem := rfl
@[simp] theorem setCore_poison (s : State) (n : Nat) (c : Core) : (setCore s n c).poison = s.poison := rfl
@[simp] theorem setCore_busy (s : State) (n : Nat) (c : Core) : (setCore s n c).busy = s.busy := rfl
@[simp] theorem setCore_moves (s : State) (n : Nat) (c : Core) : (setCore s n c).moves = s.moves := rfl
@[simp] theorem setCore_replicas (s : State) (n : Nat) (c : Core) : (setCore s n c).replicas = s.replicas := rfl
@[simp] theorem setCore_dies (s : State) (n : Nat) (c : Core) : (setCore s n c).dies = s.dies := rfl
@[simp] theorem setCore_contexts (s : State) (n : Nat) (c : Core) : (setCore s n c).contexts = s.contexts := rfl
@[simp] theorem setCore_queues (s : State) (n : Nat) (c : Core) : (setCore s n c).queues = s.queues := rfl
@[simp] theorem setCore_rr (s : State) (n : Nat) (c : Core) : (setCore s n c).rr = s.rr := rfl
@[simp] theorem setCore_kernels (s : State) (n : Nat) (c : Core) : (setCore s n c).kernels = s.kernels := rfl
@[simp] theorem setCore_nextKernel (s : State) (n : Nat) (c : Core) : (setCore s n c).nextKernel = s.nextKernel := rfl
@[simp] theorem setCore_reserved (s : State) (n : Nat) (c : Core) : (setCore s n c).reserved = s.reserved := rfl
@[simp] theorem setCore_landings (s : State) (n : Nat) (c : Core) : (setCore s n c).landings = s.landings := rfl
@[simp] theorem setCore_nextLanding (s : State) (n : Nat) (c : Core) : (setCore s n c).nextLanding = s.nextLanding := rfl
@[simp] theorem setCore_runs (s : State) (n : Nat) (c : Core) : (setCore s n c).runs = s.runs := rfl
@[simp] theorem setCore_flights (s : State) (n : Nat) (c : Core) : (setCore s n c).flights = s.flights := rfl
@[simp] theorem setCore_nextFlight (s : State) (n : Nat) (c : Core) : (setCore s n c).nextFlight = s.nextFlight := rfl
@[simp] theorem setCore_steps (s : State) (n : Nat) (c : Core) : (setCore s n c).steps = s.steps := rfl
@[simp] theorem setCore_nextStep (s : State) (n : Nat) (c : Core) : (setCore s n c).nextStep = s.nextStep := rfl
@[simp] theorem setCore_links (s : State) (n : Nat) (c : Core) : (setCore s n c).links = s.links := rfl
@[simp] theorem setCore_chip (s : State) (n : Nat) (c : Core) : (setCore s n c).chip = s.chip := rfl
@[simp] theorem setCore_epoch (s : State) (n : Nat) (c : Core) : (setCore s n c).epoch = s.epoch := rfl
@[simp] theorem setCore_slew (s : State) (n : Nat) (c : Core) : (setCore s n c).slew = s.slew := rfl
@[simp] theorem setCore_depth (s : State) (n : Nat) (c : Core) : (setCore s n c).depth = s.depth := rfl
@[simp] theorem setCore_beatAt (s : State) (n : Nat) (c : Core) : (setCore s n c).beatAt = s.beatAt := rfl
@[simp] theorem setCore_buffers (s : State) (n : Nat) (c : Core) : (setCore s n c).buffers = s.buffers := rfl
@[simp] theorem setCore_rom (s : State) (n : Nat) (c : Core) : (setCore s n c).rom = s.rom := rfl
@[simp] theorem setCore_fabric (s : State) (n : Nat) (c : Core) : (setCore s n c).fabric = s.fabric := rfl
@[simp] theorem setCore_patching (s : State) (n : Nat) (c : Core) : (setCore s n c).patching = s.patching := rfl
@[simp] theorem setCore_nextReq (s : State) (n : Nat) (c : Core) : (setCore s n c).nextReq = s.nextReq := rfl
@[simp] theorem setCore_epochSet (s : State) (n : Nat) (c : Core) : (setCore s n c).epochSet = s.epochSet := rfl
@[simp] theorem setCore_upLink (s : State) (n : Nat) (c : Core) : (setCore s n c).upLink = s.upLink := rfl
@[simp] theorem setCore_muted (s : State) (n : Nat) (c : Core) : (setCore s n c).muted = s.muted := rfl

/-! ### modCore -/

@[simp] theorem modCore_now (s : State) (n : Nat) (f : Core → Core) : (modCore s n f).now = s.now := rfl
@[simp] theorem modCore_agenda (s : State) (n : Nat) (f : Core → Core) : (modCore s n f).agenda = s.agenda := rfl
@[simp] theorem modCore_ties (s : State) (n : Nat) (f : Core → Core) : (modCore s n f).ties = s.ties := rfl
@[simp] theorem modCore_fresh (s : State) (n : Nat) (f : Core → Core) : (modCore s n f).fresh = s.fresh := rfl
@[simp] theorem modCore_turn (s : State) (n : Nat) (f : Core → Core) : (modCore s n f).turn = s.turn := rfl
@[simp] theorem modCore_outbox (s : State) (n : Nat) (f : Core → Core) : (modCore s n f).outbox = s.outbox := rfl
@[simp] theorem modCore_boot (s : State) (n : Nat) (f : Core → Core) : (modCore s n f).boot = s.boot := rfl
@[simp] theorem modCore_bootCause (s : State) (n : Nat) (f : Core → Core) : (modCore s n f).bootCause = s.bootCause := rfl
@[simp] theorem modCore_bootUnit (s : State) (n : Nat) (f : Core → Core) : (modCore s n f).bootUnit = s.bootUnit := rfl
@[simp] theorem modCore_offer (s : State) (n : Nat) (f : Core → Core) : (modCore s n f).offer = s.offer := rfl
@[simp] theorem modCore_neg (s : State) (n : Nat) (f : Core → Core) : (modCore s n f).neg = s.neg := rfl
@[simp] theorem modCore_negSet (s : State) (n : Nat) (f : Core → Core) : (modCore s n f).negSet = s.negSet := rfl
@[simp] theorem modCore_permit (s : State) (n : Nat) (f : Core → Core) : (modCore s n f).permit = s.permit := rfl
@[simp] theorem modCore_fusedMin (s : State) (n : Nat) (f : Core → Core) : (modCore s n f).fusedMin = s.fusedMin := rfl
@[simp] theorem modCore_stage (s : State) (n : Nat) (f : Core → Core) : (modCore s n f).stage = s.stage := rfl
@[simp] theorem modCore_firmware (s : State) (n : Nat) (f : Core → Core) : (modCore s n f).firmware = s.firmware := rfl
@[simp] theorem modCore_mem (s : State) (n : Nat) (f : Core → Core) : (modCore s n f).mem = s.mem := rfl
@[simp] theorem modCore_poison (s : State) (n : Nat) (f : Core → Core) : (modCore s n f).poison = s.poison := rfl
@[simp] theorem modCore_busy (s : State) (n : Nat) (f : Core → Core) : (modCore s n f).busy = s.busy := rfl
@[simp] theorem modCore_moves (s : State) (n : Nat) (f : Core → Core) : (modCore s n f).moves = s.moves := rfl
@[simp] theorem modCore_replicas (s : State) (n : Nat) (f : Core → Core) : (modCore s n f).replicas = s.replicas := rfl
@[simp] theorem modCore_dies (s : State) (n : Nat) (f : Core → Core) : (modCore s n f).dies = s.dies := rfl
@[simp] theorem modCore_contexts (s : State) (n : Nat) (f : Core → Core) : (modCore s n f).contexts = s.contexts := rfl
@[simp] theorem modCore_queues (s : State) (n : Nat) (f : Core → Core) : (modCore s n f).queues = s.queues := rfl
@[simp] theorem modCore_rr (s : State) (n : Nat) (f : Core → Core) : (modCore s n f).rr = s.rr := rfl
@[simp] theorem modCore_kernels (s : State) (n : Nat) (f : Core → Core) : (modCore s n f).kernels = s.kernels := rfl
@[simp] theorem modCore_nextKernel (s : State) (n : Nat) (f : Core → Core) : (modCore s n f).nextKernel = s.nextKernel := rfl
@[simp] theorem modCore_reserved (s : State) (n : Nat) (f : Core → Core) : (modCore s n f).reserved = s.reserved := rfl
@[simp] theorem modCore_landings (s : State) (n : Nat) (f : Core → Core) : (modCore s n f).landings = s.landings := rfl
@[simp] theorem modCore_nextLanding (s : State) (n : Nat) (f : Core → Core) : (modCore s n f).nextLanding = s.nextLanding := rfl
@[simp] theorem modCore_runs (s : State) (n : Nat) (f : Core → Core) : (modCore s n f).runs = s.runs := rfl
@[simp] theorem modCore_flights (s : State) (n : Nat) (f : Core → Core) : (modCore s n f).flights = s.flights := rfl
@[simp] theorem modCore_nextFlight (s : State) (n : Nat) (f : Core → Core) : (modCore s n f).nextFlight = s.nextFlight := rfl
@[simp] theorem modCore_steps (s : State) (n : Nat) (f : Core → Core) : (modCore s n f).steps = s.steps := rfl
@[simp] theorem modCore_nextStep (s : State) (n : Nat) (f : Core → Core) : (modCore s n f).nextStep = s.nextStep := rfl
@[simp] theorem modCore_links (s : State) (n : Nat) (f : Core → Core) : (modCore s n f).links = s.links := rfl
@[simp] theorem modCore_chip (s : State) (n : Nat) (f : Core → Core) : (modCore s n f).chip = s.chip := rfl
@[simp] theorem modCore_epoch (s : State) (n : Nat) (f : Core → Core) : (modCore s n f).epoch = s.epoch := rfl
@[simp] theorem modCore_slew (s : State) (n : Nat) (f : Core → Core) : (modCore s n f).slew = s.slew := rfl
@[simp] theorem modCore_depth (s : State) (n : Nat) (f : Core → Core) : (modCore s n f).depth = s.depth := rfl
@[simp] theorem modCore_beatAt (s : State) (n : Nat) (f : Core → Core) : (modCore s n f).beatAt = s.beatAt := rfl
@[simp] theorem modCore_buffers (s : State) (n : Nat) (f : Core → Core) : (modCore s n f).buffers = s.buffers := rfl
@[simp] theorem modCore_rom (s : State) (n : Nat) (f : Core → Core) : (modCore s n f).rom = s.rom := rfl
@[simp] theorem modCore_fabric (s : State) (n : Nat) (f : Core → Core) : (modCore s n f).fabric = s.fabric := rfl
@[simp] theorem modCore_patching (s : State) (n : Nat) (f : Core → Core) : (modCore s n f).patching = s.patching := rfl
@[simp] theorem modCore_nextReq (s : State) (n : Nat) (f : Core → Core) : (modCore s n f).nextReq = s.nextReq := rfl
@[simp] theorem modCore_epochSet (s : State) (n : Nat) (f : Core → Core) : (modCore s n f).epochSet = s.epochSet := rfl
@[simp] theorem modCore_upLink (s : State) (n : Nat) (f : Core → Core) : (modCore s n f).upLink = s.upLink := rfl
@[simp] theorem modCore_muted (s : State) (n : Nat) (f : Core → Core) : (modCore s n f).muted = s.muted := rfl

/-! ### setDie -/

@[simp] theorem setDie_now (s : State) (d : Nat) (x : Die) : (setDie s d x).now = s.now := rfl
@[simp] theorem setDie_agenda (s : State) (d : Nat) (x : Die) : (setDie s d x).agenda = s.agenda := rfl
@[simp] theorem setDie_ties (s : State) (d : Nat) (x : Die) : (setDie s d x).ties = s.ties := rfl
@[simp] theorem setDie_fresh (s : State) (d : Nat) (x : Die) : (setDie s d x).fresh = s.fresh := rfl
@[simp] theorem setDie_turn (s : State) (d : Nat) (x : Die) : (setDie s d x).turn = s.turn := rfl
@[simp] theorem setDie_outbox (s : State) (d : Nat) (x : Die) : (setDie s d x).outbox = s.outbox := rfl
@[simp] theorem setDie_boot (s : State) (d : Nat) (x : Die) : (setDie s d x).boot = s.boot := rfl
@[simp] theorem setDie_bootCause (s : State) (d : Nat) (x : Die) : (setDie s d x).bootCause = s.bootCause := rfl
@[simp] theorem setDie_bootUnit (s : State) (d : Nat) (x : Die) : (setDie s d x).bootUnit = s.bootUnit := rfl
@[simp] theorem setDie_offer (s : State) (d : Nat) (x : Die) : (setDie s d x).offer = s.offer := rfl
@[simp] theorem setDie_neg (s : State) (d : Nat) (x : Die) : (setDie s d x).neg = s.neg := rfl
@[simp] theorem setDie_negSet (s : State) (d : Nat) (x : Die) : (setDie s d x).negSet = s.negSet := rfl
@[simp] theorem setDie_permit (s : State) (d : Nat) (x : Die) : (setDie s d x).permit = s.permit := rfl
@[simp] theorem setDie_fusedMin (s : State) (d : Nat) (x : Die) : (setDie s d x).fusedMin = s.fusedMin := rfl
@[simp] theorem setDie_stage (s : State) (d : Nat) (x : Die) : (setDie s d x).stage = s.stage := rfl
@[simp] theorem setDie_firmware (s : State) (d : Nat) (x : Die) : (setDie s d x).firmware = s.firmware := rfl
@[simp] theorem setDie_cores (s : State) (d : Nat) (x : Die) : (setDie s d x).cores = s.cores := rfl
@[simp] theorem setDie_mem (s : State) (d : Nat) (x : Die) : (setDie s d x).mem = s.mem := rfl
@[simp] theorem setDie_poison (s : State) (d : Nat) (x : Die) : (setDie s d x).poison = s.poison := rfl
@[simp] theorem setDie_busy (s : State) (d : Nat) (x : Die) : (setDie s d x).busy = s.busy := rfl
@[simp] theorem setDie_moves (s : State) (d : Nat) (x : Die) : (setDie s d x).moves = s.moves := rfl
@[simp] theorem setDie_replicas (s : State) (d : Nat) (x : Die) : (setDie s d x).replicas = s.replicas := rfl
@[simp] theorem setDie_contexts (s : State) (d : Nat) (x : Die) : (setDie s d x).contexts = s.contexts := rfl
@[simp] theorem setDie_queues (s : State) (d : Nat) (x : Die) : (setDie s d x).queues = s.queues := rfl
@[simp] theorem setDie_rr (s : State) (d : Nat) (x : Die) : (setDie s d x).rr = s.rr := rfl
@[simp] theorem setDie_kernels (s : State) (d : Nat) (x : Die) : (setDie s d x).kernels = s.kernels := rfl
@[simp] theorem setDie_nextKernel (s : State) (d : Nat) (x : Die) : (setDie s d x).nextKernel = s.nextKernel := rfl
@[simp] theorem setDie_reserved (s : State) (d : Nat) (x : Die) : (setDie s d x).reserved = s.reserved := rfl
@[simp] theorem setDie_landings (s : State) (d : Nat) (x : Die) : (setDie s d x).landings = s.landings := rfl
@[simp] theorem setDie_nextLanding (s : State) (d : Nat) (x : Die) : (setDie s d x).nextLanding = s.nextLanding := rfl
@[simp] theorem setDie_runs (s : State) (d : Nat) (x : Die) : (setDie s d x).runs = s.runs := rfl
@[simp] theorem setDie_flights (s : State) (d : Nat) (x : Die) : (setDie s d x).flights = s.flights := rfl
@[simp] theorem setDie_nextFlight (s : State) (d : Nat) (x : Die) : (setDie s d x).nextFlight = s.nextFlight := rfl
@[simp] theorem setDie_steps (s : State) (d : Nat) (x : Die) : (setDie s d x).steps = s.steps := rfl
@[simp] theorem setDie_nextStep (s : State) (d : Nat) (x : Die) : (setDie s d x).nextStep = s.nextStep := rfl
@[simp] theorem setDie_links (s : State) (d : Nat) (x : Die) : (setDie s d x).links = s.links := rfl
@[simp] theorem setDie_chip (s : State) (d : Nat) (x : Die) : (setDie s d x).chip = s.chip := rfl
@[simp] theorem setDie_epoch (s : State) (d : Nat) (x : Die) : (setDie s d x).epoch = s.epoch := rfl
@[simp] theorem setDie_slew (s : State) (d : Nat) (x : Die) : (setDie s d x).slew = s.slew := rfl
@[simp] theorem setDie_depth (s : State) (d : Nat) (x : Die) : (setDie s d x).depth = s.depth := rfl
@[simp] theorem setDie_beatAt (s : State) (d : Nat) (x : Die) : (setDie s d x).beatAt = s.beatAt := rfl
@[simp] theorem setDie_buffers (s : State) (d : Nat) (x : Die) : (setDie s d x).buffers = s.buffers := rfl
@[simp] theorem setDie_rom (s : State) (d : Nat) (x : Die) : (setDie s d x).rom = s.rom := rfl
@[simp] theorem setDie_fabric (s : State) (d : Nat) (x : Die) : (setDie s d x).fabric = s.fabric := rfl
@[simp] theorem setDie_patching (s : State) (d : Nat) (x : Die) : (setDie s d x).patching = s.patching := rfl
@[simp] theorem setDie_nextReq (s : State) (d : Nat) (x : Die) : (setDie s d x).nextReq = s.nextReq := rfl
@[simp] theorem setDie_epochSet (s : State) (d : Nat) (x : Die) : (setDie s d x).epochSet = s.epochSet := rfl
@[simp] theorem setDie_upLink (s : State) (d : Nat) (x : Die) : (setDie s d x).upLink = s.upLink := rfl
@[simp] theorem setDie_muted (s : State) (d : Nat) (x : Die) : (setDie s d x).muted = s.muted := rfl

/-! ### report -/

@[simp] theorem report_now (s : State) (o : Out) : (report s o).now = s.now := rfl
@[simp] theorem report_agenda (s : State) (o : Out) : (report s o).agenda = s.agenda := rfl
@[simp] theorem report_ties (s : State) (o : Out) : (report s o).ties = s.ties := rfl
@[simp] theorem report_fresh (s : State) (o : Out) : (report s o).fresh = s.fresh := rfl
@[simp] theorem report_turn (s : State) (o : Out) : (report s o).turn = s.turn := rfl
@[simp] theorem report_boot (s : State) (o : Out) : (report s o).boot = s.boot := rfl
@[simp] theorem report_bootCause (s : State) (o : Out) : (report s o).bootCause = s.bootCause := rfl
@[simp] theorem report_bootUnit (s : State) (o : Out) : (report s o).bootUnit = s.bootUnit := rfl
@[simp] theorem report_offer (s : State) (o : Out) : (report s o).offer = s.offer := rfl
@[simp] theorem report_neg (s : State) (o : Out) : (report s o).neg = s.neg := rfl
@[simp] theorem report_negSet (s : State) (o : Out) : (report s o).negSet = s.negSet := rfl
@[simp] theorem report_permit (s : State) (o : Out) : (report s o).permit = s.permit := rfl
@[simp] theorem report_fusedMin (s : State) (o : Out) : (report s o).fusedMin = s.fusedMin := rfl
@[simp] theorem report_stage (s : State) (o : Out) : (report s o).stage = s.stage := rfl
@[simp] theorem report_firmware (s : State) (o : Out) : (report s o).firmware = s.firmware := rfl
@[simp] theorem report_cores (s : State) (o : Out) : (report s o).cores = s.cores := rfl
@[simp] theorem report_mem (s : State) (o : Out) : (report s o).mem = s.mem := rfl
@[simp] theorem report_poison (s : State) (o : Out) : (report s o).poison = s.poison := rfl
@[simp] theorem report_busy (s : State) (o : Out) : (report s o).busy = s.busy := rfl
@[simp] theorem report_moves (s : State) (o : Out) : (report s o).moves = s.moves := rfl
@[simp] theorem report_replicas (s : State) (o : Out) : (report s o).replicas = s.replicas := rfl
@[simp] theorem report_dies (s : State) (o : Out) : (report s o).dies = s.dies := rfl
@[simp] theorem report_contexts (s : State) (o : Out) : (report s o).contexts = s.contexts := rfl
@[simp] theorem report_queues (s : State) (o : Out) : (report s o).queues = s.queues := rfl
@[simp] theorem report_rr (s : State) (o : Out) : (report s o).rr = s.rr := rfl
@[simp] theorem report_kernels (s : State) (o : Out) : (report s o).kernels = s.kernels := rfl
@[simp] theorem report_nextKernel (s : State) (o : Out) : (report s o).nextKernel = s.nextKernel := rfl
@[simp] theorem report_reserved (s : State) (o : Out) : (report s o).reserved = s.reserved := rfl
@[simp] theorem report_landings (s : State) (o : Out) : (report s o).landings = s.landings := rfl
@[simp] theorem report_nextLanding (s : State) (o : Out) : (report s o).nextLanding = s.nextLanding := rfl
@[simp] theorem report_runs (s : State) (o : Out) : (report s o).runs = s.runs := rfl
@[simp] theorem report_flights (s : State) (o : Out) : (report s o).flights = s.flights := rfl
@[simp] theorem report_nextFlight (s : State) (o : Out) : (report s o).nextFlight = s.nextFlight := rfl
@[simp] theorem report_steps (s : State) (o : Out) : (report s o).steps = s.steps := rfl
@[simp] theorem report_nextStep (s : State) (o : Out) : (report s o).nextStep = s.nextStep := rfl
@[simp] theorem report_links (s : State) (o : Out) : (report s o).links = s.links := rfl
@[simp] theorem report_chip (s : State) (o : Out) : (report s o).chip = s.chip := rfl
@[simp] theorem report_epoch (s : State) (o : Out) : (report s o).epoch = s.epoch := rfl
@[simp] theorem report_slew (s : State) (o : Out) : (report s o).slew = s.slew := rfl
@[simp] theorem report_depth (s : State) (o : Out) : (report s o).depth = s.depth := rfl
@[simp] theorem report_beatAt (s : State) (o : Out) : (report s o).beatAt = s.beatAt := rfl
@[simp] theorem report_buffers (s : State) (o : Out) : (report s o).buffers = s.buffers := rfl
@[simp] theorem report_rom (s : State) (o : Out) : (report s o).rom = s.rom := rfl
@[simp] theorem report_fabric (s : State) (o : Out) : (report s o).fabric = s.fabric := rfl
@[simp] theorem report_patching (s : State) (o : Out) : (report s o).patching = s.patching := rfl
@[simp] theorem report_nextReq (s : State) (o : Out) : (report s o).nextReq = s.nextReq := rfl
@[simp] theorem report_epochSet (s : State) (o : Out) : (report s o).epochSet = s.epochSet := rfl
@[simp] theorem report_upLink (s : State) (o : Out) : (report s o).upLink = s.upLink := rfl
@[simp] theorem report_muted (s : State) (o : Out) : (report s o).muted = s.muted := rfl

/-! ### answer -/

@[simp] theorem answer_now (s : State) (c v : Nat) : (answer s c v).now = s.now := rfl
@[simp] theorem answer_agenda (s : State) (c v : Nat) : (answer s c v).agenda = s.agenda := rfl
@[simp] theorem answer_ties (s : State) (c v : Nat) : (answer s c v).ties = s.ties := rfl
@[simp] theorem answer_fresh (s : State) (c v : Nat) : (answer s c v).fresh = s.fresh := rfl
@[simp] theorem answer_turn (s : State) (c v : Nat) : (answer s c v).turn = s.turn := rfl
@[simp] theorem answer_boot (s : State) (c v : Nat) : (answer s c v).boot = s.boot := rfl
@[simp] theorem answer_bootCause (s : State) (c v : Nat) : (answer s c v).bootCause = s.bootCause := rfl
@[simp] theorem answer_bootUnit (s : State) (c v : Nat) : (answer s c v).bootUnit = s.bootUnit := rfl
@[simp] theorem answer_offer (s : State) (c v : Nat) : (answer s c v).offer = s.offer := rfl
@[simp] theorem answer_neg (s : State) (c v : Nat) : (answer s c v).neg = s.neg := rfl
@[simp] theorem answer_negSet (s : State) (c v : Nat) : (answer s c v).negSet = s.negSet := rfl
@[simp] theorem answer_permit (s : State) (c v : Nat) : (answer s c v).permit = s.permit := rfl
@[simp] theorem answer_fusedMin (s : State) (c v : Nat) : (answer s c v).fusedMin = s.fusedMin := rfl
@[simp] theorem answer_stage (s : State) (c v : Nat) : (answer s c v).stage = s.stage := rfl
@[simp] theorem answer_firmware (s : State) (c v : Nat) : (answer s c v).firmware = s.firmware := rfl
@[simp] theorem answer_cores (s : State) (c v : Nat) : (answer s c v).cores = s.cores := rfl
@[simp] theorem answer_mem (s : State) (c v : Nat) : (answer s c v).mem = s.mem := rfl
@[simp] theorem answer_poison (s : State) (c v : Nat) : (answer s c v).poison = s.poison := rfl
@[simp] theorem answer_busy (s : State) (c v : Nat) : (answer s c v).busy = s.busy := rfl
@[simp] theorem answer_moves (s : State) (c v : Nat) : (answer s c v).moves = s.moves := rfl
@[simp] theorem answer_replicas (s : State) (c v : Nat) : (answer s c v).replicas = s.replicas := rfl
@[simp] theorem answer_dies (s : State) (c v : Nat) : (answer s c v).dies = s.dies := rfl
@[simp] theorem answer_contexts (s : State) (c v : Nat) : (answer s c v).contexts = s.contexts := rfl
@[simp] theorem answer_queues (s : State) (c v : Nat) : (answer s c v).queues = s.queues := rfl
@[simp] theorem answer_rr (s : State) (c v : Nat) : (answer s c v).rr = s.rr := rfl
@[simp] theorem answer_kernels (s : State) (c v : Nat) : (answer s c v).kernels = s.kernels := rfl
@[simp] theorem answer_nextKernel (s : State) (c v : Nat) : (answer s c v).nextKernel = s.nextKernel := rfl
@[simp] theorem answer_reserved (s : State) (c v : Nat) : (answer s c v).reserved = s.reserved := rfl
@[simp] theorem answer_landings (s : State) (c v : Nat) : (answer s c v).landings = s.landings := rfl
@[simp] theorem answer_nextLanding (s : State) (c v : Nat) : (answer s c v).nextLanding = s.nextLanding := rfl
@[simp] theorem answer_runs (s : State) (c v : Nat) : (answer s c v).runs = s.runs := rfl
@[simp] theorem answer_flights (s : State) (c v : Nat) : (answer s c v).flights = s.flights := rfl
@[simp] theorem answer_nextFlight (s : State) (c v : Nat) : (answer s c v).nextFlight = s.nextFlight := rfl
@[simp] theorem answer_steps (s : State) (c v : Nat) : (answer s c v).steps = s.steps := rfl
@[simp] theorem answer_nextStep (s : State) (c v : Nat) : (answer s c v).nextStep = s.nextStep := rfl
@[simp] theorem answer_links (s : State) (c v : Nat) : (answer s c v).links = s.links := rfl
@[simp] theorem answer_chip (s : State) (c v : Nat) : (answer s c v).chip = s.chip := rfl
@[simp] theorem answer_epoch (s : State) (c v : Nat) : (answer s c v).epoch = s.epoch := rfl
@[simp] theorem answer_slew (s : State) (c v : Nat) : (answer s c v).slew = s.slew := rfl
@[simp] theorem answer_depth (s : State) (c v : Nat) : (answer s c v).depth = s.depth := rfl
@[simp] theorem answer_beatAt (s : State) (c v : Nat) : (answer s c v).beatAt = s.beatAt := rfl
@[simp] theorem answer_buffers (s : State) (c v : Nat) : (answer s c v).buffers = s.buffers := rfl
@[simp] theorem answer_rom (s : State) (c v : Nat) : (answer s c v).rom = s.rom := rfl
@[simp] theorem answer_fabric (s : State) (c v : Nat) : (answer s c v).fabric = s.fabric := rfl
@[simp] theorem answer_patching (s : State) (c v : Nat) : (answer s c v).patching = s.patching := rfl
@[simp] theorem answer_nextReq (s : State) (c v : Nat) : (answer s c v).nextReq = s.nextReq := rfl
@[simp] theorem answer_epochSet (s : State) (c v : Nat) : (answer s c v).epochSet = s.epochSet := rfl
@[simp] theorem answer_upLink (s : State) (c v : Nat) : (answer s c v).upLink = s.upLink := rfl
@[simp] theorem answer_muted (s : State) (c v : Nat) : (answer s c v).muted = s.muted := rfl

/-! ### queueRecord -/

@[simp] theorem queueRecord_now (s : State) (n : Nat) (r : BitVec 64) : (queueRecord s n r).now = s.now := rfl
@[simp] theorem queueRecord_agenda (s : State) (n : Nat) (r : BitVec 64) : (queueRecord s n r).agenda = s.agenda := rfl
@[simp] theorem queueRecord_ties (s : State) (n : Nat) (r : BitVec 64) : (queueRecord s n r).ties = s.ties := rfl
@[simp] theorem queueRecord_fresh (s : State) (n : Nat) (r : BitVec 64) : (queueRecord s n r).fresh = s.fresh := rfl
@[simp] theorem queueRecord_turn (s : State) (n : Nat) (r : BitVec 64) : (queueRecord s n r).turn = s.turn := rfl
@[simp] theorem queueRecord_outbox (s : State) (n : Nat) (r : BitVec 64) : (queueRecord s n r).outbox = s.outbox := rfl
@[simp] theorem queueRecord_boot (s : State) (n : Nat) (r : BitVec 64) : (queueRecord s n r).boot = s.boot := rfl
@[simp] theorem queueRecord_bootCause (s : State) (n : Nat) (r : BitVec 64) : (queueRecord s n r).bootCause = s.bootCause := rfl
@[simp] theorem queueRecord_bootUnit (s : State) (n : Nat) (r : BitVec 64) : (queueRecord s n r).bootUnit = s.bootUnit := rfl
@[simp] theorem queueRecord_offer (s : State) (n : Nat) (r : BitVec 64) : (queueRecord s n r).offer = s.offer := rfl
@[simp] theorem queueRecord_neg (s : State) (n : Nat) (r : BitVec 64) : (queueRecord s n r).neg = s.neg := rfl
@[simp] theorem queueRecord_negSet (s : State) (n : Nat) (r : BitVec 64) : (queueRecord s n r).negSet = s.negSet := rfl
@[simp] theorem queueRecord_permit (s : State) (n : Nat) (r : BitVec 64) : (queueRecord s n r).permit = s.permit := rfl
@[simp] theorem queueRecord_fusedMin (s : State) (n : Nat) (r : BitVec 64) : (queueRecord s n r).fusedMin = s.fusedMin := rfl
@[simp] theorem queueRecord_stage (s : State) (n : Nat) (r : BitVec 64) : (queueRecord s n r).stage = s.stage := rfl
@[simp] theorem queueRecord_firmware (s : State) (n : Nat) (r : BitVec 64) : (queueRecord s n r).firmware = s.firmware := rfl
@[simp] theorem queueRecord_mem (s : State) (n : Nat) (r : BitVec 64) : (queueRecord s n r).mem = s.mem := rfl
@[simp] theorem queueRecord_poison (s : State) (n : Nat) (r : BitVec 64) : (queueRecord s n r).poison = s.poison := rfl
@[simp] theorem queueRecord_busy (s : State) (n : Nat) (r : BitVec 64) : (queueRecord s n r).busy = s.busy := rfl
@[simp] theorem queueRecord_moves (s : State) (n : Nat) (r : BitVec 64) : (queueRecord s n r).moves = s.moves := rfl
@[simp] theorem queueRecord_replicas (s : State) (n : Nat) (r : BitVec 64) : (queueRecord s n r).replicas = s.replicas := rfl
@[simp] theorem queueRecord_dies (s : State) (n : Nat) (r : BitVec 64) : (queueRecord s n r).dies = s.dies := rfl
@[simp] theorem queueRecord_contexts (s : State) (n : Nat) (r : BitVec 64) : (queueRecord s n r).contexts = s.contexts := rfl
@[simp] theorem queueRecord_queues (s : State) (n : Nat) (r : BitVec 64) : (queueRecord s n r).queues = s.queues := rfl
@[simp] theorem queueRecord_rr (s : State) (n : Nat) (r : BitVec 64) : (queueRecord s n r).rr = s.rr := rfl
@[simp] theorem queueRecord_kernels (s : State) (n : Nat) (r : BitVec 64) : (queueRecord s n r).kernels = s.kernels := rfl
@[simp] theorem queueRecord_nextKernel (s : State) (n : Nat) (r : BitVec 64) : (queueRecord s n r).nextKernel = s.nextKernel := rfl
@[simp] theorem queueRecord_reserved (s : State) (n : Nat) (r : BitVec 64) : (queueRecord s n r).reserved = s.reserved := rfl
@[simp] theorem queueRecord_landings (s : State) (n : Nat) (r : BitVec 64) : (queueRecord s n r).landings = s.landings := rfl
@[simp] theorem queueRecord_nextLanding (s : State) (n : Nat) (r : BitVec 64) : (queueRecord s n r).nextLanding = s.nextLanding := rfl
@[simp] theorem queueRecord_runs (s : State) (n : Nat) (r : BitVec 64) : (queueRecord s n r).runs = s.runs := rfl
@[simp] theorem queueRecord_flights (s : State) (n : Nat) (r : BitVec 64) : (queueRecord s n r).flights = s.flights := rfl
@[simp] theorem queueRecord_nextFlight (s : State) (n : Nat) (r : BitVec 64) : (queueRecord s n r).nextFlight = s.nextFlight := rfl
@[simp] theorem queueRecord_steps (s : State) (n : Nat) (r : BitVec 64) : (queueRecord s n r).steps = s.steps := rfl
@[simp] theorem queueRecord_nextStep (s : State) (n : Nat) (r : BitVec 64) : (queueRecord s n r).nextStep = s.nextStep := rfl
@[simp] theorem queueRecord_links (s : State) (n : Nat) (r : BitVec 64) : (queueRecord s n r).links = s.links := rfl
@[simp] theorem queueRecord_chip (s : State) (n : Nat) (r : BitVec 64) : (queueRecord s n r).chip = s.chip := rfl
@[simp] theorem queueRecord_epoch (s : State) (n : Nat) (r : BitVec 64) : (queueRecord s n r).epoch = s.epoch := rfl
@[simp] theorem queueRecord_slew (s : State) (n : Nat) (r : BitVec 64) : (queueRecord s n r).slew = s.slew := rfl
@[simp] theorem queueRecord_depth (s : State) (n : Nat) (r : BitVec 64) : (queueRecord s n r).depth = s.depth := rfl
@[simp] theorem queueRecord_beatAt (s : State) (n : Nat) (r : BitVec 64) : (queueRecord s n r).beatAt = s.beatAt := rfl
@[simp] theorem queueRecord_buffers (s : State) (n : Nat) (r : BitVec 64) : (queueRecord s n r).buffers = s.buffers := rfl
@[simp] theorem queueRecord_rom (s : State) (n : Nat) (r : BitVec 64) : (queueRecord s n r).rom = s.rom := rfl
@[simp] theorem queueRecord_fabric (s : State) (n : Nat) (r : BitVec 64) : (queueRecord s n r).fabric = s.fabric := rfl
@[simp] theorem queueRecord_patching (s : State) (n : Nat) (r : BitVec 64) : (queueRecord s n r).patching = s.patching := rfl
@[simp] theorem queueRecord_nextReq (s : State) (n : Nat) (r : BitVec 64) : (queueRecord s n r).nextReq = s.nextReq := rfl
@[simp] theorem queueRecord_epochSet (s : State) (n : Nat) (r : BitVec 64) : (queueRecord s n r).epochSet = s.epochSet := rfl
@[simp] theorem queueRecord_upLink (s : State) (n : Nat) (r : BitVec 64) : (queueRecord s n r).upLink = s.upLink := rfl
@[simp] theorem queueRecord_muted (s : State) (n : Nat) (r : BitVec 64) : (queueRecord s n r).muted = s.muted := rfl

/-! ### dropRecords -/

@[simp] theorem dropRecords_now (s : State) (n : Nat) : (dropRecords s n).now = s.now := rfl
@[simp] theorem dropRecords_agenda (s : State) (n : Nat) : (dropRecords s n).agenda = s.agenda := rfl
@[simp] theorem dropRecords_ties (s : State) (n : Nat) : (dropRecords s n).ties = s.ties := rfl
@[simp] theorem dropRecords_fresh (s : State) (n : Nat) : (dropRecords s n).fresh = s.fresh := rfl
@[simp] theorem dropRecords_turn (s : State) (n : Nat) : (dropRecords s n).turn = s.turn := rfl
@[simp] theorem dropRecords_outbox (s : State) (n : Nat) : (dropRecords s n).outbox = s.outbox := rfl
@[simp] theorem dropRecords_boot (s : State) (n : Nat) : (dropRecords s n).boot = s.boot := rfl
@[simp] theorem dropRecords_bootCause (s : State) (n : Nat) : (dropRecords s n).bootCause = s.bootCause := rfl
@[simp] theorem dropRecords_bootUnit (s : State) (n : Nat) : (dropRecords s n).bootUnit = s.bootUnit := rfl
@[simp] theorem dropRecords_offer (s : State) (n : Nat) : (dropRecords s n).offer = s.offer := rfl
@[simp] theorem dropRecords_neg (s : State) (n : Nat) : (dropRecords s n).neg = s.neg := rfl
@[simp] theorem dropRecords_negSet (s : State) (n : Nat) : (dropRecords s n).negSet = s.negSet := rfl
@[simp] theorem dropRecords_permit (s : State) (n : Nat) : (dropRecords s n).permit = s.permit := rfl
@[simp] theorem dropRecords_fusedMin (s : State) (n : Nat) : (dropRecords s n).fusedMin = s.fusedMin := rfl
@[simp] theorem dropRecords_stage (s : State) (n : Nat) : (dropRecords s n).stage = s.stage := rfl
@[simp] theorem dropRecords_firmware (s : State) (n : Nat) : (dropRecords s n).firmware = s.firmware := rfl
@[simp] theorem dropRecords_mem (s : State) (n : Nat) : (dropRecords s n).mem = s.mem := rfl
@[simp] theorem dropRecords_poison (s : State) (n : Nat) : (dropRecords s n).poison = s.poison := rfl
@[simp] theorem dropRecords_busy (s : State) (n : Nat) : (dropRecords s n).busy = s.busy := rfl
@[simp] theorem dropRecords_moves (s : State) (n : Nat) : (dropRecords s n).moves = s.moves := rfl
@[simp] theorem dropRecords_replicas (s : State) (n : Nat) : (dropRecords s n).replicas = s.replicas := rfl
@[simp] theorem dropRecords_dies (s : State) (n : Nat) : (dropRecords s n).dies = s.dies := rfl
@[simp] theorem dropRecords_contexts (s : State) (n : Nat) : (dropRecords s n).contexts = s.contexts := rfl
@[simp] theorem dropRecords_queues (s : State) (n : Nat) : (dropRecords s n).queues = s.queues := rfl
@[simp] theorem dropRecords_rr (s : State) (n : Nat) : (dropRecords s n).rr = s.rr := rfl
@[simp] theorem dropRecords_kernels (s : State) (n : Nat) : (dropRecords s n).kernels = s.kernels := rfl
@[simp] theorem dropRecords_nextKernel (s : State) (n : Nat) : (dropRecords s n).nextKernel = s.nextKernel := rfl
@[simp] theorem dropRecords_reserved (s : State) (n : Nat) : (dropRecords s n).reserved = s.reserved := rfl
@[simp] theorem dropRecords_landings (s : State) (n : Nat) : (dropRecords s n).landings = s.landings := rfl
@[simp] theorem dropRecords_nextLanding (s : State) (n : Nat) : (dropRecords s n).nextLanding = s.nextLanding := rfl
@[simp] theorem dropRecords_runs (s : State) (n : Nat) : (dropRecords s n).runs = s.runs := rfl
@[simp] theorem dropRecords_flights (s : State) (n : Nat) : (dropRecords s n).flights = s.flights := rfl
@[simp] theorem dropRecords_nextFlight (s : State) (n : Nat) : (dropRecords s n).nextFlight = s.nextFlight := rfl
@[simp] theorem dropRecords_steps (s : State) (n : Nat) : (dropRecords s n).steps = s.steps := rfl
@[simp] theorem dropRecords_nextStep (s : State) (n : Nat) : (dropRecords s n).nextStep = s.nextStep := rfl
@[simp] theorem dropRecords_links (s : State) (n : Nat) : (dropRecords s n).links = s.links := rfl
@[simp] theorem dropRecords_chip (s : State) (n : Nat) : (dropRecords s n).chip = s.chip := rfl
@[simp] theorem dropRecords_epoch (s : State) (n : Nat) : (dropRecords s n).epoch = s.epoch := rfl
@[simp] theorem dropRecords_slew (s : State) (n : Nat) : (dropRecords s n).slew = s.slew := rfl
@[simp] theorem dropRecords_depth (s : State) (n : Nat) : (dropRecords s n).depth = s.depth := rfl
@[simp] theorem dropRecords_beatAt (s : State) (n : Nat) : (dropRecords s n).beatAt = s.beatAt := rfl
@[simp] theorem dropRecords_buffers (s : State) (n : Nat) : (dropRecords s n).buffers = s.buffers := rfl
@[simp] theorem dropRecords_rom (s : State) (n : Nat) : (dropRecords s n).rom = s.rom := rfl
@[simp] theorem dropRecords_fabric (s : State) (n : Nat) : (dropRecords s n).fabric = s.fabric := rfl
@[simp] theorem dropRecords_patching (s : State) (n : Nat) : (dropRecords s n).patching = s.patching := rfl
@[simp] theorem dropRecords_nextReq (s : State) (n : Nat) : (dropRecords s n).nextReq = s.nextReq := rfl
@[simp] theorem dropRecords_epochSet (s : State) (n : Nat) : (dropRecords s n).epochSet = s.epochSet := rfl
@[simp] theorem dropRecords_upLink (s : State) (n : Nat) : (dropRecords s n).upLink = s.upLink := rfl
@[simp] theorem dropRecords_muted (s : State) (n : Nat) : (dropRecords s n).muted = s.muted := rfl

/-! ### postFlight -/

@[simp] theorem postFlight_now (s : State) (a b o : Nat) (y : Payload) : (postFlight s a b o y).now = s.now := rfl
@[simp] theorem postFlight_agenda (s : State) (a b o : Nat) (y : Payload) : (postFlight s a b o y).agenda = s.agenda := rfl
@[simp] theorem postFlight_ties (s : State) (a b o : Nat) (y : Payload) : (postFlight s a b o y).ties = s.ties := rfl
@[simp] theorem postFlight_fresh (s : State) (a b o : Nat) (y : Payload) : (postFlight s a b o y).fresh = s.fresh := rfl
@[simp] theorem postFlight_turn (s : State) (a b o : Nat) (y : Payload) : (postFlight s a b o y).turn = s.turn := rfl
@[simp] theorem postFlight_outbox (s : State) (a b o : Nat) (y : Payload) : (postFlight s a b o y).outbox = s.outbox := rfl
@[simp] theorem postFlight_boot (s : State) (a b o : Nat) (y : Payload) : (postFlight s a b o y).boot = s.boot := rfl
@[simp] theorem postFlight_bootCause (s : State) (a b o : Nat) (y : Payload) : (postFlight s a b o y).bootCause = s.bootCause := rfl
@[simp] theorem postFlight_bootUnit (s : State) (a b o : Nat) (y : Payload) : (postFlight s a b o y).bootUnit = s.bootUnit := rfl
@[simp] theorem postFlight_offer (s : State) (a b o : Nat) (y : Payload) : (postFlight s a b o y).offer = s.offer := rfl
@[simp] theorem postFlight_neg (s : State) (a b o : Nat) (y : Payload) : (postFlight s a b o y).neg = s.neg := rfl
@[simp] theorem postFlight_negSet (s : State) (a b o : Nat) (y : Payload) : (postFlight s a b o y).negSet = s.negSet := rfl
@[simp] theorem postFlight_permit (s : State) (a b o : Nat) (y : Payload) : (postFlight s a b o y).permit = s.permit := rfl
@[simp] theorem postFlight_fusedMin (s : State) (a b o : Nat) (y : Payload) : (postFlight s a b o y).fusedMin = s.fusedMin := rfl
@[simp] theorem postFlight_stage (s : State) (a b o : Nat) (y : Payload) : (postFlight s a b o y).stage = s.stage := rfl
@[simp] theorem postFlight_firmware (s : State) (a b o : Nat) (y : Payload) : (postFlight s a b o y).firmware = s.firmware := rfl
@[simp] theorem postFlight_cores (s : State) (a b o : Nat) (y : Payload) : (postFlight s a b o y).cores = s.cores := rfl
@[simp] theorem postFlight_mem (s : State) (a b o : Nat) (y : Payload) : (postFlight s a b o y).mem = s.mem := rfl
@[simp] theorem postFlight_poison (s : State) (a b o : Nat) (y : Payload) : (postFlight s a b o y).poison = s.poison := rfl
@[simp] theorem postFlight_busy (s : State) (a b o : Nat) (y : Payload) : (postFlight s a b o y).busy = s.busy := rfl
@[simp] theorem postFlight_moves (s : State) (a b o : Nat) (y : Payload) : (postFlight s a b o y).moves = s.moves := rfl
@[simp] theorem postFlight_replicas (s : State) (a b o : Nat) (y : Payload) : (postFlight s a b o y).replicas = s.replicas := rfl
@[simp] theorem postFlight_dies (s : State) (a b o : Nat) (y : Payload) : (postFlight s a b o y).dies = s.dies := rfl
@[simp] theorem postFlight_contexts (s : State) (a b o : Nat) (y : Payload) : (postFlight s a b o y).contexts = s.contexts := rfl
@[simp] theorem postFlight_queues (s : State) (a b o : Nat) (y : Payload) : (postFlight s a b o y).queues = s.queues := rfl
@[simp] theorem postFlight_rr (s : State) (a b o : Nat) (y : Payload) : (postFlight s a b o y).rr = s.rr := rfl
@[simp] theorem postFlight_kernels (s : State) (a b o : Nat) (y : Payload) : (postFlight s a b o y).kernels = s.kernels := rfl
@[simp] theorem postFlight_nextKernel (s : State) (a b o : Nat) (y : Payload) : (postFlight s a b o y).nextKernel = s.nextKernel := rfl
@[simp] theorem postFlight_reserved (s : State) (a b o : Nat) (y : Payload) : (postFlight s a b o y).reserved = s.reserved := rfl
@[simp] theorem postFlight_landings (s : State) (a b o : Nat) (y : Payload) : (postFlight s a b o y).landings = s.landings := rfl
@[simp] theorem postFlight_nextLanding (s : State) (a b o : Nat) (y : Payload) : (postFlight s a b o y).nextLanding = s.nextLanding := rfl
@[simp] theorem postFlight_runs (s : State) (a b o : Nat) (y : Payload) : (postFlight s a b o y).runs = s.runs := rfl
@[simp] theorem postFlight_steps (s : State) (a b o : Nat) (y : Payload) : (postFlight s a b o y).steps = s.steps := rfl
@[simp] theorem postFlight_nextStep (s : State) (a b o : Nat) (y : Payload) : (postFlight s a b o y).nextStep = s.nextStep := rfl
@[simp] theorem postFlight_links (s : State) (a b o : Nat) (y : Payload) : (postFlight s a b o y).links = s.links := rfl
@[simp] theorem postFlight_chip (s : State) (a b o : Nat) (y : Payload) : (postFlight s a b o y).chip = s.chip := rfl
@[simp] theorem postFlight_epoch (s : State) (a b o : Nat) (y : Payload) : (postFlight s a b o y).epoch = s.epoch := rfl
@[simp] theorem postFlight_slew (s : State) (a b o : Nat) (y : Payload) : (postFlight s a b o y).slew = s.slew := rfl
@[simp] theorem postFlight_depth (s : State) (a b o : Nat) (y : Payload) : (postFlight s a b o y).depth = s.depth := rfl
@[simp] theorem postFlight_beatAt (s : State) (a b o : Nat) (y : Payload) : (postFlight s a b o y).beatAt = s.beatAt := rfl
@[simp] theorem postFlight_buffers (s : State) (a b o : Nat) (y : Payload) : (postFlight s a b o y).buffers = s.buffers := rfl
@[simp] theorem postFlight_rom (s : State) (a b o : Nat) (y : Payload) : (postFlight s a b o y).rom = s.rom := rfl
@[simp] theorem postFlight_fabric (s : State) (a b o : Nat) (y : Payload) : (postFlight s a b o y).fabric = s.fabric := rfl
@[simp] theorem postFlight_patching (s : State) (a b o : Nat) (y : Payload) : (postFlight s a b o y).patching = s.patching := rfl
@[simp] theorem postFlight_nextReq (s : State) (a b o : Nat) (y : Payload) : (postFlight s a b o y).nextReq = s.nextReq := rfl
@[simp] theorem postFlight_epochSet (s : State) (a b o : Nat) (y : Payload) : (postFlight s a b o y).epochSet = s.epochSet := rfl
@[simp] theorem postFlight_upLink (s : State) (a b o : Nat) (y : Payload) : (postFlight s a b o y).upLink = s.upLink := rfl
@[simp] theorem postFlight_muted (s : State) (a b o : Nat) (y : Payload) : (postFlight s a b o y).muted = s.muted := rfl

/-! ### timeTo -/

@[simp] theorem timeTo_agenda (s : State) (n : Nat) : (timeTo s n).agenda = s.agenda := rfl
@[simp] theorem timeTo_ties (s : State) (n : Nat) : (timeTo s n).ties = s.ties := rfl
@[simp] theorem timeTo_fresh (s : State) (n : Nat) : (timeTo s n).fresh = s.fresh := rfl
@[simp] theorem timeTo_turn (s : State) (n : Nat) : (timeTo s n).turn = s.turn := rfl
@[simp] theorem timeTo_outbox (s : State) (n : Nat) : (timeTo s n).outbox = s.outbox := rfl
@[simp] theorem timeTo_boot (s : State) (n : Nat) : (timeTo s n).boot = s.boot := rfl
@[simp] theorem timeTo_bootCause (s : State) (n : Nat) : (timeTo s n).bootCause = s.bootCause := rfl
@[simp] theorem timeTo_bootUnit (s : State) (n : Nat) : (timeTo s n).bootUnit = s.bootUnit := rfl
@[simp] theorem timeTo_offer (s : State) (n : Nat) : (timeTo s n).offer = s.offer := rfl
@[simp] theorem timeTo_neg (s : State) (n : Nat) : (timeTo s n).neg = s.neg := rfl
@[simp] theorem timeTo_negSet (s : State) (n : Nat) : (timeTo s n).negSet = s.negSet := rfl
@[simp] theorem timeTo_permit (s : State) (n : Nat) : (timeTo s n).permit = s.permit := rfl
@[simp] theorem timeTo_fusedMin (s : State) (n : Nat) : (timeTo s n).fusedMin = s.fusedMin := rfl
@[simp] theorem timeTo_stage (s : State) (n : Nat) : (timeTo s n).stage = s.stage := rfl
@[simp] theorem timeTo_firmware (s : State) (n : Nat) : (timeTo s n).firmware = s.firmware := rfl
@[simp] theorem timeTo_cores (s : State) (n : Nat) : (timeTo s n).cores = s.cores := rfl
@[simp] theorem timeTo_mem (s : State) (n : Nat) : (timeTo s n).mem = s.mem := rfl
@[simp] theorem timeTo_poison (s : State) (n : Nat) : (timeTo s n).poison = s.poison := rfl
@[simp] theorem timeTo_busy (s : State) (n : Nat) : (timeTo s n).busy = s.busy := rfl
@[simp] theorem timeTo_moves (s : State) (n : Nat) : (timeTo s n).moves = s.moves := rfl
@[simp] theorem timeTo_replicas (s : State) (n : Nat) : (timeTo s n).replicas = s.replicas := rfl
@[simp] theorem timeTo_dies (s : State) (n : Nat) : (timeTo s n).dies = s.dies := rfl
@[simp] theorem timeTo_contexts (s : State) (n : Nat) : (timeTo s n).contexts = s.contexts := rfl
@[simp] theorem timeTo_queues (s : State) (n : Nat) : (timeTo s n).queues = s.queues := rfl
@[simp] theorem timeTo_rr (s : State) (n : Nat) : (timeTo s n).rr = s.rr := rfl
@[simp] theorem timeTo_kernels (s : State) (n : Nat) : (timeTo s n).kernels = s.kernels := rfl
@[simp] theorem timeTo_nextKernel (s : State) (n : Nat) : (timeTo s n).nextKernel = s.nextKernel := rfl
@[simp] theorem timeTo_reserved (s : State) (n : Nat) : (timeTo s n).reserved = s.reserved := rfl
@[simp] theorem timeTo_landings (s : State) (n : Nat) : (timeTo s n).landings = s.landings := rfl
@[simp] theorem timeTo_nextLanding (s : State) (n : Nat) : (timeTo s n).nextLanding = s.nextLanding := rfl
@[simp] theorem timeTo_runs (s : State) (n : Nat) : (timeTo s n).runs = s.runs := rfl
@[simp] theorem timeTo_flights (s : State) (n : Nat) : (timeTo s n).flights = s.flights := rfl
@[simp] theorem timeTo_nextFlight (s : State) (n : Nat) : (timeTo s n).nextFlight = s.nextFlight := rfl
@[simp] theorem timeTo_steps (s : State) (n : Nat) : (timeTo s n).steps = s.steps := rfl
@[simp] theorem timeTo_nextStep (s : State) (n : Nat) : (timeTo s n).nextStep = s.nextStep := rfl
@[simp] theorem timeTo_links (s : State) (n : Nat) : (timeTo s n).links = s.links := rfl
@[simp] theorem timeTo_chip (s : State) (n : Nat) : (timeTo s n).chip = s.chip := rfl
@[simp] theorem timeTo_epoch (s : State) (n : Nat) : (timeTo s n).epoch = s.epoch := rfl
@[simp] theorem timeTo_slew (s : State) (n : Nat) : (timeTo s n).slew = s.slew := rfl
@[simp] theorem timeTo_depth (s : State) (n : Nat) : (timeTo s n).depth = s.depth := rfl
@[simp] theorem timeTo_beatAt (s : State) (n : Nat) : (timeTo s n).beatAt = s.beatAt := rfl
@[simp] theorem timeTo_buffers (s : State) (n : Nat) : (timeTo s n).buffers = s.buffers := rfl
@[simp] theorem timeTo_rom (s : State) (n : Nat) : (timeTo s n).rom = s.rom := rfl
@[simp] theorem timeTo_fabric (s : State) (n : Nat) : (timeTo s n).fabric = s.fabric := rfl
@[simp] theorem timeTo_patching (s : State) (n : Nat) : (timeTo s n).patching = s.patching := rfl
@[simp] theorem timeTo_nextReq (s : State) (n : Nat) : (timeTo s n).nextReq = s.nextReq := rfl
@[simp] theorem timeTo_epochSet (s : State) (n : Nat) : (timeTo s n).epochSet = s.epochSet := rfl
@[simp] theorem timeTo_upLink (s : State) (n : Nat) : (timeTo s n).upLink = s.upLink := rfl
@[simp] theorem timeTo_muted (s : State) (n : Nat) : (timeTo s n).muted = s.muted := rfl

/-! ### nextTick -/

@[simp] theorem nextTick_agenda (s : State) : (nextTick s).agenda = s.agenda := rfl
@[simp] theorem nextTick_ties (s : State) : (nextTick s).ties = s.ties := rfl
@[simp] theorem nextTick_fresh (s : State) : (nextTick s).fresh = s.fresh := rfl
@[simp] theorem nextTick_turn (s : State) : (nextTick s).turn = s.turn := rfl
@[simp] theorem nextTick_outbox (s : State) : (nextTick s).outbox = s.outbox := rfl
@[simp] theorem nextTick_boot (s : State) : (nextTick s).boot = s.boot := rfl
@[simp] theorem nextTick_bootCause (s : State) : (nextTick s).bootCause = s.bootCause := rfl
@[simp] theorem nextTick_bootUnit (s : State) : (nextTick s).bootUnit = s.bootUnit := rfl
@[simp] theorem nextTick_offer (s : State) : (nextTick s).offer = s.offer := rfl
@[simp] theorem nextTick_neg (s : State) : (nextTick s).neg = s.neg := rfl
@[simp] theorem nextTick_negSet (s : State) : (nextTick s).negSet = s.negSet := rfl
@[simp] theorem nextTick_permit (s : State) : (nextTick s).permit = s.permit := rfl
@[simp] theorem nextTick_fusedMin (s : State) : (nextTick s).fusedMin = s.fusedMin := rfl
@[simp] theorem nextTick_stage (s : State) : (nextTick s).stage = s.stage := rfl
@[simp] theorem nextTick_firmware (s : State) : (nextTick s).firmware = s.firmware := rfl
@[simp] theorem nextTick_cores (s : State) : (nextTick s).cores = s.cores := rfl
@[simp] theorem nextTick_mem (s : State) : (nextTick s).mem = s.mem := rfl
@[simp] theorem nextTick_poison (s : State) : (nextTick s).poison = s.poison := rfl
@[simp] theorem nextTick_busy (s : State) : (nextTick s).busy = s.busy := rfl
@[simp] theorem nextTick_moves (s : State) : (nextTick s).moves = s.moves := rfl
@[simp] theorem nextTick_replicas (s : State) : (nextTick s).replicas = s.replicas := rfl
@[simp] theorem nextTick_dies (s : State) : (nextTick s).dies = s.dies := rfl
@[simp] theorem nextTick_contexts (s : State) : (nextTick s).contexts = s.contexts := rfl
@[simp] theorem nextTick_queues (s : State) : (nextTick s).queues = s.queues := rfl
@[simp] theorem nextTick_rr (s : State) : (nextTick s).rr = s.rr := rfl
@[simp] theorem nextTick_kernels (s : State) : (nextTick s).kernels = s.kernels := rfl
@[simp] theorem nextTick_nextKernel (s : State) : (nextTick s).nextKernel = s.nextKernel := rfl
@[simp] theorem nextTick_reserved (s : State) : (nextTick s).reserved = s.reserved := rfl
@[simp] theorem nextTick_landings (s : State) : (nextTick s).landings = s.landings := rfl
@[simp] theorem nextTick_nextLanding (s : State) : (nextTick s).nextLanding = s.nextLanding := rfl
@[simp] theorem nextTick_runs (s : State) : (nextTick s).runs = s.runs := rfl
@[simp] theorem nextTick_flights (s : State) : (nextTick s).flights = s.flights := rfl
@[simp] theorem nextTick_nextFlight (s : State) : (nextTick s).nextFlight = s.nextFlight := rfl
@[simp] theorem nextTick_steps (s : State) : (nextTick s).steps = s.steps := rfl
@[simp] theorem nextTick_nextStep (s : State) : (nextTick s).nextStep = s.nextStep := rfl
@[simp] theorem nextTick_links (s : State) : (nextTick s).links = s.links := rfl
@[simp] theorem nextTick_chip (s : State) : (nextTick s).chip = s.chip := rfl
@[simp] theorem nextTick_epoch (s : State) : (nextTick s).epoch = s.epoch := rfl
@[simp] theorem nextTick_slew (s : State) : (nextTick s).slew = s.slew := rfl
@[simp] theorem nextTick_depth (s : State) : (nextTick s).depth = s.depth := rfl
@[simp] theorem nextTick_beatAt (s : State) : (nextTick s).beatAt = s.beatAt := rfl
@[simp] theorem nextTick_buffers (s : State) : (nextTick s).buffers = s.buffers := rfl
@[simp] theorem nextTick_rom (s : State) : (nextTick s).rom = s.rom := rfl
@[simp] theorem nextTick_fabric (s : State) : (nextTick s).fabric = s.fabric := rfl
@[simp] theorem nextTick_patching (s : State) : (nextTick s).patching = s.patching := rfl
@[simp] theorem nextTick_nextReq (s : State) : (nextTick s).nextReq = s.nextReq := rfl
@[simp] theorem nextTick_epochSet (s : State) : (nextTick s).epochSet = s.epochSet := rfl
@[simp] theorem nextTick_upLink (s : State) : (nextTick s).upLink = s.upLink := rfl
@[simp] theorem nextTick_muted (s : State) : (nextTick s).muted = s.muted := rfl

/-! ### freshen -/

@[simp] theorem freshen_now (s : State) : (freshen s).now = s.now := rfl
@[simp] theorem freshen_agenda (s : State) : (freshen s).agenda = s.agenda := rfl
@[simp] theorem freshen_ties (s : State) : (freshen s).ties = s.ties := rfl
@[simp] theorem freshen_turn (s : State) : (freshen s).turn = s.turn := rfl
@[simp] theorem freshen_outbox (s : State) : (freshen s).outbox = s.outbox := rfl
@[simp] theorem freshen_boot (s : State) : (freshen s).boot = s.boot := rfl
@[simp] theorem freshen_bootCause (s : State) : (freshen s).bootCause = s.bootCause := rfl
@[simp] theorem freshen_bootUnit (s : State) : (freshen s).bootUnit = s.bootUnit := rfl
@[simp] theorem freshen_offer (s : State) : (freshen s).offer = s.offer := rfl
@[simp] theorem freshen_neg (s : State) : (freshen s).neg = s.neg := rfl
@[simp] theorem freshen_negSet (s : State) : (freshen s).negSet = s.negSet := rfl
@[simp] theorem freshen_permit (s : State) : (freshen s).permit = s.permit := rfl
@[simp] theorem freshen_fusedMin (s : State) : (freshen s).fusedMin = s.fusedMin := rfl
@[simp] theorem freshen_stage (s : State) : (freshen s).stage = s.stage := rfl
@[simp] theorem freshen_firmware (s : State) : (freshen s).firmware = s.firmware := rfl
@[simp] theorem freshen_cores (s : State) : (freshen s).cores = s.cores := rfl
@[simp] theorem freshen_mem (s : State) : (freshen s).mem = s.mem := rfl
@[simp] theorem freshen_poison (s : State) : (freshen s).poison = s.poison := rfl
@[simp] theorem freshen_busy (s : State) : (freshen s).busy = s.busy := rfl
@[simp] theorem freshen_moves (s : State) : (freshen s).moves = s.moves := rfl
@[simp] theorem freshen_replicas (s : State) : (freshen s).replicas = s.replicas := rfl
@[simp] theorem freshen_dies (s : State) : (freshen s).dies = s.dies := rfl
@[simp] theorem freshen_contexts (s : State) : (freshen s).contexts = s.contexts := rfl
@[simp] theorem freshen_queues (s : State) : (freshen s).queues = s.queues := rfl
@[simp] theorem freshen_rr (s : State) : (freshen s).rr = s.rr := rfl
@[simp] theorem freshen_kernels (s : State) : (freshen s).kernels = s.kernels := rfl
@[simp] theorem freshen_nextKernel (s : State) : (freshen s).nextKernel = s.nextKernel := rfl
@[simp] theorem freshen_reserved (s : State) : (freshen s).reserved = s.reserved := rfl
@[simp] theorem freshen_landings (s : State) : (freshen s).landings = s.landings := rfl
@[simp] theorem freshen_nextLanding (s : State) : (freshen s).nextLanding = s.nextLanding := rfl
@[simp] theorem freshen_runs (s : State) : (freshen s).runs = s.runs := rfl
@[simp] theorem freshen_flights (s : State) : (freshen s).flights = s.flights := rfl
@[simp] theorem freshen_nextFlight (s : State) : (freshen s).nextFlight = s.nextFlight := rfl
@[simp] theorem freshen_steps (s : State) : (freshen s).steps = s.steps := rfl
@[simp] theorem freshen_nextStep (s : State) : (freshen s).nextStep = s.nextStep := rfl
@[simp] theorem freshen_links (s : State) : (freshen s).links = s.links := rfl
@[simp] theorem freshen_chip (s : State) : (freshen s).chip = s.chip := rfl
@[simp] theorem freshen_epoch (s : State) : (freshen s).epoch = s.epoch := rfl
@[simp] theorem freshen_slew (s : State) : (freshen s).slew = s.slew := rfl
@[simp] theorem freshen_depth (s : State) : (freshen s).depth = s.depth := rfl
@[simp] theorem freshen_beatAt (s : State) : (freshen s).beatAt = s.beatAt := rfl
@[simp] theorem freshen_buffers (s : State) : (freshen s).buffers = s.buffers := rfl
@[simp] theorem freshen_rom (s : State) : (freshen s).rom = s.rom := rfl
@[simp] theorem freshen_fabric (s : State) : (freshen s).fabric = s.fabric := rfl
@[simp] theorem freshen_patching (s : State) : (freshen s).patching = s.patching := rfl
@[simp] theorem freshen_nextReq (s : State) : (freshen s).nextReq = s.nextReq := rfl
@[simp] theorem freshen_epochSet (s : State) : (freshen s).epochSet = s.epochSet := rfl
@[simp] theorem freshen_upLink (s : State) : (freshen s).upLink = s.upLink := rfl
@[simp] theorem freshen_muted (s : State) : (freshen s).muted = s.muted := rfl

end Sys2Proof.Machine
end

