-- ==== Sys2Proof/Laws/Cores.lean ====
section
/-!
SUPPORT. Laws/Cores.lean: reading and writing cores by number, rings, and the sequencer's own state.
-/
namespace Sys2Proof.Machine

theorem alGet_insertCore (l : List (Nat × Core)) (n m : Nat) (c : Core) :
    alGet (insertCore l n c) m = if n = m then some c else alGet l m := by
  induction l with
  | nil => simp [insertCore, alGet]
  | cons e r ih =>
    obtain ⟨a, u⟩ := e
    simp only [insertCore]
    split
    · simp only [alGet]
    · split
      · subst_vars; simp only [alGet]; split <;> rfl
      · simp only [alGet, ih]; split <;> simp_all; omega

/-- Reading a core after one is written. -/
theorem coreOf_setCore (s : State) (n m : Nat) (c : Core) :
    coreOf (setCore s n c) m = if n = m then c else coreOf s m := by
  simp only [coreOf, setCore, alGet_insertCore]
  split <;> rfl

@[simp] theorem coreOf_setCore_same (s : State) (n : Nat) (c : Core) : coreOf (setCore s n c) n = c := by
  simp [coreOf_setCore]

theorem coreOf_setCore_other (s : State) (n m : Nat) (c : Core) (h : n ≠ m) :
    coreOf (setCore s n c) m = coreOf s m := by
  simp [coreOf_setCore, h]

@[simp] theorem coreOf_modCore_same (s : State) (n : Nat) (f : Core → Core) :
    coreOf (modCore s n f) n = f (coreOf s n) := coreOf_setCore_same ..

theorem coreOf_modCore_other (s : State) (n m : Nat) (f : Core → Core) (h : n ≠ m) :
    coreOf (modCore s n f) m = coreOf s m := coreOf_setCore_other _ _ _ _ h

theorem insertCore_insertCore (l : List (Nat × Core)) (n : Nat) (c d : Core) :
    insertCore (insertCore l n c) n d = insertCore l n d := by
  induction l with
  | nil => simp [insertCore]
  | cons e r ih =>
    obtain ⟨a, u⟩ := e
    simp only [insertCore]
    split
    · simp [insertCore]
    · split
      · simp [insertCore]
      · rename_i h1 h2
        simp [insertCore, h1, h2, ih]

/-- A second write of the same core replaces the first. -/
@[simp] theorem setCore_setCore (s : State) (n : Nat) (c d : Core) :
    setCore (setCore s n c) n d = setCore s n d := by
  simp [setCore, insertCore_insertCore]

@[simp] theorem modCore_setCore (s : State) (n : Nat) (c : Core) (f : Core → Core) :
    modCore (setCore s n c) n f = setCore s n (f c) := by
  simp [modCore]

theorem modCore_modCore (s : State) (n : Nat) (f g : Core → Core) :
    modCore (modCore s n f) n g = modCore s n fun c => g (f c) := by
  simp [modCore]

theorem modCore_eq (s : State) (n : Nat) (f : Core → Core) : modCore s n f = setCore s n (f (coreOf s n)) := rfl

/-! ### Rings (05_word.md R68 to R73) -/

theorem unitNo_lt (u : RingId) : unitNo u < 8 := by cases u <;> decide

theorem unitNo_inj {u w : RingId} (h : unitNo u = unitNo w) : u = w := by
  cases u <;> cases w <;> first | rfl | exact absurd h (by decide)

theorem ringOf_setRing (c : Core) (u w : RingId) (r : Ring) :
    ringOf (setRing c u r) w = if u = w then r else ringOf c w := by
  have hu := unitNo_lt u
  have hw := unitNo_lt w
  simp only [ringOf, setRing, List.getD_eq_getElem?_getD, Vector.getElem?_toList]
  by_cases h : u = w
  · subst h
    simp [hu]
  · have : unitNo u ≠ unitNo w := fun e => h (unitNo_inj e)
    simp [this, h]

@[simp] theorem ringOf_setRing_same (c : Core) (u : RingId) (r : Ring) : ringOf (setRing c u r) u = r := by
  simp [ringOf_setRing]

theorem ringOf_setRing_other (c : Core) (u w : RingId) (r : Ring) (h : u ≠ w) :
    ringOf (setRing c u r) w = ringOf c w := by
  simp [ringOf_setRing, h]

@[simp] theorem rings_setRing (c : Core) (u : RingId) (r : Ring) (v : Vector Ring 8) :
    { setRing c u r with rings := v } = { c with rings := v } := rfl

/-- After a rotation `u.q0` names what was `u.q7`. -/
theorem latchOf_rotate_zero (c : Core) (u : RingId) : latchOf (rotate c u) u 0 = latchOf c u 7 := by
  have : ∀ p : Fin 8, p - 1 + 0 = p + 7 := by decide
  simp only [latchOf, rotate, ringOf_setRing_same, physical]
  rw [this]
  rfl

/-- After a rotation each other latch is named one further on. -/
theorem latchOf_rotate_succ (c : Core) (u : RingId) (k : Fin 8) :
    latchOf (rotate c u) u (k + 1) = latchOf c u k := by
  have : ∀ p k : Fin 8, p - 1 + (k + 1) = p + k := by decide
  simp only [latchOf, rotate, ringOf_setRing_same, physical]
  rw [this]
  rfl

theorem ringOf_rotate_other (c : Core) (u w : RingId) (h : w ≠ u) : ringOf (rotate c u) w = ringOf c w := by
  simp [rotate, ringOf_setRing_other _ _ _ _ (Ne.symm h)]

/-- The value a ring of the unit holds of `v`: 64 bits of it or all. -/
def ringVal (u : RingId) (v : Vec) : Vec := if ringWidth u = 64 then (v.setWidth 64).setWidth 4096 else v

theorem latchOf_depositAt_zero (c : Core) (u : RingId) (v : Vec) (due : Nat) (w : Option Nat) :
    latchOf (depositAt c u v due w) u 0 = { val := ringVal u v, due := due, wait := w } := by
  simp [latchOf, depositAt, ringVal, physical, latchAt]

theorem latchOf_depositAt_other (c : Core) (u : RingId) (v : Vec) (due : Nat) (w : Option Nat) (k : Fin 8)
    (h : k ≠ 0) : latchOf (depositAt c u v due w) u k = latchOf c u k := by
  simp only [latchOf, depositAt, ringOf_setRing_same, physical, latchAt]
  have hne : ((ringOf c u).ptr : Fin 8).val ≠ ((ringOf c u).ptr + k).val := by
    intro e
    apply h
    exact (by decide : ∀ p k : Fin 8, p = p + k → k = 0) _ _ (Fin.ext e)
  exact Vector.getElem_set_ne _ _ hne

theorem ringOf_depositAt_other (c : Core) (u w : RingId) (v : Vec) (due : Nat) (x : Option Nat) (h : w ≠ u) :
    ringOf (depositAt c u v due x) w = ringOf c w := by
  simp [depositAt, ringOf_setRing_other _ _ _ _ (Ne.symm h)]

/-! ### The PC state does not depend on rings -/

/-! ### The sequencer's moves, one by one (R65, R91, R92, R129) -/

theorem advance_delay_last (c : Core) (k : Ctl) (d : Delay) (h : c.delay = some d) (h1 : d.left.toNat ≤ 1)
    (h2 : c.returning = false) : advance c k = { c with pc := d.target, delay := none } := by
  simp only [advance, h, h1, h2, if_true]; rfl

theorem advance_handler_end (c : Core) (k : Ctl) (d : Delay) (h : c.delay = some d) (h1 : d.left.toNat ≤ 1)
    (h2 : c.returning = true) : advance c k = leaveHandler c := by
  simp only [advance, h, h1, h2, if_true]

theorem advance_delay_first (c : Core) (k : Ctl) (d : Delay) (h : c.delay = some d) (h1 : ¬ d.left.toNat ≤ 1) :
    advance c k = { c with pc := pcNext c.pc, delay := some { d with left := 1 } } := by
  simp only [advance, h, h1, if_false]

theorem advance_branch (c : Core) (t : BitVec 12) (h : c.delay = none) :
    advance c (.branch t) = { endStair c with pc := pcNext c.pc, delay := some { left := 2, target := t } } := by
  simp only [advance, h]

theorem advance_ret (c : Core) (h : c.delay = none) :
    advance c .ret = { endStair c with pc := pcNext c.pc, returning := true
                                       delay := some { left := 2, target := (c.ret.map (·.1)).getD 0 } } := by
  simp only [advance, h]

theorem advance_stair (c : Core) (n : Nat) (h : c.delay = none) :
    advance c (.stair n) = { c with
      pc := pcNext c.pc
      stair := { c.stair with running := BitVec.ofNat 3 n
                              flights := c.stair.flights.map fun f => { f with idx := 0 } } } := by
  simp only [advance, h]

theorem advance_sbrk (c : Core) (h : c.delay = none) :
    advance c .sbrk = { endStair c with pc := pcNext c.pc } := by
  simp only [advance, h]

theorem advance_plain (c : Core) (h : c.delay = none) (h1 : c.stair.running.toNat = 0) :
    advance c .seq = { c with pc := pcNext c.pc } := by
  simp only [advance, h, h1, if_true]

theorem advance_loop (c : Core) (k : Nat) (h : c.delay = none) (h1 : ¬ c.stair.running.toNat = 0)
    (h2 : loopBack c.stair c.pc c.stair.running.toNat 6 0 = some k) :
    advance c .seq = { c with
      stair := (List.range k).foldl (fun st j => setIdx st j 0) (setIdx c.stair k ((flightAt c.stair k).idx + 1))
      pc := (flightAt c.stair k).first } := by
  simp only [advance, h, h1, h2, if_false]

theorem advance_stair_end (c : Core) (h : c.delay = none) (h1 : ¬ c.stair.running.toNat = 0)
    (h2 : loopBack c.stair c.pc c.stair.running.toNat 6 0 = none)
    (h3 : (flightAt c.stair (c.stair.running.toNat - 1)).last = c.pc) :
    advance c .seq = { endStair c with pc := pcNext c.pc } := by
  simp only [advance, h, h1, h2, h3, if_true, if_false]

theorem advance_within (c : Core) (h : c.delay = none) (h1 : ¬ c.stair.running.toNat = 0)
    (h2 : loopBack c.stair c.pc c.stair.running.toNat 6 0 = none)
    (h3 : ¬ (flightAt c.stair (c.stair.running.toNat - 1)).last = c.pc) :
    advance c .seq = { c with pc := pcNext c.pc } := by
  simp only [advance, h, h1, h2, h3, if_false]

/-- Core `d` with the sequencer's state of `c`. -/
def onto (d c : Core) : Core :=
  { d with pc := c.pc, delay := c.delay, stair := c.stair, walk := c.walk, p := c.p, ret := c.ret
           handler := c.handler, returning := c.returning, tcache := c.tcache, walked := c.walked }

theorem onto_self (c : Core) : onto c c = c := rfl

theorem endStair_onto (d c : Core) : endStair (onto d c) = onto d (endStair c) := by
  by_cases h : c.stair.running = 0
  · exact (show endStair (onto d c) = onto d c from if_pos h).trans
      (by rw [show endStair c = c from if_pos h])
  · have h1 : endStair c = _ := if_neg h
    have h2 : endStair (onto d c) = _ := if_neg h
    rw [h1, h2]; rfl

/-- The sequencer's move reads and writes the sequencer's state and nothing else. -/
theorem advance_onto (d c : Core) (k : Ctl) : advance (onto d c) k = onto d (advance c k) := by
  obtain ⟨x, hd⟩ : ∃ x, c.delay = x := ⟨_, rfl⟩
  cases x with
  | some x =>
    by_cases h1 : x.left.toNat ≤ 1
    · obtain ⟨b, h2⟩ : ∃ b, c.returning = b := ⟨_, rfl⟩
      cases b
      · exact (advance_delay_last (onto d c) k x hd h1 h2).trans (by rw [advance_delay_last c k x hd h1 h2]; rfl)
      · exact (advance_handler_end (onto d c) k x hd h1 h2).trans (by rw [advance_handler_end c k x hd h1 h2]; rfl)
    · exact (advance_delay_first (onto d c) k x hd h1).trans (by rw [advance_delay_first c k x hd h1]; rfl)
  | none =>
    cases k with
    | branch t => exact (advance_branch (onto d c) t hd).trans (by rw [advance_branch c t hd, endStair_onto]; rfl)
    | ret => exact (advance_ret (onto d c) hd).trans (by rw [advance_ret c hd, endStair_onto]; rfl)
    | stair n => exact (advance_stair (onto d c) n hd).trans (by rw [advance_stair c n hd]; rfl)
    | sbrk => exact (advance_sbrk (onto d c) hd).trans (by rw [advance_sbrk c hd, endStair_onto]; rfl)
    | seq =>
      by_cases h1 : c.stair.running.toNat = 0
      · exact (advance_plain (onto d c) hd h1).trans (by rw [advance_plain c hd h1]; rfl)
      · obtain ⟨o, h2⟩ : ∃ o, loopBack c.stair c.pc c.stair.running.toNat 6 0 = o := ⟨_, rfl⟩
        cases o with
        | some j => exact (advance_loop (onto d c) j hd h1 h2).trans (by rw [advance_loop c j hd h1 h2]; rfl)
        | none =>
          by_cases h3 : (flightAt c.stair (c.stair.running.toNat - 1)).last = c.pc
          · exact (advance_stair_end (onto d c) hd h1 h2 h3).trans
              (by rw [advance_stair_end c hd h1 h2 h3, endStair_onto]; rfl)
          · exact (advance_within (onto d c) hd h1 h2 h3).trans (by rw [advance_within c hd h1 h2 h3]; rfl)

/-- The sequencer's move changes the sequencer's state and nothing else. -/
theorem advance_frame (c : Core) (k : Ctl) : advance c k = onto c (advance c k) := by
  have h := advance_onto c c k
  rwa [onto_self] at h

/-- The sequencer's move leaves the rings alone, and does not look at them. -/
theorem advance_rings (c : Core) (k : Ctl) (v : Vector Ring 8) :
    advance { c with rings := v } k = { advance c k with rings := v } := by
  have h := advance_onto { c with rings := v } c k
  rw [advance_frame c k]
  exact h

end Sys2Proof.Machine
end

