-- ==== Sys2Proof/Laws/Issue.lean ====
section
/-!
SUPPORT. Laws/Issue.lean: what a word that holds one slot operation does, said once for every slot operation
(05_word.md R66, R67, R71; 06_encoding.md R112).
-/
namespace Sys2Proof.Machine

open Sys2Proof.Safety

/-- A slot that asks for no walk, fails no check of its own, holds no word and makes no copy. -/
structure PlainOp (o : SlotOp) : Prop where
  rewalk : o.rewalk = []
  walkVa : o.walkVa = none
  pre    : o.pre = []
  post   : o.post = []
  stall  : o.stall = false
  copies : o.copies = 0

theorem firstFail_none (fails : SlotOp → List (Nat × BitVec 32)) (ops : List SlotOp)
    (h : ∀ o ∈ ops, fails o = []) (l : List Nat) : firstFail fails ops l = none := by
  induction l with
  | nil => rfl
  | cons a r ih =>
    have : (ops.filter fun o => (fails o).any fun f => f.1 == a) = [] := by
      rw [List.filter_eq_nil_iff]
      intro o ho
      simp [h o ho]
    simp only [firstFail, this, ih]

theorem preFails_nil (c : Core) (o : SlotOp) (hp : o.pre = []) (hr : readsPass c o.reads) : preFails c o = [] := by
  unfold preFails
  rw [hp, List.nil_append]
  rcases hr with ⟨_, h⟩ | h
  · simp [h]
  · have : o.reads.filter (srcEarly c) = [] := by
      rw [List.filter_eq_nil_iff]; intro a ha; simp [h a ha]
    simp [this]

theorem compatStall_false (c : Core) (o : SlotOp) (hr : readsPass c o.reads) : compatStall c [o] = false := by
  unfold compatStall
  rcases hr with ⟨h, _⟩ | h
  · simp only [Bool.and_eq_false_iff]; left; simpa using h
  · simp only [List.any_cons, List.any_nil, Bool.or_false, Bool.and_eq_false_iff]
    right
    rw [List.any_eq_false]
    intro a ha
    simp [h a ha]

theorem slotStall_false (c : Core) (o : SlotOp) (h : PlainOp o) : slotStall c [o] = false := by
  unfold slotStall
  by_cases he : executes c o <;> simp [List.filter, he, h.stall, h.copies]

/-- The core after its word, the slot's own effect on it being `f`. -/
def afterSlot (c : Core) (o : SlotOp) (f : Core → Core) : Core :=
  let c0 := match o.ring with | some u => rotate c u | none => c
  moved (if executes c o then f c0 else c0) (if executes c o then o.ctl else .seq)

/-! ### Signatures of pairs (R392) -/

/-- A write of a core that keeps its kernel changes no pair. -/
theorem isPaired_setCore (s : State) (n m : Nat) (c : Core) (h : c.kernel = (coreOf s n).kernel) :
    isPaired (setCore s n c) m = isPaired s m := by
  have hk : (coreOf (setCore s n c) m).kernel = (coreOf s m).kernel := by
    rw [coreOf_setCore]; split
    · subst_vars; exact h
    · rfl
  unfold isPaired leadsPair inPair
  rw [hk]; rfl

/-- The sequencer's move and the signature of the word do not meet. -/
theorem moved_hold (x : Bool) (l : List Byte) (b c : Core) (k : Ctl) :
    moved (holdSignature x l b c) k = holdSignature x l b (moved c k) := by
  have h := advance_onto (holdSignature x l b c) c k
  have h2 := advance_frame c k
  unfold moved
  rw [show advance (holdSignature x l b c) k = onto (holdSignature x l b c) (advance c k) from h, h2]
  rfl

theorem signCycle_setCore (p x : Bool) (s : State) (n : Nat) (b c : Core) :
    signCycle p (setCore s n c) n x b = setCore s n (if p then holdSignature x (sentBytes s n) b c else c) := by
  cases p
  · rfl
  · exact modCore_setCore ..

theorem moved_sign (p x : Bool) (l : List Byte) (b c : Core) (k : Ctl) :
    moved (if p then holdSignature x l b c else c) k = if p then holdSignature x l b (moved c k) else moved c k := by
  cases p
  · rfl
  · exact moved_hold x l b c k

theorem signed_setCore (s : State) (n : Nat) (c : Core) :
    signed (setCore s n (coreOf s n)) n c = signed s n c := by
  unfold signed
  rw [isPaired_setCore s n n _ rfl, coreOf_setCore_same]
  rfl

/-- The commit of one slot whose effect on its core is `f`, and nothing else. -/
theorem commitWord_core (s : State) (n : Nat) (o : SlotOp) (f : Core → Core)
    (he : ∀ c, o.eff (setCore s n c) = setCore s n (f c)) (ha : o.after = fun s => s) :
    commitWord s n true [o] = endCycle (setCore s n (signed s n (afterSlot (coreOf s n) o f))) n := by
  have hm (k : Ctl) (c : Core) : { advance (if isPaired s n then holdSignature true (sentBytes s n) (coreOf s n) c else c) k with
        words := (if isPaired s n then holdSignature true (sentBytes s n) (coreOf s n) c else c).words + 1
        prog := (if isPaired s n then holdSignature true (sentBytes s n) (coreOf s n) c else c).prog || true, walked := [] } =
      signed s n (moved c k) := by
    have h := moved_sign (isPaired s n) true (sentBytes s n) (coreOf s n) c k
    unfold signed
    rw [← h, moved, Bool.or_true]
  cases hx : executes (coreOf s n) o
  · have hl : List.filter (executes (coreOf s n)) [o] = [] := by simp [hx]
    simp only [commitWord, hl, List.foldl_cons, List.foldl_nil, List.find?_nil, Option.map_none, Option.getD_none,
      modCore_eq, signCycle_setCore, coreOf_setCore_same, setCore_setCore, afterSlot, hx]
    rw [hm]; rfl
  · have hl : List.filter (executes (coreOf s n)) [o] = [o] := by simp [hx]
    have hc : (([o].find? fun o => o.ctl != Ctl.seq).map (·.ctl)).getD Ctl.seq = o.ctl := by
      cases h : (o.ctl != Ctl.seq)
      · have : o.ctl = Ctl.seq := by simpa using h
        simp [this]
      · simp [h]
    simp only [commitWord, hl, List.foldl_cons, List.foldl_nil, he, ha,
      modCore_eq, signCycle_setCore, coreOf_setCore_same, setCore_setCore, afterSlot, hx]
    rw [hc, hm]; rfl

theorem commitWord_one (s : State) (n : Nat) (o : SlotOp) (f : Core → Core)
    (he : o.eff = fun s => modCore s n f) (ha : o.after = fun s => s) :
    commitWord s n true [o] = endCycle (setCore s n (signed s n (afterSlot (coreOf s n) o f))) n :=
  commitWord_core s n o f (fun c => by rw [he]; exact modCore_setCore ..) ha

/-- The same of a slot that does nothing but move the sequencer. -/
theorem commitWord_moves (s : State) (n : Nat) (o : SlotOp) (he : o.eff = fun s => s) (ha : o.after = fun s => s) :
    commitWord s n true [o] = endCycle (setCore s n (signed s n (afterSlot (coreOf s n) o id))) n :=
  commitWord_core s n o id (fun c => by rw [he]; rfl) ha

/-- A word that holds one plain slot commits. -/
theorem runSlot_commits (s : State) (op : State → Nat → SlotOp) (hi : Issues s)
    (hs : op (setCore s (me s) (mine s)) (me s) = op s (me s)) (hp : PlainOp (op s (me s)))
    (hr : readsPass (mine s) (op s (me s)).reads) :
    runSlot s op = .next (commitWord (setCore s (me s) (mine s)) (me s) true [op s (me s)]) := by
  have h1 := compatStall_false (mine s) _ hr
  have h2 := slotStall_false (mine s) _ hp
  have h3 : firstFail (preFails (mine s)) [op s (me s)] preStages = none :=
    firstFail_none _ _ (by simpa using preFails_nil _ _ hp.pre hr) _
  have h4 : firstFail (·.post) ([op s (me s)].filter (executes (mine s))) postStages = none :=
    firstFail_none _ _ (fun o ho => by
      have := (List.mem_filter.1 ho).1
      simp at this; subst this; exact hp.post) _
  have h5 : walkMiss (mine s) [op s (me s)] = none := by simp [walkMiss, hp.walkVa]
  unfold runSlot runWord
  simp only [hi.running, hi.quiet, hi.free, hi.served, bne_self_eq_false, Bool.false_eq_true, if_false, Option.isSome_none,
    Bool.false_and, Bool.or_self]
  simp only [issueWord, h1, h2, Bool.or_self, Bool.false_eq_true, if_false, List.foldr_cons, List.foldr_nil,
    hp.rewalk, List.nil_append, rewalkCore, hs, checkWord, coreOf_setCore_same, h3, h4, h5]

/-- What a plain slot's word does, in one equation: the cycle ends from the state whose core has run it. -/
theorem runSlot_core (s : State) (op : State → Nat → SlotOp) (f : Core → Core) (hi : Issues s)
    (hs : op (setCore s (me s) (mine s)) (me s) = op s (me s)) (hp : PlainOp (op s (me s)))
    (hr : readsPass (mine s) (op s (me s)).reads) (he : (op s (me s)).eff = fun s' => modCore s' (me s) f)
    (ha : (op s (me s)).after = fun s => s) :
    runSlot s op = .next (endCycle (setCore s (me s) (signed s (me s) (afterSlot (mine s) (op s (me s)) f))) (me s)) := by
  rw [runSlot_commits s op hi hs hp hr, commitWord_one _ _ _ f he ha, coreOf_setCore_same, setCore_setCore, signed_setCore]

/-- The guard decides whether a guarded slot executes. -/
theorem executes_guard (c : Core) (o : SlotOp) (g : Guard) (h : o.guard = some g) : executes c o = holds c g := by
  simp [executes, holds, h]

theorem moved_rings (c : Core) (k : Ctl) (v : Vector Ring 8) :
    moved { c with rings := v } k = { moved c k with rings := v } := by
  unfold moved
  rw [advance_rings]

/-- What the rings are is the one thing that rings decide. -/
theorem moved_of_rings {c d : Core} {k : Ctl} (h : { d with rings := c.rings } = c) :
    { moved d k with rings := c.rings } = moved c k := by
  rw [← moved_rings d k c.rings, h]

theorem moved_keeps_rings (c : Core) (k : Ctl) : (moved c k).rings = c.rings := by
  have h := congrArg Core.rings (moved_rings c k c.rings)
  exact h

theorem moved_latchOf (c : Core) (k : Ctl) (u : RingId) (n : Fin 8) : latchOf (moved c k) u n = latchOf c u n := by
  have h : (moved c k).rings = c.rings := moved_keeps_rings c k
  have h' : ringOf (moved c k) u = ringOf c u := by unfold ringOf; rw [h]
  unfold latchOf
  rw [h']

theorem moved_ringOf (c : Core) (k : Ctl) (u : RingId) : ringOf (moved c k) u = ringOf c u := by
  have h : (moved c k).rings = c.rings := moved_keeps_rings c k
  unfold ringOf; rw [h]

theorem rotate_rings (c : Core) (u : RingId) : { rotate c u with rings := c.rings } = c := rfl

theorem depositAt_rings (c : Core) (u : RingId) (v : Vec) (due : Nat) (w : Option Nat) (r : Vector Ring 8) :
    { depositAt c u v due w with rings := r } = { c with rings := r } := rfl

/-- The ring of a slot that takes a latch, whatever else its effect does. -/
theorem turns_after (c : Core) (o : SlotOp) (u : RingId) (g : Guard) (l : Latch) (f : Core → Core)
    (hg : o.guard = some g) (hu : o.ring = some u) (h0 : latchOf (f (rotate c u)) u 0 = l)
    (hk : ∀ k, k ≠ 0 → latchOf (f (rotate c u)) u k = latchOf (rotate c u) u k)
    (hw : ∀ w, w ≠ u → ringOf (f (rotate c u)) w = ringOf (rotate c u) w) : Turns c (afterSlot c o f) u g l := by
  unfold afterSlot Turns
  simp only [hu, executes_guard _ _ g hg]
  refine ⟨?_, fun k h7 => ?_, fun w h => ?_⟩
  · rw [moved_latchOf]
    cases holds c g
    · exact latchOf_rotate_zero _ _
    · exact h0
  · rw [moved_latchOf]
    cases holds c g
    · exact latchOf_rotate_succ _ _ _
    · exact (hk _ ((by decide : ∀ k : Fin 8, k ≠ 7 → k + 1 ≠ 0) k h7)).trans (latchOf_rotate_succ _ _ _)
  · rw [moved_ringOf]
    cases holds c g
    · exact ringOf_rotate_other _ _ _ h
    · exact (hw w h).trans (ringOf_rotate_other _ _ _ h)

/-- The rest of the core of a slot that takes a latch. -/
theorem rest_after (c : Core) (o : SlotOp) (u : RingId) (g : Guard) (f h : Core → Core)
    (hg : o.guard = some g) (hu : o.ring = some u) (hf : { f (rotate c u) with rings := c.rings } = h c)
    (hh : (h c).rings = c.rings) :
    { afterSlot c o f with rings := c.rings } =
      moved (if holds c g then h c else c) (if holds c g then o.ctl else .seq) := by
  unfold afterSlot
  simp only [hu, executes_guard _ _ g hg]
  cases holds c g
  · exact moved_of_rings (c := c) (rotate_rings c u)
  · simp only [if_true]
    have := moved_of_rings (c := h c) (d := f (rotate c u)) (k := o.ctl) (by rw [hh]; exact hf)
    rwa [hh] at this

/-- A slot that deposits: its ring turns and takes the result; the rest of the core only moves on. -/
theorem runSlot_deposits (s : State) (op : State → Nat → SlotOp) (u : RingId) (g : Guard) (v : Vec) (lat : Nat)
    (hi : Issues s) (hs : op (setCore s (me s) (mine s)) (me s) = op s (me s)) (hp : PlainOp (op s (me s)))
    (hr : readsPass (mine s) (op s (me s)).reads) (hg : (op s (me s)).guard = some g)
    (hu : (op s (me s)).ring = some u) (hc : (op s (me s)).ctl = .seq)
    (he : (op s (me s)).eff = fun s' => modCore s' (me s) fun c => deposit c u v lat)
    (ha : (op s (me s)).after = fun s => s) :
    ∃ c', runSlot s op = .next (endCycle (setCore s (me s) (signed s (me s) c')) (me s)) ∧
      Turns (mine s) c' u g (result (mine s) (ringVal u v) lat) ∧
      { c' with rings := (mine s).rings } = moved (mine s) .seq := by
  refine ⟨_, runSlot_core s op _ hi hs hp hr he ha, ?_, ?_⟩
  · exact turns_after _ _ u g _ _ hg hu (latchOf_depositAt_zero _ _ _ _ _)
      (fun k h => latchOf_depositAt_other _ _ _ _ _ _ h) fun w h => ringOf_depositAt_other _ _ _ _ _ _ h
  · have := rest_after (mine s) (op s (me s)) u g (fun c => deposit c u v lat) (fun c => c) hg hu
      (depositAt_rings (rotate (mine s) u) u v _ none (mine s).rings) rfl
    rw [this, hc]
    simp only [ite_self]

theorem ringVal_64 (u : RingId) (h : ringWidth u = 64) (v : BitVec 64) :
    ringVal u (v.setWidth 4096) = v.setWidth 4096 := by
  have e : (v.setWidth 4096).setWidth 64 = v := by
    apply BitVec.eq_of_getLsbD_eq
    intro i hi
    rw [BitVec.getLsbD_setWidth, BitVec.getLsbD_setWidth]
    simp [hi]; omega
  rw [ringVal, if_pos h, e]

/-- An agent that issues nothing: no slot instruction runs. -/
theorem runSlot_notIssuing (s : State) (op : State → Nat → SlotOp) (h : (mine s).run ≠ .running) :
    runSlot s op = .fault .notIssuing := by
  simp [runSlot, runWord, h]

end Sys2Proof.Machine
end

