-- ==== Sys2Proof/Laws/Cycle.lean ====
section
/-!
SUPPORT. Laws/Cycle.lean: what the end of a cycle leaves alone: the matrix unit, what lands, copies of fixed
length (05_word.md R66, R76, R82; 10_microcode.md R218).
-/
namespace Sys2Proof.Machine

/-- The core without what a routine writes: tile registers, the matrix unit, the tile store, pending causes; nor the
signatures of its words, which what it sends may join (R392). -/
def unitStrip (c : Core) : Core :=
  { c with t := Core.zero.t, mx := Matrix.zero, tile := [], undef := [], wrote := [], mixed := [], tPoison := []
           causes := [], sigs := [], owed := [] }

/-- The core without what the end of a cycle writes, nor the signatures of its words (R392). -/
def endStrip (c : Core) : Core :=
  { c with next := 0, s := Core.zero.s, v := Core.zero.v, p := 0, msk := Core.zero.msk, t := Core.zero.t
           h := Core.zero.h, mp := Core.zero.mp, walk := Core.zero.walk, rings := Core.zero.rings, vflags := 0
           bsat := 0, bzero := 0, cyc := 0, pend := [], copies := [], istore := [], iPoison := [], tile := []
           undef := [], wrote := [], mixed := [], tPoison := [], rowBusy := [], mx := Matrix.zero, causes := []
           sigs := [], upset := 0, differs := none, owed := [] }

/-- The core without what a routine writes, nor its clock, its copies and its instruction store. -/
def tickStrip (c : Core) : Core :=
  { unitStrip c with cyc := 0, next := 0, copies := [], istore := [], iPoison := [] }

theorem endStrip_unitStrip (c : Core) : endStrip (unitStrip c) = endStrip c := rfl

theorem endStrip_of_unit {c d : Core} (h : unitStrip c = unitStrip d) : endStrip c = endStrip d := by
  rw [← endStrip_unitStrip c, ← endStrip_unitStrip d, h]

theorem foldl_keeps {α β γ : Type} {f : α → β → α} (p : α → γ) (l : List β) (a : α) (h : ∀ a b, p (f a b) = p a) :
    p (l.foldl f a) = p a := by
  induction l generalizing a with
  | nil => rfl
  | cons b r ih => exact (ih _).trans (h _ _)

/-! ### The tile store and the matrix unit -/

theorem addCause_unit (c : Core) (code : Nat) (x : BitVec 32) (h : Bool) : unitStrip (addCause c code x h) = unitStrip c := by
  unfold addCause; split <;> rfl

theorem consume_unit (c : Core) (n : Nat) : unitStrip (consume c n) = unitStrip c := addCause_unit _ _ _ _

theorem putPiece_unit (l : List Open) (t : Nat) (fv : BitVec 32768) (c : Core) (x k v : Nat) :
    unitStrip (putPiece l t fv c x k v) = unitStrip c := rfl

theorem putRun_unit (l : List Open) (t : Nat) (fv : BitVec 32768) (c : Core) (x n v : Nat) :
    unitStrip (putRun l t fv c x n v) = unitStrip c :=
  foldl_keeps unitStrip _ _ fun _ _ => putPiece_unit ..

theorem tileStore_unit (t : Nat) (fv : BitVec 32768) (c : Core) (x n v : Nat) :
    unitStrip (tileStore t fv c x n v) = unitStrip c := putRun_unit ..

theorem putBytes_unit (l : List Open) (t : Nat) (fv : BitVec 32768) (c : Core) (bs : List (Nat × Byte)) :
    unitStrip (putBytes l t fv c bs) = unitStrip c :=
  Eq.trans rfl (foldl_keeps unitStrip bs c fun _ _ => putPiece_unit ..)

theorem tileStoreBytes_unit (t : Nat) (fv : BitVec 32768) (c : Core) (bs : List (Nat × Byte)) :
    unitStrip (tileStoreBytes t fv c bs) = unitStrip c := by
  unfold tileStoreBytes
  dsimp only
  refine (foldl_keeps unitStrip _ _ ?_).trans (putBytes_unit _ _ _ c bs)
  intro _ _; rfl

theorem setStatus_unit (c : Core) (a b v : Nat) : unitStrip (setStatus c a b v) = unitStrip c := rfl
theorem setRun_unit (c : Core) (r : Option Routine) : unitStrip (setRun c r) = unitStrip c := rfl
theorem modRun_unit (c : Core) (f : Routine → Routine) : unitStrip (modRun c f) = unitStrip c := rfl
theorem setMx_unit (c : Core) (m : Matrix) : unitStrip { c with mx := m } = unitStrip c := rfl

theorem endRoutine_unit (c : Core) (n : Nat) : unitStrip (endRoutine c n) = unitStrip c := by
  unfold endRoutine; split
  · rfl
  · rw [setStatus_unit, setRun_unit]
    exact foldl_keeps unitStrip _ _ fun _ _ => rfl

theorem failRoutine_unit (c : Core) (a b d : Nat) : unitStrip (failRoutine c a b d) = unitStrip c := by
  unfold failRoutine
  dsimp only
  rw [setMx_unit, setStatus_unit, setStatus_unit, endRoutine_unit]

theorem abortRoutine_unit (c : Core) : unitStrip (abortRoutine c) = unitStrip c := by
  rw [abortRoutine, setStatus_unit, endRoutine_unit]

theorem consumeOperand_unit (c : Core) (o : Operand) (p : Nat → Bool) : unitStrip (consumeOperand c o p) = unitStrip c := by
  unfold consumeOperand; split
  · exact consume_unit c 0
  · rfl

theorem consumeScales_unit (c : Core) (x : Side) : unitStrip (consumeScales c x) = unitStrip c := by
  cases x
  · rfl
  · exact consumeOperand_unit ..

theorem consumeData_unit (k n : Nat) (c : Core) (x : Side) : unitStrip (consumeData k n c x) = unitStrip c := by
  cases x
  · rfl
  · exact consumeOperand_unit ..

theorem promote_unit (c : Core) (d e : Nat) (a b g : BitVec 32) (s : Bool) :
    unitStrip (promote c d e a b g s) = unitStrip c := by
  unfold promote; dsimp only; split <;> split <;> simp only [setStatus_unit, setMx_unit]

theorem passStep_unit (c : Core) (rf cf : Fmt) (w : Nat) (d : Feed) (f : Bool) :
    unitStrip (passStep c rf cf w d f) = unitStrip c := by
  unfold passStep; exact setMx_unit _ _

theorem planeLoad_unit (c : Core) (fv : BitVec 32768) (d : Nat) (tr : Bool) (o : Operand) :
    unitStrip (planeLoad c fv d tr o) = unitStrip c := by
  unfold planeLoad; split <;> exact setMx_unit _ _

theorem putRow_unit (fv : BitVec 32768) (c : Core) (o : Operand) (i n v : Nat) : unitStrip (putRow fv c o i n v) = unitStrip c := by
  unfold putRow
  split
  · rfl
  · exact tileStore_unit ..

theorem planeStore_unit (fv : BitVec 32768) (c : Core) (p : Nat) (o : Operand) :
    unitStrip (planeStore fv c p o) = unitStrip c :=
  foldl_keeps unitStrip _ _ fun _ _ => putRow_unit ..

theorem drainTo_unit (fv : BitVec 32768) (c : Core) (o : Operand) (s : Bool) :
    unitStrip (drainTo fv c o s) = unitStrip c :=
  foldl_keeps unitStrip _ _ fun _ _ => putRow_unit ..

/-- A micro-operation writes nothing beyond the unit's own. -/
structure MicroKeeps (m : Micro) : Prop where
  mid : ∀ fv c r, unitStrip (m.mid fv c r) = unitStrip c
  eff : ∀ fv c r, unitStrip (m.eff fv c r) = unitStrip c
  feeds : ∀ fv c r, unitStrip (m.feeds fv c r) = unitStrip c

theorem plainMicro_keeps (n : Nat) (e : BitVec 32768 → Core → Routine → Core)
    (h : ∀ fv c r, unitStrip (e fv c r) = unitStrip c) : MicroKeeps (plainMicro n e) :=
  ⟨fun _ _ _ => rfl, h, fun _ _ _ => rfl⟩

theorem microTrapm_keeps (code : BitVec 12) : MicroKeeps (microTrapm code) :=
  ⟨fun _ _ _ => rfl, fun _ _ _ => rfl, fun _ _ _ => rfl⟩

theorem readStep_unit (fv : BitVec 32768) (c : Core) (r : Routine) (a b : PassSrc) (n : Nat) :
    unitStrip (readStep fv c r a b n) = unitStrip c := by
  unfold readStep
  split
  · rfl
  · dsimp only
    rw [modRun_unit, consumeData_unit, consumeData_unit]
    split
    · rfl
    · rw [consumeScales_unit, consumeScales_unit]

theorem setupReads_unit (c : Core) (A B : Side) (p : BitVec 64) (f : Routine → Routine) :
    unitStrip (modRun { consumeScales (consumeScales c A) B with
      mx := { (consumeScales (consumeScales c A) B).mx with progress := p } } f) = unitStrip c := by
  rw [modRun_unit, setMx_unit, consumeScales_unit, consumeScales_unit]

theorem stepEnds_unit (c : Core) (rf cf : Fmt) (w : Nat) (d : Feed) (fresh : Bool) (p : BitVec 64) (f : Routine → Routine) :
    unitStrip (modRun { passStep c rf cf w d fresh with
      mx := { (passStep c rf cf w d fresh).mx with progress := p } } f) = unitStrip c := by
  rw [modRun_unit, setMx_unit, passStep_unit]

theorem microPass_mid (keep : Bool) (a b : PassSrc) (kf : Bool) (lv : Fin 4) (fv : BitVec 32768) (c : Core) (r : Routine) :
    unitStrip ((microPass keep a b kf lv).mid fv c r) = unitStrip c := by
  have hs : unitStrip (consumeScales (consumeScales c (sideOf c r a)) (sideOf c r b)) = unitStrip c := by
    rw [consumeScales_unit, consumeScales_unit]
  dsimp only [microPass]
  split
  · split
    · rfl
    · split
      · exact hs
      · exact setupReads_unit ..
  · split
    · rfl
    · exact stepEnds_unit ..

theorem microPass_feeds (keep : Bool) (a b : PassSrc) (kf : Bool) (lv : Fin 4) (fv : BitVec 32768) (c : Core) (r : Routine) :
    unitStrip ((microPass keep a b kf lv).feeds fv c r) = unitStrip c := by
  dsimp only [microPass]
  split
  · exact readStep_unit ..
  · rfl

theorem microPass_keeps (keep : Bool) (a b : PassSrc) (kf : Bool) (lv : Fin 4) :
    MicroKeeps (microPass keep a b kf lv) :=
  ⟨microPass_mid keep a b kf lv, fun _ _ _ => rfl, microPass_feeds keep a b kf lv⟩

theorem microProm_keeps (d e : Fin 4) (dg : Bool) (a b : Fin 4) : MicroKeeps (microProm d e dg a b) :=
  ⟨fun _ _ _ => rfl, fun _ _ _ => promote_unit _ _ _ _ _ _ _, fun _ _ _ => rfl⟩

theorem microClra_keeps : MicroKeeps microClra := plainMicro_keeps _ _ fun _ c _ => setMx_unit c _

theorem microLdpl_keeps (d : Fin 4) (tr : Bool) (td : TileDesc) : MicroKeeps (microLdpl d tr td) :=
  ⟨fun _ _ _ => rfl, fun fv c r => by simp only [microLdpl, plainMicro]; exact (planeLoad_unit _ _ _ _ _).trans (consumeOperand_unit ..),
    fun _ _ _ => rfl⟩

theorem microStpl_keeps (p : Fin 4) (td : TileDesc) : MicroKeeps (microStpl p td) :=
  ⟨fun _ _ _ => rfl, fun fv c r => by simp only [microStpl, plainMicro]; exact planeStore_unit .., fun _ _ _ => rfl⟩

theorem microDrain_keeps (td : TileDesc) : MicroKeeps (microDrain td) :=
  ⟨fun _ _ _ => rfl, fun fv c r => by simp only [microDrain, plainMicro]; exact drainTo_unit .., fun _ _ _ => rfl⟩

theorem microIdpl_keeps (d : Fin 4) : MicroKeeps (microIdpl d) := plainMicro_keeps _ _ fun _ c _ => setMx_unit c _

theorem microCoef_keeps (rst : Bool) (f : Fin 16) : MicroKeeps (microCoef rst f) := by
  refine ⟨fun _ _ _ => rfl, fun fv c r => ?_, fun _ _ _ => rfl⟩
  simp only [microCoef, plainMicro]
  rw [modRun_unit]; split
  · exact consume_unit c 0
  · rfl

theorem microLoop_keeps (n : Fin 4) (p : Bool) (r : Fin 8) (st : BitVec 12) (ct : BitVec 32) :
    MicroKeeps (microLoop n p r st ct) := ⟨fun _ _ _ => rfl, fun _ c _ => modRun_unit c _, fun _ _ _ => rfl⟩

theorem microEndl_keeps (n : Fin 4) : MicroKeeps (microEndl n) :=
  ⟨fun _ _ _ => rfl, fun _ c _ => modRun_unit c _, fun _ _ _ => rfl⟩

theorem microBrf_keeps (c r : Fin 8) (t : BitVec 12) : MicroKeeps (microBrf c r t) :=
  ⟨fun _ _ _ => rfl, fun _ _ _ => rfl, fun _ _ _ => rfl⟩

theorem microSetw_keeps (w : Fin 8) : MicroKeeps (microSetw w) :=
  ⟨fun _ _ _ => rfl, fun _ c _ => modRun_unit c _, fun _ _ _ => rfl⟩

theorem microSetf_keeps (p : Fin 4) (f : Fin 8) : MicroKeeps (microSetf p f) :=
  ⟨fun _ _ _ => rfl, fun _ c _ => setMx_unit c _, fun _ _ _ => rfl⟩

theorem microRprc_keeps (f : Fin 16) (off : BitVec 16) : MicroKeeps (microRprc f off) :=
  ⟨fun _ _ _ => rfl, fun fv c r => by simp only [microRprc, plainMicro]; exact tileStore_unit .., fun _ _ _ => rfl⟩

theorem microDone_keeps : MicroKeeps microDone := ⟨fun _ _ _ => rfl, fun _ _ _ => rfl, fun _ _ _ => rfl⟩

/-- No micro-operation writes beyond the unit's own. -/
theorem microOf_keeps {i : Instr} {m : Micro} (h : microOf i = some m) : MicroKeeps m := by
  cases i
  case trapm => cases h; exact microTrapm_keeps _
  case passMicroOp => cases h; exact microPass_keeps _ _ _ _ _
  case prom => cases h; exact microProm_keeps _ _ _ _ _
  case clra => cases h; exact microClra_keeps
  case ldpl => cases h; exact microLdpl_keeps _ _ _
  case stpl => cases h; exact microStpl_keeps _ _
  case drain => cases h; exact microDrain_keeps _
  case idpl => cases h; exact microIdpl_keeps _
  case coef => cases h; exact microCoef_keeps _ _
  case loop => cases h; exact microLoop_keeps _ _ _ _ _
  case endl => cases h; exact microEndl_keeps _
  case brf => cases h; exact microBrf_keeps _ _ _
  case setw => cases h; exact microSetw_keeps _
  case setf => cases h; exact microSetf_keeps _ _
  case rprc => cases h; exact microRprc_keeps _ _
  case done => cases h; exact microDone_keeps
  all_goals cases h

theorem mismatched_unit (c : Core) (d : Nat) : unitStrip (mismatched c d) = unitStrip c := by
  unfold mismatched; split
  · rfl
  · split
    · exact setMx_unit _ _
    · exact (addCause_unit _ _ _ _).trans (setRun_unit _ _)

theorem matched_unit (c : Core) : unitStrip (matched c) = unitStrip c := modRun_unit _ _

theorem countRerun_unit (c : Core) (r : Routine) : unitStrip (countRerun c r) = unitStrip c := by
  unfold countRerun; split
  · rfl
  · exact setMx_unit _ _

theorem microGo_unit (m : Micro) (h : MicroKeeps m) (fv : BitVec 32768) (c : Core) (r : Routine) :
    unitStrip (microGo m fv c r) = unitStrip c := by
  have hm : ∀ r', unitStrip (m.mid fv c r') = unitStrip c := fun r' => h.mid _ _ _
  unfold microGo
  dsimp only
  split
  · split
    · rw [abortRoutine_unit, setMx_unit, hm]
    · exact hm _
  · split
    · rw [failRoutine_unit, hm]
    · rw [endRoutine_unit, hm]
    · split
      · rw [abortRoutine_unit, modRun_unit, h.eff, hm]
      · rw [modRun_unit, h.eff, hm]

theorem microCycle_unit (m : Micro) (h : MicroKeeps m) (fv : BitVec 32768) (c : Core) (r : Routine) :
    unitStrip (microCycle m fv c r) = unitStrip c := by
  have hc : unitStrip (countRerun (m.feeds fv c r) r) = unitStrip c := (countRerun_unit _ r).trans (h.feeds fv c r)
  unfold microCycle
  dsimp only
  split
  · exact failRoutine_unit _ _ _ _
  · split
    · exact microGo_unit m h fv c r
    · split
      · exact (mismatched_unit _ _).trans hc
      · exact (microGo_unit m h fv _ _).trans ((matched_unit _).trans hc)

theorem holdBack_unit (c : Core) (r : Routine) (go : Core) (h : unitStrip go = unitStrip c) :
    unitStrip (holdBack c r go) = unitStrip c := by
  unfold holdBack
  split
  · split
    · exact abortRoutine_unit _
    · rfl
  · split
    · exact setRun_unit _ _
    · exact h

theorem microTick_unit (m : Micro) (h : MicroKeeps m) (fv : BitVec 32768) (c : Core) :
    unitStrip (microTick m fv c) = unitStrip c := by
  unfold microTick; split
  · rfl
  · exact holdBack_unit _ _ _ ((microCycle_unit m h fv _ _).trans (setRun_unit _ _))

theorem routineTick_unit (fv : BitVec 32768) (c : Core) : unitStrip (routineTick fv c) = unitStrip c := by
  unfold routineTick; split
  · rfl
  · split
    · rfl
    · split
      · exact failRoutine_unit _ _ _ _
      · split
        · exact holdBack_unit _ _ _ (failRoutine_unit _ _ _ _)
        · rename_i m hm
          obtain ⟨i, _, hi⟩ := Option.bind_eq_some_iff.1 hm
          exact microTick_unit m (microOf_keeps hi) fv c

/-! ### What lands -/

theorem setRing_end (c : Core) (u : RingId) (r : Ring) : endStrip (setRing c u r) = endStrip c := rfl
theorem rowBusy_end (c : Core) (l : List (Nat × Nat)) : endStrip { c with rowBusy := l } = endStrip c := rfl

theorem consumeRead_unit (c : Core) (x n : Nat) : unitStrip (consumeRead c x n) = unitStrip c := by
  unfold consumeRead; split
  · exact consume_unit c 0
  · rfl

theorem pend_end (c : Core) (l : List Pend) : endStrip { c with pend := l } = endStrip c := rfl

theorem signMore_unit (c : Core) (k : Nat) (l : List Byte) : unitStrip (signMore c k l) = unitStrip c := by
  unfold signMore; split
  · rfl
  · split <;> rfl

theorem signMore_end (c : Core) (k : Nat) (l : List Byte) : endStrip (signMore c k l) = endStrip c :=
  endStrip_of_unit (signMore_unit c k l)

theorem setMx_end (c : Core) (m : Matrix) : endStrip { c with mx := m } = endStrip c := rfl
theorem fillLatch_end (c : Core) (u : RingId) (p : Fin 8) (v : Vec) : endStrip (fillLatch c u p v) = endStrip c := rfl

theorem applyRead_end (fv : BitVec 32768) (c : Core) (e : Pend) : endStrip (applyRead fv c e) = endStrip c := by
  unfold applyRead; split
  · dsimp only; split
    · rw [signMore_end, setRing_end]; exact endStrip_of_unit (consume_unit c 0)
    · rw [signMore_end, setRing_end]
  · dsimp only; rw [signMore_end, pend_end]; exact endStrip_of_unit (consumeRead_unit _ _ _)
  · exact endStrip_of_unit ((setMx_unit _ _).trans (consumeRead_unit _ _ _))
  · rfl

theorem applyArrive_end (fv : BitVec 32768) (c : Core) (e : Pend) : endStrip (applyArrive fv c e) = endStrip c := by
  unfold applyArrive; split
  · dsimp only; rw [rowBusy_end]; exact endStrip_of_unit (putBytes_unit ..)
  · rfl

theorem writePred_end (c : Core) (n : Fin 16) (b : Bool) : endStrip (writePred c n b) = endStrip c := by
  unfold writePred; split <;> rfl

theorem writeMask_end (c : Core) (n : Fin 8) (b : BitVec 128) : endStrip (writeMask c n b) = endStrip c := by
  unfold writeMask; split <;> rfl

theorem setT_unit (c : Core) (t : Vector TileReg 64) : unitStrip { c with t := t } = unitStrip c := rfl

theorem applyWrite_end (fv : BitVec 32768) (c : Core) (e : Pend) : endStrip (applyWrite fv c e) = endStrip c := by
  unfold applyWrite; split
  · rfl
  · rfl
  · exact writePred_end _ _ _
  · exact writeMask_end _ _ _
  · rfl
  · rfl
  · rfl
  · rfl
  · rfl
  · rfl
  · rfl
  · dsimp only; split <;> (rw [setMx_end, signMore_end, fillLatch_end])
  · dsimp only; rw [setMx_end, signMore_end, fillLatch_end]
  · dsimp only; split <;> rfl
  · exact endStrip_of_unit (tileStoreBytes_unit ..)
  · exact endStrip_of_unit ((setT_unit _ _).trans (putBytes_unit ..))
  · rfl

theorem landCycle_end (fv : Draw) (k : Nat) (c : Core) : endStrip (landCycle fv k c) = endStrip c := by
  unfold landCycle
  dsimp only
  rw [pend_end]
  refine (foldl_keeps endStrip _ _ (applyWrite_end _)).trans ?_
  refine (foldl_keeps endStrip _ _ (applyArrive_end _)).trans ?_
  exact foldl_keeps endStrip _ _ (applyRead_end _)

/-! ### Copies of fixed length -/

theorem endStoring_unit (c : Core) (t : Nat) : unitStrip (endStoring c t) = unitStrip c := rfl

theorem setTileSt_unit (c : Core) (t : Nat) (f : TileReg → TileReg) : unitStrip (setTileSt c t f) = unitStrip c := rfl

theorem consumeArea_unit (c : Core) (a b : BitVec 64) (i n : Nat) : unitStrip (consumeArea c a b i n) = unitStrip c := by
  unfold consumeArea
  exact (consumeRead_unit _ _ _).trans (consumeRead_unit _ _ _)

theorem areaStore_unit (t : Nat) (fv : BitVec 32768) (c : Core) (a b : BitVec 64) (i n v : Nat) :
    unitStrip (areaStore t fv c a b i n v) = unitStrip c := by
  unfold areaStore
  exact (tileStore_unit ..).trans (tileStore_unit ..)

theorem movePiece_unit (fv : BitVec 32768) (td ts : Fin 64) (k : Copy) (c : Core) (j : Nat) :
    unitStrip (movePiece fv td ts k c j) = unitStrip c := by
  unfold movePiece
  exact (areaStore_unit ..).trans (consumeArea_unit ..)

theorem moveRest_unit (fv : BitVec 32768) (td ts : Fin 64) (k : Copy) (c : Core) :
    unitStrip (moveRest fv td ts k c) = unitStrip c :=
  foldl_keeps unitStrip _ _ fun _ _ => movePiece_unit ..

/-- What the end of a cycle may change outside the cores: busy counts, messages on their way, the dies' residue
counts, draws. -/
def cycleStrip (s : State) : State :=
  { s with cores := [], busy := [], flights := [], nextFlight := 0, fresh := 0
           dies := s.dies.map fun d => { d with residue := 0 } }

/-- Core `n` apart from what the end of its cycle writes; the other cores as they are; the rest of the state. -/
structure CycleKeeps (n : Nat) (s t : State) : Prop where
  rest  : cycleStrip t = cycleStrip s
  other : ∀ m, m ≠ n → coreOf t m = coreOf s m
  own   : endStrip (coreOf t n) = endStrip (coreOf s n)
  tick  : tickStrip (coreOf t n) = tickStrip (coreOf s n)
  cyc   : (coreOf t n).cyc = (coreOf s n).cyc
  next  : (coreOf t n).next = (coreOf s n).next

theorem CycleKeeps.refl (n : Nat) (s : State) : CycleKeeps n s s := ⟨rfl, fun _ _ => rfl, rfl, rfl, rfl, rfl⟩

theorem CycleKeeps.trans {n : Nat} {s t u : State} (h : CycleKeeps n s t) (k : CycleKeeps n t u) : CycleKeeps n s u :=
  ⟨k.rest.trans h.rest, fun m hm => (k.other m hm).trans (h.other m hm), k.own.trans h.own, k.tick.trans h.tick,
    k.cyc.trans h.cyc, k.next.trans h.next⟩

theorem unit_cyc {c d : Core} (h : unitStrip c = unitStrip d) : c.cyc = d.cyc := by
  have h' := congrArg Core.cyc h; exact h'
theorem unit_next {c d : Core} (h : unitStrip c = unitStrip d) : c.next = d.next := by
  have h' := congrArg Core.next h; exact h'

theorem tickStrip_of_unit {c d : Core} (h : unitStrip c = unitStrip d) : tickStrip c = tickStrip d := by
  unfold tickStrip; rw [h]

/-- A change of core `n` that its own end of cycle may make, but for its copies. -/
theorem modCore_keeps (s : State) (n : Nat) (f : Core → Core)
    (h : unitStrip (f (coreOf s n)) = unitStrip (coreOf s n)) : CycleKeeps n s (modCore s n f) := by
  refine ⟨rfl, fun m hm => coreOf_modCore_other _ _ _ _ (Ne.symm hm), ?_, ?_, ?_, ?_⟩ <;> rw [coreOf_modCore_same]
  · exact endStrip_of_unit h
  · exact tickStrip_of_unit h
  · exact unit_cyc h
  · exact unit_next h

/-- The same with a change of its copies after it. -/
theorem modCopies_keeps (s : State) (n : Nat) (f : Core → Core) (g : List Copy → List Copy)
    (h : unitStrip (f (coreOf s n)) = unitStrip (coreOf s n)) :
    CycleKeeps n s (modCore s n fun c => { f c with copies := g (f c).copies }) := by
  refine ⟨rfl, fun m hm => coreOf_modCore_other _ _ _ _ (Ne.symm hm), ?_, ?_, ?_, ?_⟩ <;> rw [coreOf_modCore_same]
  · exact (rfl : _ = endStrip (f (coreOf s n))).trans (endStrip_of_unit h)
  · exact (rfl : _ = tickStrip (f (coreOf s n))).trans (tickStrip_of_unit h)
  · exact (unit_cyc h : (f (coreOf s n)).cyc = _)
  · exact (unit_next h : (f (coreOf s n)).next = _)

theorem copyEnd_keeps (s : State) (n id : Nat) : CycleKeeps n s (copyEnd s n id) := by
  unfold copyEnd; split
  · exact .refl n s
  · have h : ∀ (b : Bool) (l : List (Nat × Nat)) (f : List Copy → List Copy), CycleKeeps n s
        (modCore (if b = true then { s with busy := l } else s) n fun c => { c with copies := f c.copies }) := by
      intro b l f
      cases b
      · exact modCopies_keeps _ _ (fun c => c) _ rfl
      · exact CycleKeeps.trans (t := { s with busy := l }) ⟨rfl, fun _ _ => rfl, rfl, rfl, rfl, rfl⟩
          (modCopies_keeps _ _ (fun c => c) _ rfl)
    exact h _ _ _

/-- The copies of fixed length that move bytes of the tile store. -/
theorem fixedEffect_unit (fv : BitVec 32768) (c : Core) (k : Copy) (h : ∀ w p v, k.kind ≠ .ipatch w p v) :
    unitStrip (fixedEffect fv c k) = unitStrip c := by
  unfold fixedEffect; split
  · rw [setTileSt_unit, endStoring_unit, moveRest_unit]
  · dsimp only
    rw [setTileSt_unit]
    split
    · rw [tileStore_unit]
      exact foldl_keeps unitStrip _ _ fun _ _ => tileStore_unit ..
    · exact foldl_keeps unitStrip _ _ fun _ _ => tileStore_unit ..
  · rename_i h1; exact absurd h1 (h _ _ _)
  · rfl

theorem fixedEnd_keeps (s : State) (n : Nat) (k : Copy) (h : ∀ w p v, k.kind ≠ .ipatch w p v) :
    CycleKeeps n s (fixedEnd s n k) :=
  (modCore_keeps s n _ (fixedEffect_unit _ _ _ h)).trans (copyEnd_keeps _ _ _)

theorem postFlight_keeps (s : State) (n a b o : Nat) (y : Payload) : CycleKeeps n s (postFlight s a b o y) :=
  ⟨rfl, fun _ _ => rfl, rfl, rfl, rfl, rfl⟩

theorem sendUnit_keeps (s : State) (n : Nat) (k : Copy) (ts td : Fin 64) (dst off j : Nat) :
    CycleKeeps n s (sendUnit s n k ts td dst off j) := by
  unfold sendUnit
  exact (modCore_keeps s n _ ((signMore_unit _ _ _).trans (consumeArea_unit _ _ _ _ _))).trans (postFlight_keeps _ n _ _ _ _)

theorem moveCycle_keeps (cyc : Nat) (s : State) (n : Nat) (k : Copy) : CycleKeeps n s (moveCycle cyc s n k) := by
  unfold moveCycle; split
  · split
    · exact modCopies_keeps s n _ _ (movePiece_unit _ _ _ _ _ _)
    · exact .refl n s
  · split
    · exact sendUnit_keeps ..
    · exact .refl n s
  · exact .refl n s

theorem endOfCycle_keeps (cyc : Nat) (s : State) (n : Nat) (k : Copy) : CycleKeeps n s (endOfCycle cyc s n k) := by
  unfold endOfCycle; split
  · rename_i h; split
    · exact fixedEnd_keeps _ _ _ fun _ _ _ e => by rw [h] at e; cases e
    · exact .refl n s
  · rename_i h; split
    · exact fixedEnd_keeps _ _ _ fun _ _ _ e => by rw [h] at e; cases e
    · exact .refl n s
  · split
    · exact modCore_keeps s n _ (endStoring_unit _ _)
    · exact .refl n s
  · split
    · exact .refl n s
    · dsimp only
      split
      · exact (modCore_keeps s n _ (endStoring_unit _ _)).trans (copyEnd_keeps _ _ _)
      · exact modCore_keeps s n _ (endStoring_unit _ _)
  · exact .refl n s

/-- A fold over copies keeps what each of its steps keeps. -/
theorem foldCopies_keeps (n : Nat) (f : State → Copy → State) (h : ∀ s k, CycleKeeps n s (f s k)) (l : List Copy) (s : State) :
    CycleKeeps n s (l.foldl f s) := by
  induction l generalizing s with
  | nil => exact .refl n s
  | cons a r ih => exact (h s a).trans (ih _)

theorem copyMoves_keeps (cyc : Nat) (s : State) (n : Nat) : CycleKeeps n s (copyMoves cyc s n) :=
  foldCopies_keeps n _ (fun s k => moveCycle_keeps cyc s n k) _ s

theorem copyTick_keeps (cyc : Nat) (s : State) (n : Nat) : CycleKeeps n s (copyTick cyc s n) :=
  foldCopies_keeps n _ (fun s k => endOfCycle_keeps cyc s n k) _ s

theorem map_set_residue (v : Vector Die 4) (i : Nat) (x : Die) (h : ∀ y, v[i]? = some y → { x with residue := 0 } = { y with residue := 0 }) :
    (v.setIfInBounds i x).map (fun d : Die => { d with residue := 0 }) = v.map fun d => { d with residue := 0 } := by
  apply Vector.ext
  intro j hj
  simp only [Vector.getElem_map, Vector.getElem_setIfInBounds]
  split
  · subst_vars; exact h _ (Vector.getElem?_eq_getElem hj)
  · rfl

theorem setDie_keeps (s : State) (n i : Nat) (r : BitVec 32) :
    CycleKeeps n s (setDie s i { dieAt s i with residue := r }) := by
  refine ⟨?_, fun _ _ => rfl, rfl, rfl, rfl, rfl⟩
  refine congrArg (fun d => { s with cores := [], busy := [], flights := [], nextFlight := 0, fresh := 0, dies := d }) ?_
  refine map_set_residue s.dies i _ fun y hy => ?_
  have : dieAt s i = y := by
    simp only [dieAt, List.getD_eq_getElem?_getD, Vector.getElem?_toList, hy, Option.getD_some]
  rw [this]

theorem countReruns_keeps (s : State) (n : Nat) : CycleKeeps n s (countReruns s n) := by
  unfold countReruns
  dsimp only
  split
  · exact .refl n s
  · exact (modCore_keeps s n _ (setMx_unit _ _)).trans (setDie_keeps _ n (dieOf n) _)

/-! ### The end of a cycle -/

/-- What landed in the cycle, and the matrix unit's cycle. -/
def landed (fv : BitVec 32768) (d : Draw) (c : Core) : Core := routineTick fv (landCycle d c.cyc c)

theorem landed_end (fv : BitVec 32768) (d : Draw) (c : Core) : endStrip (landed fv d c) = endStrip c :=
  (endStrip_of_unit (routineTick_unit fv _)).trans (landCycle_end d _ c)

theorem landed_unit (fv : BitVec 32768) (d : Draw) (c : Core) : unitStrip (landed fv d c) = unitStrip (landCycle d c.cyc c) :=
  routineTick_unit fv _

/-- The clock of a core. -/
def clock (c : Core) : Nat × Nat := (c.cyc, c.next)

theorem clock_unit {c d : Core} (h : unitStrip c = unitStrip d) : clock c = clock d :=
  Prod.ext (unit_cyc h) (unit_next h)

theorem clock_setRing (c : Core) (u : RingId) (r : Ring) : clock (setRing c u r) = clock c := rfl

theorem clock_signMore (c : Core) (k : Nat) (l : List Byte) : clock (signMore c k l) = clock c :=
  clock_unit (signMore_unit c k l)

theorem clock_setMx (c : Core) (m : Matrix) : clock { c with mx := m } = clock c := rfl
theorem clock_fillLatch (c : Core) (u : RingId) (p : Fin 8) (v : Vec) : clock (fillLatch c u p v) = clock c := rfl

theorem applyRead_clock (fv : BitVec 32768) (c : Core) (e : Pend) : clock (applyRead fv c e) = clock c := by
  unfold applyRead; split
  · dsimp only; split
    · rw [clock_signMore, clock_setRing]; exact clock_unit (consume_unit c 0)
    · rw [clock_signMore, clock_setRing]
  · dsimp only; rw [clock_signMore]; exact (clock_unit (consumeRead_unit c _ _) : clock (consumeRead c _ _) = _)
  · exact (clock_unit (consumeRead_unit c _ _) : clock (consumeRead c _ _) = _)
  · rfl

theorem applyArrive_clock (fv : BitVec 32768) (c : Core) (e : Pend) : clock (applyArrive fv c e) = clock c := by
  unfold applyArrive; split
  · rename_i t bs _
    exact (clock_unit (putBytes_unit (openOf c) t.val fv c bs) : clock (putBytes (openOf c) t.val fv c bs) = _)
  · rfl

theorem applyWrite_clock (fv : BitVec 32768) (c : Core) (e : Pend) : clock (applyWrite fv c e) = clock c := by
  unfold applyWrite; split
  · rfl
  · rfl
  · unfold writePred; split <;> rfl
  · unfold writeMask; split <;> rfl
  · rfl
  · rfl
  · rfl
  · rfl
  · rfl
  · rfl
  · rfl
  · dsimp only; split <;> (rw [clock_setMx, clock_signMore, clock_fillLatch])
  · dsimp only; rw [clock_setMx, clock_signMore, clock_fillLatch]
  · dsimp only; split <;> rfl
  · exact clock_unit (tileStoreBytes_unit ..)
  · exact clock_unit ((setT_unit _ _).trans (putBytes_unit ..))
  · rfl

theorem landCycle_clock (fv : Draw) (k : Nat) (c : Core) : clock (landCycle fv k c) = clock c := by
  unfold landCycle
  exact (foldl_keeps clock _ _ (applyWrite_clock (fv 2))).trans
    ((foldl_keeps clock _ _ (applyArrive_clock (fv 1))).trans (foldl_keeps clock _ _ (applyRead_clock (fv 0))))

theorem landed_clock (fv : BitVec 32768) (d : Draw) (c : Core) : clock (landed fv d c) = clock c :=
  (clock_unit (landed_unit fv d c)).trans (landCycle_clock d c.cyc c)

theorem endCore_eq (s : State) (p : Nat) (c : Core) :
    endCore s p c = { landed (freeVal s 4004 32768) (freeDraw s 4004) c with cyc := c.cyc + 1, next := c.next + p } := by
  have h := landed_clock (freeVal s 4004 32768) (freeDraw s 4004) c
  have h1 : (landed (freeVal s 4004 32768) (freeDraw s 4004) c).cyc = c.cyc := congrArg Prod.fst h
  have h2 : (landed (freeVal s 4004 32768) (freeDraw s 4004) c).next = c.next := congrArg Prod.snd h
  rw [← h1, ← h2]; rfl

/-- The state once the copies of core `n` have read and moved in its cycle. -/
def movedFirst (s : State) (n : Nat) : State := copyMoves (coreOf s n).cyc s n

theorem fresh_keeps (n : Nat) (s : State) (k : Nat) : CycleKeeps n s { s with fresh := k } :=
  ⟨rfl, fun _ _ => rfl, rfl, rfl, rfl, rfl⟩

/-- The copies' events of a cycle and the residue count that follows them. -/
theorem afterLand_keeps (n k m : Nat) (s : State) :
    CycleKeeps n s { countReruns (copyTick k s n) n with fresh := m } :=
  ((copyTick_keeps k s n).trans (countReruns_keeps _ n)).trans (fresh_keeps n _ m)

/-- What the end of a cycle does after what lands: the copies of fixed length and the residue count. -/
theorem endCycle_tail (s : State) (n : Nat) :
    CycleKeeps n (modCore (movedFirst s n) n (endCore (movedFirst s n) (periodOf s n))) (endCycle s n) :=
  afterLand_keeps n (coreOf s n).cyc _ _

/-- The end of a cycle of core `n`: memory and every other part of the state but busy counts, messages and residue
counts stay; every other core stays; core `n` is one cycle on, and keeps what nothing in flight writes. -/
theorem endCycle_keeps (s : State) (n : Nat) :
    cycleStrip (endCycle s n) = cycleStrip s ∧ (∀ m, m ≠ n → coreOf (endCycle s n) m = coreOf s m) ∧
      endStrip (coreOf (endCycle s n) n) = endStrip (coreOf s n) ∧
      (coreOf (endCycle s n) n).cyc = (coreOf s n).cyc + 1 ∧
      (coreOf (endCycle s n) n).next = (coreOf s n).next + periodOf s n := by
  have k := endCycle_tail s n
  have j : CycleKeeps n s (movedFirst s n) := copyMoves_keeps _ s n
  refine ⟨k.rest.trans j.rest,
    fun m hm => (k.other m hm).trans ((coreOf_modCore_other _ _ _ _ (Ne.symm hm)).trans (j.other m hm)), ?_, ?_, ?_⟩
  · rw [k.own, coreOf_modCore_same, endCore_eq]
    exact (landed_end _ _ _ : endStrip (landed _ _ _) = _).trans j.own
  · rw [k.cyc, coreOf_modCore_same, endCore_eq]
    exact congrArg (· + 1) j.cyc
  · rw [k.next, coreOf_modCore_same, endCore_eq]
    exact congrArg (· + periodOf s n) j.next

/-- The last write in issue order that lands in this cycle has its effect at the cycle's end. -/
theorem landCycle_last (fv : Draw) (c : Core) (l : List Pend) (e : Pend) (hp : c.pend = l ++ [e])
    (hw : e.when_ = c.cyc) : ∃ d, endStrip d = endStrip c ∧ unitStrip { landCycle fv c.cyc c with pend := [] } =
      unitStrip { applyWrite (fv 2) d e with pend := [] } := by
  have hf : (c.pend.filter fun x => x.when_ == c.cyc) = (l.filter fun x => x.when_ == c.cyc) ++ [e] := by
    rw [hp, List.filter_append]; simp [hw]
  refine ⟨(List.filter (fun x => x.when_ == c.cyc) l).foldl (applyWrite (fv 2))
      ((c.pend.filter fun x => x.when_ == c.cyc).foldl (applyArrive (fv 1))
        ((c.pend.filter fun x => x.when_ == c.cyc).foldl (applyRead (fv 0)) c)), ?_, ?_⟩
  · refine (foldl_keeps endStrip _ _ (applyWrite_end _)).trans ?_
    refine (foldl_keeps endStrip _ _ (applyArrive_end _)).trans ?_
    exact foldl_keeps endStrip _ _ (applyRead_end _)
  · unfold landCycle
    dsimp only
    rw [hf, List.foldl_append (f := applyWrite (fv 2))]
    rfl

open Sys2Proof.Safety

/-- A slot that sends a write on its way. -/
theorem runSlot_pends (s : State) (op : State → Nat → SlotOp) (g : Guard) (a : Act) (lat : Nat)
    (hi : Issues s) (hs : op (setCore s (me s) (mine s)) (me s) = op s (me s)) (hp : PlainOp (op s (me s)))
    (hr : readsPass (mine s) (op s (me s)).reads) (hg : (op s (me s)).guard = some g)
    (hu : (op s (me s)).ring = none) (hc : (op s (me s)).ctl = .seq)
    (he : (op s (me s)).eff = fun s' => modCore s' (me s) fun c => pending c a lat)
    (ha : (op s (me s)).after = fun s => s) :
    runSlot s op =
      .next (endCycle (setCore s (me s)
        (signed s (me s) (moved (if holds (mine s) g then pending (mine s) a lat else mine s) .seq))) (me s)) := by
  rw [runSlot_core s op _ hi hs hp hr he ha]
  unfold afterSlot
  simp only [hu, hc, ite_self, executes_guard _ _ g hg]

theorem moved_pend (c : Core) (k : Ctl) : (moved c k).pend = c.pend := by
  have h := congrArg Core.pend (advance_frame c k)
  exact h

theorem moved_cyc (c : Core) (k : Ctl) : (moved c k).cyc = c.cyc := by
  have h := congrArg Core.cyc (advance_frame c k)
  exact h

/-- What is on its way does not decide how the sequencer moves. -/
theorem moved_pending (c : Core) (a : Act) (lat : Nat) (k : Ctl) :
    moved (pending c a lat) k = pending (moved c k) a lat := by
  have h := advance_onto (pending c a lat) c k
  have h2 := advance_frame c k
  unfold moved
  rw [show advance (pending c a lat) k = onto (pending c a lat) (advance c k) from h, h2]
  rfl

/-- What the core is once a write of latency 1, the last that it sent, has landed: the write applied to a core
that differs in what other accesses in flight write, and then the matrix unit's cycle and the copies'. -/
theorem endCycle_last (s : State) (n : Nat) (c : Core) (a : Act) (l : List Pend)
    (hp : c.pend = l ++ [{ when_ := c.cyc, by_ := c.cyc, act := a }]) :
    ∃ d fv, endStrip d = endStrip c ∧
      tickStrip { coreOf (endCycle (setCore s n c) n) n with pend := [] } =
        tickStrip { applyWrite fv d { when_ := c.cyc, by_ := c.cyc, act := a } with pend := [] } := by
  have k := (endCycle_tail (setCore s n c) n).tick
  have j : CycleKeeps n (setCore s n c) (movedFirst (setCore s n c) n) := copyMoves_keeps _ _ n
  rw [coreOf_modCore_same, endCore_eq] at k
  have jc := j.cyc
  have jo := j.own
  have jt := j.tick
  rw [coreOf_setCore_same] at jc jo jt
  generalize movedFirst (setCore s n c) n = u at k jc jo jt
  generalize freeVal u 4004 32768 = fv at k
  generalize freeDraw u 4004 = dr at k
  have hpend : (coreOf u n).pend = l ++ [{ when_ := c.cyc, by_ := c.cyc, act := a }] :=
    (congrArg Core.pend jt : (tickStrip (coreOf u n)).pend = (tickStrip c).pend).trans hp
  generalize coreOf u n = c' at k jc jo jt hpend
  obtain ⟨d, hd, hl⟩ := landCycle_last dr c' l { when_ := c.cyc, by_ := c.cyc, act := a } hpend jc.symm
  refine ⟨d, dr 2, hd.trans jo, ?_⟩
  have h := landed_unit fv dr c'
  have h1 := congrArg (fun x : Core => ({ x with pend := [], cyc := 0, next := 0, copies := [], istore := [], iPoison := [] } : Core)) h
  have h2 := congrArg (fun x : Core => ({ x with cyc := 0, next := 0, copies := [], istore := [], iPoison := [] } : Core)) hl
  have h3 := congrArg (fun x : Core => ({ x with pend := [] } : Core)) k
  exact (Eq.trans h3 h1).trans h2

end Sys2Proof.Machine
end

