-- ==== Sys2Proof/Laws/Slot.lean ====
section
/-!
SUPPORT. Laws/Slot.lean: the claims' words shown of a slot operation from its record: deposits, writes, effects
on its own core, traps, stalls.
-/
namespace Sys2Proof.Machine

open Sys2Proof.Safety

theorem readsPass_sub {c : Core} {l m : List Src} (h : readsPass c l) (hs : ∀ a ∈ m, a ∈ l) : readsPass c m := by
  rcases h with h | h
  · exact .inl h
  · exact .inr fun a ha => h a (hs a ha)

theorem readsPass_nil (c : Core) : readsPass c [] := .inr (by simp)

theorem fvOp_setCore (s : State) (n : Nat) (c : Core) (k i : Nat) : fvOp (setCore s n c) k i = fvOp s k i := rfl

theorem sVal_setCore (s : State) (k i : Nat) (a : Src) :
    sVal (setCore s (me s) (mine s)) (me s) k i a = sVal s (me s) k i a := by
  rw [sVal, sVal, coreOf_setCore_same, fvOp_setCore]

/-- A record that asks nothing unusual of its word. -/
theorem plain_of {o : SlotOp} (h1 : o.rewalk = []) (h2 : o.walkVa = none) (h3 : o.pre = []) (h4 : o.post = [])
    (h5 : o.stall = false) (h6 : o.copies = 0) : PlainOp o := ⟨h1, h2, h3, h4, h5, h6⟩

theorem deposits_of (i : Instr) (s : State) (op : State → Nat → SlotOp) (u : RingId) (g : Guard) (v : Vec) (lat : Nat)
    (hx : exec i s = runSlot s op) (hi : Issues s) (hs : op (setCore s (me s) (mine s)) (me s) = op s (me s))
    (hp : PlainOp (op s (me s))) (hr : readsPass (mine s) (op s (me s)).reads) (hg : (op s (me s)).guard = some g)
    (hu : (op s (me s)).ring = some u) (hc : (op s (me s)).ctl = .seq)
    (he : (op s (me s)).eff = fun s' => modCore s' (me s) fun c => deposit c u v lat)
    (ha : (op s (me s)).after = fun s => s) (hv : ringVal u v = v) : Deposits i s u g v lat := by
  obtain ⟨c', h1, h2, h3⟩ := runSlot_deposits s op u g v lat hi hs hp hr hg hu hc he ha
  rw [hv] at h2
  exact ⟨c', _, hx.trans h1, rfl, h2, h3⟩

theorem scalar_deposits (i : Instr) (s : State) (op : State → Nat → SlotOp) (hx : exec i s = runSlot s op)
    (g : Guard) (reads : List Src) (lat : Nat) (v : BitVec 64)
    (hop : op s (me s) = depositS g reads lat v (me s))
    (hop' : op (setCore s (me s) (mine s)) (me s) = op s (me s))
    (hi : Issues s) (hr : readsPass (mine s) reads) : Deposits i s .s g (v.setWidth 4096) lat :=
  deposits_of i s op .s g _ lat hx hi hop' (by rw [hop]; exact ⟨rfl, rfl, rfl, rfl, rfl, rfl⟩) (by rw [hop]; exact hr)
    (by rw [hop]; rfl) (by rw [hop]; rfl) (by rw [hop]; rfl) (by rw [hop]; rfl) (by rw [hop]; rfl) (ringVal_64 _ rfl v)

theorem alu2_deposits (i : Instr) (s : State) (g : Guard) (a b : Src) (lat : Nat) (f : BitVec 64 → BitVec 64 → BitVec 64)
    (hx : exec i s = runSlot s (alu2 g a b lat f)) (hi : Issues s) (hr : readsPass (mine s) [a, b]) :
    Deposits i s .s g ((f (sVal s (me s) 0 0 a) (sVal s (me s) 0 1 b)).setWidth 4096) lat :=
  scalar_deposits i s _ hx g [a, b] lat _ rfl (by rw [alu2, alu2, sVal_setCore, sVal_setCore]) hi hr

theorem alu1_deposits (i : Instr) (s : State) (g : Guard) (a : Src) (lat : Nat) (f : BitVec 64 → BitVec 64)
    (hx : exec i s = runSlot s (alu1 g a lat f)) (hi : Issues s) (hr : readsPass (mine s) [a]) :
    Deposits i s .s g ((f (sVal s (me s) 0 0 a)).setWidth 4096) lat :=
  scalar_deposits i s _ hx g [a] lat _ rfl (by rw [alu1, alu1, sVal_setCore]) hi hr

/-- What a slot does that has its effect on its own core alone. -/
theorem effects_of (i : Instr) (s : State) (op : State → Nat → SlotOp) (g : Guard) (f : Core → Core) (k : Ctl)
    (hx : exec i s = runSlot s op) (hi : Issues s) (hs : op (setCore s (me s) (mine s)) (me s) = op s (me s))
    (hp : PlainOp (op s (me s))) (hr : readsPass (mine s) (op s (me s)).reads) (hg : (op s (me s)).guard = some g)
    (hu : (op s (me s)).ring = none) (hc : (op s (me s)).ctl = k)
    (he : (op s (me s)).eff = fun s' => modCore s' (me s) f) (ha : (op s (me s)).after = fun s => s) :
    Effects i s g f k := by
  refine ⟨_, _, hx.trans (runSlot_core s op f hi hs hp hr he ha), rfl, ?_⟩
  unfold afterSlot
  simp only [hu, hc, executes_guard _ _ g hg]

/-- The same where nothing but the sequencer moves. -/
theorem moves_of (i : Instr) (s : State) (op : State → Nat → SlotOp) (g : Guard) (k : Ctl)
    (hx : exec i s = runSlot s op) (hi : Issues s) (hs : op (setCore s (me s) (mine s)) (me s) = op s (me s))
    (hp : PlainOp (op s (me s))) (hr : readsPass (mine s) (op s (me s)).reads) (hg : (op s (me s)).guard = some g)
    (hu : (op s (me s)).ring = none) (hc : (op s (me s)).ctl = k)
    (he : (op s (me s)).eff = fun s => s) (ha : (op s (me s)).after = fun s => s) :
    Completes i s fun c' _ => c' = moved (mine s) (if holds (mine s) g then k else .seq) := by
  refine ⟨_, _, hx.trans ((runSlot_commits s op hi hs hp hr).trans ?_), rfl, rfl⟩
  rw [commitWord_moves _ _ _ he ha]
  unfold afterSlot
  simp only [coreOf_setCore_same, hu, hc, executes_guard _ _ g hg, setCore_setCore, signed_setCore, ite_self, id]

/-- A write of latency `lat` in a guarded slot. -/
theorem pends_of (i : Instr) (s : State) (op : State → Nat → SlotOp) (g : Guard) (a : Act) (lat : Nat)
    (hx : exec i s = runSlot s op) (hi : Issues s) (hs : op (setCore s (me s) (mine s)) (me s) = op s (me s))
    (hp : PlainOp (op s (me s))) (hr : readsPass (mine s) (op s (me s)).reads) (hg : (op s (me s)).guard = some g)
    (hu : (op s (me s)).ring = none) (hc : (op s (me s)).ctl = .seq)
    (he : (op s (me s)).eff = fun s' => modCore s' (me s) fun c => pending c a lat)
    (ha : (op s (me s)).after = fun s => s) (P : Core → Prop)
    (hP : holds (mine s) g = true →
      P (coreOf (endCycle (setCore s (me s) (signed s (me s) (moved (pending (mine s) a lat) .seq))) (me s)) (me s))) :
    Writes i s g a lat P := by
  refine ⟨_, _, hx.trans (runSlot_pends s op g a lat hi hs hp hr hg hu hc he ha), rfl, rfl, fun hg => ?_⟩
  rw [if_pos hg]
  exact hP hg

theorem signed_pend (s : State) (n : Nat) (c : Core) : (signed s n c).pend = c.pend := by unfold signed; split <;> rfl
theorem signed_cyc (s : State) (n : Nat) (c : Core) : (signed s n c).cyc = c.cyc := by unfold signed; split <;> rfl
theorem signed_end (s : State) (n : Nat) (c : Core) : endStrip (signed s n c) = endStrip c := by unfold signed; split <;> rfl

/-- A write of latency 1, with what is known of the core once it has landed. -/
theorem writes_of (i : Instr) (s : State) (op : State → Nat → SlotOp) (g : Guard) (a : Act)
    (hx : exec i s = runSlot s op) (hi : Issues s) (hs : op (setCore s (me s) (mine s)) (me s) = op s (me s))
    (hp : PlainOp (op s (me s))) (hr : readsPass (mine s) (op s (me s)).reads) (hg : (op s (me s)).guard = some g)
    (hu : (op s (me s)).ring = none) (hc : (op s (me s)).ctl = .seq)
    (he : (op s (me s)).eff = fun s' => modCore s' (me s) fun c => pending c a 1)
    (ha : (op s (me s)).after = fun s => s) (P : Core → Prop)
    (hP : ∀ d fv t, endStrip d = endStrip (moved (mine s) .seq) →
      tickStrip { t with pend := [] } =
        tickStrip { applyWrite fv d { when_ := (mine s).cyc, by_ := (mine s).cyc, act := a } with pend := [] } → P t) :
    Writes i s g a 1 P := by
  refine pends_of i s op g a 1 hx hi hs hp hr hg hu hc he ha P fun _ => ?_
  have hc : (signed s (me s) (moved (pending (mine s) a 1) .seq)).cyc = (mine s).cyc :=
    (signed_cyc _ _ _).trans (moved_cyc _ _)
  obtain ⟨d, fv, hd, he⟩ := endCycle_last s (me s) (signed s (me s) (moved (pending (mine s) a 1) .seq)) a (mine s).pend
    (by rw [signed_pend, moved_pend, hc]; rfl)
  rw [hc] at he
  refine hP d fv _ ?_ he
  rw [hd, signed_end, moved_pending]; rfl

/-- The first failing check of a slot that stands alone. -/
theorem firstFail_one (fails : SlotOp → List (Nat × BitVec 32)) (o : SlotOp) (l : List Nat) :
    firstFail fails [o] l =
      l.findSome? fun k => ((fails o).find? fun f => f.1 == k).map fun f => (k, 2 ^ o.k, f.2) := by
  induction l with
  | nil => rfl
  | cons k r ih =>
    cases h : (fails o).find? fun f => f.1 == k with
    | none =>
      have ha : ((fails o).any fun f => f.1 == k) = false := by
        rw [List.any_eq_false]; intro x hx; simpa using (List.find?_eq_none.1 h) x hx
      simp [firstFail, ha, h, ih]
    | some f =>
      have ha : ((fails o).any fun f => f.1 == k) = true := by
        rw [List.any_eq_true]; exact ⟨f, List.mem_of_find?_eq_some h, by simpa using List.find?_some h⟩
      simp [firstFail, ha, h]

/-- A slot that fails a check made before the guards. -/
theorem traps_of (i : Instr) (s : State) (op : State → Nat → SlotOp) (cause : Nat) (detail : BitVec 32)
    (hx : exec i s = runSlot s op) (hi : Issues s) (hs : op (setCore s (me s) (mine s)) (me s) = op s (me s))
    (hw : rewalkCore (mine s) (op s (me s)).rewalk = (mine s, none)) (hst : slotStall (mine s) [op s (me s)] = false)
    (hh : (op s (me s)).held = false)
    (hr : readsPass (mine s) (op s (me s)).reads)
    (hf : preStages.findSome? (fun k => ((op s (me s)).pre.find? fun f => f.1 == k).map fun f => (k, f.2)) = some (cause, detail)) :
    Traps i s (2 ^ (op s (me s)).k) cause detail := by
  have h1 := compatStall_false (mine s) _ hr
  have hpre : preFails (mine s) (op s (me s)) = (op s (me s)).pre := by
    unfold preFails
    rcases hr with ⟨_, h⟩ | h
    · simp [h]
    · have : (op s (me s)).reads.filter (srcEarly (mine s)) = [] := by
        rw [List.filter_eq_nil_iff]; intro a ha; simp [h a ha]
      simp [this]
  have h3 : firstFail (preFails (mine s)) [op s (me s)] preStages = some (cause, 2 ^ (op s (me s)).k, detail) := by
    rw [firstFail_one, hpre]
    revert hf
    generalize (op s (me s)).pre = p
    generalize 2 ^ (op s (me s)).k = m
    generalize preStages = l
    induction l with
    | nil => simp
    | cons k r ih =>
      cases h : p.find? fun f => f.1 == k with
      | none => simpa [h] using ih
      | some f => simp only [List.findSome?_cons, h, Option.map_some, Option.some.injEq, Prod.mk.injEq]
                  rintro ⟨rfl, rfl⟩; simp
  unfold Traps
  generalize hR : Host.Outcome.next (takeTrap _ _ _ _ _) = R
  rw [hx]
  unfold runSlot runWord
  simp only [hi.running, hi.quiet, hi.free, hi.served, bne_self_eq_false, Bool.false_eq_true, if_false, Option.isSome_none,
    Bool.false_and, Bool.or_self]
  simp only [issueWord, h1, hst, Bool.or_self, Bool.false_eq_true, if_false, List.foldr_cons, List.foldr_nil,
    List.append_nil, hw, hs, checkWord, coreOf_setCore_same, h3, failTrap, List.any_cons, List.any_nil,
    hh, Bool.false_and, modCore_setCore]
  exact hR

/-- A slot that holds its word. -/
theorem stalls_of (i : Instr) (s : State) (op : State → Nat → SlotOp) (g : Guard)
    (hx : exec i s = runSlot s op) (hi : Issues s) (hg : (op s (me s)).guard = some g) (hh : holds (mine s) g = true)
    (hst : (op s (me s)).stall = true) (hk : (op s (me s)).asks = none) : Stalls i s (op s (me s)).declared := by
  have he := executes_guard (mine s) (op s (me s)) g hg
  rw [hh] at he
  have h1 : slotStall (mine s) [op s (me s)] = true := by simp [slotStall, he, hst]
  have h2 : declaredWait (mine s) [op s (me s)] = (op s (me s)).declared := by simp [declaredWait, he, hst]
  unfold Stalls
  rw [hx]
  unfold runSlot runWord
  simp only [hi.running, hi.quiet, hi.free, hi.served, bne_self_eq_false, Bool.false_eq_true, if_false, Option.isSome_none,
    Bool.false_and, Bool.or_self]
  have h3 : askFor s (me s) [op s (me s)] = s := by simp [askFor, he, hk]
  simp only [issueWord, h1, h2, h3, Bool.or_true, if_true]

theorem slotStall_idle (c : Core) (o : SlotOp) (h : o.stall = false) (h2 : o.copies = 0) : slotStall c [o] = false := by
  unfold slotStall
  by_cases he : executes c o <;> simp [List.filter, he, h, h2]

/-- The handles a slot names are not left Not-present: nothing is walked. -/
theorem rewalkCore_none (c : Core) (l : List (Fin 16)) (h : ∀ i ∈ l, (hValid c.h[i] && hAbsent c.h[i]) = false) :
    rewalkCore c l = (c, none) := by
  induction l with
  | nil => rfl
  | cons i r ih =>
    rw [rewalkCore]
    rw [h i List.mem_cons_self, if_neg Bool.false_ne_true]
    exact ih fun j hj => h j (List.mem_cons_of_mem _ hj)

/-- A word of one slot that stalls for nothing, walks nothing and fails no check commits. -/
theorem runSlot_passes (s : State) (op : State → Nat → SlotOp) (hi : Issues s)
    (hs : op (setCore s (me s) (mine s)) (me s) = op s (me s)) (hr : readsPass (mine s) (op s (me s)).reads)
    (hst : slotStall (mine s) [op s (me s)] = false) (hw : rewalkCore (mine s) (op s (me s)).rewalk = (mine s, none))
    (hm : walkMiss (mine s) [op s (me s)] = none) (hp : (op s (me s)).pre = [])
    (hq : executes (mine s) (op s (me s)) = true → (op s (me s)).post = []) :
    runSlot s op = .next (commitWord (setCore s (me s) (mine s)) (me s) true [op s (me s)]) := by
  have h1 := compatStall_false (mine s) _ hr
  have h3 : firstFail (preFails (mine s)) [op s (me s)] preStages = none :=
    firstFail_none _ _ (by simpa using preFails_nil _ _ hp hr) _
  have h4 : firstFail (·.post) ([op s (me s)].filter (executes (mine s))) postStages = none :=
    firstFail_none _ _ (fun o ho => by
      have h := List.mem_filter.1 ho
      have he : o = op s (me s) := by simpa using h.1
      subst he; exact hq h.2) _
  unfold runSlot runWord
  simp only [hi.running, hi.quiet, hi.free, hi.served, bne_self_eq_false, Bool.false_eq_true, if_false, Option.isSome_none,
    Bool.false_and, Bool.or_self]
  simp only [issueWord, h1, hst, Bool.or_self, Bool.false_eq_true, if_false, List.foldr_cons, List.foldr_nil,
    List.append_nil, hw, hs, checkWord, coreOf_setCore_same, h3, h4, hm]

/-- The commit of one guarded slot that moves nothing but the sequencer, whatever its effect reaches. -/
theorem commitWord_performs (s : State) (o : SlotOp) (g : Guard) (hg : o.guard = some g) (hc : o.ctl = .seq)
    (ha : o.after = fun s => s) :
    commitWord (setCore s (me s) (mine s)) (me s) true [o] =
      endCycle (modCore (signCycle (isPaired s (me s)) (if holds (mine s) g then o.eff (turned s o.ring) else turned s o.ring)
        (me s) true (mine s)) (me s) fun c => moved c .seq) (me s) := by
  have he := executes_guard (mine s) o g hg
  have hi := isPaired_setCore s (me s) (me s) (mine s) rfl
  unfold commitWord turned
  cases hx : holds (mine s) g <;> rw [hx] at he <;> cases hr : o.ring <;>
    simp [he, hi, moved, ha, hc, hr, coreOf_setCore_same]

/-- A slot whose effect reaches beyond its core. -/
theorem performs_of (i : Instr) (s : State) (op : State → Nat → SlotOp) (g : Guard) (u : Option RingId) (f : State → State)
    (hx : exec i s = runSlot s op) (hi : Issues s)
    (hs : op (setCore s (me s) (mine s)) (me s) = op s (me s)) (hr : readsPass (mine s) (op s (me s)).reads)
    (hst : slotStall (mine s) [op s (me s)] = false) (hw : rewalkCore (mine s) (op s (me s)).rewalk = (mine s, none))
    (hm : (op s (me s)).walkVa = none) (hp : (op s (me s)).pre = []) (hq : (op s (me s)).post = [])
    (hg : (op s (me s)).guard = some g) (hu : (op s (me s)).ring = u) (hc : (op s (me s)).ctl = .seq)
    (he : (op s (me s)).eff = f) (ha : (op s (me s)).after = fun s => s) : Performs i s g u f := by
  unfold Performs
  rw [hx, runSlot_passes s op hi hs hr hst hw (by simp [walkMiss, hm]) hp (fun _ => hq), commitWord_performs s _ g hg hc ha, hu, he]

/-- A slot that fails a check made after the guards. -/
theorem traps_post (i : Instr) (s : State) (op : State → Nat → SlotOp) (g : Guard) (cause : Nat) (detail : BitVec 32)
    (hx : exec i s = runSlot s op) (hi : Issues s)
    (hs : op (setCore s (me s) (mine s)) (me s) = op s (me s)) (hr : readsPass (mine s) (op s (me s)).reads)
    (hst : slotStall (mine s) [op s (me s)] = false) (hw : rewalkCore (mine s) (op s (me s)).rewalk = (mine s, none))
    (hm : (op s (me s)).walkVa = none) (hp : (op s (me s)).pre = []) (hg : (op s (me s)).guard = some g)
    (hh : holds (mine s) g = true) (hd : (op s (me s)).held = false)
    (hf : postStages.findSome? (fun k => ((op s (me s)).post.find? fun f => f.1 == k).map fun f => (k, f.2)) = some (cause, detail)) :
    Traps i s (2 ^ (op s (me s)).k) cause detail := by
  have h1 := compatStall_false (mine s) _ hr
  have h3 : firstFail (preFails (mine s)) [op s (me s)] preStages = none :=
    firstFail_none _ _ (by simpa using preFails_nil _ _ hp hr) _
  have he : executes (mine s) (op s (me s)) = true := by rw [executes_guard _ _ g hg, hh]
  have h4 : firstFail (·.post) [op s (me s)] postStages = some (cause, 2 ^ (op s (me s)).k, detail) := by
    rw [firstFail_one]
    revert hf
    generalize (op s (me s)).post = p
    generalize 2 ^ (op s (me s)).k = m
    generalize postStages = l
    induction l with
    | nil => simp
    | cons k r ih =>
      cases h : p.find? fun f => f.1 == k with
      | none => simpa [h] using ih
      | some f => simp only [List.findSome?_cons, h, Option.map_some, Option.some.injEq, Prod.mk.injEq]
                  rintro ⟨rfl, rfl⟩; simp
  have hm' : walkMiss (mine s) [op s (me s)] = none := by simp [walkMiss, hm]
  have hfl : [op s (me s)].filter (executes (mine s)) = [op s (me s)] := by simp [he]
  unfold Traps
  generalize hR : Host.Outcome.next (takeTrap _ _ _ _ _) = R
  rw [hx]
  unfold runSlot runWord
  simp only [hi.running, hi.quiet, hi.free, hi.served, bne_self_eq_false, Bool.false_eq_true, if_false, Option.isSome_none,
    Bool.false_and, Bool.or_self]
  simp only [issueWord, h1, hst, Bool.or_self, Bool.false_eq_true, if_false, List.foldr_cons, List.foldr_nil,
    List.append_nil, hw, hs, checkWord, coreOf_setCore_same, h3, hm', hfl, h4, failTrap, List.any_cons, List.any_nil,
    hd, Bool.false_and, modCore_setCore]
  exact hR

/-- A compute core's slot stands as it is. -/
theorem computeOnly_eq {n : Nat} (h : n < 256) (o : SlotOp) : computeOnly n o = o := by
  unfold computeOnly; rw [if_pos (by simpa [isCompute] using h)]

end Sys2Proof.Machine
end

