-- ==== Sys2Proof/Laws/Lanes.lean ====
section
/-!
SUPPORT. Laws/Lanes.lean: the lanes of a vector built lane by lane, the bits of a mask, the flags gathered over
lanes, and what a vector slot does.
-/
namespace Sys2Proof.Machine

open Sys2Proof.Safety

theorem packN_lt (w : Nat) (f : Nat → Nat) (n : Nat) : packN w f n < 2 ^ (w * n) := by
  induction n with
  | zero => simp [packN]
  | succ n ih =>
    have h : f n % 2 ^ w < 2 ^ w := Nat.mod_lt _ (Nat.two_pow_pos _)
    rw [packN, Nat.shiftLeft_eq, Nat.mul_succ, Nat.pow_add]
    calc packN w f n + f n % 2 ^ w * 2 ^ (w * n) < 2 ^ (w * n) + f n % 2 ^ w * 2 ^ (w * n) := by omega
      _ = (f n % 2 ^ w + 1) * 2 ^ (w * n) := by rw [Nat.add_mul, Nat.one_mul, Nat.add_comm]
      _ ≤ 2 ^ w * 2 ^ (w * n) := Nat.mul_le_mul_right _ h
      _ = 2 ^ (w * n) * 2 ^ w := Nat.mul_comm _ _

/-- Element i of packed elements. -/
theorem packN_get (w : Nat) (f : Nat → Nat) (n i : Nat) (hi : i < n) :
    (packN w f n >>> (w * i)) % 2 ^ w = f i % 2 ^ w := by
  induction n with
  | zero => omega
  | succ n ih =>
    rw [packN, Nat.shiftRight_eq_div_pow, Nat.shiftLeft_eq]
    by_cases h : i = n
    · subst h
      rw [Nat.add_mul_div_right _ _ (Nat.two_pow_pos _), Nat.div_eq_of_lt (packN_lt w f i), Nat.zero_add, Nat.mod_mod]
    · have hin : i < n := by omega
      have hs : w * n = w * i + (w * (n - i - 1) + w) := by
        rw [← Nat.mul_succ, ← Nat.mul_add]; congr 1; omega
      have hd : f n % 2 ^ w * 2 ^ (w * n) = f n % 2 ^ w * 2 ^ (w * (n - i - 1)) * 2 ^ w * 2 ^ (w * i) := by
        rw [hs, Nat.pow_add, Nat.pow_add]; ac_rfl
      rw [hd, Nat.add_mul_div_right _ _ (Nat.two_pow_pos _), Nat.add_mul_mod_self_right, ← Nat.shiftRight_eq_div_pow]
      exact ih hin

/-- Lane i of the vector whose lane i is `f i`. -/
theorem lane_vecOf (f : Nat → BitVec 32) (i : Nat) (hi : i < 128) : lane (vecOf f) i = f i := by
  apply BitVec.eq_of_toNat_eq
  have h := packN_lt 32 (fun i => (f i).toNat) 128
  rw [lane, vecOf, BitVec.toNat_ofNat, BitVec.toNat_ofNat, show 4096 = 32 * 128 from rfl, Nat.mod_eq_of_lt h]
  rw [packN_get 32 _ 128 i hi, Nat.mod_eq_of_lt (f i).isLt]

theorem lane_splat (x : BitVec 32) (i : Nat) (hi : i < 128) : lane (splat x) i = x := lane_vecOf _ i hi

/-- Bit i of the mask whose bit i is `f i`. -/
theorem getLsbD_maskOf (f : Nat → Bool) (i : Nat) (hi : i < 128) : (maskOf f).getLsbD i = f i := by
  have h := packN_get 1 (fun i => (f i).toNat) 128 i hi
  rw [maskOf, BitVec.getLsbD_ofNat, Nat.testBit_eq_decide_div_mod_eq]
  rw [Nat.shiftRight_eq_div_pow, Nat.one_mul] at h
  have e : packN 1 (fun i => (f i).toNat) 128 / 2 ^ i % 2 = (f i).toNat % 2 := h
  rw [e]
  cases f i <;> simp [hi]

/-- A flag is gathered where some chosen lane raises it. -/
theorem gather_bit (p : Nat → Bool) (r : Nat → Flags) (l : List Nat) (f : Flags) (k : Nat) :
    (l.foldl (fun x i => if p i then x ||| r i else x) f).getLsbD k = true ↔
      f.getLsbD k = true ∨ ∃ i, i ∈ l ∧ p i = true ∧ (r i).getLsbD k = true := by
  induction l generalizing f with
  | nil => simp
  | cons a t ih =>
    rw [List.foldl_cons, ih]
    by_cases h : p a
    · simp only [h, if_true, BitVec.getLsbD_or, Bool.or_eq_true, List.mem_cons]
      constructor
      · rintro ((h1 | h1) | ⟨i, h1, h2⟩)
        · exact .inl h1
        · exact .inr ⟨a, .inl rfl, h, h1⟩
        · exact .inr ⟨i, .inr h1, h2⟩
      · rintro (h1 | ⟨i, rfl | h1, h2⟩)
        · exact .inl (.inl h1)
        · exact .inl (.inr h2.2)
        · exact .inr ⟨i, h1, h2⟩
    · simp only [h, Bool.false_eq_true, if_false, List.mem_cons]
      constructor
      · rintro (h1 | ⟨i, h1, h2⟩)
        · exact .inl h1
        · exact .inr ⟨i, .inr h1, h2⟩
      · rintro (h1 | ⟨i, rfl | h1, h2⟩)
        · exact .inl h1
        · exact absurd h2.1 h
        · exact .inr ⟨i, h1, h2⟩

theorem gather_all (r : Nat → Flags) (l : List Nat) (k : Nat) :
    (l.foldl (fun x i => x ||| r i) 0).getLsbD k = true ↔ ∃ i, i ∈ l ∧ (r i).getLsbD k = true := by
  have h := gather_bit (fun _ => true) r l 0 k
  simpa using h

/-- A masked operation on lanes is lane by lane. -/
theorem laneWise_map2 (c : Core) (mk : Fin 8) (f : BitVec 32 → BitVec 32 → LaneRes) (x y : Vec) :
    LaneWise c mk x (fun j => f (lane x j) (lane y j)) (map2 f (maskVal c mk) x y).1 (map2 f (maskVal c mk) x y).2 := by
  refine ⟨fun i hi => lane_vecOf _ i hi, fun k => ?_⟩
  rw [map2, gather_bit (fun i => active (maskVal c mk) i) (fun i => (f (lane x i) (lane y i)).2)]
  simp [active]

theorem laneWise_map3 (c : Core) (mk : Fin 8) (f : BitVec 32 → BitVec 32 → BitVec 32 → LaneRes) (x y z : Vec) :
    LaneWise c mk x (fun j => f (lane x j) (lane y j) (lane z j)) (map3 f (maskVal c mk) x y z).1
      (map3 f (maskVal c mk) x y z).2 := by
  refine ⟨fun i hi => lane_vecOf _ i hi, fun k => ?_⟩
  rw [map3, gather_bit (fun i => active (maskVal c mk) i) (fun i => (f (lane x i) (lane y i) (lane z i)).2)]
  simp [active]

theorem vVal_setCore (u : VSlot) (fp : Bool) (s : State) (i : Nat) (a : Src) :
    vVal u fp (setCore s (me s) (mine s)) (me s) i a = vVal u fp s (me s) i a := by
  rw [vVal, vVal, coreOf_setCore_same, fvOp_setCore]

theorem vecSlot_eq {n : Nat} (h : n < 256) (u : VSlot) (g : Guard) : vecSlot u g n = guarded (vSlotNo u) g := computeOnly_eq h _

theorem ringVal_wide (u : VSlot) (v : Vec) : ringVal (vRing u) v = v := by
  rw [ringVal, if_neg (by cases u <;> decide)]

theorem pendAct_eq (c : Core) (a : Act) (lat : Nat) : pendAct c a lat = pending c a lat := rfl

theorem pending_depositAt (c : Core) (u : RingId) (v : Vec) (due : Nat) (w : Option Nat) (a : Act) (lat : Nat)
    (r : Vector Ring 8) : { pending (depositAt c u v due w) a lat with rings := r } = { pending c a lat with rings := r } := rfl

theorem pending_rotate (c : Core) (u : RingId) (a : Act) (lat : Nat) :
    { pending (rotate c u) a lat with rings := c.rings } = pending c a lat := rfl

theorem pendDeposit_rings (c : Core) (u w : RingId) (v : Vec) (lat : Nat) (a : Act) :
    { pendAct (deposit (rotate c w) u v lat) a lat with rings := c.rings } = pending c a lat := by
  rw [pendAct_eq, deposit, pending_depositAt, pending_rotate]

theorem pending_keeps_rings (c : Core) (a : Act) (lat : Nat) : (pending c a lat).rings = c.rings := rfl

/-- What a slot does that deposits in its ring and then has `h` of its core. -/
theorem runSlot_turns (s : State) (op : State → Nat → SlotOp) (u : RingId) (g : Guard) (l : Latch) (f h : Core → Core)
    (hi : Issues s) (hs : op (setCore s (me s) (mine s)) (me s) = op s (me s)) (hp : PlainOp (op s (me s)))
    (hr : readsPass (mine s) (op s (me s)).reads) (hg : (op s (me s)).guard = some g)
    (hu : (op s (me s)).ring = some u) (hc : (op s (me s)).ctl = .seq)
    (he : (op s (me s)).eff = fun s' => modCore s' (me s) f) (ha : (op s (me s)).after = fun s => s)
    (h0 : latchOf (f (rotate (mine s) u)) u 0 = l)
    (hk : ∀ k, k ≠ 0 → latchOf (f (rotate (mine s) u)) u k = latchOf (rotate (mine s) u) u k)
    (hw : ∀ w, w ≠ u → ringOf (f (rotate (mine s) u)) w = ringOf (rotate (mine s) u) w)
    (hf : { f (rotate (mine s) u) with rings := (mine s).rings } = h (mine s)) (hh : (h (mine s)).rings = (mine s).rings) :
    ∃ c', runSlot s op = .next (endCycle (setCore s (me s) (signed s (me s) c')) (me s)) ∧ Turns (mine s) c' u g l ∧
      { c' with rings := (mine s).rings } = moved (if holds (mine s) g then h (mine s) else mine s) .seq := by
  refine ⟨_, runSlot_core s op f hi hs hp hr he ha, turns_after _ _ u g l f hg hu h0 hk hw, ?_⟩
  have := rest_after (mine s) (op s (me s)) u g f h hg hu hf hh
  rw [this, hc, ite_self]

theorem pendDeposit_zero (c : Core) (u : RingId) (v : Vec) (lat : Nat) (a : Act) :
    latchOf (pendAct (deposit (rotate c u) u v lat) a lat) u 0 = result c (ringVal u v) lat :=
  latchOf_depositAt_zero (rotate c u) u v _ none

theorem pendDeposit_other (c : Core) (u : RingId) (v : Vec) (lat : Nat) (a : Act) (k : Fin 8) (h : k ≠ 0) :
    latchOf (pendAct (deposit (rotate c u) u v lat) a lat) u k = latchOf (rotate c u) u k :=
  latchOf_depositAt_other (rotate c u) u v _ none k h

theorem pendDeposit_ring (c : Core) (u w : RingId) (v : Vec) (lat : Nat) (a : Act) (h : w ≠ u) :
    ringOf (pendAct (deposit (rotate c u) u v lat) a lat) w = ringOf (rotate c u) w :=
  ringOf_depositAt_other (rotate c u) u w v _ none h

/-- What a slot does that deposits in a vector ring and has flags on their way. -/
theorem vdeposits_of (i : Instr) (s : State) (op : State → Nat → SlotOp) (u : VSlot) (g : Guard) (reads : List Src)
    (lat : Nat) (v : Vec) (f : Flags) (hx : exec i s = runSlot s op) (hi : Issues s) (hn : me s < 256)
    (ho : op s (me s) = vecDeposit u g reads lat v f (me s)) (hs : op (setCore s (me s) (mine s)) (me s) = op s (me s))
    (hr : readsPass (mine s) reads) : VDeposits i s u g v f lat := by
  unfold vecDeposit at ho
  rw [vecSlot_eq hn] at ho
  unfold VDeposits raising
  by_cases h : f = 0
  · simp only [h, if_true] at ho ⊢
    obtain ⟨c', h1, h2, h3⟩ := runSlot_deposits s op (vRing u) g v lat hi hs (by rw [ho]; exact ⟨rfl, rfl, rfl, rfl, rfl, rfl⟩)
      (by rw [ho]; exact hr) (by rw [ho]; rfl) (by rw [ho]) (by rw [ho]; rfl) (by rw [ho]) (by rw [ho]; rfl)
    rw [ringVal_wide] at h2
    exact ⟨c', _, hx.trans h1, rfl, h2, by rw [h3, ite_self]⟩
  · simp only [h, if_false] at ho ⊢
    obtain ⟨c', h1, h2, h3⟩ := runSlot_turns s op (vRing u) g (result (mine s) v lat)
      (fun c => pendAct (deposit c (vRing u) v lat) (.flags f) lat) (fun c => pending c (.flags f) lat) hi hs
      (by rw [ho]; exact ⟨rfl, rfl, rfl, rfl, rfl, rfl⟩) (by rw [ho]; exact hr) (by rw [ho]; rfl) (by rw [ho]) (by rw [ho]; rfl)
      (by rw [ho]) (by rw [ho]; rfl) ((pendDeposit_zero _ _ _ _ _).trans (by rw [ringVal_wide]))
      (fun k h => pendDeposit_other _ _ _ _ _ k h) (fun w h => pendDeposit_ring _ _ _ _ _ _ h)
      (pendDeposit_rings _ _ _ _ _ _) (pending_keeps_rings _ _ _)
    exact ⟨c', _, hx.trans h1, rfl, h2, h3⟩

/-- The same without flags: a deposit. -/
theorem deposits_vec (i : Instr) (s : State) (u : VSlot) (g : Guard) (v : Vec) (lat : Nat)
    (h : VDeposits i s u g v 0 lat) : Deposits i s (vRing u) g v lat := by
  obtain ⟨c', t, h1, h2, h3, h4⟩ := h
  refine ⟨c', t, h1, h2, h3, ?_⟩
  rw [h4]; simp [raising]

theorem lanes2_vdeposits (i : Instr) (s : State) (fp : Bool) (lat : Nat) (r : BitVec 32 → BitVec 32 → LaneRes) (u : VSlot)
    (g : Guard) (a b : Src) (mk : Fin 8) (hx : exec i s = runSlot s (lanes2 fp lat r u g a b mk)) (hi : Issues s)
    (hn : me s < 256) (hr : readsPass (mine s) [a, b]) :
    let m := map2 r (maskVal (mine s) mk) (vVal u fp s (me s) 0 a) (vVal u fp s (me s) 1 b)
    VDeposits i s u g m.1 m.2 lat :=
  vdeposits_of i s _ u g [a, b] lat _ _ hx hi hn rfl
    (by unfold lanes2; dsimp only; rw [vVal_setCore, vVal_setCore, coreOf_setCore_same]) hr

theorem lanes1_vdeposits (i : Instr) (s : State) (fp : Bool) (lat : Nat) (r : BitVec 32 → LaneRes) (u : VSlot)
    (g : Guard) (a : Src) (mk : Fin 8) (hx : exec i s = runSlot s (lanes1 fp lat r u g a mk)) (hi : Issues s)
    (hn : me s < 256) (hr : readsPass (mine s) [a]) :
    let m := map1 r (maskVal (mine s) mk) (vVal u fp s (me s) 0 a)
    VDeposits i s u g m.1 m.2 lat :=
  vdeposits_of i s _ u g [a] lat _ _ hx hi hn rfl
    (by unfold lanes1; dsimp only; rw [vVal_setCore, coreOf_setCore_same]) hr

end Sys2Proof.Machine
end

