-- ==== Sys2Proof/Laws/Memory.lean ====
section
/-!
SUPPORT. Laws/Memory.lean: reading after writing, and the canonical form, of memory and of every sparse array.
-/
namespace Sys2Proof.Machine

/-! ### Sparse arrays -/

/-- The canonical form above a bound. -/
theorem spWfFrom_cons {w : Nat} (lo : Option Nat) (a : Nat) (v : BitVec w) (r : Sparse w) :
    spWfFrom lo ((a, v) :: r) = true ↔ (∀ l, lo = some l → l < a) ∧ v ≠ 0 ∧ spWfFrom (some a) r = true := by
  cases lo <;> simp [spWfFrom, and_assoc]

theorem spWfFrom_mono {w : Nat} (m : Sparse w) (lo hi : Option Nat) (h : spWfFrom hi m = true)
    (h1 : ∀ l, lo = some l → ∃ x, hi = some x ∧ l ≤ x) : spWfFrom lo m = true := by
  cases m with
  | nil => rfl
  | cons e r =>
    obtain ⟨a, v⟩ := e
    rw [spWfFrom_cons] at h ⊢
    refine ⟨fun l hl => ?_, h.2⟩
    obtain ⟨x, hx, hle⟩ := h1 l hl
    exact Nat.lt_of_le_of_lt hle (h.1 x hx)

/-- A key that is not listed reads zero. -/
theorem spGet_absent {w : Nat} (m : Sparse w) (k : Nat) (h : ∀ e ∈ m, e.1 ≠ k) : spGet m k = 0 := by
  induction m with
  | nil => rfl
  | cons e r ih =>
    obtain ⟨a, v⟩ := e
    rw [spGet, if_neg (h _ List.mem_cons_self)]
    exact ih fun e he => h e (List.mem_cons_of_mem _ he)

theorem spWf_filter {w : Nat} (m : Sparse w) (p : Nat × BitVec w → Bool) (lo : Option Nat)
    (h : spWfFrom lo m = true) : spWfFrom lo (m.filter p) = true := by
  induction m generalizing lo with
  | nil => rfl
  | cons e r ih =>
    obtain ⟨a, v⟩ := e
    rw [spWfFrom_cons] at h
    by_cases hp : p (a, v)
    · rw [List.filter_cons_of_pos hp, spWfFrom_cons]
      exact ⟨h.1, h.2.1, ih _ h.2.2⟩
    · rw [List.filter_cons_of_neg hp]
      exact ih _ (spWfFrom_mono _ _ _ h.2.2 fun l hl => ⟨a, rfl, Nat.le_of_lt (h.1 l hl)⟩)

theorem spWfFrom_spPut {w : Nat} (m : Sparse w) (lo : Option Nat) (k : Nat) (v : BitVec w)
    (h : spWfFrom lo m = true) (hk : ∀ l, lo = some l → l < k) (hm : ∀ e ∈ m, e.1 ≠ k) :
    spWfFrom lo (spPut m k v) = true := by
  induction m generalizing lo with
  | nil =>
    rw [spPut]; split
    · rfl
    · rw [spWfFrom_cons]; exact ⟨hk, by assumption, rfl⟩
  | cons e r ih =>
    obtain ⟨a, u⟩ := e
    have h' := h
    rw [spWfFrom_cons] at h'
    rw [spPut]
    by_cases h1 : k < a
    · rw [if_pos h1]; split
      · exact h
      · rw [spWfFrom_cons]
        refine ⟨hk, by assumption, ?_⟩
        rw [spWfFrom_cons]
        exact ⟨fun l hl => by cases hl; exact h1, h'.2⟩
    · have hne : a ≠ k := hm _ List.mem_cons_self
      rw [if_neg h1, spWfFrom_cons]
      exact ⟨h'.1, h'.2.1, ih _ h'.2.2 (fun l hl => by cases hl; omega) fun e he => hm e (List.mem_cons_of_mem _ he)⟩

/-- A write keeps the canonical form. -/
theorem spWf_spSet {w : Nat} (m : Sparse w) (k : Nat) (v : BitVec w) (h : spWf m = true) :
    spWf (spSet m k v) = true :=
  spWfFrom_spPut _ none k v (spWf_filter m _ none h) (by simp) fun e he => by simpa using (List.mem_filter.1 he).2

theorem spGet_filter {w : Nat} (m : Sparse w) (k j : Nat) (hj : k ≠ j) :
    spGet (m.filter fun e => e.1 != k) j = spGet m j := by
  induction m with
  | nil => rfl
  | cons e r ih =>
    obtain ⟨a, u⟩ := e
    by_cases h : a = k
    · rw [List.filter_cons_of_neg (by simp [h]), ih, spGet, if_neg (by omega)]
    · rw [List.filter_cons_of_pos (by simp [h]), spGet, spGet, ih]

theorem spGet_spPut {w : Nat} (m : Sparse w) (k j : Nat) (v : BitVec w) (hm : ∀ e ∈ m, e.1 ≠ k) :
    spGet (spPut m k v) j = if k = j then v else spGet m j := by
  induction m with
  | nil =>
    rw [spPut]; split
    · split <;> simp_all [spGet]
    · simp [spGet]
  | cons e r ih =>
    obtain ⟨a, u⟩ := e
    have hne : a ≠ k := hm _ List.mem_cons_self
    rw [spPut]
    by_cases h1 : k < a
    · rw [if_pos h1]; split
      · by_cases hj : k = j
        · subst hj
          rw [if_pos rfl, spGet_absent _ _ hm]; exact Eq.symm (by assumption)
        · rw [if_neg hj]
      · rw [spGet]
    · rw [if_neg h1, spGet, spGet, ih fun e he => hm e (List.mem_cons_of_mem _ he)]
      by_cases hj : a = j
      · rw [if_pos hj, if_neg (by omega), if_pos hj]
      · rw [if_neg hj, if_neg hj]

/-- Reading after a write: the value written at its key, every other key as before. -/
theorem spGet_spSet {w : Nat} (m : Sparse w) (k j : Nat) (v : BitVec w) :
    spGet (spSet m k v) j = if k = j then v else spGet m j := by
  rw [spSet, spGet_spPut _ _ _ _ fun e he => by simpa using (List.mem_filter.1 he).2]
  split
  · rfl
  · rw [spGet_filter _ _ _ (by assumption)]

theorem spGet_spSet_other {w : Nat} (m : Sparse w) (k j : Nat) (v : BitVec w) (hj : k ≠ j) :
    spGet (spSet m k v) j = spGet m j := by rw [spGet_spSet, if_neg hj]

/-! ### Memory -/

theorem memory_wf_nil : Memory.wf [] = true := rfl

/-- One byte written keeps the canonical form. -/
theorem memory_wf_memSet (m : List Host.Cell) (a : Nat) (b : Byte) (h : Memory.wf m = true) :
    Memory.wf (memSet m a b) = true := spWf_spSet (w := 8) m a b h

/-- Bytes written keep the canonical form. -/
theorem memory_wf_memWrite (l : List (Nat × Byte)) (m : List Host.Cell) (h : Memory.wf m = true) :
    Memory.wf (memWrite m l) = true := by
  induction l generalizing m with
  | nil => exact h
  | cons e r ih => exact ih _ (memory_wf_memSet m e.1 e.2 h)

theorem memory_wf_filter (m : List Host.Cell) (p : Host.Cell → Bool) (h : Memory.wf m = true) :
    Memory.wf (m.filter p) = true := spWf_filter (w := 8) m p none h

/-- The byte written is read back; every other byte reads as before. -/
theorem memByte_memSet (m : List Host.Cell) (a x : Nat) (b : Byte) :
    memByte (memSet m a b) x = if a = x then b else memByte m x := spGet_spSet (w := 8) m a x b

theorem memByte_memSet_other (m : List Host.Cell) (a x : Nat) (b : Byte) (h : a ≠ x) :
    memByte (memSet m a b) x = memByte m x := spGet_spSet_other (w := 8) m a x b h

/-- A byte that a list of writes does not name reads as before. -/
theorem memByte_memWrite_other (l : List (Nat × Byte)) (m : List Host.Cell) (x : Nat)
    (h : ∀ e ∈ l, e.1 ≠ x) : memByte (memWrite m l) x = memByte m x := by
  induction l generalizing m with
  | nil => rfl
  | cons e r ih =>
    rw [memWrite, List.foldl_cons]
    exact (ih _ fun e' he => h e' (List.mem_cons_of_mem _ he)).trans
      (memByte_memSet_other m e.1 x e.2 (h e List.mem_cons_self))

theorem mem_at {l : List Byte} {a : Nat} {e : Nat × Byte} (h : e ∈ at_ a l) : a ≤ e.1 ∧ e.1 < a + l.length := by
  induction l generalizing a with
  | nil => cases h
  | cons b r ih =>
    rcases List.mem_cons.1 h with h | h
    · subst h; simp
    · have := ih h; simp; omega

/-- Bytes stored at `a` leave every address outside them as it was. -/
theorem memByte_store_other (m : List Host.Cell) (a x : Nat) (l : List Byte) (h : x < a ∨ a + l.length ≤ x) :
    memByte (memWrite m (at_ a l)) x = memByte m x :=
  memByte_memWrite_other _ _ _ fun e he => by have := mem_at he; omega

/-- Bytes stored at `a` are read back. -/
theorem memByte_store (l : List Byte) (m : List Host.Cell) (a i : Nat) (hi : i < l.length) :
    memByte (memWrite m (at_ a l)) (a + i) = l[i] := by
  induction l generalizing m a i with
  | nil => cases hi
  | cons b r ih =>
    rw [at_, memWrite, List.foldl_cons]
    cases i with
    | zero =>
      refine (memByte_store_other _ (a + 1) a r (by omega)).trans ?_
      rw [memByte_memSet, if_pos rfl]; rfl
    | succ i =>
      have := ih (memSet m a b) (a + 1) i (by simpa using hi)
      rw [show a + 1 + i = a + (i + 1) by omega] at this
      exact this

/-- A store to a line keeps the canonical form. -/
theorem memory_wf_storeBytes (s : State) (d : Option Nat) (pa : Nat) (l : List Byte) (h : Memory.wf s.mem = true) :
    Memory.wf (storeBytes s d pa l).mem = true := by
  have := memory_wf_memWrite (at_ pa l) s.mem h
  unfold storeBytes
  cases d with
  | none => exact this
  | some d => dsimp only; split <;> exact this

/-- What a store leaves of memory: its own bytes are written, the rest is as before. -/
theorem storeBytes_mem (s : State) (d : Option Nat) (pa : Nat) (l : List Byte) :
    (storeBytes s d pa l).mem = memWrite s.mem (at_ pa l) := by
  unfold storeBytes
  cases d with
  | none => rfl
  | some d => dsimp only; split <;> rfl

end Sys2Proof.Machine
end

