-- ==== Sys2Proof/Tests/Slice0.lean ====
section
/-!
SUPPORT. Tests/Slice0.lean: words written out from the encoding tables of spec/06_encoding.md and what they decode
to; ill-formed terms; one-step tests with results taken by hand from the rules; and, for each statement of
Obligations.lean, states and operands that meet its hypotheses.
-/
namespace Sys2Proof.Tests

set_option Elab.async false

open Sys2Proof Sys2Proof.Machine Sys2Proof.Safety

/-! ### Decoding -/

/-- Guard sense 1, predicate 3. -/
def G : Guard := { pred := 3, sense := true, first := false, last := false }

/-- A guard that holds: `p0` reads true (R79). -/
def G0 : Guard := { pred := 0, sense := false, first := false, last := false }

/-- R104: words of slot 0. -/
theorem test_decode_s1 :
    [decodeSlot 0 .none 0b000001_1_0011_0000101_0100010_0000000#32,
     decodeSlot 0 .none 0b000010_1_0011_0000101_0100010_0000000#32,
     decodeSlot 0 .none 0b000011_1_0011_0000101_0100010_0000000#32,
     decodeSlot 0 .none 0b000100_1_0011_0000101_0100010_0000000#32,
     decodeSlot 0 .none 0b000101_1_0011_0000101_0100010_0000000#32,
     decodeSlot 0 .none 0b000110_1_0011_0000101_0100010_0000000#32,
     decodeSlot 0 .none 0b000111_1_0011_0000101_0100010_0000000#32,
     decodeSlot 0 .none 0b001000_1_0011_0000101_0100010_0000000#32,
     decodeSlot 0 .none 0b001001_1_0011_0000101_0100010_0000000#32,
     decodeSlot 0 .none 0b001010_1_0011_0000101_0100010_0000000#32,
     decodeSlot 0 .none 0b001011_1_0011_0000101_0100010_0000000#32,
     decodeSlot 0 .none 0b001100_1_0011_0000101_0100010_0000000#32,
     decodeSlot 0 .none 0b001101_1_0011_0000101_0100010_0000000#32,
     decodeSlot 0 .none 0b001110_1_0011_0000101_0100010_0000000#32,
     decodeSlot 0 .none 0b001111_1_0011_0000101_0100010_0000000#32,
     decodeSlot 0 .none 0b010000_1_0011_0000101_0100010_0000000#32] =
    [some (.add G (.reg 5) (.latch .s 2)),
     some (.sub G (.reg 5) (.latch .s 2)),
     some (.mul G (.reg 5) (.latch .s 2)),
     some (.mulh G (.reg 5) (.latch .s 2)),
     some (.mulhu G (.reg 5) (.latch .s 2)),
     some (.div G (.reg 5) (.latch .s 2)),
     some (.divu G (.reg 5) (.latch .s 2)),
     some (.rem G (.reg 5) (.latch .s 2)),
     some (.remu G (.reg 5) (.latch .s 2)),
     some (.and G (.reg 5) (.latch .s 2)),
     some (.or G (.reg 5) (.latch .s 2)),
     some (.xor G (.reg 5) (.latch .s 2)),
     some (.andn G (.reg 5) (.latch .s 2)),
     some (.shl G (.reg 5) (.latch .s 2)),
     some (.shr G (.reg 5) (.latch .s 2)),
     some (.sar G (.reg 5) (.latch .s 2))] := by decide +kernel

/-- R104: words of slot 0. -/
theorem test_decode_s2 :
    [decodeSlot 0 .none 0b010001_1_0011_0000101_0100010_0000000#32,
     decodeSlot 0 .none 0b010010_1_0011_0000101_0100010_0000000#32,
     decodeSlot 0 .none 0b010011_1_0011_0000101_0100010_0000000#32,
     decodeSlot 0 .none 0b010100_1_0011_0000101_0100010_0000000#32,
     decodeSlot 0 .none 0b010101_1_0011_0000101_00000000000000#32,
     decodeSlot 0 .none 0b010110_1_0011_0000101_00000000000000#32,
     decodeSlot 0 .none 0b010111_1_0011_0000101_00000000000000#32,
     decodeSlot 0 .none 0b011010_1_0011_0000101_00000000000000#32,
     decodeSlot 0 .none 0b011000_1_0011_100100011010001010110#32,
     decodeSlot 0 .none 0b011001_1_0011_10_000_1010101111001101#32,
     decodeSlot 0 .none 0b011011_1_0011_1101111_0000000_0000111#32,
     decodeSlot 0 .none 0b011011_1_0011_1110010_0000000_1110110#32,
     decodeSlot 0 .none 0b011100_1_0011_0000101_0100010_000_1001#32,
     decodeSlot 0 .none 0b011101_1_0011_1110101_00000000_011111#32,
     decodeSlot 0 .none 0b100000_1_0011_0000101_0100010_000_1011#32,
     decodeSlot 0 .none 0b100001_1_0011_0000101_0100010_000_1011#32] =
    [some (.min G (.reg 5) (.latch .s 2)),
     some (.max G (.reg 5) (.latch .s 2)),
     some (.minu G (.reg 5) (.latch .s 2)),
     some (.maxu G (.reg 5) (.latch .s 2)),
     some (.clz G (.reg 5)),
     some (.ctz G (.reg 5)),
     some (.popc G (.reg 5)),
     some (.pass G (.reg 5)),
     some (.limm G 0x123456#21),
     some (.limmh G 2 0xABCD#16),
     some (.mov G (.s 7) (.small 15#4)),
     some (.mov G (.walk 2) .core),
     some (.sel G (.reg 5) (.latch .s 2) 9),
     some (.sext G (.walk 1) 31),
     some (.cmpeq G 11 (.reg 5) (.latch .s 2)),
     some (.cmpne G 11 (.reg 5) (.latch .s 2))] := by decide +kernel

/-- R104: words of slot 0. -/
theorem test_decode_s3 :
    [decodeSlot 0 .none 0b100010_1_0011_0000101_0100010_000_1011#32,
     decodeSlot 0 .none 0b100011_1_0011_0000101_0100010_000_1011#32,
     decodeSlot 0 .none 0b100100_1_0011_0000101_0100010_000_1011#32,
     decodeSlot 0 .none 0b100101_1_0011_0000101_0100010_000_1011#32,
     decodeSlot 0 .none 0b100110_1_0011_00_1_0100_00_0_1101_000_0010#32,
     decodeSlot 0 .none 0b100111_1_0011_00_1_0100_00_0_1101_000_0010#32,
     decodeSlot 0 .none 0b101000_1_0011_00_1_0100_00_0_1101_000_0010#32,
     decodeSlot 0 .none 0b101001_1_0011_00_1_0100_00_0_1101_000_0010#32,
     decodeSlot 0 .none 0b101010_1_0011_0000101_0000_000_0_100001#32,
     decodeSlot 0 .none 0b101010_1_0011_0000101_0000_001_0_100001#32,
     decodeSlot 0 .none 0b101010_1_0011_0000101_0000_010_0_100001#32,
     decodeSlot 0 .none 0b101010_1_0011_0000101_0000_011_0_100001#32,
     decodeSlot 0 .none 0b101010_1_0011_0000101_0000_100_0_100001#32,
     decodeSlot 0 .none 0b101010_1_0011_0000101_0000_101_0_100001#32,
     decodeSlot 0 .none 0b101010_1_0011_0000101_0000_110_0_100001#32,
     decodeSlot 0 .none 0b101011_1_0011_0000101_0100010_1_100010#32] =
    [some (.cmplt G 11 (.reg 5) (.latch .s 2)),
     some (.cmple G 11 (.reg 5) (.latch .s 2)),
     some (.cmpltu G 11 (.reg 5) (.latch .s 2)),
     some (.cmpleu G 11 (.reg 5) (.latch .s 2)),
     some (.pand G 2 ⟨4, true⟩ ⟨13, false⟩),
     some (.por G 2 ⟨4, true⟩ ⟨13, false⟩),
     some (.pxor G 2 ⟨4, true⟩ ⟨13, false⟩),
     some (.pandn G 2 ⟨4, true⟩ ⟨13, false⟩),
     some (.ldt G .zb 33 (.reg 5)),
     some (.ldt G .sb 33 (.reg 5)),
     some (.ldt G .zh 33 (.reg 5)),
     some (.ldt G .sh 33 (.reg 5)),
     some (.ldt G .zw 33 (.reg 5)),
     some (.ldt G .sw 33 (.reg 5)),
     some (.ldt G .d 33 (.reg 5)),
     some (.stt G true 34 (.reg 5) (.latch .s 2))] := by decide +kernel

/-- R104: words of slot 0. -/
theorem test_decode_s4 :
    [decodeSlot 0 .none 0b101100_1_0011_000000000_111111111110#32,
     decodeSlot 0 .none 0b101101_1_0011_000000000_000000000101#32,
     decodeSlot 0 .none 0b101110_1_0011_0000101_00000000000000#32,
     decodeSlot 0 .none 0b101111_1_0011_0000000000_11111111111#32,
     decodeSlot 0 .none 0b110000_1_0011_000000000000000000000#32,
     decodeSlot 0 .none 0b110001_1_0011_101_000000011_100000001#32,
     decodeSlot 0 .none 0b110010_1_0011_0000101_00000000000_100#32,
     decodeSlot 0 .none 0b110011_1_0011_0000101_000000000_11_010#32,
     decodeSlot 0 .none 0b110100_1_0011_000000000000000000_100#32,
     decodeSlot 0 .none 0b110101_1_0011_000000000000000000_110#32,
     decodeSlot 0 .none 0b110110_1_0011_000000000000000000000#32,
     decodeSlot 0 .none 0b110111_1_0011_0011001_000000000_11110#32,
     decodeSlot 0 .none 0b111000_1_0011_0010111_0100010_0000000#32,
     decodeSlot 0 .none 0b111001_1_0011_00000_1011111011101111#32,
     decodeSlot 0 .none 0b111010_1_0011_000000000_000100000001#32,
     decodeSlot 0 .none 0b111011_1_0011_0000101_0000000000_1100#32] =
    [some (.br G 0xFFE#12),
     some (.brl G 5#12),
     some (.jr G (.reg 5)),
     some (.brbank G 0x7FF#11),
     some (.ifence G),
     some (.fdef G 5 3#9 0x101#9),
     some (.fcnt G 4 (.reg 5)),
     some (.fstr G 2 3 (.reg 5)),
     some (.fpipe G 4),
     some (.stair G 6),
     some (.sbrk G),
     some (.getc G 30 25),
     some (.setc G 23 (.latch .s 2)),
     some (.brk G 0xBEEF#16),
     some (.svc G 0x101#12),
     some (.lnch G 12 (.reg 5))] := by decide +kernel

/-- R104: words of slot 0. -/
theorem test_decode_s5 :
    [decodeSlot 0 .none 0b111100_1_0011_0000101_00000000000000#32,
     decodeSlot 0 .none 0b111100_1_0011_0000101_0100010_0000001#32,
     decodeSlot 0 .none 0b111101_1_0011_0000101_0000000000000_1#32,
     decodeSlot 0 .none 0b111110_1_0011_000000000000000000000#32] =
    [some (.qstat G (.reg 5)),
     some (.qstatO G (.reg 5) (.latch .s 2)),
     some (.thaw G (.reg 5) true),
     some (.rfh G)] := by decide +kernel

/-- R105: words of slot 1. -/
theorem test_decode_v1 :
    [decodeSlot 1 .none 0b000001_1_0011_0000101_0101010_0_110_011#32,
     decodeSlot 1 .none 0b000010_1_0011_0000101_0101010_0_110_011#32,
     decodeSlot 1 .none 0b000011_1_0011_0000101_0101010_0_110_011#32,
     decodeSlot 1 .none 0b001000_1_0011_0000101_0101010_0_110_011#32,
     decodeSlot 1 .none 0b000110_1_0011_0000101_0101010_0_110_000#32,
     decodeSlot 1 .none 0b000111_1_0011_0000101_0101010_0_110_000#32,
     decodeSlot 1 .none 0b001100_1_0011_0000101_0101010_0_110_000#32,
     decodeSlot 1 .none 0b001101_1_0011_0000101_0101010_0_110_000#32,
     decodeSlot 1 .none 0b001110_1_0011_0000101_0101010_0_110_000#32,
     decodeSlot 1 .none 0b001111_1_0011_0000101_0101010_0_110_000#32,
     decodeSlot 1 .none 0b010000_1_0011_0000101_0101010_0_110_000#32,
     decodeSlot 1 .none 0b010001_1_0011_0000101_0101010_0_110_000#32,
     decodeSlot 1 .none 0b010010_1_0011_0000101_0101010_0_110_000#32,
     decodeSlot 1 .none 0b010011_1_0011_0000101_0101010_0_110_000#32,
     decodeSlot 1 .none 0b010100_1_0011_0000101_0101010_0_110_000#32,
     decodeSlot 1 .none 0b010101_1_0011_0000101_0101010_0_110_000#32] =
    [some (.vaddF32 .va G (.reg 5) (.latch .va 2) 6 .ru),
     some (.vsubF32 .va G (.reg 5) (.latch .va 2) 6 .ru),
     some (.vmulF32 .va G (.reg 5) (.latch .va 2) 6 .ru),
     some (.vdivF32 .va G (.reg 5) (.latch .va 2) 6 .ru),
     some (.vminF32 .va G (.reg 5) (.latch .va 2) 6),
     some (.vmaxF32 .va G (.reg 5) (.latch .va 2) 6),
     some (.vaddI32 .va G (.reg 5) (.latch .va 2) 6),
     some (.vsubI32 .va G (.reg 5) (.latch .va 2) 6),
     some (.vmulI32 .va G (.reg 5) (.latch .va 2) 6),
     some (.vminI32 .va G (.reg 5) (.latch .va 2) 6),
     some (.vmaxI32 .va G (.reg 5) (.latch .va 2) 6),
     some (.vand .va G (.reg 5) (.latch .va 2) 6),
     some (.vor .va G (.reg 5) (.latch .va 2) 6),
     some (.vxor .va G (.reg 5) (.latch .va 2) 6),
     some (.vshl .va G (.reg 5) (.latch .va 2) 6),
     some (.vshr .va G (.reg 5) (.latch .va 2) 6)] := by decide +kernel

/-- R105: words of slot 1. -/
theorem test_decode_v2 :
    [decodeSlot 1 .none 0b010110_1_0011_0000101_0101010_0_110_000#32,
     decodeSlot 1 .none 0b010111_1_0011_0000101_0101010_0_110_000#32,
     decodeSlot 1 .none 0b100001_1_0011_0000101_0101010_0_110_000#32,
     decodeSlot 1 .none 0b001001_1_0011_0000101_00000000_110_100#32,
     decodeSlot 1 .none 0b101100_1_0011_0000101_00000000_110_100#32,
     decodeSlot 1 .none 0b101101_1_0011_0000101_00000000_110_100#32,
     decodeSlot 1 .none 0b101110_1_0011_0000101_00000000_110_100#32,
     decodeSlot 1 .none 0b101111_1_0011_0000101_00000000_110_100#32,
     decodeSlot 1 .none 0b110000_1_0011_0000101_00000000_110_100#32,
     decodeSlot 1 .none 0b001010_1_0011_0000101_00000000_110_000#32,
     decodeSlot 1 .none 0b001011_1_0011_0000101_00000000_110_000#32,
     decodeSlot 1 .none 0b011000_1_0011_0000101_0101010_0000_011#32,
     decodeSlot 1 .none 0b011000_1_0011_0000101_0101010_0001_011#32,
     decodeSlot 1 .none 0b011000_1_0011_0000101_0101010_0010_011#32,
     decodeSlot 1 .none 0b011000_1_0011_0000101_0101010_0011_011#32,
     decodeSlot 1 .none 0b011000_1_0011_0000101_0101010_0100_011#32] =
    [some (.vsar .va G (.reg 5) (.latch .va 2) 6),
     some (.vsel .va G (.reg 5) (.latch .va 2) 6),
     some (.vperm .va G (.reg 5) (.latch .va 2) 6),
     some (.vsqrtF32 .va G (.reg 5) 6 .ro),
     some (.vexp2 .va G (.reg 5) 6 .ro),
     some (.vlog2 .va G (.reg 5) 6 .ro),
     some (.vrcp .va G (.reg 5) 6 .ro),
     some (.vrsqrt .va G (.reg 5) 6 .ro),
     some (.vtanh .va G (.reg 5) 6 .ro),
     some (.vabsF32 .va G (.reg 5) 6),
     some (.vnegF32 .va G (.reg 5) 6),
     some (.vcmpF32 .va G .eq 3 (.reg 5) (.latch .va 2)),
     some (.vcmpF32 .va G .ne 3 (.reg 5) (.latch .va 2)),
     some (.vcmpF32 .va G .lt 3 (.reg 5) (.latch .va 2)),
     some (.vcmpF32 .va G .le 3 (.reg 5) (.latch .va 2)),
     some (.vcmpF32 .va G .gt 3 (.reg 5) (.latch .va 2))] := by decide +kernel

/-- R105: words of slot 1. -/
theorem test_decode_v3 :
    [decodeSlot 1 .none 0b011000_1_0011_0000101_0101010_0101_011#32,
     decodeSlot 1 .none 0b011000_1_0011_0000101_0101010_0110_011#32,
     decodeSlot 1 .none 0b011000_1_0011_0000101_0101010_0111_011#32,
     decodeSlot 1 .none 0b011001_1_0011_0000101_0101010_0000_011#32,
     decodeSlot 1 .none 0b011001_1_0011_0000101_0101010_0001_011#32,
     decodeSlot 1 .none 0b011001_1_0011_0000101_0101010_0010_011#32,
     decodeSlot 1 .none 0b011001_1_0011_0000101_0101010_0011_011#32,
     decodeSlot 1 .none 0b011001_1_0011_0000101_0101010_0100_011#32,
     decodeSlot 1 .none 0b011001_1_0011_0000101_0101010_0101_011#32,
     decodeSlot 1 .none 0b011010_1_0011_000_0_100_000_1_111_0000_010#32,
     decodeSlot 1 .none 0b011011_1_0011_000_0_100_000_1_111_0000_010#32,
     decodeSlot 1 .none 0b011100_1_0011_000_0_100_000_1_111_0000_010#32,
     decodeSlot 1 .none 0b011101_1_0011_000_0_100_000_1_111_0000_010#32,
     decodeSlot 1 .none 0b011110_1_0011_0000_011_0000_101_000_1110#32,
     decodeSlot 1 .none 0b011111_1_0011_1110011_000000000_10001#32,
     decodeSlot 1 .none 0b100000_1_0011_0000101_000_011_1_0_110_001#32] =
    [some (.vcmpF32 .va G .ge 3 (.reg 5) (.latch .va 2)),
     some (.vcmpF32 .va G .un 3 (.reg 5) (.latch .va 2)),
     some (.vcmpF32 .va G .ord 3 (.reg 5) (.latch .va 2)),
     some (.vcmpI32 .va G .eq 3 (.reg 5) (.latch .va 2)),
     some (.vcmpI32 .va G .ne 3 (.reg 5) (.latch .va 2)),
     some (.vcmpI32 .va G .lt 3 (.reg 5) (.latch .va 2)),
     some (.vcmpI32 .va G .le 3 (.reg 5) (.latch .va 2)),
     some (.vcmpI32 .va G .ltu 3 (.reg 5) (.latch .va 2)),
     some (.vcmpI32 .va G .leu 3 (.reg 5) (.latch .va 2)),
     some (.mand .va G 2 ⟨4, false⟩ ⟨7, true⟩),
     some (.mor .va G 2 ⟨4, false⟩ ⟨7, true⟩),
     some (.mxor .va G 2 ⟨4, false⟩ ⟨7, true⟩),
     some (.mandn .va G 2 ⟨4, false⟩ ⟨7, true⟩),
     some (.vmu .va G 14 3 5),
     some (.vmov .va G 17 .lane),
     some (.vcvt .va G .fp32 .e4m3 true (.reg 5) 6 .rz)] := by decide +kernel

/-- R105: words of slot 1. -/
theorem test_decode_v4 :
    [decodeSlot 1 .none 0b100010_1_0011_0000101_0101010_0_110_00_1#32,
     decodeSlot 1 .none 0b100011_1_0011_0000101_00000000_101000#32,
     decodeSlot 1 .none 0b100100_1_0011_0000101_0101010_1_101000#32,
     decodeSlot 1 .none 0b100101_1_0011_0000101_0000000_0_101001#32,
     decodeSlot 1 .none 0b100110_1_0011_0000101_0101010_1_101001#32,
     decodeSlot 1 .none 0b101000_1_0011_0000101_0000000_1_110_000#32,
     decodeSlot 1 .none 0b101001_1_0011_0000101_0000000_1_110_000#32,
     decodeSlot 1 .none 0b101010_1_0011_0000101_0000000_1_110_000#32,
     decodeSlot 1 .none 0b101011_1_0011_0000101_0000000_1_110_000#32,
     decodeSlot 1 .none 0b110001_1_0011_0000101_0000000000_1_101#32,
     decodeSlot 1 .none 0b110010_1_0011_0000101_0000000000_0_100#32] =
    [some (.vslide .va G true (.reg 5) (.latch .va 2) 6),
     some (.vldt .va G 40 (.reg 5)),
     some (.vstt .va G true 40 (.reg 5) (.latch .va 2)),
     some (.vgath .va G false 41 (.reg 5)),
     some (.vscat .va G true 41 (.reg 5) (.latch .va 2)),
     some (.vredAdd .va G true (.reg 5) 6),
     some (.vredMax .va G true (.reg 5) 6),
     some (.vredMin .va G true (.reg 5) 6),
     some (.vscanAdd .va G true (.reg 5) 6),
     some (.vqnt .va G .int8 true (.reg 5)),
     some (.vdqnt .va G .e2m1 false (.reg 5))] := by decide +kernel

/-- R107: words of slot 3. -/
theorem test_decode_m1 :
    [decodeSlot 3 .none 0b000001_1_0011_000000000000000_100101#32,
     decodeSlot 3 .none 0b000010_1_0011_0000101_00000000000_110#32,
     decodeSlot 3 .none 0b000011_1_0011_0000101_00000000000000#32,
     decodeSlot 3 .none 0b000100_1_0011_000000000000000000000#32,
     decodeSlot 3 .none 0b000101_1_0011_000000000000000000000#32,
     decodeSlot 3 .none 0b000110_1_0011_0000101_0100010_0_001001#32,
     decodeSlot 3 .none 0b000110_1_0011_0000101_0100010_1_001001#32,
     decodeSlot 3 .none 0b000111_1_0011_00000000000000_1_000000#32,
     decodeSlot 3 .none 0b000111_1_0011_0000101_0000001_1_001001#32] =
    [some (.mcall G 37),
     some (.mpset G 6 (.reg 5)),
     some (.mwait G (.reg 5)),
     some (.mstat G),
     some (.mabort G),
     some (.mlucode G 9 (.reg 5) (.latch .s 2)),
     some (.mlucodeEnt G 9 (.reg 5) (.latch .s 2)),
     some (.mlsf G true),
     some (.mlsfT G true 9 (.reg 5))] := by decide +kernel

/-- R101: words of slot 7. -/
theorem test_decode_k1 :
    [decodeSlot 7 .none 0b000000_01_1_1010_0000101_000000000000#32,
     decodeSlot 7 .none 0b000000_10_101_011_010_1_00000000000000#32,
     decodeSlot 7 .none 0b000000_11_0_101100_0000101_0000000000#32] =
    [some (.kst true 10 (.reg 5)),
     some (.kcfg 5 .e4m3 .e5m2 true),
     some (.klds false 44 (.reg 5))] := by decide +kernel

/-- R106: words of slot 4. -/
theorem test_decode_c1 :
    [decodeSlot 4 .none 0b000001_1_0011_0000101_0100010_0_110010#32,
     decodeSlot 4 .none 0b000010_1_0011_0000101_1001_0011_110010#32,
     decodeSlot 4 .none 0b000011_1_0011_0000101_1001_0011_110010#32,
     decodeSlot 4 .none 0b001001_1_0011_0000101_1001_0011_110010#32,
     decodeSlot 4 .none 0b000101_1_0011_0000101_1001_0011_111100#32,
     decodeSlot 4 .none 0b000110_1_0011_0_010101_00000000_110010#32,
     decodeSlot 4 .none 0b000111_1_0011_0000101_0100010_0_110010#32,
     decodeSlot 4 .none 0b001000_1_0011_0000101_1001_0011_00000_1#32,
     decodeSlot 4 .none 0b001010_1_0011_0000101_0100010_00000_01#32,
     decodeSlot 4 .none 0b001011_1_0011_0000101_000000000000_1_0#32,
     decodeSlot 4 .none 0b001100_1_0011_0000101_0100010_000_1001#32,
     decodeSlot 4 .none 0b001101_1_0011_0000101_0000000000_1001#32,
     decodeSlot 4 .none 0b001110_1_0011_0000000000000000_1_1001#32,
     decodeSlot 4 .none 0b001111_1_0011_00000000000000000_1001#32,
     decodeSlot 4 .none 0b001111_1_0011_0000101_00000000010000#32,
     decodeSlot 4 .none 0b010000_1_0011_0000101_0100010_0000000#32] =
    [some (.tdef .ca G 50 (.reg 5) (.latch .s 2)),
     some (.tld .ca G 50 9 3 (.reg 5)),
     some (.tst .ca G 50 9 3 (.reg 5)),
     some (.bkc .ca G 50 9 3 (.reg 5)),
     some (.tlbk .ca G 60 9 3 (.reg 5)),
     some (.tcpy .ca G 50 21),
     some (.tfill .ca G 50 (.reg 5) (.latch .s 2)),
     some (.tldi .ca G true 9 3 (.reg 5)),
     some (.waitc .ca G .st (.reg 5) (.latch .s 2)),
     some (.waitf .ca G false true (.reg 5)),
     some (.rdcinv .ca G 9 (.reg 5) (.latch .s 2)),
     some (.xlat .ca G 9 (.reg 5)),
     some (.hstat .ca G true 9),
     some (.hclr .ca G 9),
     some (.hclrPn .ca G (.reg 5)),
     some (.ipatch .ca G (.reg 5) (.latch .s 2))] := by decide +kernel

/-- R106: words of slot 4. -/
theorem test_decode_c2 :
    [decodeSlot 4 .none 0b010001_1_0011_0000101_00000000000000#32,
     decodeSlot 4 .none 0b010010_1_0011_0000101_0100010_0000000#32,
     decodeSlot 4 .none 0b010011_1_0011_0000101_0100010_000_1001#32,
     decodeSlot 4 .none 0b010100_1_0011_0000101_0100010_000_1001#32] =
    [some (.frd .ca G (.reg 5)),
     some (.fwr .ca G (.reg 5) (.latch .s 2)),
     some (.csave .ca G 9 (.reg 5) (.latch .s 2)),
     some (.crest .ca G 9 (.reg 5) (.latch .s 2))] := by decide +kernel

/-- R107: words of slot 6. -/
theorem test_decode_x1 :
    [decodeSlot 6 .none 0b000001_1_0011_0000101_0100010_1_010100#32,
     decodeSlot 6 .none 0b000010_1_0011_0000101_00000000_010100#32,
     decodeSlot 6 .none 0b000011_1_0011_0000101_0100010_0_010100#32,
     decodeSlot 6 .none 0b000100_1_0011_0000101_0100010_1_010100#32,
     decodeSlot 6 .none 0b000101_1_0011_0000101_0100010_0_010100#32,
     decodeSlot 6 .none 0b000110_1_0011_0000101_0100010_000_1000#32,
     decodeSlot 6 .none 0b000111_1_0011_0000101_000000000000_10#32,
     decodeSlot 6 .none 0b001000_1_0011_000000000000000000000#32,
     decodeSlot 6 .none 0b001001_1_0011_000000000000000000_100#32,
     decodeSlot 6 .none 0b001010_1_0011_0000101_00000000000000#32,
     decodeSlot 6 .none 0b001011_1_0011_000000000000000000000#32] =
    [some (.xsend G true 20 (.reg 5) (.latch .s 2)),
     some (.xrecv G 20 (.reg 5)),
     some (.xradd G false 20 (.reg 5) (.latch .s 2)),
     some (.xrmax G true 20 (.reg 5) (.latch .s 2)),
     some (.xput G 20 (.reg 5) (.latch .s 2)),
     some (.xbegin G 8 (.reg 5) (.latch .s 2)),
     some (.xtrig G 2 (.reg 5)),
     some (.xstat G),
     some (.land G 4),
     some (.align G (.reg 5)),
     some (.seg G)] := by decide +kernel

/-- R98, R101: a word of zeros. -/
theorem test_decode_zero :
    decodeWord 0 = [some .nop, some .nop, some .nop, some .nop, some .nop, some .nop, some .nop, some .knop] := by
  decide +kernel

/-- R102: the three header modes; slot 7 with bits 31 and 30 of 10 or 11, mode 3 and nonzero low bits in mode 1
are refused. -/
theorem test_decode_header :
    [decodeHeader 0b01_00_010_0000000000000000000000101#32, decodeHeader 0b01_01_1000001_0000010_00000000000000#32,
     decodeHeader 0b01_10_001_0001101_000000000000000011#32, decodeHeader 0b10_00_010_0000000000000000000000101#32,
     decodeHeader 0b01_11_010_0000000000000000000000101#32, decodeHeader 0b01_01_1000001_0000010_00000000000001#32] =
    [some (.imm 2 5), some (.flags 0b1000001 0b0000010), some (.third 1 13 3), none, none, none] := by decide +kernel

/-- R102, R103, R153: `vfma.f32` and `vfms.f32`, their third source `v13` in the header; without the header slot 7
is refused. -/
theorem test_decode_third :
    [decodeSlot 1 (.third 1 13 0) 0b000100_1_0011_0000101_0101010_0_110_011#32,
     decodeSlot 2 (.third 2 13 0) 0b000101_1_0011_0000101_0101010_0_110_011#32,
     (decodeWord (slotWord 1 0b000100_1_0011_0000101_0101010_0_110_011#32)).getD 7 (some .knop)] =
    [some (.vfmaF32 .va G (.reg 5) (.latch .va 2) (.reg 13) 6 .ru),
     some (.vfmsF32 .vb G (.reg 5) (.latch .va 2) (.reg 13) 6 .ru), none] := by decide +kernel

/-- R241: `tamo`, each operation; operation 7, a nonzero t[1:0] and `cas.d` with an odd register are refused. -/
theorem test_decode_tamo :
    [decodeSlot 4 (.third 4 14 0) 0b000100_1_0011_0000101_1001_0011_000_0_00#32,
     decodeSlot 4 (.third 4 14 0) 0b000100_1_0011_0000101_1001_0011_001_1_00#32,
     decodeSlot 4 (.third 4 14 0) 0b000100_1_0011_0000101_1001_0011_010_0_00#32,
     decodeSlot 4 (.third 4 14 0) 0b000100_1_0011_0000101_1001_0011_011_1_00#32,
     decodeSlot 4 (.third 4 14 0) 0b000100_1_0011_0000101_1001_0011_100_1_00#32,
     decodeSlot 4 (.third 4 14 0) 0b000100_1_0011_0000101_1001_0011_101_0_00#32,
     decodeSlot 5 (.third 5 14 0) 0b000100_1_0011_0000101_1001_0011_110_1_00#32,
     decodeSlot 4 (.third 4 14 0) 0b000100_1_0011_0000101_1001_0011_111_0_00#32,
     decodeSlot 4 (.third 4 14 0) 0b000100_1_0011_0000101_1001_0011_000_0_01#32,
     decodeSlot 4 (.third 4 15 0) 0b000100_1_0011_0000101_1001_0011_100_1_00#32] =
    [some (.tamo .ca G .add false 9 3 (.reg 5) (.reg 14)), some (.tamo .ca G .max true 9 3 (.reg 5) (.reg 14)),
     some (.tamo .ca G .min false 9 3 (.reg 5) (.reg 14)), some (.tamo .ca G .swap true 9 3 (.reg 5) (.reg 14)),
     some (.tamo .ca G .cas true 9 3 (.reg 5) (.reg 14)), some (.tamo .ca G .maxu false 9 3 (.reg 5) (.reg 14)),
     some (.tamo .cb G .minu true 9 3 (.reg 5) (.reg 14)), none, none, none] := by decide +kernel

/-- R99, R102: small integers, the lent immediate, the core's index, walk registers and latches as sources. -/
theorem test_decode_sources :
    [decodeSlot 0 (.imm 0 0x1FFFFFF) 0b000001_0_0000_1110000_1100000_0000000#32,
     decodeSlot 0 .none 0b000001_0_0000_1110010_1110111_0000000#32,
     decodeSlot 0 .none 0b000001_0_0000_0100111_1010001_0000000#32] =
    [some (.add G0 (.imm25 0x1FFFFFF) (.small 0)), some (.add G0 .core (.walk 3)),
     some (.add G0 (.latch .s 7) (.latch .x 1))] := by decide +kernel

/-- R102: the stair flags of a mode 1 header reach the guard of their slot. -/
theorem test_decode_flags :
    (decodeWord ((0b01_01_0000001_0000000_00000000000000#32 ++ 0#192 ++ 0b000001_1_0011_0000101_0100010_0000000#32).setWidth 256)).head? =
      some (some (.add { G with first := true } (.reg 5) (.latch .s 2))) := by decide +kernel

/-- R213: the sixteen micro-operations. -/
theorem test_decode_micro :
    [decodeMicro 0b0000_000000000101_000000000000000000000000000000000000000000000000#64,
     decodeMicro 0b0001_1_0_10_000000000_1_00_0011_1_10_01_1_11_00000000000000000000000000000000#64,
     decodeMicro 0b0010_01_10_1_11_00_000000000000000000000000000000000000000000000000000#64,
     decodeMicro 0b0011_000000000000000000000000000000000000000000000000000000000000#64,
     decodeMicro 0b0100_10_1_0011_1_10_01_000000000000000000000000000000000000000000000000#64,
     decodeMicro 0b0101_01_0_0011_1_10_01_000000000000000000000000000000000000000000000000#64,
     decodeMicro 0b0110_000_0011_1_10_01_000000000000000000000000000000000000000000000000#64,
     decodeMicro 0b0111_11_0000000000000000000000000000000000000000000000000000000000#64,
     decodeMicro 0b1000_1_0111_0000000000000000000000000000000000000000000000000000000#64,
     decodeMicro 0b1001_10_1_101_000000001111_0000000000_00000000000000000000000000000111#64,
     decodeMicro 0b1010_10_0000000000000000000000000000000000000000000000000000000000#64,
     decodeMicro 0b1011_010_011_000000000000000000000000000000000000000000_000000001001#64,
     decodeMicro 0b1100_110_000000000000000000000000000000000000000000000000000000000#64,
     decodeMicro 0b1101_11_100_0000000000000000000000000000000000000000000000000000000#64,
     decodeMicro 0b1110_1001_00000000_0000000000000010_00000000000000000000000000000000#64,
     decodeMicro 0b1111_000000000000000000000000000000000000000000000000000000000000#64] =
    [some (.trapm 5), some (.passMicroOp true (.plane 2) (.tile ⟨3, true, 2, 1⟩) true 3), some (.prom 1 2 true 3 0),
     some .clra, some (.ldpl 2 true ⟨3, true, 2, 1⟩), some (.stpl 1 ⟨3, true, 2, 1⟩), some (.drain ⟨3, true, 2, 1⟩),
     some (.idpl 3), some (.coef true 7), some (.loop 2 true 5 15 7), some (.endl 2), some (.brf 2 3 9), some (.setw 6),
     some (.setf 3 4), some (.rprc 9 2), some .done] := by decide +kernel

/-- R214: a nonzero unused bit; R213: the descriptor of a plane side. -/
theorem test_decode_micro_refused :
    [decodeMicro 0b0011_000000000000000000000000000000000000000000000000000000000001#64,
     decodeMicro 0b0001_1_0_10_000000001_1_00_0011_1_10_01_1_11_00000000000000000000000000000000#64] = [none, none] := by
  decide +kernel

/-- R97: a nonzero unused field; R103: a lent immediate without a header. -/
theorem test_decode_refused :
    [decodeSlot 0 .none 0b000001_1_0011_0000101_0100010_0000001#32,
     decodeSlot 0 .none 0b000001_1_0011_1110000_0100010_0000000#32,
     decodeSlot 0 .none 0b000000_0_0000_000000000000000000001#32] = [none, none, none] := by decide +kernel

/-! ### Well-formedness -/

/-- R99, R102: one ill-formed term for each check on sources and headers. -/
theorem test_ill_sources :
    [Instr.wf (.add { G with first := true } (.imm25 5) (.reg 1)), Instr.wf (.add G (.imm25 5) (.imm25 6)),
     Instr.wf (.add G (.imm18 5) (.reg 1)), Instr.wf (.vaddI32 .va G (.latch .m 0) (.reg 1) 0),
     Instr.wf (.vfmaF32 .va { G with last := true } (.reg 1) (.reg 2) (.reg 3) 0 .rn),
     Instr.wf (.kst true 1 (.imm25 3)), Instr.wf (.jr G (.imm18 3)), Instr.wf (.xsend { G with first := true } true 0 (.imm25 1) (.reg 0))] =
    List.replicate 8 false := by decide +kernel

/-- R89, R138, R177, R185, R192, R209, R241: one ill-formed term for each other check (a flight pipe above 4 is no term at all). -/
theorem test_ill_fields :
    [Instr.wf (.stair G 0), Instr.wf (.stair G 7), Instr.wf (.vqnt .va G .fp32 false (.reg 1)),
     Instr.wf (.vdqnt .va G .int32 false (.reg 1)), Instr.wf (.kcfg 0 .e2m1 .int8 false),
     Instr.wf (.tamo .ca G .cas true 0 0 (.reg 1) (.reg 3)), Instr.wf (.passMicroOp false (.tile ⟨10, false, 0, 0⟩) (.plane 0) false 0),
     Instr.wf (.ldpl 0 false ⟨10, false, 0, 0⟩), Instr.wf (.coef false 10), Instr.wf (.rprc 10 0)] =
    List.replicate 10 false := by decide +kernel

/-- The same terms, mended. -/
theorem test_well_formed :
    [Instr.wf (.add G (.imm25 5) (.imm25 5)), Instr.wf (.fpipe G 4), Instr.wf (.stair G 6), Instr.wf (.vqnt .va G .e4m3 false (.reg 1)),
     Instr.wf (.kcfg 0 .e4m3 .int8 false), Instr.wf (.tamo .ca G .cas true 0 0 (.reg 1) (.reg 4)), Instr.wf (.coef false 9)] =
    List.replicate 7 true := by decide +kernel

/-- R241: encoding and decoding back, an instruction with a third source and a lent immediate. -/
theorem test_encode_decode :
    (decodeWord (encode (.tamo .cb G .swap true 9 3 (.imm18 0x20000) (.reg 14)))).getD 5 none =
      some (.tamo .cb G .swap true 9 3 (.imm18 0x20000) (.reg 14)) := by decide +kernel

/-! ### One step -/

/-- A state in which compute core 0 is `c`, running. -/
def on (c : Core) : State := setCore State.reset 0 { c with run := .running }

/-- A state in which service core 0 is `c`, running, and its turn. -/
def onHall (c : Core) : State := { setCore State.reset 256 { c with run := .running } with turn := .service 0 }

/-- A core whose scalar registers begin with the values of `l`. -/
def regs (l : List (BitVec 64)) : Core := { Core.zero with s := Vector.ofFn fun i => l.getD i.val 0 }

/-- A core whose vector registers begin with these values in every lane. -/
def vregs (l : List (BitVec 32)) : Core :=
  { Core.zero with v := Vector.ofFn fun i => BitVec.ofNat 4096 (packN 32 (fun _ => (l.getD i.val 0).toNat) 128) }

/-- The core of the turn, after `exec`. -/
def after (i : Instr) (s : State) : Core := match exec i s with | .next t => mine t | _ => Core.zero

/-- What stands in `u.q0` after `exec`, as 64 bits, and how many cycles after this one it is defined. -/
def newest (u : RingId) (i : Instr) (s : State) : BitVec 64 × Nat :=
  ((latchOf (after i s) u 0).val.setWidth 64, (latchOf (after i s) u 0).due)

/-- Lane 1 of what stands in `u.q0` after `exec`, and when it is defined. -/
def newestLane (u : RingId) (i : Instr) (s : State) : BitVec 32 × Nat :=
  (lane (latchOf (after i s) u 0).val 1, (latchOf (after i s) u 0).due)

/-- The mask and the cause of the trap taken, if the core of the turn has trapped. -/
def trapOf (i : Instr) (s : State) : Option (Nat × Nat × BitVec 32) :=
  match (after i s).run with
  | .trapped rec => some (fld rec 63 56, fld rec 55 48, rec.setWidth 32)
  | _ => none

/-- R116: sums and logic: wrap at the top, `andn` is A AND NOT B. -/
theorem test_scalar_logic :
    let s := on (regs [0, 0xFFFFFFFFFFFFFFFF, 5, 0xC])
    [newest .s (.add G0 (.reg 1) (.reg 2)) s, newest .s (.sub G0 (.reg 2) (.reg 3)) s, newest .s (.and G0 (.reg 2) (.reg 3)) s,
      newest .s (.or G0 (.reg 2) (.reg 3)) s, newest .s (.xor G0 (.reg 2) (.reg 3)) s, newest .s (.andn G0 (.reg 2) (.reg 3)) s] =
    [(4, 1), (0xFFFFFFFFFFFFFFF9, 1), (4, 1), (13, 1), (9, 1), (1, 1)] := by decide +kernel

/-- R117: a divisor of 0 gives all ones and the dividend; -2^63 / -1 wraps; the remainder has the dividend's sign. -/
theorem test_scalar_divide :
    let s := on (regs [0, 0x8000000000000000, 0xFFFFFFFFFFFFFFFF, 7, 0xFFFFFFFFFFFFFFF9])
    [newest .s (.div G0 (.reg 3) (.reg 0)) s, newest .s (.divu G0 (.reg 3) (.reg 0)) s, newest .s (.rem G0 (.reg 3) (.reg 0)) s,
      newest .s (.div G0 (.reg 1) (.reg 2)) s, newest .s (.rem G0 (.reg 1) (.reg 2)) s, newest .s (.rem G0 (.reg 4) (.small 10)) s,
      newest .s (.divu G0 (.reg 2) (.small 10)) s, newest .s (.remu G0 (.reg 4) (.reg 3)) s] =
    [(0xFFFFFFFFFFFFFFFF, 20), (0xFFFFFFFFFFFFFFFF, 20), (7, 20), (0x8000000000000000, 20), (0, 20),
      (0xFFFFFFFFFFFFFFFF, 20), (0x7FFFFFFFFFFFFFFF, 20), (2, 20)] := by decide +kernel

/-- R116: products: low, signed high, unsigned high. -/
theorem test_scalar_multiply :
    let s := on (regs [0, 0xFFFFFFFFFFFFFFFF, 2])
    [newest .s (.mul G0 (.reg 1) (.reg 2)) s, newest .s (.mulh G0 (.reg 1) (.reg 2)) s, newest .s (.mulhu G0 (.reg 1) (.reg 2)) s] =
    [(0xFFFFFFFFFFFFFFFE, 3), (0xFFFFFFFFFFFFFFFF, 3), (1, 3)] := by decide +kernel

/-- R116: shifts take B[5:0]; orders. -/
theorem test_scalar_shift_order :
    let s := on (regs [0, 0xFFFFFFFFFFFFFFFF, 2, 65, 0x8000000000000000])
    [newest .s (.shl G0 (.reg 2) (.reg 3)) s, newest .s (.shr G0 (.reg 4) (.reg 3)) s, newest .s (.sar G0 (.reg 4) (.reg 3)) s,
      newest .s (.min G0 (.reg 1) (.reg 2)) s, newest .s (.max G0 (.reg 1) (.reg 2)) s, newest .s (.minu G0 (.reg 1) (.reg 2)) s,
      newest .s (.maxu G0 (.reg 1) (.reg 2)) s] =
    [(4, 1), (0x4000000000000000, 1), (0xC000000000000000, 1), (0xFFFFFFFFFFFFFFFF, 1), (2, 1), (2, 1), (0xFFFFFFFFFFFFFFFF, 1)] := by
  decide +kernel

/-- R116, R118 to R120, R122, R123: counts (64 for zero), immediates, `sext` from bit 7, `sel` by a false predicate. -/
theorem test_scalar_moves :
    let s := on (regs [0, 0x80, 3])
    [newest .s (.clz G0 (.reg 0)) s, newest .s (.ctz G0 (.reg 1)) s, newest .s (.popc G0 (.reg 2)) s, newest .s (.pass G0 (.reg 1)) s,
      newest .s (.limm G0 0x1FFFFF) s, newest .s (.limmh G0 2 0xABCD) s, newest .s (.sext G0 (.reg 1) 7) s,
      newest .s (.sel G0 (.reg 1) (.reg 2) 5) s] =
    [(64, 1), (7, 1), (2, 1), (0x80, 1), (0xFFFFFFFFFFFFFFFF, 1), (0x0000ABCD00000000, 1), (0xFFFFFFFFFFFFFF80, 1), (3, 1)] := by
  decide +kernel

/-- R121, R124, R125: `mov`, compares and predicate logic land at the end of their cycle. -/
theorem test_scalar_writes :
    let s := on (regs [0, 0xFFFFFFFFFFFFFFFF, 2])
    ((after (.mov G0 (.s 9) (.reg 2)) s).s[9], (after (.mov G0 (.walk 1) (.reg 2)) s).walk[1],
      [Instr.cmpeq G0 3 (.reg 1) (.reg 2), .cmpne G0 3 (.reg 1) (.reg 2), .cmplt G0 3 (.reg 1) (.reg 2), .cmple G0 3 (.reg 2) (.reg 2),
        .cmpltu G0 3 (.reg 1) (.reg 2), .cmpleu G0 3 (.reg 2) (.reg 1), .pand G0 3 ⟨0, false⟩ ⟨1, true⟩, .por G0 3 ⟨1, false⟩ ⟨2, false⟩,
        .pxor G0 3 ⟨0, false⟩ ⟨1, false⟩, .pandn G0 3 ⟨0, false⟩ ⟨0, false⟩].map fun i => (after i s).p.getLsbD 3) =
    (2, 2, [false, true, true, true, false, true, true, false, true, false]) := by decide +kernel

/-- R81: a guard that fails turns the ring and deposits nothing: `s.q0` is what was `s.q7`. -/
theorem test_guard_fails :
    let c := regs [7]
    let c := setRing c .s { (ringOf c .s) with latches := (ringOf c .s).latches.set 7 { val := 9, due := 0, wait := none } }
    newest .s (.pass { G0 with sense := true } (.reg 0)) (on c) = (9, 0) := by decide +kernel

/-- The tutorial's tile: 4 rows from row 0, 4 element rows of 1024 FP32 elements, 4096 bytes apart (R233). -/
def tile4 : TileReg := { a := 0x0000400004004000, b := 0x1000, st := .ready, mem := .free, kept := 0 }

/-- Its bytes 0 to 7 hold 0xF0E0D0C0B0A09080. -/
def bytes8 : Sparse 32768 := [(0, 0xF0E0D0C0B0A09080)]

/-- A core with every feature, all rows covered, `t4`, a page of 64 KiB at address 0 in `h1` that it may read and
write, a partner, and the given scalar registers. -/
def rich (l : List (BitVec 64)) : Core :=
  { (regs l) with
    caps := Vector.replicate 6 2048, feat := BitVec.allOnes 64, domain := 0x0000000000000401
    t := (Vector.replicate 64 TileReg.zero).set 4 tile4 |>.set 5 { tile4 with a := 0x0000400004004004 }
    h := (Vector.replicate 16 Handle.zero).set 1 (mkHandle 0 true true 0 0 0x10000)
    tile := bytes8 }

/-- R126, R82: `ldt` reads at the end of cycle c + 1: its latch is due at c + 6, its access on its way for cycle 1. -/
theorem test_ldt :
    let s := on (rich [0, 8])
    ((newest .s (.ldt G0 .sw 4 (.reg 0)) s).2, (after (.ldt G0 .sw 4 (.reg 0)) s).pend.map (·.when_)) = (6, [1]) ∧
      (latchOf (applyRead 0 (rich []) { when_ := 1, by_ := 0, act := .load .s 0 4 [some 4] 4 true }) .s 0).val.setWidth 64 =
        0xFFFFFFFFF0E0D0C0#64 := by decide +kernel

/-- R127: `stt.w` stores the low four bytes; R126: an odd offset and one past the rows are refused. -/
theorem test_stt :
    let s := on (rich [4, 0x1122334455667788, 2, 16384])
    ((after (.stt G0 false 4 (.reg 0) (.reg 1)) s).pend.map (·.act) = [.store 4 [(4, 0x88), (5, 0x77), (6, 0x66), (7, 0x55)]]) ∧
      trapOf (.stt G0 false 4 (.reg 2) (.reg 1)) s = some (1, 0x07, 0) ∧
      trapOf (.ldt G0 .d 4 (.reg 3)) s = some (1, 0x07, 0) := by decide +kernel

/-- R129 to R133: two more words, then the target; `brl` leaves L + 3. -/
theorem test_branches :
    let s := on { regs [0x123] with pc := 0x805 }
    ((after (.br G0 0xFFF) s).pc, (after (.br G0 0xFFF) s).delay, (after (.jr G0 (.reg 0)) s).delay,
      (after (.brbank G0 7) s).delay, newest .s (.brl G0 3) s) =
    (0x806, some { left := 2, target := 0x804 }, some { left := 2, target := 0x923 }, some { left := 2, target := 7 }, (0x808, 1)) := by
  decide +kernel

/-- R134: `ifence` waits for an outstanding `tldi`: the PC stays. -/
theorem test_ifence :
    let k : Copy := { id := 0, kind := .tldi false, cls := some 0, issued := 0, a := 0, b := 0, h := Handle.zero, off := 0, slot := none,
                      done := [], data := none, until_ := 0, raised := true, absent := false, bank := none }
    ((after (.ifence G0) (on (regs []))).pc, (after (.ifence G0) (on { regs [] with copies := [k] })).pc) = (1, 0) := by decide +kernel

/-- R135 to R138: the fields of a flight; a count of 0 is 2^32. -/
theorem test_flights :
    let s := on (regs [0, 5])
    ((flightAt (after (.fdef G0 2 1 3) s).stair 2).first, (flightAt (after (.fdef G0 2 1 3) s).stair 2).last,
      (flightAt (after (.fcnt G0 2 (.reg 0)) s).stair 2).count, (flightAt (after (.fstr G0 2 1 (.reg 1)) s).stair 2).stride[1],
      (after (.fpipe G0 4) s).stair.stages) = (1, 4, 0x100000000, 5, 4) := by decide +kernel

/-- One flight of words 1 to 3, three iterations. -/
def stair1 (running : BitVec 3) (idx : BitVec 33) : Stair :=
  { Stair.zero with running := running
                    flights := Stair.zero.flights.set 0 { first := 1, last := 3, count := 3, idx := idx, stride := Vector.replicate 4 0 } }

/-- R91, R139, R140: a stair starts; its last word goes back; `sbrk` ends it. -/
theorem test_stair :
    (after (.stair G0 1) (on { regs [] with stair := stair1 0 0 })).stair.running = 1 ∧
      (let c := after .nop (on { regs [] with stair := stair1 1 0, pc := 3 }); (c.pc, (flightAt c.stair 0).idx)) = (1, 1) ∧
      (let c := after (.sbrk G0) (on { regs [] with stair := stair1 1 2, pc := 2 }); (c.pc, c.stair.running)) = (3, 0) := by
  decide +kernel

/-- R141, R142: control registers. -/
theorem test_control :
    (after (.getc G0 9 0x12) (on (rich []))).s[9] = BitVec.allOnes 64 ∧ (after (.setc G0 0x17 (.small 9)) (on (rich []))).chklat = true ∧
      trapOf (.getc G0 9 0x19) (on (rich [])) = some (1, 0x03, 0) := by decide +kernel

/-- R143, R144: `brk` with its code; `svc 0` leaves the core to exit, another service is a trap of cause 0. -/
theorem test_brk_svc :
    trapOf (.brk G0 0x1234) (on (regs [])) = some (1, 0x0C, 0x1234) ∧ (after (.svc G0 0) (on (regs []))).run = .exiting ∧
      trapOf (.svc G0 5) (on (regs [])) = some (0, 0, 5) ∧ (after (.svc G0 5) (on (regs []))).pc = 1 := by decide +kernel

/-- R306, R307: a launch on a queue that does not exist has ticket code 1; `qstat` of it has state 5. -/
theorem test_launch :
    (newest .s (.lnch G0 1 (.reg 0)) (on (rich []))).1.extractLsb' 63 1 = 1 ∧
      newest .s (.qstat G0 (.reg 0)) (on (rich [])) = (0xA000000000000000, 8) ∧
      newest .s (.qstatO G0 (.reg 0) (.reg 0)) (on (rich [])) = (8, 8) := by decide +kernel

/-- R285, R289: `thaw` outside a held record is refused; `rfh` in a handler returns after two more words. -/
theorem test_handler :
    trapOf (.thaw G0 (.reg 0) false) (onHall (regs [])) = none ∧
      (after (.rfh G0) (onHall { regs [] with handler := true, ret := some (0x30, none) })).delay = some { left := 2, target := 0x30 } := by
  decide +kernel

/-! ### Vectors -/

/-- `vregs`, with lanes 0 and 1 in `mk1`. -/
def vregs2 (l : List (BitVec 32)) : Core := { vregs l with msk := (Vector.replicate 8 0).set 1 3 }

def one : BitVec 32 := 0x3F800000
def two : BitVec 32 := 0x40000000

/-- R153, R154: FP32 arithmetic on 1 and 2: 3, -1, 2, 4, 0, 1, 2, 1/2, sqrt 4, and signs. -/
theorem test_vector_float :
    let s := on (vregs2 [one, two, 0x40800000, 0xBF800000])
    [newestLane .va (.vaddF32 .va G0 (.reg 0) (.reg 1) 1 .rn) s, newestLane .va (.vsubF32 .va G0 (.reg 0) (.reg 1) 1 .rn) s,
      newestLane .va (.vmulF32 .va G0 (.reg 0) (.reg 1) 1 .rn) s, newestLane .va (.vfmaF32 .va G0 (.reg 0) (.reg 1) (.reg 1) 1 .rn) s,
      newestLane .va (.vfmsF32 .va G0 (.reg 0) (.reg 1) (.reg 1) 1 .rn) s, newestLane .va (.vminF32 .va G0 (.reg 0) (.reg 1) 1) s,
      newestLane .va (.vmaxF32 .va G0 (.reg 0) (.reg 1) 1) s, newestLane .va (.vdivF32 .va G0 (.reg 0) (.reg 1) 1 .rn) s,
      newestLane .va (.vsqrtF32 .va G0 (.reg 2) 1 .rn) s, newestLane .va (.vabsF32 .va G0 (.reg 3) 1) s,
      newestLane .va (.vnegF32 .va G0 (.reg 0) 1) s] =
    [(0x40400000, 2), (0xBF800000, 2), (two, 4), (0x40800000, 4), (0, 4), (one, 2), (two, 2), (0x3F000000, 8), (two, 8), (one, 2),
      (0xBF800000, 2)] := by decide +kernel

/-- R156, R159: integer and bitwise lanes; shifts take B[4:0]; `vsel` under a mask of zeros takes B. -/
theorem test_vector_integer :
    let s := on (vregs2 [0xFFFFFFFF, 3, 33])
    [newestLane .vb (.vaddI32 .vb G0 (.reg 0) (.reg 1) 1) s, newestLane .vb (.vsubI32 .vb G0 (.reg 1) (.reg 0) 1) s,
      newestLane .vb (.vmulI32 .vb G0 (.reg 0) (.reg 1) 1) s, newestLane .vb (.vminI32 .vb G0 (.reg 0) (.reg 1) 1) s,
      newestLane .vb (.vmaxI32 .vb G0 (.reg 0) (.reg 1) 1) s, newestLane .vb (.vand .vb G0 (.reg 0) (.reg 1) 1) s,
      newestLane .vb (.vor .vb G0 (.reg 0) (.reg 1) 1) s, newestLane .vb (.vxor .vb G0 (.reg 0) (.reg 1) 1) s,
      newestLane .vb (.vshl .vb G0 (.reg 1) (.reg 2) 1) s, newestLane .vb (.vshr .vb G0 (.reg 0) (.reg 2) 1) s,
      newestLane .vb (.vsar .vb G0 (.reg 0) (.reg 2) 1) s, newestLane .vb (.vsel .vb G0 (.reg 0) (.reg 1) 5) s,
      newestLane .vb (.vaddI32 .vb G0 (.reg 0) (.reg 1) 5) s] =
    [(2, 2), (4, 2), (0xFFFFFFFD, 4), (0xFFFFFFFF, 2), (3, 2), (3, 2), (0xFFFFFFFF, 2), (0xFFFFFFFC, 2), (6, 2), (0x7FFFFFFF, 2),
      (0xFFFFFFFF, 2), (3, 2), (0xFFFFFFFF, 2)] := by decide +kernel

/-- R157, R158, R160, R161: what the compares, mask logic, `vmu` and `vmov` send on its way. -/
theorem test_vector_masks :
    let s := on (vregs [one, two])
    let act (i : Instr) : List Act := (after i s).pend.map (·.act)
    act (.vcmpF32 .va G0 .lt 3 (.reg 0) (.reg 1)) = [.mk 3 (BitVec.allOnes 128)] ∧
      act (.vcmpI32 .va G0 .eq 3 (.reg 0) (.reg 1)) = [.mk 3 0] ∧ act (.mand .va G0 3 ⟨0, false⟩ ⟨1, true⟩) = [.mk 3 (BitVec.allOnes 128)] ∧
      act (.mor .va G0 3 ⟨1, false⟩ ⟨1, false⟩) = [.mk 3 0] ∧ act (.mxor .va G0 3 ⟨0, false⟩ ⟨0, false⟩) = [.mk 3 0] ∧
      act (.mandn .va G0 3 ⟨0, false⟩ ⟨1, false⟩) = [.mk 3 (BitVec.allOnes 128)] ∧
      act (.vmov .va G0 9 (.reg 1)) = [.v 9 (coreOf s 0).v[1]] ∧ (after (.vmu .va G0 3 0 0) s).p.getLsbD 3 = true ∧
      trapOf (.vmu .va G0 3 2 0) (on { vregs [] with msk := (Vector.replicate 8 0).set 2 1 }) = some (2, 0x04, 3) := by decide +kernel

/-- R163 to R165: 1.0 to INT8 is 1; a permute by 2; a slide by 1 leaves 0 past the end and rotates lane 0 in. -/
theorem test_vector_convert :
    let c : Core := { vregs2 [one, 2, 1] with v := (vregs [one, 2, 1]).v.set 3 7 }
    let s := on c
    newestLane .va (.vcvt .va G0 .fp32 .int8 true (.reg 0) 1 .rn) s = (1, 3) ∧
      newestLane .va (.vperm .va G0 (.reg 3) (.reg 1) 1) s = (0, 4) ∧
      lane (latchOf (after (.vslide .va G0 true (.reg 3) (.reg 2) 0) s) .va 0).val 127 = 7 ∧
      lane (latchOf (after (.vslide .va G0 false (.reg 3) (.reg 2) 0) s) .va 0).val 127 = 0 := by decide +kernel

/-- R166 to R169: due times, and the first and last lane's places. -/
theorem test_vector_access :
    let c := { rich [] with v := (vregs [0, 7]).v }
    let s := on c
    (newest .va (.vldt .va G0 4 (.reg 0)) s).2 = 6 ∧ (newest .vb (.vgath .vb G0 false 4 (.reg 0)) s).2 = 8 ∧
      (after (.vstt .va G0 false 4 (.reg 0) (.reg 1)) s).pend.map (fun e => match e.act with | .store _ l => (l.length, l.head?, l.getLast?) | _ => (0, none, none)) =
        [(512, some (0, 7), some (511, 0))] ∧
      (after (.vscat .va G0 true 4 (.reg 0) (.reg 1)) s).pend.map (·.act) = [.store 4 []] := by decide +kernel

/-- R171 to R175: two ones sum to 2; integer sums wrap; the scan's lane 1; 2^1, log2 2, 1/2, 1/sqrt(1), tanh 0. -/
theorem test_vector_reduce :
    let s := on (vregs2 [one, 0x80000000, two, 0])
    [newestLane .va (.vredAdd .va G0 false (.reg 0) 1) s, newestLane .va (.vredAdd .va G0 true (.reg 1) 1) s,
      newestLane .va (.vredMax .va G0 false (.reg 0) 1) s, newestLane .va (.vredMin .va G0 true (.reg 1) 1) s,
      newestLane .va (.vscanAdd .va G0 false (.reg 0) 1) s, newestLane .va (.vexp2 .va G0 (.reg 0) 1 .rn) s,
      newestLane .va (.vlog2 .va G0 (.reg 2) 1 .rn) s, newestLane .va (.vrcp .va G0 (.reg 2) 1 .rn) s,
      newestLane .va (.vrsqrt .va G0 (.reg 0) 1 .rn) s, newestLane .va (.vtanh .va G0 (.reg 3) 1 .rn) s] =
    [(two, 6), (0, 6), (one, 6), (0x80000000, 6), (two, 6), (two, 8), (one, 8), (0x3F000000, 8), (one, 8), (0, 8)] := by decide +kernel

/-! ### The matrix unit -/

/-- A core with the microcode feature, a routine of entry 2 that begins at 0x10 and declares `t5` as a result and `t4`
as a row operand. -/
def withEntry : Core :=
  let c := rich [7, 100]
  { c with mp := c.mp.set 0 (5 + 64 * 4), mx := { c.mx with entries := [(2, 0x8010000000000000 + 4 + 8 * 1)] } }

/-- It runs that routine. -/
def routine : Routine :=
  { cfg := 0, rowT := 0, colT := 0, mp := withEntry.mp, win := 0, upc := 0x10, loops := Vector.replicate 4 ⟨false, 0, 0, 0, 0⟩, ci := 0xFFFF
    alpha := 0x3F800000, beta := 0, gamma := 0, entry := 0x801000000000000C, start := 0, phase := 0, tries := 0
    mism := 0, feed := none, halted := false, abort := false, owe := 0, scales := none }

def withRoutine : Core := { withEntry with mx := { withEntry.mx with run := some routine } }

/-- R197, R211: the call deposits ROUTINE and SEQ and makes the result tile Writing; R66: another call waits. -/
theorem test_mcall :
    let c := after (.mcall G0 2) (on withEntry)
    newest .m (.mcall G0 2) (on withEntry) = (0x0000000200000001, 1) ∧ (c.t[5]).st = .writing ∧ (c.t[4]).st = .ready ∧
      c.mx.run.map (fun r => (r.upc, r.ci)) = some (0x10, 0xFFFF) ∧ (after (.mcall G0 2) (on withRoutine)).pc = 0 := by decide +kernel

/-- R198, R200, R201, R203: a parameter lands, the status is read, an abort marks the routine, `mwait` for another
call goes on and for this one waits. -/
theorem test_matrix_slot :
    (after (.mpset G0 3 (.reg 1)) (on withEntry)).mp[3] = 100 ∧ newest .m (.mstat G0) (on withEntry) = (0x800, 1) ∧
      ((after (.mabort G0) (on withRoutine)).mx.run.map (·.abort) ≠ some false) ∧
      (after (.mwait G0 (.reg 0)) (on withRoutine)).pc = 1 ∧ (after (.mwait G0 (.small 8)) (on withRoutine)).pc = 0 := by decide +kernel

/-- R204, R205: 9 micro-words take two reads, in cycles 1 and 2; a count of 0 is refused; `mlsf` of a clear plane. -/
theorem test_microcode_loads :
    let s := on (rich [0, 9])
    (after (.mlucode G0 4 (.reg 0) (.reg 1)) s).pend.map (·.when_) = [1, 2] ∧ trapOf (.mlucode G0 4 (.reg 0) (.reg 0)) s = some (8, 0x07, 0) ∧
      (after (.mlucodeEnt G0 4 (.reg 0) (.reg 1)) s).pend.length = 2 ∧ newest .m (.mlsf G0 true) s = (0, 2) ∧
      ((after (.mlsfT G0 true 4 (.reg 0)) s).t[4]).st = .writing := by decide +kernel

/-- R190 to R194: the K ops are on their way for the end of cycle 2; `klds` reads in cycle 1. -/
theorem test_k_ops :
    let s := on (rich [0x55])
    (after (.kst true 3 (.reg 0)) s).pend.map (fun e => (e.when_, e.act)) = [(2, .entry true 3 0x55 7)] ∧
      (after (.kcfg 5 .e4m3 .e5m2 true) s).pend.map (fun e => (e.when_, e.act)) = [(2, .cfg 0b101_011_010_1_00000000000000#24 7)] ∧
      (after (.klds true 4 (.small 8)) s).pend.map (·.when_) = [1] := by decide +kernel

/-- The core after the micro-operation is carried out to its end. -/
def ran (i : Instr) : Core := after i (on withRoutine)

/-- R188, R217: CLRA goes on at the next micro-word; a result tile of a wrong role fails STPL. -/
theorem test_micro_array :
    (ran .clra).mx.run.map (·.upc) = some 0x11 ∧ (ran (.stpl 0 ⟨1, true, 0, 0⟩)).mx.run = none := by decide +kernel

/-- R214, R216 to R219: a loop of count 0 is passed over; ENDL of an inactive level, BRF 7, SETW 7 and SETF 5 fail; DONE
and TRAPM end the routine; COEF and RPRC go on. -/
theorem test_micro_control :
    (ran (.loop 1 false 0 0x20 0)).mx.run.map (·.upc) = some 0x21 ∧ (ran (.loop 1 false 0 0x20 5)).mx.run.map (·.upc) = some 0x11 ∧
      [Instr.endl 1, .brf 7 0 9, .setw 7, .setf 0 5, .trapm 9, .done].map (fun i => (ran i).mx.run) = List.replicate 6 none ∧
      [Instr.setw 2, .setf 1 4, .coef true 1, .rprc 0 1].map (fun i => (ran i).mx.run.map (·.upc)) = List.replicate 4 (some 0x11) ∧
      mCause (ran (.trapm 9)) = 0x01 ∧ mHeld (ran .done) = false := by decide +kernel

/-! ### Copies -/

/-- R234, R239, R240: a load and a store of `t4` raise their counts by 128 lines; their registers are busy. -/
theorem test_tile_copies :
    let a := after (.tld .ca G0 4 1 3 (.reg 0)) (on (rich []))
    let b := after (.tst .cb G0 4 1 3 (.reg 0)) (on (rich []))
    (a.ldcnt[3], (a.t[4]).st, a.copies.length) = (128, .loading, 1) ∧ (b.stcnt[3], (b.t[4]).st) = (128, .storing) ∧
      trapOf (.tld .ca G0 4 0 3 (.reg 0)) (on (rich [])) = some (16, 0x05, 0) := by decide +kernel

/-- R241 to R247, R259, R319: the other copies join the queue. -/
theorem test_copies :
    let c := { rich [64, 0x1234] with patches := [(3, 0)] }
    [Instr.tamo .ca G0 .add true 1 2 (.reg 0) (.reg 1), .tlbk .ca G0 7 1 2 (.reg 2), .tldi .ca G0 true 1 2 (.reg 0), .tcpy .ca G0 4 5,
      .tfill .ca G0 4 (.reg 1) (.reg 2), .bkc .ca G0 4 1 2 (.reg 0), .ipatch .cb G0 (.small 11) (.reg 1)].map (fun i => (after i (on c)).copies.map (·.kind)) =
    [[.tamo .add true 0x1234 0], [.tlbk 7 1], [.tldi true], [.tcpy 4 5], [.tfill 4 0x1234 0], [.bkc 4], [.ipatch 3 0 0x1234]] := by
  decide +kernel

/-- R233, R349: descriptors and handles land; R237, R245: the waits. -/
theorem test_tile_handles :
    let c := { rich [0x0000400004004000, 0x1000, 1] with pn := 3 }
    ((after (.tdef .ca G0 6 (.reg 0) (.reg 1)) (on c)).t[6]).a = 0x0000400004004000 ∧ ((after (.hclr .ca G0 1) (on c)).h[1]) = Handle.zero ∧
      (after (.hclrPn .ca G0 (.reg 2)) (on c)).pn = 2 ∧ newest .ca (.hstat .ca G0 true 1) (on c) = (0x10000, 1) ∧
      (after (.waitc .ca G0 .ld (.small 15) (.small 8)) (on c)).pc = 1 ∧ (after (.waitf .ca G0 false true (.reg 2)) (on c)).pn = 2 ∧
      newest .ca (.waitf .ca G0 true false (.reg 2)) (on c) = (3, 1) ∧
      (after (.waitc .ca G0 .st (.small 15) (.small 8)) (on { c with stcnt := c.stcnt.set 1 5 })).pc = 0 := by decide +kernel

/-- R343, R349, R355: `xlat` of a page not yet walked freezes the core; of an address above 48 bits gives Invalid. -/
theorem test_pages :
    (after (.xlat .ca G0 2 (.reg 0)) (on (rich [0x20000]))).run = .walking 0x20000 ∧
      (after (.xlat .ca G0 2 (.reg 0)) (on (rich [0x1000000000000]))).pend.map (fun e => (e.when_, e.act)) = [(5, .hnd 2 Handle.zero)] ∧
      (after (.rdcinv .ca G0 1 (.reg 0) (.reg 1)) (on (rich []))).pc = 1 := by decide +kernel

/-- R288, R290: the window of a frozen core, from its hall; a compute core is refused. -/
theorem test_window :
    let rec_ : BitVec 64 := 0x0104000000000000
    let s := modCore (onHall (rich [5, 77])) 0 fun _ => { rich [1, 2, 3] with run := .trapped rec_ }
    newest .ca (.frd .ca G0 (.small 10)) s = (3, 4) ∧
      (match exec (.fwr .ca G0 (.reg 0) (.reg 1)) s with | .next t => (coreOf t 0).s[5] | _ => 0) = 77 ∧
      (after (.csave .ca G0 1 (.small 8) (.small 8)) s).copies.map (·.kind) = [] ∧
      trapOf (.frd .ca G0 (.reg 0)) (on (rich [5])) = some (16, 0x03, 0) := by decide +kernel

/-! ### Slot 6 -/

/-- R366 to R369: a message sent is in flight; the oldest of its tag is taken, added to, or waited for. -/
theorem test_messages :
    let m : XMsg := { src := 1, dst := 0, tag := 9, vec := false, val := 5 }
    let c := { rich [1, 10] with abuf := [m] }
    (match exec (.xsend G0 false 9 (.reg 0) (.reg 1)) (on c) with | .next t => t.flights.length | _ => 0) = 1 ∧
      newest .x (.xrecv G0 9 (.reg 0)) (on c) = (5, 1) ∧ (after (.xrecv G0 9 (.reg 0)) (on c)).abuf = [] ∧
      newest .x (.xradd G0 true 9 (.reg 0) (.reg 1)) (on c) = (15, 2) ∧ newest .x (.xrmax G0 true 9 (.reg 0) (.reg 1)) (on c) = (10, 2) ∧
      (after (.xrecv G0 8 (.reg 0)) (on c)).pc = 0 ∧ newest .x (.xstat G0) (on c) = (1, 1) ∧
      (after (.xput G0 4 (.reg 0) (.small 12)) (on c)).copies.map (·.kind) = [.xput 4 0 4 0] ∧
      trapOf (.xrecv G0 9 (.small 15)) (on c) = some (64, 0x07, 0) := by decide +kernel

/-- R332, R336 to R338, R371: an arrival, `align` on a tick that has come and one that has not, the shadow, a trigger, a run. -/
theorem test_landing_slots :
    let s := on (rich [0, 5])
    ((after (.land G0 0) s).arrival.map fun a => (a.scope, a.num)) = some (0, 1) ∧ newest .x (.align G0 (.reg 0)) s = (0, 1) ∧
      (after (.align G0 (.reg 1)) s).pc = 0 ∧ (after (.seg G0) s).seg.isSome = true ∧ (after (.xtrig G0 2 (.reg 1)) s).trig[2] = .armed 5 ∧
      (match exec (.xbegin G0 1 (.reg 0) (.reg 1)) s with | .next t => t.runs.length | _ => 0) = 1 := by decide +kernel

/-! ### Horser (16_kernel.md R316, R317) -/

/-- R317's slot `add s3, s1, 5` means the native `add s1, 5`. -/
theorem test_horser_add : horserNative 0x008303B4 0 = 0x04007680 := by decide

/-- `limm s1, -8192` carries its sign to the native immediate: opcode 0x18, imm 0x1FE000. -/
theorem test_horser_limm : horserNative 0x0C018000 0 = 0x601FE000 := by decide

/-- A bundle that exchanges `s1` and `s2` through moves: both passes come before both moves. -/
theorem test_horser_swap :
    (bundleWords false (bundlePieces 0x0D8202000D810400)).map (fun x => x.1.map fun w => (w.extractLsb' 26 6).toNat)
      = some [0x1A, 0x1A, 0x1B, 0x1B] := by decide +kernel

/-- Two branches in one bundle, a class of 6 and `limmh` are refused. -/
theorem test_horser_refused :
    (horserRefused [0x16000004_16000000#128] = true ∧ horserRefused [0xC0000000#128] = true ∧
      horserRefused [0x0C800000#128] = true ∧ horserRefused [0x008303B4#128] = false) := by decide +kernel

/-! ### States and operands that meet the hypotheses of the statements

One theorem for each statement of Obligations.lean that has hypotheses; its parts follow the statement's clauses, each at a
boundary of its range. -/

/-- The hypotheses that nearly every slot's statement has: the agent issues, and its ring reads hold nothing up. -/
def Slot (s : State) (l : List Src) : Prop := Issues s ∧ readsPass (mine s) l

/-- Nothing keeps the core from issuing. -/
def clear (c : Core) : Bool := (nextCause c.causes).isNone && c.arrival.isNone && c.request.isNone && !c.chklat && c.profile != 1

theorem slot_of (s : State) (l : List Src) (h : ((mine s).run == .running && clear (mine s)) = true) : Slot s l := by
  simp only [clear, Bool.and_eq_true, beq_iff_eq, Option.isNone_iff_eq_none, Bool.not_eq_true', bne_iff_ne, ne_eq] at h
  obtain ⟨h0, ⟨⟨⟨h1, h2⟩, h5⟩, h3⟩, h4⟩ := h
  exact ⟨⟨h0, h1, h2, h5⟩, .inl ⟨h4, h3⟩⟩

/-- Two registers as sources. -/
def rr : List Src := [.reg 0, .reg 1]

theorem witness_ScalarArithmetic : Slot (on (regs [])) rr := slot_of _ _ (by decide +kernel)

theorem witness_ScalarCountsMovesWrites : Slot (on (regs [])) rr ∧ Slot (on (regs [])) [.latch .s 0] := ⟨slot_of _ _ (by decide +kernel), slot_of _ _ (by decide +kernel)⟩

theorem witness_ScalarCountsMovesWrites_writes : Slot (on (regs [])) rr ∧
    pipelined { Core.zero with stair := { stair1 1 0 with stages := 2 } } = true := ⟨slot_of _ _ (by decide +kernel), by decide +kernel⟩

/-- The access of 8 bytes at `x` of `t4` is in place. -/
def accessOk (s : State) (x : Nat) : Bool :=
  let d := ((mine s).t[(4 : Fin 64)]).a
  !tileBusy (mine s) 4 && !routineHolds (mine s) 4 && !capFails s (me s) d && x < tRows d * 4096 && x % 8 == 0

/-- A `tldi` in the queue. -/
def tldi0 : Copy :=
  { id := 0, kind := .tldi false, cls := some 0, issued := 0, a := 0, b := 0, h := mkHandle 0 true true 0 0 0x10000, off := 0, slot := none,
    done := [], data := none, until_ := 0, raised := true, absent := false, bank := none }

/-- Core 0 with a fill of rows 0 to 3 by way of `t5` in progress. -/
def filling : Core :=
  let c := rich []
  { c with t := c.t.set 5 { c.t[(5 : Fin 64)] with st := .loading }
           copies := [{ tldi0 with kind := .tfill 5 1 0, a := tile4.a, b := tile4.b, until_ := 9 }] }

/-- Offsets 0 and 16376 are the first and the last of an 8-byte access; 16384 and 1 are refused; three covered rows; a byte that
another access writes, and one that none does. -/
theorem witness_ScalarMemory :
    (Slot (on (rich [0])) rr ∧ accessOk (on (rich [0])) 0 = true) ∧ (Slot (on (rich [16376])) rr ∧ accessOk (on (rich [16376])) 16376 = true) ∧
    (((List.range 8).all fun i => !tileUndef (rich []) i && !beingWritten (rich []) 4 i) = true ∧ (rich []).tPoison = []) ∧
    (coverOf (openOf (rich [])) (fun _ => true) 16383 1 = 0 ∧ beingWritten filling 4 0 = true) ∧
    (Slot (on (rich [1])) rr ∧ capFails (on (rich [1])) 0 tile4.a = false ∧ 1 % 8 ≠ 0) ∧
    (Slot (on (rich [16384])) rr ∧ capFails (on (rich [16384])) 0 tile4.a = false ∧ tRows tile4.a * 4096 ≤ 16384) ∧
    (let s := on { rich [] with caps := Vector.replicate 6 3 }
     Slot s rr ∧ tileBusy (mine s) 4 = false ∧ capFails s (me s) tile4.a = true) :=
  ⟨⟨slot_of _ _ (by decide +kernel), by decide +kernel⟩, ⟨slot_of _ _ (by decide +kernel), by decide +kernel⟩, by decide +kernel, by decide +kernel,
    ⟨slot_of _ _ (by decide +kernel), by decide +kernel⟩, ⟨slot_of _ _ (by decide +kernel), by decide +kernel⟩,
    slot_of _ _ (by decide +kernel), by decide +kernel⟩

theorem witness_SequencerWords :
    Slot (on (regs [])) [] ∧
    Slot (on { regs [] with delay := some { left := 2, target := 5 } }) [] ∧
    (Slot (on { regs [] with delay := some { left := 1, target := 5 } }) [] ∧ (regs []).returning = false) ∧
    Slot (on { regs [] with delay := some { left := 1, target := 5 }, returning := true, ret := some (7, none) }) [] ∧
    (regs []).copies = [] ∧ Slot (on { regs [] with copies := [tldi0] }) [] ∧ holds (mine (on { regs [] with copies := [tldi0] })) G0 = true :=
  ⟨slot_of _ _ (by decide +kernel), slot_of _ _ (by decide +kernel), ⟨slot_of _ _ (by decide +kernel), by decide +kernel⟩, slot_of _ _ (by decide +kernel), by decide +kernel, slot_of _ _ (by decide +kernel), by decide +kernel⟩

theorem witness_Branches : (Slot (on (regs [])) rr ∧ (mine (on (regs []))).delay = none ∧ (mine (on (regs []))).copies = []) ∧
    Slot (on { regs [] with delay := some { left := 2, target := 5 } }) [] :=
  ⟨⟨slot_of _ _ (by decide +kernel), by decide +kernel, by decide +kernel⟩, slot_of _ _ (by decide +kernel)⟩

theorem witness_FlightWrites :
    (Slot (on (regs [])) rr ∧ me (on (regs [])) < 256 ∧ (mine (on (regs []))).stair.running = 0) ∧
    (Slot (on { regs [] with stair := stair1 1 0 }) rr ∧ (mine (on { regs [] with stair := stair1 1 0 })).stair.running ≠ 0) :=
  ⟨⟨slot_of _ _ (by decide +kernel), by decide +kernel⟩, slot_of _ _ (by decide +kernel), by decide +kernel⟩

/-- The PC is at the last word of flight 0, which has iterations left. -/
def loopsHere (s : State) : Bool :=
  let c := mine s
  let f := flightAt c.stair 0
  0 < c.stair.running.toNat && c.stair.running.toNat ≤ 6 && f.last == c.pc && f.idx.toNat + 1 < iters c.stair 0 && c.delay.isNone

/-- Iterations 0 and 1 of three. -/
theorem witness_Stairs :
    (let s := on { regs [] with stair := stair1 0 0 }
     Slot s [] ∧ (mine s).delay = none ∧ stairFits (mine s) 1 = true ∧ stairFits (mine s) 2 = false) ∧
    (let s := on { regs [] with stair := stair1 1 0, pc := 3 }
     Slot s [] ∧ loopsHere s = true) ∧
    (let s := on { regs [] with stair := stair1 1 1, pc := 3 }
     Slot s [] ∧ loopsHere s = true) ∧
    (let s := on { regs [] with stair := stair1 1 2, pc := 2 }
     Slot s [] ∧ holds (mine s) G0 = true ∧ (mine s).stair.running ≠ 0) :=
  ⟨⟨slot_of _ _ (by decide +kernel), by decide +kernel⟩, ⟨slot_of _ _ (by decide +kernel), by decide +kernel⟩,
    ⟨slot_of _ _ (by decide +kernel), by decide +kernel⟩, slot_of _ _ (by decide +kernel), by decide +kernel⟩

theorem witness_ControlRegisters :
    (Slot (on (regs [1])) rr ∧ me (on (regs [1])) < 256 ∧ (mine (on (regs [1]))).feat.getLsbD 2 = false) ∧
    (Slot (on (rich [1])) rr ∧ (mine (on (rich [1]))).feat.getLsbD 2 = true) ∧ Slot (onHall (regs [])) rr ∧ 256 ≤ me (onHall (regs [])) :=
  ⟨⟨slot_of _ _ (by decide +kernel), by decide +kernel⟩, ⟨slot_of _ _ (by decide +kernel), by decide +kernel⟩, slot_of _ _ (by decide +kernel), by decide +kernel⟩

/-- A guard that fails. -/
def never : Guard := { G0 with sense := true }

theorem witness_BreakAndService :
    Slot (on (regs [])) [] ∧ holds (mine (on (regs []))) G0 = true ∧ holds (mine (on (regs []))) never = false ∧ me (on (regs [])) < 256 ∧
      Slot (onHall (regs [])) [] ∧ 256 ≤ me (onHall (regs [])) ∧
      (let u := onHall { regs [] with request := some 5 }
       (mine u).run = .running ∧ (mine u).request ≠ none ∧ (mine u).arrival = none ∧ nextCause (mine u).causes = none) :=
  ⟨slot_of _ _ (by decide +kernel), by decide +kernel, by decide +kernel, by decide +kernel, slot_of _ _ (by decide +kernel), by decide +kernel⟩

/-- A launch, and queue 3 of context 0 with `l` waiting. -/
def launch0 (seq : BitVec 32) : Launch :=
  { seq := seq, desc := 0, tag := 0, src := 0xFFFF, pod := none, accepted := 0, issuer := none, kernel := none }

def queueOf (st : QueueSt) (l : List Launch) : Queue :=
  { ctx := 0, num := 3, base := 2, st := st, pending := l, nextSeq := 9, outcomes := [(5, 1)], ends := [] }

def withQueue (s : State) (st : QueueSt) (l : List Launch) : State := setQueue s 7 (queueOf st l)

/-- A descriptor for queue 3. -/
def desc3 : BitVec 512 := BitVec.ofNat 512 (3 * 2 ^ 128)

/-- A handle on the page of `h1` without read permission, and one revoked. -/
def noRead : Handle := mkHandle 0 false true 0 0 0x10000
def revoked : Handle := { w0 := 0x4000000000000000, w1 := 0 }

def withHandle (c : Core) (h : Handle) : Core := { c with h := c.h.set 1 h }

/-- Offset 65472 is the last of a descriptor in a page of 64 KiB; 65536 - 63 is misaligned, 65536 beyond; queue 3 active, torn
and full; a queue that is none. -/
theorem witness_Launches :
    (Slot (on (rich [65472])) rr ∧ hPresent ((mine (on (rich [65472]))).h[(1 : Fin 16)]) = true ∧ hSize ((rich []).h[(1 : Fin 16)]) = 65472 + 64 ∧
      hRead ((rich []).h[(1 : Fin 16)]) = true ∧ (rich []).stcnt[(3 : Fin 16)] = 0) ∧
    hValid ((rich []).h[(0 : Fin 16)]) = false ∧ hRevoked revoked = true ∧ hValid revoked = false ∧ hPresent noRead = true ∧ hRead noRead = false ∧
    (acceptCode State.reset 0 desc3 true ≠ 0 ∧
      queueIndex (withQueue State.reset .active [launch0 8]) 0 (descQueue desc3) = some 7 ∧
      queueAt (withQueue State.reset .active [launch0 8]) 7 = some (queueOf .active [launch0 8])) ∧
    queueAt (withQueue State.reset .torn []) 7 = some (queueOf .torn []) ∧
    (queueOf .active ((List.range 64).map fun i => launch0 (BitVec.ofNat 32 i))).pending.length = 64 ∧
    (Slot (on (regs [3, 8])) rr ∧ queueIndex (on (regs [3, 8])) 0 3 = none) ∧
    queueIndex (withQueue (on (regs [3, 8])) .active [launch0 8]) 0 3 = some 7 ∧
      (queueOf .active [launch0 8]).nextSeq ≤ 9 ∧ (8 : BitVec 32) < (queueOf .active [launch0 8]).nextSeq ∧ (8 : BitVec 32) ≠ 0 ∧
    isLive (withQueue (on (regs [])) .active [launch0 8]) 7 8 = true ∧ isLive (withQueue (on (regs [])) .active [launch0 8]) 7 5 = false ∧
    outcomeAt (queueOf .active []) 5 = some 1 ∧ outcomeAt (queueOf .active []) 4 = none :=
  ⟨⟨slot_of _ _ (by decide +kernel), by decide +kernel⟩, by decide +kernel, by decide +kernel, by decide +kernel, by decide +kernel,
    by decide +kernel, by decide +kernel, by decide +kernel, by decide +kernel, ⟨slot_of _ _ (by decide +kernel), by decide +kernel⟩,
    by decide +kernel⟩

/-- Core 0 frozen with a record that the handler of service core 0 holds. -/
def heldRec : BitVec 64 := 0x0104000000000000

def frozen (c : Core) (hall : Core) : State := modCore (onHall hall) 0 fun _ => { c with run := .trapped heldRec }

theorem witness_HandlerEnds :
    (let s := frozen (regs []) (regs [])
     Slot s rr ∧ 256 ≤ me s ∧ me s < 288 ∧ heldRecord s 0 = true ∧ (coreOf s 0).arrival = none ∧ (coreOf s 0).skip = false) ∧
    (let s := frozen { regs [] with arrival := some { scope := 1, num := 1, tick := 0, latch := some 0 } } (regs [])
     Slot s rr ∧ heldRecord s 0 = true ∧ (coreOf s 0).arrival.isSome = true) ∧
    (let s := onHall (regs [])
     Slot s rr ∧ heldRecord s 0 = false ∧ (mine s).handler = false) ∧
    (let s := onHall { regs [] with handler := true, ret := some (0x30, none) }
     Slot s rr ∧ (mine s).delay = none ∧ (mine s).handler = true) :=
  ⟨⟨slot_of _ _ (by decide +kernel), by decide +kernel⟩, ⟨slot_of _ _ (by decide +kernel), by decide +kernel⟩,
    ⟨slot_of _ _ (by decide +kernel), by decide +kernel⟩, slot_of _ _ (by decide +kernel), by decide +kernel⟩

/-- Exact, below, at and above the middle of two multiples. -/
theorem witness_Rounding : (0 : Int) < 2 ∧ 8 % 2 ^ ((2 : Int) - 0).toNat = 0 ∧ 2 * (5 % 4) < 4 ∧ 2 * (6 % 4) = 4 ∧ 4 < 2 * (7 % 4) := by
  decide

theorem witness_OperandReads : (0 : Nat) < 128 ∧ (127 : Nat) < 128 ∧ (latchOf Core.zero .va 3).wait = none ∧ (latchOf Core.zero .va 3).due ≤ Core.zero.cyc := by
  decide +kernel

/-- The hypotheses of every statement of slots 1 and 2 on three sources. -/
theorem witness_VectorFloat : Slot (on (vregs [])) [.reg 0, .reg 1, .reg 2] ∧ me (on (vregs [])) < 256 :=
  ⟨slot_of _ _ (by decide +kernel), by decide +kernel⟩

theorem witness_VectorInteger : Slot (on (vregs [])) rr ∧ me (on (vregs [])) < 256 := ⟨slot_of _ _ (by decide +kernel), by decide +kernel⟩

/-- Mask 1 all zeros, mask 2 of one lane: uniform false and mixed under the care mask `mk0`, uniform true. -/
theorem witness_VectorMasks :
    let s := on { vregs [] with msk := (Vector.replicate 8 0).set 2 1 }
    Slot s rr ∧ me s < 256 ∧ maskVal (mine s) 0 &&& maskVal (mine s) 0 = maskVal (mine s) 0 ∧ maskVal (mine s) 1 &&& maskVal (mine s) 0 = 0 ∧
      0 ≠ maskVal (mine s) 0 ∧ maskVal (mine s) 2 &&& maskVal (mine s) 0 ≠ 0 ∧ maskVal (mine s) 2 &&& maskVal (mine s) 0 ≠ maskVal (mine s) 0 ∧
      holds (mine s) G0 = true :=
  ⟨slot_of _ _ (by decide +kernel), by decide +kernel⟩

/-- With and without the INT4 feature; slides by -128, 0 and 127 and past both ends. -/
theorem witness_VectorConvertPermute :
    (Slot (on (rich [])) rr ∧ (mine (on (rich []))).feat.getLsbD 7 = true) ∧
    (Slot (on (vregs [])) rr ∧ (mine (on (vregs []))).feat.getLsbD 7 = false ∧ (maskVal (mine (on (vregs []))) 0).getLsbD 5 = true ∧
      (maskVal (mine (on (vregs []))) 3).getLsbD 5 = false) :=
  ⟨⟨slot_of _ _ (by decide +kernel), by decide +kernel⟩, slot_of _ _ (by decide +kernel), by decide +kernel⟩

/-- Offset 15872 is the last row of lanes, 16384 and 4 are refused; lanes 0, 4, ... of a gather, and one at 16384. -/
theorem witness_VectorTileAccess :
    (let s := on { rich [] with v := ((vregs []).v.set 0 15872).set 1 16384 }
     Slot s [.reg 0, .reg 1] ∧ me s < 256 ∧ tileBusy (mine s) 4 = false ∧ capFails s (me s) tile4.a = false ∧ routineHolds (mine s) 4 = false ∧
      (vScalar .va s (me s) 0 (.reg 0)).toNat = 15872 ∧ 15872 < tRows tile4.a * 4096 ∧ 15872 % 512 = 0 ∧
      (vScalar .va s (me s) 0 (.reg 1)).toNat = 16384 ∧ tRows tile4.a * 4096 ≤ 16384 ∧ 4 % 512 ≠ 0 ∧
      (lane (vVal .va false s (me s) 0 (.reg 0)) 127).toNat % 4 = 0 ∧ tRows tile4.a * 4096 ≤ (lane (vVal .va false s (me s) 0 (.reg 1)) 0).toNat) :=
  ⟨slot_of _ _ (by decide +kernel), by decide +kernel⟩

theorem witness_VectorReduceTranscend : Slot (on (vregs [])) [.reg 0] ∧ me (on (vregs [])) < 256 :=
  ⟨slot_of _ _ (by decide +kernel), by decide +kernel⟩

/-- Tables with a valid entry, with none, and with entry 0 of 255. -/
theorem witness_QuantiseDequantise :
    (Slot (on (vregs [])) [.reg 0] ∧ me (on (vregs [])) < 256 ∧ tabValid ((vregs []).mx.rowT) = true ∧ tabEntry ((vregs []).mx.rowT) 0 ≠ 255) ∧
    (let s := on { vregs [] with mx := { (vregs []).mx with rowT := BitVec.allOnes 128 } }
     Slot s [.reg 0] ∧ tabValid (mine s).mx.rowT = false ∧ holds (mine s) G0 = true ∧ tabEntry (mine s).mx.rowT 0 = 255) :=
  ⟨⟨slot_of _ _ (by decide +kernel), by decide +kernel⟩, slot_of _ _ (by decide +kernel), by decide +kernel⟩

/-- A routine runs; none runs, its declared operands covered and with whole blocks; a window code of 7. -/
theorem witness_MatrixCall :
    (Slot (on withRoutine) [] ∧ (mine (on withRoutine)).mx.run.isSome = true ∧ holds (mine (on withRoutine)) G0 = true) ∧
    (let s := on withEntry
     let c := mine s
     let e := calledEntry c 2
     Slot s [] ∧ me s < 256 ∧ c.mx.run = none ∧ ucodeBusy c = false ∧
      (∀ d ∈ declared e c.mp[0], tileBusy c (BitVec.ofNat 6 d.2.1).toFin = false) ∧ (declared e c.mp[0]).length = 2 ∧
      (∀ d ∈ declared e c.mp[0], let a := (c.t.toList.getD d.2.1 TileReg.zero).a
        (tRows a = 0 ∨ tBase a + tRows a ≤ capRows s (me s)) ∧ (d.2.2 = 1 ∨ d.2.2 = 2 → tRows a = 0 ∨ tFactors a = false ∨ tElems a % 32 = 0)) ∧
      mHeld c = false ∧ fld c.mx.cfg 23 21 ≠ 7) ∧
    (let s := on { withEntry with mx := { withEntry.mx with cfg := 0xE00000 } }
     Slot s [] ∧ mHeld (mine s) = false ∧ fld (mine s).mx.cfg 23 21 = 7) :=
  ⟨⟨slot_of _ _ (by decide +kernel), by decide +kernel⟩, ⟨slot_of _ _ (by decide +kernel), by decide +kernel⟩,
    slot_of _ _ (by decide +kernel), by decide +kernel⟩

/-- A held cause 0x07 of call 0. -/
def heldCause : Core := setStatus (setStatus (rich []) 28 28 1) 7 0 7

theorem witness_MatrixSlot :
    (Slot (on withRoutine) [.small 8] ∧ (mine (on withRoutine)).mx.run = some routine ∧ (sVal (on withRoutine) 0 3 0 (.small 8)).toNat % 2 ^ 32 = mSeq (mine (on withRoutine))) ∧
    (Slot (on (rich [7])) [.reg 0] ∧ (mine (on (rich [7]))).mx.run = none ∧ (sVal (on (rich [7])) 0 3 0 (.reg 0)).toNat % 2 ^ 32 ≠ mSeq (mine (on (rich [7])))) ∧
    (Slot (on heldCause) [.small 8] ∧ mHeld (mine (on heldCause)) = true ∧ mSeq (mine (on heldCause)) = 0) :=
  ⟨⟨slot_of _ _ (by decide +kernel), by decide +kernel⟩, ⟨slot_of _ _ (by decide +kernel), by decide +kernel⟩,
    slot_of _ _ (by decide +kernel), by decide +kernel⟩

/-- 4096 and 64 words at most: a load of 8 that ends at the store's end, one word past it, and none; a flag plane that fits
at byte 14336, and one that does not. -/
theorem witness_MicrocodeStores :
    (let s := on (rich [4088, 8])
     Slot s rr ∧ me s < 256 ∧ (mine s).mx.run = none ∧ ucodeBusy (mine s) = false ∧ tileBusy (mine s) 4 = false ∧ (mine s).feat.getLsbD 4 = true ∧
      capFails s (me s) tile4.a = false ∧ 4088 + 8 ≤ 4096 ∧ 8 * 8 ≤ tRows tile4.a * 4096 ∧ 56 + 8 ≤ 64) ∧
    (Slot (on (rich [4089, 8])) rr ∧ 4096 < 4089 + 8) ∧ (Slot (on (regs [])) rr ∧ (mine (on (regs []))).feat.getLsbD 4 = false) ∧
    (Slot (on (rich [14336])) rr ∧ 14336 + 2048 ≤ tRows tile4.a * 4096 ∧ 14336 % 512 = 0) ∧ (Slot (on (rich [14848])) rr ∧ tRows tile4.a * 4096 < 14848 + 2048) :=
  ⟨⟨slot_of _ _ (by decide +kernel), by decide +kernel⟩, ⟨slot_of _ _ (by decide +kernel), by decide +kernel⟩,
    ⟨slot_of _ _ (by decide +kernel), by decide +kernel⟩, ⟨slot_of _ _ (by decide +kernel), by decide +kernel⟩,
    slot_of _ _ (by decide +kernel), by decide +kernel⟩

/-- `klds` at the last 16 bytes, and past them. -/
theorem witness_ScaleAndMatrixWrites :
    (Slot (on (rich [16368])) rr ∧ me (on (rich [16368])) < 256 ∧ tileBusy (mine (on (rich []))) 4 = false ∧ capFails (on (rich [])) 0 tile4.a = false ∧
      16368 < tRows tile4.a * 4096 ∧ 16368 % 16 = 0) ∧ (Slot (on (rich [16384])) rr ∧ tRows tile4.a * 4096 ≤ 16384) :=
  ⟨⟨slot_of _ _ (by decide +kernel), by decide +kernel⟩, slot_of _ _ (by decide +kernel), by decide +kernel⟩

theorem witness_ArrayCells : (0 : Nat) < 128 ∧ (127 : Nat) < 128 := by decide

/-- The routine of `withRoutine` at the start of a micro-word; field 0 is a result, field 1 a row operand, field 2 none. -/
theorem witness_MicroArray :
    (mine (on withRoutine)).mx.run = some routine ∧ routine.phase = 0 ∧ routine.abort = false ∧ routine.halted = false ∧ routine.mism = 0 ∧ routine.tries = 0 ∧
      routine.owe = 0 ∧ routine.feed = none ∧ routine.scales = none ∧ routine.upc.toNat < 0xFFF ∧
      roleOf routine 0 = 4 ∧ roleOf routine 1 = 1 ∧ roleOf routine 2 ≠ 4 ∧
      (let o := operandOf (mine (on withRoutine)) routine ⟨0, true, 0, 0⟩
       isPlaneFmt o.format = true ∧ o.isScaled = false ∧ o.rows ≤ 128 ∧ o.elems ≤ 128 ∧ o.format = planeFmt (mine (on withRoutine)).mx 0 ∧ o.format ≠ .int4) ∧
      sideFits routine 1 (.plane 0) = true ∧ sideFits routine 2 (.plane 1) = true ∧
      passSetupFails (mine (on withRoutine)) routine (.plane 0) (.plane 1) = false ∧
      passBadScale 0 (mine (on withRoutine)) routine (.plane 0) (.plane 1) = false ∧
      0 < passK (sideOf (mine (on withRoutine)) routine (.plane 0)) (sideOf (mine (on withRoutine)) routine (.plane 1)) / stepG (rowFmt routine) (colFmt routine) ∧
      (let r2 : Routine := { routine with phase := 3, mism := 1, entry := 0xB01000000000000C }
       fld r2.entry 62 60 = 3 ∧ r2.tries < 3 ∧ r2.owe = 0 ∧ fld { routine with phase := 3, mism := 1 }.entry 62 60 = 0) := by
  decide +kernel

/-- An active loop level; the last coefficient of 16 KiB, and one past it; the last 32 bytes. -/
theorem witness_MicroControl :
    let r1 : Routine := { routine with loops := routine.loops.set 1 ⟨true, 3, 1, 0x11, 0x20⟩ }
    routine.upc.toNat < 0xFFF ∧ (0x20 : BitVec 12).toNat < 0xFFF ∧ r1.loops[(1 : Fin 4)].active = true ∧ routine.loops[(1 : Fin 4)].active = false ∧
      1 ≤ roleOf routine 1 ∧ roleOf routine 1 ≤ 4 ∧
      16 * 1023 + 16 ≤ tRows (fieldOperand (mine (on withRoutine)) routine 1).a * 4096 ∧ tRows (fieldOperand (mine (on withRoutine)) routine 1).a * 4096 < 16 * 1024 + 16 ∧
      roleOf routine 0 = 4 ∧ 32 * 511 + 32 ≤ tRows (fieldOperand (mine (on withRoutine)) routine 0).a * 4096 ∧
      tRows (fieldOperand (mine (on withRoutine)) routine 0).a * 4096 < 32 * 512 + 32 := by decide +kernel

/-- A descriptor in place, one with no rows and one past the rows covered, one of INT4; the first where the feature is missing. -/
theorem witness_TileAndHandleWrites :
    (let s := on (rich [0x0000400004004000, 0x1000])
     Slot s rr ∧ tileBusy (mine s) 6 = false ∧ routineHolds (mine s) 6 = false ∧ tdefBad 0 0x0000400004004000 0x1000 = false ∧
      tFmt 0x0000400004004000 ≠ .int4 ∧ capFails s (me s) 0x0000400004004000 = false) ∧
    (Slot (on (rich [1, 0])) rr ∧ tdefBad 0 1 0 = true) ∧
    (let a : BitVec 64 := 0x0000400004004000 + BitVec.ofNat 64 ((encodeFmt .int4).toNat * 2 ^ 50)
     Slot (on (regs [a, 0x1000])) rr ∧ tdefBad 0 a 0x1000 = false ∧ tFmt a = .int4 ∧ (mine (on (regs []))).feat.getLsbD 7 = false) ∧
    (let s := on { rich [0x0000400004004000, 0x1000] with caps := Vector.replicate 6 3 }
     Slot s rr ∧ capFails s (me s) 0x0000400004004000 = true) ∧
    (let s := on { rich [] with t := (rich []).t.set 6 { tile4 with st := .loading } }
     Slot s rr ∧ tileBusy (mine s) 6 = true ∧ holds (mine s) G0 = true) :=
  ⟨⟨slot_of _ _ (by decide +kernel), by decide +kernel⟩, ⟨slot_of _ _ (by decide +kernel), by decide +kernel⟩,
    ⟨slot_of _ _ (by decide +kernel), by decide +kernel⟩, ⟨slot_of _ _ (by decide +kernel), by decide +kernel⟩,
    slot_of _ _ (by decide +kernel), by decide +kernel⟩

/-- Class 0 at its bound and one above it; pennants met and not met. -/
theorem witness_Waits :
    (let s := on { rich [1, 5] with ldcnt := (Vector.replicate 16 0).set 0 5, pn := 1 }
     Slot s rr ∧ (cVal .ca s (me s) 0 (.reg 0)).getLsbD 0 = true ∧ ¬ (cVal .ca s (me s) 1 (.reg 1)).toNat < ((mine s).ldcnt[(0 : Fin 16)]).toNat ∧
      (mine s).pn &&& cVal .ca s (me s) 0 (.reg 0) = cVal .ca s (me s) 0 (.reg 0)) ∧
    (let s := on { rich [1, 5] with ldcnt := (Vector.replicate 16 0).set 0 6, pn := 2 }
     Slot s rr ∧ (cVal .ca s (me s) 1 (.reg 1)).toNat < ((mine s).ldcnt[(0 : Fin 16)]).toNat ∧ holds (mine s) G0 = true ∧
      cVal .ca s (me s) 0 (.reg 0) ≠ 0 ∧ (mine s).pn &&& cVal .ca s (me s) 0 (.reg 0) = 0) :=
  ⟨⟨slot_of _ _ (by decide +kernel), by decide +kernel⟩, slot_of _ _ (by decide +kernel), by decide +kernel⟩

/-- The tutorial's tile at offset 49152 ends where its page ends; 49156 is past it, 1 misaligned; a page not readable; a tile
without stride. -/
theorem witness_TileCopies :
    (let s := on (rich [49152])
     Slot s [.reg 0] ∧ tileBusy (mine s) 4 = false ∧ routineHolds (mine s) 4 = false ∧ (mine s).copies.length < 32 ∧ capFails s (me s) tile4.a = false ∧
      tRows tile4.a ≠ 0 ∧ hPresent ((mine s).h[(1 : Fin 16)]) = true ∧ copyExtent 49152 tile4.a tile4.b = hSize ((mine s).h[(1 : Fin 16)]) ∧
      hRead ((mine s).h[(1 : Fin 16)]) = true ∧ hWrite ((mine s).h[(1 : Fin 16)]) = true ∧ tStride tile4.b ≠ 0) ∧
    (Slot (on (rich [49156])) [.reg 0] ∧ hSize ((rich []).h[(1 : Fin 16)]) < copyExtent 49156 tile4.a tile4.b ∧ 1 % 4 ≠ 0) ∧
    (hPresent noRead = true ∧ hRead noRead = false ∧ hWrite noRead = true) ∧ (1 < tErows tile4.a ∧ tStride 0 = 0) :=
  ⟨⟨slot_of _ _ (by decide +kernel), by decide +kernel⟩, ⟨slot_of _ _ (by decide +kernel), by decide +kernel⟩, by decide +kernel, by decide +kernel⟩

/-- The last word, stream and record of a page of 64 KiB; an Invalid and a Revoked handle. -/
theorem witness_MemoryCopies :
    (let s := on (rich [65472])
     let x := (mine s).h[(1 : Fin 16)]
     Slot s [.reg 0, .reg 1] ∧ (mine s).copies.length < 32 ∧ hPresent x = true ∧ hRead x = true ∧ hWrite x = true ∧ 65472 % 64 = 0 ∧ 65472 + 64 = hSize x ∧
      65528 % 8 = 0 ∧ 65528 + 8 = hSize x ∧ 65504 % 32 = 0 ∧ 65504 + 32 = hSize x ∧ me s < 256 ∧ (mine s).feat.getLsbD 0 = true ∧
      tileBusy (mine s) 4 = false ∧ routineHolds (mine s) 4 = false ∧ capFails s (me s) ((mine s).t[(4 : Fin 64)]).a = false ∧ tRows ((mine s).t[(4 : Fin 64)]).a ≠ 0) ∧
    (let v : BitVec 64 := 65408
     v.getLsbD 6 = false ∧ v.toNat / 128 * 128 + 128 * (v.toNat % 64 + 1) = hSize ((rich []).h[(1 : Fin 16)])) ∧
    hValid ((rich []).h[(0 : Fin 16)]) = false ∧ hValid revoked = false ∧ hRevoked revoked = true :=
  ⟨⟨slot_of _ _ (by decide +kernel), by decide +kernel⟩, by decide +kernel, by decide +kernel⟩

/-- `t5` is alike to `t4`; a word and pair of the patch table and one not in it. -/
theorem witness_CoreCopies :
    (let s := on { rich [3, 0x1803] with patches := [(3, 0)] }
     Slot s rr ∧ (mine s).copies.length < 32 ∧ tileBusy (mine s) 5 = false ∧ routineHolds (mine s) 5 = false ∧
      capFails s (me s) ((mine s).t[(5 : Fin 64)]).a = false ∧ tRows ((mine s).t[(5 : Fin 64)]).a ≠ 0 ∧ tileBusy (mine s) 4 = false ∧
      tErows ((mine s).t[(5 : Fin 64)]).a = tErows ((mine s).t[(4 : Fin 64)]).a ∧ tElems ((mine s).t[(5 : Fin 64)]).a = tElems ((mine s).t[(4 : Fin 64)]).a ∧
      tFmt ((mine s).t[(5 : Fin 64)]).a = tFmt ((mine s).t[(4 : Fin 64)]).a ∧ tScaled ((mine s).t[(5 : Fin 64)]).a = tScaled ((mine s).t[(4 : Fin 64)]).a ∧
      me s < 256 ∧ 3 < 2 ^ 13 ∧ (3, 0) ∈ (mine s).patches ∧ (3, 3) ∉ (mine s).patches ∧ ((0x1803#64).setWidth 11).toNat = 3 ∧ ((0x1803#64).extractLsb' 11 2).toNat = 3) :=
  ⟨slot_of _ _ (by decide +kernel), by decide +kernel⟩

/-- A page walked and one not; an address of 2^48; the last byte of a page; the feature missing. -/
theorem witness_PageInstructions :
    (let s := on { rich [0x20000] with walked := [(0x20000, mkHandle 0 true true 0 0 0x20000)] }
     Slot s rr ∧ (cVal .ca s (me s) 0 (.reg 0)).toNat < 2 ^ 48 ∧ (knownAt (mine s) 0x20000).isSome = true) ∧
    (let s := on (rich [0xFFFFFFFFFFFF])
     Slot s rr ∧ (cVal .ca s (me s) 0 (.reg 0)).toNat < 2 ^ 48 ∧ knownAt (mine s) 0xFFFFFFFFFFFF = none ∧ holds (mine s) G0 = true) ∧
    (let s := on (rich [0x1000000000000])
     Slot s rr ∧ 2 ^ 48 ≤ (cVal .ca s (me s) 0 (.reg 0)).toNat) ∧
    (let s := on (rich [65535, 1])
     Slot s rr ∧ (mine s).feat.getLsbD 6 = true ∧ hPresent ((mine s).h[(1 : Fin 16)]) = true ∧ 65535 + 1 = hSize ((mine s).h[(1 : Fin 16)])) ∧
    (let s := on { rich [] with feat := 0 }
     Slot s rr ∧ (mine s).feat.getLsbD 6 = false ∧ hPresent ((mine s).h[(1 : Fin 16)]) = true) :=
  ⟨⟨slot_of _ _ (by decide +kernel), by decide +kernel⟩, ⟨slot_of _ _ (by decide +kernel), by decide +kernel⟩,
    ⟨slot_of _ _ (by decide +kernel), by decide +kernel⟩, ⟨slot_of _ _ (by decide +kernel), by decide +kernel⟩,
    slot_of _ _ (by decide +kernel), by decide +kernel⟩

/-- Core 0 frozen and held, its hall reading and writing word 2; copies not yet ended; a word that is none; saving at offset 0; core 0
vacant, to be restored; the management core at a halted service pair. -/
theorem witness_StateWindow :
    (Slot (on (rich [])) rr ∧ me (on (rich [])) < 256) ∧
    (let s := frozen (rich []) (rich [2, 0])
     Slot s rr ∧ 256 ≤ me s ∧ me s < 288 ∧ fld (cVal .ca s (me s) 0 (.reg 0)) 63 27 = 0 ∧ (coreOf s 0).copies = [] ∧ reachable s 0 = true ∧ mapped s 0 2 = true) ∧
    (let s := frozen { rich [] with copies := [tldi0] } (rich [2, 0])
     Slot s rr ∧ isCompute 0 = true ∧ (coreOf s 0).copies ≠ [] ∧ holds (mine s) G0 = true ∧ reachable s 0 = true ∧ mapped s 0 2 = true) ∧
    (let s := onHall (rich [0x8000000])
     Slot s rr ∧ fld (cVal .ca s (me s) 0 (.reg 0)) 63 27 ≠ 0 ∧ reachable s 0 = true ∧ mapped s 0 0x10 = true ∧ mapped s 0 0x7FFFFF = false) ∧
    (let s := frozen (rich []) { rich [0, 0] with h := (rich []).h.set 1 (mkHandle 1 true true 0 0 0) }
     let z := (mine s).h[(1 : Fin 16)]
     Slot s rr ∧ hPresent z = true ∧ (mine s).copies.length < 32 ∧ hWrite z = true ∧ heldRecord s 0 = true ∧
      0 + imageLen (kernelRows s 0) (coreOf s 0).seg.isSome ≤ hSize z) ∧
    (let s := onHall { rich [0, 0] with h := (rich []).h.set 1 (mkHandle 1 true true 0 0 0) }
     let z := (mine s).h[(1 : Fin 16)]
     Slot s rr ∧ hRead z = true ∧ (coreOf s 0).run = .vacant ∧ 0 + 64 ≤ hSize z ∧ 0 + storedLen s z 0 0 ≤ hSize z) ∧
    (let s := { setCore (setCore State.reset 288 { rich [2] with run := .running }) 256 { Core.zero with run := .halted } with turn := .mgmt }
     Slot s rr ∧ me s = 288 ∧ fld (cVal .ca s 288 0 (.reg 0)) 63 24 = 0 ∧ reachable s 256 = true ∧ mapped s 256 2 = true ∧ isCompute 256 = false) :=
  ⟨⟨slot_of _ _ (by decide +kernel), by decide +kernel⟩, ⟨slot_of _ _ (by decide +kernel), by decide +kernel⟩,
    ⟨slot_of _ _ (by decide +kernel), by decide +kernel⟩, ⟨slot_of _ _ (by decide +kernel), by decide +kernel⟩,
    ⟨slot_of _ _ (by decide +kernel), by decide +kernel⟩, ⟨slot_of _ _ (by decide +kernel), by decide +kernel⟩,
    slot_of _ _ (by decide +kernel), by decide +kernel⟩

/-- A message of member 1 with tag 9. -/
def msg9 : XMsg := { src := 1, dst := 0, tag := 9, vec := false, val := 5 }

/-- Members 1 and, refused, 4 of a group of 4; an arrival of tag 9 and none of tag 8; a unit for byte 512; a service core. -/
theorem witness_MessageSlots :
    (let s := on { rich [1, 0x0000020000000005] with abuf := [msg9] }
     let q := sVal s (me s) 6 1 (.reg 1)
     Slot s rr ∧ me s < 256 ∧ (sVal s (me s) 6 0 (.reg 0)).toNat < fld (mine s).domain 23 8 ∧ (mine s).abuf = [] ++ msg9 :: [] ∧ msg9.src = 1 ∧ msg9.tag = 9 ∧
      holds (mine s) G0 = true ∧ tileBusy (mine s) 4 = false ∧ (mine s).copies.length < 32 ∧ capFails s (me s) ((mine s).t[(4 : Fin 64)]).a = false ∧
      fld q 31 6 = 0 ∧ fld q 63 32 = 512 ∧ tRows ((mine s).t[(4 : Fin 64)]).a ≠ 0) ∧
    (let s := on (rich [4, 0x0000000100000040])
     Slot s rr ∧ fld (mine s).domain 23 8 = (sVal s (me s) 6 0 (.reg 0)).toNat ∧ fld (sVal s (me s) 6 1 (.reg 1)) 31 6 ≠ 0) ∧
    (Slot (onHall (rich [])) rr ∧ 256 ≤ me (onHall (rich []))) :=
  ⟨⟨slot_of _ _ (by decide +kernel), by decide +kernel⟩, ⟨slot_of _ _ (by decide +kernel), by decide +kernel⟩,
    slot_of _ _ (by decide +kernel), by decide +kernel⟩

/-- A tick that has come, the last before it and one to come; all landed, and not; a trigger idle, and armed; the feature
missing; the last 64 bytes of a page. -/
theorem witness_LandingSlots :
    (let s := on (rich [0, 1])
     Slot s rr ∧ me s < 256 ∧ 252 * (sVal s (me s) 6 0 (.reg 0)).toNat ≤ s.now ∧ s.now < 252 * (sVal s (me s) 6 0 (.reg 1)).toNat ∧ holds (mine s) G0 = true ∧
      allLanded (mine s) = true ∧ (mine s).feat.getLsbD 5 = true ∧ (mine s).trig[(2 : Fin 4)] = .idle ∧ runsOf s (me s) < 4) ∧
    (let s := on (rich [65472])
     let x := (mine s).h[(1 : Fin 16)]
     Slot s rr ∧ hPresent x = true ∧ hRead x = true ∧ (sVal s (me s) 6 0 (.reg 0)).toNat + 64 = hSize x ∧ (sVal s (me s) 6 0 (.reg 0)).toNat % 64 = 0) ∧
    (let s := on { rich [] with pend := [{ when_ := 3, by_ := 0, act := .s 1 2 }], trig := (Vector.replicate 4 .idle).set 2 (.armed 5) }
     Slot s rr ∧ allLanded (mine s) = false ∧ (mine s).trig[(2 : Fin 4)] ≠ .idle) ∧
    (Slot (on (regs [])) rr ∧ (mine (on (regs []))).feat.getLsbD 5 = false ∧ (mine (on (regs []))).trig[(2 : Fin 4)] = .idle) ∧
    (Slot (onHall (rich [])) rr ∧ 256 ≤ me (onHall (rich []))) ∧
    (let r : TRun := { id := 0, kernel := 0, joined := [(0, [])], handle := Handle.zero, offset := 0, tick := 0, start := none, header := 0, entries := [],
                       done := [], partials := [], unacked := [], others := false, ended := false }
     let s := { on (rich [0, 1]) with runs := [r, { r with id := 1 }, { r with id := 2 }, { r with id := 3 }] }
     Slot s rr ∧ 4 ≤ runsOf s (me s) ∧ hPresent ((mine s).h[(1 : Fin 16)]) = true) :=
  ⟨⟨slot_of _ _ (by decide +kernel), by decide +kernel⟩, ⟨slot_of _ _ (by decide +kernel), by decide +kernel⟩,
    ⟨slot_of _ _ (by decide +kernel), by decide +kernel⟩, ⟨slot_of _ _ (by decide +kernel), by decide +kernel⟩,
    ⟨slot_of _ _ (by decide +kernel), by decide +kernel⟩, slot_of _ _ (by decide +kernel), by decide +kernel⟩

/-- A kernel of one member, core 0, in context 0, its record at rows 0 and 1 member. -/
def kern (st : KernelSt) (g : GroupSt) : Kernel :=
  { id := 0, ctx := 0, queue := 7, launch := launch0 5, st := st, record := BitVec.ofNat 1024 (2 ^ 96), code := [], entry := 0, profile := 0, mask := 0,
    patches := [(3, 0)], saved := false, code_ := 0, eff := 2, preempt := false, domid := 0, group := g, members := [0], loaded := [], exited := [], t0 := none,
    answers := [], captured := [] }

/-- The kernel of a pod group of two chips, 512 members, whose leading 256 are here; its one member on this chip is core 0. -/
def podKern : Kernel :=
  let pod : Pod := { domid := 0, rank := 0, chips := 2, t0 := 0, nums := [4, 5] }
  { kern .running .running with launch := { launch0 5 with pod := some pod }, record := BitVec.ofNat 1024 (4 * 2 ^ 70 + 512 * 2 ^ 96) }

/-- Context 0 lives; its first GiB is mapped at frame 0, readable and writable. -/
def mapped0 (s : State) : State :=
  { s with contexts := s.contexts.set 0 { Context.zero with st := .running }
           mem := memWrite [] (at_ 0 (toBytes 8 (leafWord 0 true true 0).toNat)) }

/-- Core 0 runs the kernel `k`, queue 7 is its queue. -/
def world (c : Core) (k : Kernel) : State :=
  mapped0 (withQueue { on { c with kernel := some 0, ctx := some 0 } with kernels := [k], boot := .operational, nextKernel := 1 } .active [])

/-- A copy in the queue that may be performed: its core is in cycle 5. -/
def withCopy (c : Core) (k : Copy) : Core := { c with cyc := 5, copies := [k] }

def ref0 : CopyRef := { agent := .compute 0, id := 0 }

/-- A copy of the tutorial's tile by way of `h1`. -/
def tileCopy (kind : CopyKind) : Copy := { tldi0 with kind := kind, a := tile4.a, b := tile4.b, slot := some (.ca, 0) }

/-- Cores 0 and 255, a queue with a record of this moment and one older; a core running with a pending cause, and one waiting at a
landing; a service core with a record waiting; a walk of a page that is there and one that is not. -/
theorem witness_TrapTaking :
    ((0 : Nat) < 256 ∧ (255 : Nat) < 256 ∧ (rich []).mx.run = none ∧ (rich []).seg = none) ∧
    (let s := { onHall { regs [] with queue := [heldRec, heldRec], qTime := 0, qNew := 1 } with now := 0 }
     (coreOf s 256).queue = [heldRec] ++ [heldRec] ∧ (coreOf s 256).qTime = s.now ∧ (coreOf s 256).qNew = [heldRec].length ∧
      [heldRec].Pairwise (fun x y => fld x 42 40 ≤ fld y 42 40)) ∧
    (let c := { rich [] with causes := [{ code := 0x11, detail := 7, held := false }] }
     (coreOf (on c) 0).run = .running ∧ (coreOf (on c) 0).arrival = none ∧ nextCause (coreOf (on c) 0).causes = some { code := 0x11, detail := 7, held := false } ∧
      releaseFixed (on { c with arrival := some { scope := 1, num := 1, tick := 0, latch := some 0 } }) 0 = false) ∧
    (let s := { onHall { regs [] with queue := [heldRec] } with now := 1 }
     (coreOf s 256).run = .running ∧ (coreOf s 256).handler = false ∧ (coreOf s 256).queue = heldRec :: [] ∧
      (coreOf s 256).qTime < s.now ∧ (coreOf s (8 * 0 + fld heldRec 42 40)).sigs = [] ∧ (coreOf s (8 * 0 + fld heldRec 42 40)).differs = none) ∧
    (let s := modCore (world (rich []) (kern .running .running)) 0 fun c => { c with run := .walking 0x10000 }
     (coreOf s 0).run = .walking 0x10000 ∧ hPresent (bindFor s 0 0x10000) = true) ∧
    (let s := modCore (world (rich []) (kern .running .running)) 0 fun c => { c with run := .walking 0x40000000 }
     (coreOf s 0).run = .walking 0x40000000 ∧ hPresent (bindFor s 0 0x40000000) = false) ∧ Slot (on (regs [])) [] :=
  ⟨by decide +kernel, by decide +kernel, by decide +kernel, by decide +kernel, by decide +kernel, by decide +kernel, slot_of _ _ (by decide +kernel)⟩

/-- The first and the last line of a tile copy; a copy-out read and unread; an atomic at the end of its page; a stream at its first line
and at its end; copies within the core whose registers no other access writes; a patch. -/
theorem witness_CopiesPerformed :
    let w (k : Copy) : State := world (withCopy (rich []) k) (kern .running .running)
    let live (k : Copy) : Bool := refCopy (w k) ref0 == some k && mayPerform (w k) 0 k && !k.absent
    live (tileCopy (.tld 4)) = true ∧ (0, 0) ∈ tileLines (tileCopy (.tld 4)) ∧ (3, 127) ∈ tileLines (tileCopy (.tld 4)) ∧
      lineCount 0 tile4.a tile4.b = 128 ∧ throughRdc (w (tileCopy (.tld 4))) (dieOf 0) (tileCopy (.tld 4)).h 0 = false ∧
      (let c := coreOf (w (tileCopy (.tld 4))) 0
       c.mixed = [] ∧ (openOf c).all (fun o => o.1 == 4) = true ∧ tScaled tile4.a = false ∧ storesInFlight c < 1024) ∧
      live { tileCopy (.tst 4) with data := some (List.replicate 16 7) } = true ∧ live (tileCopy (.tst 4)) = true ∧ isReplicated (w (tileCopy (.tst 4))) 0 = false ∧
      fitsInFlight (coreOf (w (tileCopy (.tst 4))) 0) (tileCopy (.tst 4)) = true ∧
      live { tileCopy (.tlbk 7 2) with off := 65280 } = true ∧ (65280 : Nat) / 128 ≤ 511 ∧ (511 : Nat) < 65280 / 128 + 2 ∧
      live (tileCopy (.tldi false)) = true ∧ throughRdc (w (tileCopy (.tldi false))) (dieOf 0) (tileCopy (.tldi false)).h 0 = false ∧
      (expand [] 65536 (protectedWord (coreOf (w (tileCopy (.tldi false))) 0) false)).status = .more ∧ (0 + 0) / 128 = 0 ∧
      afterIssue (coreOf (w (tileCopy (.tst 4))) 0) (tileCopy (.tst 4)) = true ∧
      live { tileCopy (.tamo .cas true 1 2) with off := 65528 } = true ∧
      (expand [] (65536 - 65504) (protectedWord (rich []) false)).status = .more ∧
      (expand (List.replicate 32 255) 32 (protectedWord (rich []) false)).status ≠ .more ∧
      storeReady (coreOf (w (tileCopy (.tst 4))) 0) (tileCopy (.tst 4)) = true ∧
      (let k := { tileCopy (.tcpy 4 5) with until_ := 4, done := [(0, 1)] }
       live k = true ∧ k.until_ < (coreOf (w k) 0).cyc ∧ (0, 0 / 512) ∉ k.done ∧ beingWritten (coreOf (w k) 0) 5 (tileAddr ((coreOf (w k) 0).t[(5 : Fin 64)]).a 0) = false) ∧
      live { tileCopy (.tfill 4 1 0) with until_ := 4 } = true ∧
      (rich []).undef = [] ∧ (rich []).tPoison = [] ∧
      (let c := coreOf (w { tileCopy (.tfill 4 1 0) with until_ := 4 }) 0
       4 < c.cyc ∧ c.mixed = [] ∧ (openOf c).all (fun o => o.1 == 4) = true) ∧
      live (tileCopy (.ipatch 3 0 9)) = true ∧ (rich []).patched ≠ some (5, 3, 0) := by decide +kernel

/-- A page of 2 MiB in space 5. -/
def bankPage : Handle := mkHandle 1 true true 0 (5 * 2 ^ 40) 0

/-- A record of `cmd` over one row of one BF16 segment; 64 bytes of a `vld`. -/
def bankRec (cmd : Nat) : BitVec 512 := BitVec.ofNat 512 (cmd + (if cmd = 1 then 64 * 2 ^ 224 else 2 ^ 9 + if cmd ≤ 4 then 2 ^ 12 else 0))

def bankWorld (h : Handle) (cmd : Nat) : State :=
  let k := { tileCopy (.bkc 4) with h := h }
  let s := world (withCopy (rich []) k) (kern .running .running)
  { s with mem := memWrite s.mem (at_ (hBase h) (toBytes 64 (bankRec cmd).toNat)) }

/-- Each command where no check refuses it, not begun and begun with its last segment left, and one refused (a page outside space 5). -/
theorem witness_BankCommands :
    let k := { tileCopy (.bkc 4) with h := bankPage }
    let ok (cmd : Nat) : Bool :=
      let s := bankWorld bankPage cmd
      let r := bankRecord s k
      refCopy s ref0 == some k && mayPerform s 0 k && !k.absent && rCmd r == cmd && bankRefusal s 0 k r == 0 && (bankStart s k r).left != []
    ok 1 = true ∧ ok 5 = true ∧ ok 6 = true ∧ (bankStart (bankWorld bankPage 6) k (bankRec 6)).left = [0] ∧ 8 ≤ fmtWidth (rMfmt (bankRec 5)) ∧
      (let k := { k with bank := some (bankStart (bankWorld bankPage 6) k (bankRec 6)) }
       k.bank ≠ none ∧ mayPerform (world (withCopy (rich []) k) (kern .running .running)) 0 k = true) ∧
      bankRefusal (bankWorld (mkHandle 1 true true 0 0 0) 5) 0 { k with h := mkHandle 1 true true 0 0 0 } (bankRec 5) = 6 ∧
      (let s := { bankWorld bankPage 4 with buffers := (engines bankPage (bankRec 4)).map fun e => ⟨e, 0, some 0, 0⟩ }
       bankRefusal s 0 k (bankRecord s k) = 0 ∧ bankRefusal s 0 k (bankRec 2) = 0 ∧ bankRefusal s 0 k (bankRec 3) = 0 ∧
        fmtWidth (rVfmt (bankRec 4)) = fmtWidth (rMfmt (bankRec 4))) := by decide +kernel

/-- A save of a held core, with and without an entry in its buffer, for a trap and for cause 0x12; a restore to a vacant core, of an
image that is none and of one just saved. -/
theorem witness_Images :
    (let s := modCore (frozen (rich []) (withCopy (rich []) { tileCopy (.csave 0) with h := bankPage })) 0 fun c => { c with kernel := none }
     let ref : CopyRef := { agent := .service 0, id := 0 }
     let k := { tileCopy (.csave 0) with h := bankPage }
     refCopy s ref = some k ∧ mayPerform s 256 k = true ∧ k.absent = false ∧ heldRecord s 0 = true ∧ (coreOf s 0).copies = [] ∧
      (coreOf s 0).run = .trapped heldRec ∧ fld heldRec 55 48 ≠ 0x12 ∧ fld (0x0012000000000000 : BitVec 64) 55 48 = 0x12 ∧
      messagesDone s 0 = true ∧ (coreOf s 0).abuf = [] ∧ isReplicated s (hBase k.h) = false ∧ messagesDone (modCore s 0 fun c => { c with abuf := [msg9] }) 0 = true) ∧
    (let k := { tileCopy (.crest 0) with h := bankPage }
     let s := onHall (withCopy (rich []) k)
     refCopy s { agent := .service 0, id := 0 } = some k ∧ mayPerform s 256 k = true ∧ (coreOf s 0).run = .vacant ∧
      crestRefusal s 0 (hSize k.h) (toBytes 64 0) ≠ 0 ∧ poisonedIn s.poison (hBase k.h) 64 = []) := by decide +kernel

/-- One entry of a run: from the line at 0x1000 to the line at 2 MiB, past the page table. -/
def entryOf (kind : Nat) : BitVec 256 := BitVec.ofNat 256 (kind + 0x1000 * 2 ^ 80 + 0x200000 * 2 ^ 144 + 2 ^ 192)

def hdrOf : BitVec 512 := BitVec.ofNat 512 (0x01545443 + 2 ^ 32)

def runOf (start : Option Nat) (kind : Nat) : TRun :=
  { id := 0, kernel := 0, joined := [(0, [])], handle := mkHandle 0 true true 0 0 0x10000, offset := 0x4000, tick := 0, start := start, header := hdrOf,
    entries := if start.isSome then [entryOf kind] else [], done := [], partials := [], unacked := [], others := false, ended := false }

def runWorld (start : Option Nat) (kind : Nat) (h : BitVec 512) : State :=
  let s := { world (rich []) (kern .running .running) with runs := [runOf start kind] }
  { s with mem := memWrite (memWrite s.mem (at_ 0x4000 (toBytes 64 h.toNat))) (at_ 0x4040 (toBytes 32 (entryOf kind).toNat)) }

/-- A run that starts, one whose header is none; an entry of each kind that is due; a chunk from another chip. -/
theorem witness_Timetables :
    (let s := runWorld none 0 hdrOf
     let k := kern .running .running
     let h := BitVec.ofNat 512 (bankRead s 0x4000 64)
     findRun s 0 = some (runOf none 0) ∧ findKernel s 0 = some k ∧ residents k = [0] ∧ chipsOf k ≤ 1 ∧ hValid (runOf none 0).handle = true ∧ headerBad h = false ∧ hdrNent h = 1 ∧
      entryBad (recMembers k.record) (BitVec.ofNat 256 (bankRead s 0x4040 32)) = false ∧ 0x4000 + 64 + 32 * 1 ≤ hSize (runOf none 0).handle ∧
      poisonedIn s.poison 0x4000 96 = []) ∧
    headerBad (BitVec.ofNat 512 (bankRead (runWorld none 0 0) 0x4000 64)) = true ∧
    ((∀ kind, kind < 3 → eKind (entryOf kind) = kind) ∧
     let s := runWorld (some 0) 2 hdrOf
     entryDue s (kern .running .running) (runOf (some 0) 2) 0 = true ∧ memberCore (kern .running .running) (eDstMem (entryOf 2)) < 1000 ∧
      entryLines s 0 0x1000 1 false = some [0x1000] ∧ entryLines s 0 0x200000 1 true = some [0x200000] ∧ entryLines s 0 0x2000 1 true = none ∧ s.replicas = [] ∧ poisonedIn s.poison 0x1000 128 = []) ∧
    (let e : BitVec 256 := entryOf 2 ||| BitVec.ofNat 256 (256 * 2 ^ 64)
     let s := { runWorld (some 0) 2 hdrOf with links := (runWorld (some 0) 2 hdrOf).links.set 16 { Link.zero with entry := BitVec.ofNat 64 (2 * 2 ^ 61) } }
     1000 ≤ memberCore podKern (eSrcMem e) ∧ memberCore podKern (eDstMem e) < 1000 ∧ chunkReady { runOf (some 0) 2 with entries := [e] } 0 = true ∧ eKind e = 2 ∧
      carries (linkAt s 16) = true ∧ s.boot ≠ .safe) := by
  decide +kernel

/-- A landing of core 0 alone; one whose release tick has come. -/
def landed0 (tr : Option Nat) : Landing := { id := 0, kernel := 0, scope := 1, unit := 0, num := 1, arrived := [(0, 0)], remote := none, ta := tr.map fun _ => 0, tr := tr }

def landWorld (tr : Option Nat) : State :=
  { world { rich [] with arrival := some { scope := 1, num := 1, tick := 0, latch := some 0 }, lands := (Vector.replicate 5 0).set 1 1 } (kern .landing .running) with
    landings := [landed0 tr] }

/-- A landing of core 0 alone, of a pod group of two chips that has heard of the others; one whose release tick has come. -/
theorem witness_Landings :
    (findLanding (landWorld none) 0 = some (landed0 none) ∧ conditionsHold (landWorld none) (landed0 none) = true ∧ (landed0 none).tr = none) ∧
    (let l := { landed0 none with scope := 4, remote := some (7, 3) }
     let s := { landWorld none with kernels := [podKern] }
     let s := modCore { s with landings := [l] } 0 fun c => { c with arrival := some { scope := 4, num := 1, tick := 0, latch := some 0 } }
     findLanding s 0 = some l ∧ conditionsHold s l = true ∧ 1 < chipsOf podKern ∧ findKernel s 0 = some podKern ∧
      conditionsHold { s with landings := [{ l with remote := none }] } { l with remote := none } = false) ∧
    (findLanding (landWorld (some 0)) 0 = some (landed0 (some 0)) ∧ (landed0 (some 0)).tr = some 0 ∧ 0 ≤ (landWorld (some 0)).now) := by decide +kernel

/-- A vendor message of type `vtype` with `len` units, from `src`, at port 0, for the chip of a reset device. -/
def viaOf (vtype len : BitVec 8) (src : BitVec 16) : Via :=
  { port := 0, hdr := 0#64 ++ src ++ State.reset.chip ++ 0#16 ++ len ++ vtype }

/-- Port 0 is Up, its peer a chip of the pod. -/
def linkUp (s : State) : State := { s with links := s.links.set 0 { Link.zero with entry := BitVec.ofNat 64 (2 * 2 ^ 61 + 5 * 2 ^ 40) } }

theorem len_of_via (l : BitVec 8) : vLen (viaOf 4 l 5).hdr = l.toNat := by
  have h : ∀ l : BitVec 8, vLen (viaOf 4 l 5).hdr = l.toNat := by decide +kernel
  exact h l

/-- A message of any length from another chip reaches this one. -/
theorem reaches_of (s : State) (n : Nat) (h : (carries (linkAt s 0) && s.chip == State.reset.chip && s.boot != .safe) = true) :
    Reaches s (viaOf 4 (Config.valueUnits n) 5) 4 (Config.valueUnits n).toNat false := by
  simp only [Bool.and_eq_true, beq_iff_eq, bne_iff_ne, ne_eq] at h
  obtain ⟨⟨h1, h2⟩, h3⟩ := h
  refine ⟨h1, by simp [viaOf], ?_, len_of_via _, ?_, .inr ?_, h3⟩
  · have h : ∀ l : BitVec 8, vType (viaOf 4 l 5).hdr = 4 := by decide +kernel
    exact h _
  · have h : ∀ l : BitVec 8, vDst (viaOf 4 l 5).hdr = State.reset.chip := by decide +kernel
    rw [h2]; exact h _
  · have h : ∀ l : BitVec 8, vSrc (viaOf 4 l 5).hdr ≠ 0xFFFF := by decide +kernel
    exact h _

/-- A message from core 1 to core 0, and a unit of an `xput` for the last row of `t4`. -/
def flight (dst : Nat) (b : Payload) : XFlight := { id := 0, ord := 0, src := 1, dst := dst, due := 0, posted := 0, kernel := some 0, sent := false, body := b }

def flightWorld (c : Core) (dst : Nat) (b : Payload) (k : Kernel) : State := { world c k with flights := [flight dst b] }

/-- The buffer with 63 and with 64 entries; a message over, waiting for a place, for another chip; a unit in place, one past its
tile, one for a core that is frozen; a trigger that holds it; one performed on its other chip; the messages of another chip. -/
theorem witness_Messages :
    (let m := Payload.msg msg9
     let k := kern .running .running
     let full := List.replicate 64 msg9
     (findFlight (flightWorld (rich []) 0 m k) 0 = some (flight 0 m) ∧ isOver (flightWorld (rich []) 0 m k) (flight 0 m) = false ∧
       dstExited (flightWorld (rich []) 0 m k) (flight 0 m) = false ∧ mayArrive (flightWorld { rich [] with abuf := List.replicate 63 msg9 } 0 m k) (flight 0 m) = true ∧
       mayArrive (flightWorld { rich [] with abuf := full } 0 m k) (flight 0 m) = true ∧
       isOver (flightWorld (rich []) 0 m (kern .done .vacating)) (flight 0 m) = true ∧
       mayArrive (flightWorld { rich [] with await := [7] } 0 m k) (flight 0 m) = true ∧ (rich []).await = [] ∧
       isFirst (flightWorld (rich []) 0 m k) (flight 0 m) = true ∧
       (let s := { flightWorld { rich [] with await := [9] } 0 m k with flights := [{ flight 0 m with id := 9 }, { flight 0 m with ord := 1 }] }
        findFlight s 0 = some { flight 0 m with ord := 1 } ∧ mayArrive s { flight 0 m with ord := 1 } = true ∧ isFirst s { flight 0 m with ord := 1 } = false) ∧
       mayArrive (flightWorld { rich [] with await := [0] } 0 m k) (flight 0 m) = false) ∧
     (isHeldFlight (flightWorld (rich []) 1004 m k) (flight 1004 m) = false ∧ mayLeave (flightWorld (rich []) 1004 m k) (flight 1004 m) = true ∧
       (let f := { flight 1004 m with sent := true }
        let s := { flightWorld (rich []) 1004 m k with flights := [f] }
        findFlight s 0 = some f ∧ isFirst s f = true ∧ f.due ≤ s.now)) ∧
     (let u := Payload.unit 4 15872 512 7 0 0
      let v := Payload.unit 4 15873 512 7 0 0
      mayArrive (flightWorld (rich []) 0 u k) (flight 0 u) = true ∧ 15872 + 512 = tRows tile4.a * 4096 ∧ tRows tile4.a * 4096 < 15873 + 512 ∧
       mayArrive (flightWorld (rich []) 0 v k) (flight 0 v) = true ∧ (rich []).evac = [] ∧ (flight 0 u).src ≠ 0 ∧ (rich []).mixed = [] ∧ openOf (rich []) = [] ∧
       mayLeave (flightWorld (rich []) 1004 u k) (flight 1004 u) = true ∧
       mayArrive (modCore (flightWorld (rich []) 0 u k) 0 fun c => { c with run := .trapped heldRec }) (flight 0 u) = true) ∧
     (let s := { flightWorld (rich []) 0 m k with now := 252 * 9 }
      let s := modCore s 1 fun c => { c with trig := (Vector.replicate 4 .idle).set 2 (.holding 3 0) }
      (coreOf s 1).trig[(2 : Fin 4)] = .holding 3 0 ∧ fireTime s 1 3 (flight 0 m) ≤ s.now) ∧
     (let s := flightWorld { rich [] with await := [0] } 0 m k
      (coreOf s 0).await = 0 :: [] ∧ (coreOf s 0).abuf.length < 64 ∧ isFirst s (flight 0 m) = true ∧
      (coreOf (flightWorld { rich [] with abuf := full, await := [0] } 0 m k) 0).abuf.length = 64) ∧
     (let s := flightWorld (rich []) 0 m podKern
      podKernel s = some podKern ∧ (0 : Nat) < recMembers podKern.record ∧ memberCore podKern 0 < 1000 ∧ msg9.src < 65536 ∧ msg9.dst = 0)) ∧
    Reaches (linkUp (flightWorld (rich []) 0 (.msg msg9) podKern)) (viaOf 4 (Config.valueUnits 8) 5) 4 (Config.valueUnits 8).toNat false ∧
    Reaches (linkUp (flightWorld (rich []) 0 (.msg msg9) podKern)) (viaOf 4 (Config.valueUnits 512) 5) 4 (Config.valueUnits 512).toNat false :=
  ⟨by decide +kernel, reaches_of _ _ (by decide +kernel), reaches_of _ _ (by decide +kernel)⟩

/-- An access of `n` bytes at `pa` in progress, of kind `b`. -/
def reqOf (b : FabBody) (pa n : Nat) : FabReq :=
  { id := 0, port := 0, src := 5, tag := 9, units := fabricUnits pa n, data := List.replicate n 7, covers := coveredGranules pa n, raised := true, bad := false, body := b }

/-- Memory within one space, from 4 to 256 bytes, and past its end; a launch packet, alone and behind a write; a placed kernel with a
patch table, and its write at its one core; the first and the last unit of an access; poison in the way. -/
theorem witness_FabricTraffic :
    (let s := linkUp (world (rich []) (kern .running .running))
     let v := viaOf 1 8 0xFFFF
     s.boot ≠ .safe ∧ (4 : Nat) = 4 ∧ (8 : Nat) ≤ 8 ∧ (256 : Nat) ≤ 256 ∧ offsetOf (96 * 2 ^ 30 - 256) + 256 ≤ populated (spaceOf (96 * 2 ^ 30 - 256)) ∧
      ¬ offsetOf (96 * 2 ^ 30 - 255) + 256 ≤ populated (spaceOf (96 * 2 ^ 30 - 255)) ∧ poisonedIn s.poison 0 8 = [] ∧ s.moves = [] ∧ s.replicas = [] ∧
      carries (linkAt s 0) = true ∧ senderVia (.host v) = some v ∧ vType v.hdr = 1 ∧ vLen v.hdr = 8 ∧ vDst v.hdr = s.chip ∧ s.fabric = [] ∧ s.epochSet = false ∧
      (let y := reqOf .write 0 16
       let t := { s with fabric := [y], nextReq := 1 }
       y.src = vSrc (viaOf 1 8 5).hdr ∧ y.body = .write ∧ (t.fabric.find? fun z => z.id == y.id) = some y ∧ reqReady t y = true ∧
        y.units[0]? = some (0, 8, 0) ∧ y.units[1]? = some (8, 8, 8) ∧ ({ y with units := [(8, 8, 8)] }).units.all (· == (8, 8, 8)) = true ∧
        (let r := reqOf .read 0 16
         let t := { t with fabric := [r, { r with id := 1 }] }
         reqReady t r = true ∧ reqReady t { r with id := 1 } = false ∧ (r.units[1]?).map (fun w => w.2.2 + w.2.1) = some r.data.length))) ∧
    poisonedIn [32] 0 64 ≠ [] ∧
    (let k := kern .running .running
     let s := { world (rich []) k with kernels := [{ k with record := BitVec.ofNat 1024 (4 * 2 ^ 70) }] }
     (s.kernels.find? fun k => isPlaced k && recLevel k.record == 4 && k.domid == 0).isSome = true) ∧
    (let k := { kern .running .running with loaded := [0] }
     let s := linkUp (world (rich []) k)
     ((queueIndex s 0 3).bind fun q => launchKernel s q 5) = some k ∧ isPlaced k = true ∧ (residents k).filter (fun n => k.loaded.contains n || k.saved) = [0] ∧
      (3, 0) ∈ k.patches ∧ (3, 1) ∉ k.patches ∧ isPlaced (kern .done .vacating) = false ∧
      (let y : Patching := { id := 0, kernel := 0, word := 3, pair := 0, val := 7, left := [0], answer := .report 0 0 5 0 0 3 5 0 }
       let t := { s with patching := [y] }
       (t.patching.find? fun z => z.id == y.id) = some y ∧ y.left[0]? = some 0 ∧ y.pair < 4 ∧ (coreOf t 0).kernel = some y.kernel)) ∧
    (let s := { linkUp (world (rich []) (kern .running .running)) with boot := .safe, epochSet := true }
     carries (linkAt s 0) = true ∧ s.boot = .safe) ∧
    Reaches (linkUp (world (rich []) (kern .running .running))) (viaOf 2 2 5) 2 2 false ∧
    Reaches (linkUp (world (rich []) (kern .running .running))) (viaOf 3 2 0xFFFF) 3 2 true :=
  ⟨by decide +kernel, by decide +kernel, by decide +kernel, by decide +kernel, by decide +kernel, by unfold Reaches; decide +kernel, by unfold Reaches; decide +kernel⟩

/-- A port in each state that a clause names. -/
def port (st : Nat) (attempts : Nat) : State :=
  { State.reset with links := State.reset.links.set 2 { Link.zero with entry := BitVec.ofNat 64 (st * 2 ^ 61), attempts := attempts } }

/-- Each state of port 2, alone and beside another that carries the pod's traffic; the attempts 2 and 3; a probe after no other, an
answer that is the first and the sixteenth, depths 1 and 8; this chip the root, and not. -/
theorem witness_LinksAndTime :
    (∀ st, st < 6 → fld ((port st 0).links[(2 : Fin 20)]).entry 63 61 = st) ∧ ((port 1 2).links[(2 : Fin 20)]).attempts + 1 = 3 ∧
      ((port 1 0).links[(2 : Fin 20)]).attempts + 1 < 3 ∧ (port 2 0).kernels = [] ∧ fld ((port 2 0).links[(3 : Fin 20)]).entry 63 61 = 0 ∧
      (∀ o : Fin 20, o.val < 16 → fld ((port 2 0).links[o]).entry 63 61 ≠ 3) ∧ ((port 2 0).links[(2 : Fin 20)]).probes.length < 15 ∧
      (let s := linkUp (port 2 0)
       fld (s.links[(0 : Fin 20)]).entry 55 40 ≠ 0xFFFF ∧ fld (s.links[(0 : Fin 20)]).entry 63 61 = 2 ∧ (s.links[(0 : Fin 20)]).sent = [] ∧ s.upLink = none ∧ s.epochSet = false ∧
        (∀ t ∈ (s.links[(0 : Fin 20)]).sent, t + 8000 ≤ s.now / 252) ∧
        (let v := viaOf 6 0 5
         v.port = 0 ∧ vType v.hdr = 6 ∧ vLen v.hdr = 0 ∧ vDst v.hdr = s.chip ∧ vSrc v.hdr ≠ 0xFFFF)) ∧
      (let p : Link := { ((port 2 0).links[(2 : Fin 20)]) with probes := List.replicate 15 7, sent := [0] }
       p.probes.length = 15 ∧ 0 ∈ p.sent ∧ 7 ∈ (9 - 0) :: p.probes ∧ (∀ y ∈ (9 - 0) :: p.probes, 7 ≤ y) ∧ fld p.entry 63 61 = 2 ∧ (List.replicate 16 0).length = 16) ∧
      (0 + 1 : Nat) ≤ 8 ∧ (8 : Fin 16).val ≤ 8 ∧ 8 < (9 : Fin 16).val ∧ { State.reset with upLink := some 3 }.upLink ≠ none ∧ { State.reset with epochSet := true }.epochSet = true ∧
      carries (linkAt { State.reset with links := State.reset.links.set 16 { Link.zero with entry := BitVec.ofNat 64 (2 * 2 ^ 61) } } 16) = true := by decide +kernel

/-- Context 0 in state `st`. -/
def ctx0 (st : CtxSt) : State := { State.reset with contexts := State.reset.contexts.set 0 { Context.zero with st := st } }

/-- Context 0 in state `st`, the device Operational. -/
def live0 (st : CtxSt) : State := { ctx0 st with boot := .operational }

/-- A device not Operational; a Free context, none Free, one in each state that a clause names; a frozen member whose trap is held; a
faulted kernel that has drained. -/
theorem witness_ContextLife :
    (State.reset.boot ≠ .operational ∧ (live0 .free).boot = .operational ∧ ((live0 .free).contexts[(0 : Fin 32)]).st = .free) ∧
    (∀ y : Fin 32, ({ State.reset with contexts := Vector.replicate 32 { Context.zero with st := .ready } }.contexts[y]).st ≠ .free) ∧
      ((ctx0 .creating).contexts[(0 : Fin 32)]).st = .creating ∧ ((ctx0 .destroyed).contexts[(0 : Fin 32)]).st = .destroyed ∧
      ((ctx0 .ready).contexts[(0 : Fin 32)]).st ≠ .free ∧ (ctx0 .destroyed).kernels = [] ∧ (ctx0 .destroyed).cores = [] ∧
    (let s := modCore (world (rich []) (kern .running .running)) 0 fun c => { c with run := .trapped heldRec }
     kernelAt s 0 = some (kern .running .running) ∧ (coreOf s 0).run = .trapped heldRec ∧ heldRecord s 0 = true) ∧
    (let k := kern .faulted .vacating
     let s := modCore (world (rich []) k) 0 fun c => { c with run := .trapped heldRec }
     (s.kernels.find? fun k => k.ctx == 0 && k.st == .faulted && k.group == .vacating) = some k ∧ residents k = [0] ∧ (coreOf s 0).copies = [] ∧ (coreOf s 0).kernel = some k.id) := by
  decide +kernel

/-- A context that lives with no queue, and with 16; a queue in each state; declarations between two launches of a queue, 64 of them,
one that closes a circle, one whose waiter was placed before and one whose waiter ended without. -/
theorem witness_QueueRequests :
    (ctxLives (ctx0 .ready) 0 = true ∧ ctxLives State.reset 0 = false ∧ ((allQueues (ctx0 .ready)).filter fun q => q.2.ctx == 0).length = 0 ∧
      queueAt (ctx0 .ready) 0 = none ∧ queueAt (ctx0 .ready) 255 = none) ∧
    (let s := { ctx0 .ready with queues := Vector.ofFn fun i => if i.val < 16 then some { queueOf .empty [] with num := Fin.ofNat 16 i.val } else none }
     16 ≤ ((allQueues s).filter fun q => q.2.ctx == 0).length) ∧
    (queueIndex (withQueue (ctx0 .ready) .empty []) 0 3 = some 7 ∧ queueAt (withQueue (ctx0 .ready) .suspended []) 7 = some (queueOf .suspended []) ∧
      queueAt (withQueue (ctx0 .ready) .torn []) 7 = some (queueOf .torn []) ∧ queueIndex (ctx0 .ready) 0 3 = none) ∧
    (let r : BitVec 128 := BitVec.ofNat 128 (5 + 3 * 2 ^ 32 + 4 * 2 ^ 64 + 3 * 2 ^ 96)
     let s := withQueue (ctx0 .ready) .active [launch0 5]
     fld r 127 100 = 0 ∧ fld r 63 36 = 0 ∧ fld r 99 96 = 3 ∧ fld r 35 32 = 3 ∧ fld r 95 64 = 4 ∧ fld r 31 0 = 5 ∧ (5 : Nat) < (queueOf .active [launch0 5]).nextSeq.toNat ∧
      launchKernel s 7 5 = none ∧ (queueOf .active [launch0 5]).ends = [] ∧ leadsTo [] (3, 5) 65 (3, 4) = false ∧ leadsTo [] (3, 5) 65 (3, 5) = true ∧
      (List.replicate 64 r).length = 64 ∧
      (let k := { kern .queued .free with saved := true }
       launchKernel { s with kernels := [k] } 7 5 = some k ∧ k.saved = true) ∧
      ((5 : BitVec 32), KernelSt.aborted, true) ∈ [((5 : BitVec 32), KernelSt.aborted, true)]) := by decide +kernel

/-- A head that may be placed: context ready, queue 7 active, its kernel Queued, all rows covered. -/
def headWorld : State :=
  { withQueue { ctx0 .ready with kernels := [kern .queued .free], boot := .operational } .active [{ launch0 5 with kernel := some 0 }] with
    cores := (List.range 256).map fun n => (n, { Core.zero with caps := Vector.replicate 6 2048 }) }

theorem witness_KernelsRun :
    (nextQueue ((headWorld.rr.toList).getD 2 255) (candidatesAt headWorld 2) = some 7 ∧ (∀ m, m < 8 → 2 < m → candidatesAt headWorld m = []) ∧
      candidate headWorld 7 = some (queueOf .active [{ launch0 5 with kernel := some 0 }], { launch0 5 with kernel := some 0 }, kern .queued .free) ∧
      (findGroup headWorld 7 (kern .queued .free)).isSome = true) ∧
    (findKernel (world (rich []) (kern .placed .held)) 0 = some (kern .placed .held) ∧ residents (kern .placed .held) = [0] ∧ (kern .placed .held).loaded = [] ∧
      (kern .placed .held).saved = false ∧ recLock (kern .placed .held).record = false ∧ recLock (BitVec.ofNat 1024 (2 ^ 75)) = true) ∧
    (let k := { kern .running .running with exited := [0] }
     findKernel (world (rich []) k) 0 = some k ∧ residents k = []) ∧
    (let s := world (rich []) (kern .running .running)
     queueAt s 7 = some (queueOf .active []) ∧ (queueOf .active []).nextSeq.toNat ≤ 5 + 256 ∧ hPresent (bindOf s 0 0x3FFFFFF8) = true ∧
      isReplicated s (hBase (bindOf s 0 0x3FFFFFF8)) = false ∧ (coreOf s 0).kernel = some 0) := by decide +kernel

/-- A group that starts at T0, placed first and come back, its member in a landing or not. -/
theorem witness_KernelsRun_start :
    let k := { kern .placed .starting with t0 := some 0 }
    findKernel (world (rich []) k) 0 = some k ∧ k.t0 = some 0 ∧ k.saved = false ∧ residents k = [0] ∧
      (let s := modCore (world (rich []) { k with saved := true }) 0 fun c => { c with run := .resuming }
       (coreOf s 0).run = .resuming ∧ (coreOf s 0).copies = [] ∧ s.landings = [] ∧ (landed0 none).kernel = 0) := by decide +kernel

/-- A hint of 64 KiB at 0x40000000 on this die, in multicast use. -/
def hint0 : BitVec 256 := BitVec.ofNat 256 (0x40000000 + 0x10000 * 2 ^ 64 + 2 ^ 172)

/-- Hints that fit, that overlap and that are none; a GiB to be mapped at the second entry; a page that is there, replicated or not,
held or not, with a home of one die; a page Moving, and Rebound, with an access that waits for it; Safe; two ranges that touch. -/
theorem witness_PageLife :
    let s := world (rich []) (kern .running .running)
    (s.boot ≠ .safe ∧ { s with boot := .safe }.boot = .safe ∧ ctxLives s 0 = true ∧ ctxLives State.reset 0 = false ∧ hintBad hint0 = false ∧ hintBad 0 = true ∧
      (hBaseVa hint0 < hBaseVa hint0 + hLen hint0 ∧ hBaseVa hint0 < hBaseVa hint0 + hLen hint0) ∧ (s.contexts[(0 : Fin 32)]).hints = []) ∧
    ((walk s 0 0x40000000).isSome = false ∧ (walk s 0 0).isSome = true ∧ moveAt s 0 0x40000000 = none ∧ wrongPlace none 0x40000000 2 = false ∧
      wrongPlace none 0x10000 2 = true ∧ entryPlace s 0 0x40000000 2 = some 8 ∧ (readEntry s 8).getLsbD 63 = false ∧ entryPlace s 0 0x40000000 0 = none) ∧
    (let l : Leaf := ⟨0, 2, leafWord 0 true true 0⟩
     walk s 0 0 = some l ∧ moveAt s 0 0 = none ∧ isReplicated s (leafFrame l) = false ∧ fld l.entry 58 56 ≠ 2 ∧ hMu hint0 = true ∧ hHome hint0 = 0 ∧
      hHome (hint0 ||| (1 : BitVec 256) <<< 164) ≠ 0 ∧ hMu (hint0 ||| (1 : BitVec 256) <<< 164) = true ∧
      isReplicated { s with replicas := [(0, 2 ^ 30, 0)] } (leafFrame l) = true ∧ fld (leafWord 0 true true 2) 58 56 = 2 ∧ hKeepDies hint0 = 0 ∧
      (spaceOf 0 = 0 ∧ frameOk 0 2 = true ∧ spaceOf (2 ^ 40) = 1 ∧ frameOk (2 ^ 40) 2 = true)) ∧
    (let m : PageMove := { ctx := 0, va := 0, psz := 2, old := 0, frame := some (2 ^ 40), rebound := false, held := false }
     moveAt { s with moves := [m] } 0 0 = some m ∧ entryPlace { s with moves := [m] } 0 0 2 = some 0 ∧ countOf s.busy 0 = 0 ∧ busyFabric s 0 (2 ^ 30) = false ∧
      moveAt { s with moves := [{ m with rebound := true }] } 0 0 = some { m with rebound := true } ∧
      ({ reqOf .read 0 16 with raised := false }).raised = false) ∧
    Memory.wf s.mem = true ∧ (0 + 16 : Nat) ≤ 16 := by decide +kernel

/-- A step of die 0 to OP4, and one up to OP3. -/
def stepOf (up : Bool) (judged evacuated : Bool) : OpStep :=
  { id := 0, dies := 1, target := if up then 3 else 5, deadline := 0, up := up, judged := judged, refused := 0, evacuated := evacuated }

def opWorld (l : List OpStep) : State :=
  { world { rich [] with evac := [3] } { kern .running .running with record := BitVec.ofNat 1024 (4 * 2 ^ 84 + 2 ^ 96) } with
    steps := l, permit := some 2, dies := Vector.replicate 4 { Die.zero with op := 5 } }

/-- Requests for OP2, the highest permitted, and OP1; dies at and above their target; no step and one in progress; each phase of a
step down and of a step up; a row to be copied. -/
theorem witness_OperatingPoints :
    (let s := opWorld []
     let r : BitVec 64 := BitVec.ofNat 64 (1 + 2 * 2 ^ 4)
     fld r 31 7 = 0 ∧ s.permit = some 2 ∧ s.boot ≠ .safe ∧ fld r 6 4 = 2 ∧ r.getLsbD 0 = true ∧ s.steps = [] ∧ ((s.dies[(0 : Fin 4)]).op).val ≠ 2 ∧
      recLevel (kern .running .running).record ≠ 4 ∧ fld (BitVec.ofNat 64 (1 + 2 ^ 4)) 6 4 < 2 ∧ ((s.dies[(0 : Fin 4)]).op).val = fld (BitVec.ofNat 64 (1 + 5 * 2 ^ 4)) 6 4) ∧
    (let s := { opWorld [] with dies := (opWorld []).dies.set 1 { Die.zero with op := 2 } }
     ((s.dies[(0 : Fin 4)]).op).val > 3 ∧ ((s.dies[(1 : Fin 4)]).op).val < 3) ∧
    (findStep (opWorld [stepOf false false false]) 0 = some (stepOf false false false) ∧ (stepOf false false false).deadline ≤ (opWorld []).now / 252 ∧
      findStep (opWorld [stepOf true false false]) 0 = some (stepOf true false false) ∧ findStep (opWorld [stepOf false true false]) 0 = some (stepOf false true false) ∧
      rowsFit (opWorld [stepOf false true false]) 0 5 = true) ∧
    (let s := { modCore (opWorld [stepOf false true true]) 0 fun c => { c with evac := [] } with turn := .compute 0 }
     findStep s 0 = some (stepOf false true true) ∧ ((List.range 256).all fun m => (coreOf s m).evac.isEmpty) = true) ∧
    (let s := { opWorld [stepOf true false false] with kernels := [] }
     readyDies s (stepOf true false false) = (stepOf true false false).dies ∧ (stepOf true false false).dies ≠ 0) ∧
    (let s := opWorld [stepOf false true true]
     stepTarget s 0 = some 5 ∧ 3 ∈ (coreOf s 0).evac ∧ countOf (coreOf s 0).rowBusy 3 = 0 ∧
      (destination (coreOf s 0) (opOf' s 0) (declaredRows s 0) 5).isSome = true) := by decide +kernel

/-- A kernel of a pair, cores 0 and 1. -/
def pairWorld (c : Core) : State :=
  let k := { kern .running .running with record := BitVec.ofNat 1024 (2 ^ 74), members := [0, 1] }
  { world c k with kernels := [k] }

/-- The signatures of a word issued in cycle 0, not compared yet. -/
def sig0 : Sig := { cycle := 0, word := true, lead := 1 }

theorem witness_Launches_pair :
    let s := pairWorld (rich [65472])
    Slot s [.reg 0] ∧ me s < 256 ∧ leadsPair s (me s) = true ∧ hPresent ((mine s).h[(1 : Fin 16)]) = true :=
  ⟨slot_of _ _ (by decide +kernel), by decide +kernel⟩

/-- A frozen core with a shadow, and one without; a core of a paired kernel, running, exiting and serving with words not compared, and
one of none; a pair's hall beating, mute, halted, and silent for 20 ms to the tick. -/
theorem witness_Reliability :
    (let s := frozen { rich [] with seg := some (shadowOf (rich [])) } (regs [])
     (coreOf s 0).run = .trapped heldRec ∧ (coreOf s 0).seg = some (shadowOf (rich [])) ∧ (coreOf s 0).copies = []) ∧
    (coreOf State.reset 0).seg = none ∧
    (leadsPair (pairWorld (rich [])) 0 = true ∧ (coreOf (pairWorld (rich [])) 0).sigs = [] ∧
      (let s := modCore (pairWorld (rich [])) 0 fun c => { c with run := .exiting, sigs := [sig0] }
       (coreOf s 0).sigs ≠ [] ∧ (coreOf s 0).run = .exiting ∧ (kernelAt s 0).all (fun k => k.group != .vacating) = true) ∧
      (let r := trapRecord 0 0 0 5
       let s := modCore (modCore (pairWorld (rich [])) 0 fun c => { c with run := .trapped r, sigs := [sig0] }) 256 fun c => { c with queue := [r] }
       (coreOf s 0).sigs ≠ [] ∧ fld r 55 48 = 0 ∧ heldRecord s 0 = false)) ∧
    leadsPair (world (rich []) (kern .running .running)) 0 = false ∧ (coreOf (onHall (regs [])) 256).copies = [] ∧
    (let s := { onHall (regs []) with now := 252 * 8000000 }
     s.beatAt[(0 : Fin 32)] < s.now / 252 / 8000000 * 8000000 ∧ (coreOf s 256).run ≠ .halted ∧ (coreOf s 256).run ≠ .vacant ∧ (0 : Fin 32) ∉ s.muted) ∧
    (let s := { modCore (onHall (regs [])) 256 (fun c => { c with run := .halted }) with now := 252 * 16000000 }
     s.boot ≠ .safe ∧ (coreOf s 256).run ≠ .vacant ∧ (coreOf s 256).run = .halted ∧ s.beatAt[(0 : Fin 32)] + 16000000 ≤ s.now / 252 ∧
      ¬ s.beatAt[(0 : Fin 32)] + 16000000 ≤ (s.now - 1) / 252 ∧ (0 : Fin 32) ∈ { onHall (regs []) with muted := [0] }.muted) ∧
    (State.reset.now / 252 / 8000000 * 8000000 ≤ State.reset.beatAt[(0 : Fin 32)]) ∧
    (let s := modCore (onHall (regs [])) 256 fun c => { c with run := .halted }
     (coreOf s 256).run = .halted ∧ s.boot ≠ .safe) := by decide +kernel

/-- FIPS 180-4's own example, "abc"; the base point of P-521 (SEC 2) lies on the curve, and no sum of one doubling is lost: a signature of
zeros is none. -/
theorem test_crypto :
    sha512 [0x61, 0x62, 0x63] =
      0xddaf35a193617abacc417349ae20413112e6fa4e89a97ea20a9eeee64b55d39a2192992a274fc1a836ba3c23a3feebbd454d4423643ce80e2a9ac94fa54ca49f#512 ∧
    onCurve baseX baseY = true ∧ onCurve baseX (baseY + 1) = false ∧ verifies (List.replicate 133 4) 0 (List.replicate 132 0) = false := by decide +kernel

/-- An image that is none. -/
def noImage : SignedImage := { key := [], version := 0, code := [], sig := [] }

/-- The digest of the key in the ROM is open: an image of the right form is accepted where its key has that digest and its signature
verifies. -/
theorem accepts_of (s : State) (i : Fin 2) (x : SignedImage) (h3 : sha512 x.key = Config.romDigest)
    (h4 : verifies x.key (sha512 (x.key ++ (toBytes 4 x.version.toNat ++ x.code))) x.sig = true) (h5 : s.fusedMin[i] ≤ x.version) :
    accepts s i x = true := by
  simp only [accepts, h3, h4, BEq.rfl, Bool.and_true, Bool.true_and, decide_eq_true_eq]; exact h5

/-- An image without a key and a signature is refused, whatever the digest in the ROM. -/
theorem accepts_noImage : accepts State.reset 0 noImage = false := by
  have h : verifies noImage.key (sha512 (noImage.key ++ (toBytes 4 noImage.version.toNat ++ noImage.code))) noImage.sig = false := by decide +kernel
  simp [accepts, h]

/-- Each state of the sequence; self-test with every row good, with every row of core 0 bad, and with two and three ways of an L2 bad; each
request of the mailbox with an argument that fits, in a state that answers it, in one that does not; a request of a host that arrives. -/
theorem witness_StartUp :
    State.reset.boot = .reset ∧ { State.reset with boot := .selfTest }.boot ≠ .reset ∧
      { State.reset with boot := .newel, rom := some noImage }.rom = some noImage ∧
      (∀ i, i < 6 → rowFloor.getD i 0 ≤ capOf (measured [] 0 Core.zero) i) ∧
      ¬ rowFloor.getD 5 0 ≤ capOf { Core.zero with rowCls := (List.range 400).map fun r => (r, 7) } 5 ∧
      (wayClasses [] 0 0).length ≤ 2 ∧
      fld (0x20F : BitVec 64) 63 8 ≠ 0 ∧ fld (0xF : BitVec 64) 63 4 = 0 ∧ fld (5 : BitVec 64) 2 0 ≤ 5 ∧ 5 < fld (6 : BitVec 64) 2 0 ∧ fld (8 : BitVec 64) 63 3 ≠ 0 ∧
      (List.replicate 64 (0 : Byte)).length = 64 ∧ State.reset.negSet = false ∧ State.reset.permit = none ∧ senderVia .mgmt = none ∧
      (let s := linkUp State.reset
       let v := viaOf 7 1 0xFFFF
       senderVia (.host v) = some v ∧ Sender.host v ≠ .mgmt ∧ carries (linkAt s v.port.val) = true ∧ v.port.val < 16 ∧ vType v.hdr = 7 ∧ vLen v.hdr = 1 ∧ vDst v.hdr = s.chip ∧
        vLen (viaOf 7 5 5).hdr = 5) := by decide +kernel

/-! ### The whole machine -/

/-- A word of one instruction, of none and of a refused slot, at the PC of core 0, which is the one agent that runs. -/
def stepWorld (w : Word) : State := placeWord State.reset w

theorem witness_StepRunsDecodedInstruction :
    (let s := stepWorld (encode (.add G0 (.reg 1) (.reg 2)))
     settleStep s = none ∧ dueStep s = none ∧ s.agenda = [.issue] ∧ nextAgent s = some 0 ∧ dueStep (timeTo s 0) = none ∧ fetchPoison (coreOf s 0) = false ∧
      (coreOf s 0).skip = false ∧ freeEvent { s with agenda := [] } = none ∧ fetchWord (coreOf s 0) ≠ 0 ∧ (decodeWord (fetchWord (coreOf s 0))).getD 0 none = some (.add G0 (.reg 1) (.reg 2)) ∧
      (∀ j, j < 8 → j ≠ 0 → (decodeWord (fetchWord (coreOf s 0))).getD j none = some .nop ∨ (decodeWord (fetchWord (coreOf s 0))).getD j none = some .knop)) ∧
    (slotOf (.add G0 (.reg 1) (.reg 2))).isSome = true ∧ fetchWord (coreOf (stepWorld 0) 0) = 0 ∧
    (decodeWord (slotWord 0 0xFFFFFFFF)).getD 0 (some .nop) = none ∧ isEvent .thermalTrip = true ∧
    (let s := { State.reset with agenda := [.ev .thermalTrip] }
     settleStep s = none ∧ dueStep s = none) ∧
    (let s := { State.reset with agenda := [.soft (.corrected 0 1)] }
     settleStep s = none ∧ dueStep s = none) ∧
    (∀ j, j < 8 → serviceRefuses (encode (.add G0 (.reg 1) (.reg 2))) j = false) ∧
    (let s := { setCore State.reset 256 { Core.zero with run := .running, istore := spSet [] 0 (encode (.add G0 (.reg 1) (.reg 2))) } with agenda := [.issue] }
     nextAgent s = some 256 ∧ settleStep s = none ∧ dueStep s = none) := by decide +kernel

/-- Two writes of `s1` due in this cycle and one of `v2` later. -/
theorem witness_EndOfCycle :
    let e (w : Nat) (a : Act) : Pend := { when_ := w, by_ := 0, act := a }
    let c := { regs [] with pend := [e 0 (.s 1 5), e 0 (.s 1 6), e 3 (.v 2 7)] }
    (coreOf (endCycle (on c) 0) 0).s[(1 : Fin 32)] = 6 ∧ (coreOf (endCycle (on c) 0) 0).v[(2 : Fin 32)] = 0 ∧ (coreOf (endCycle (on c) 0) 0).pend.length = 1 := by
  decide +kernel

/-- A step from a state with bytes in memory. -/
theorem witness_StepKeepsMemoryForm :
    let s := { stepWorld (encode (.add G0 (.reg 1) (.reg 2))) with mem := memWrite [] [(7, 1), (3, 2), (3, 0)] }
    s.mem = [(7, 1)] ∧ Memory.wf s.mem = true ∧ (match step s with | .next _ => true | _ => false) = true := by decide +kernel

theorem witness_StartUpOrder : (match step { State.reset with agenda := [.ev .thermalTrip] } with | .next t => t.boot == .safe | _ => false) = true := by
  decide +kernel

theorem witness_DecodeEncode :
    Instr.wf (.add G (.imm25 5) (.reg 1)) = true ∧ slotNo (.add G (.imm25 5) (.reg 1)) < 8 ∧ Instr.wf (.done) = true ∧ (microOf .done).isSome = true := by
  decide +kernel

/-- A word put where the next step fetches is run by it. -/
theorem test_withFetchWord :
    (match step (State.reset.withFetchWord 32 0b000001_0_0000_1101011_1100101_0000000) with
      | .next t => (latchOf (coreOf t 0) .s 0).val == 0 && (latchOf (coreOf t 0) .s 0).due == 1 && (coreOf t 0).pc == 1 | _ => false) = true ∧
    decodeTableWord 32 0b000001_0_0000_1101011_1100101_0000000 = some (.add G0 (.small 11) (.small 5)) := by decide +kernel

/-! ### The forms that the statements say besides -/

/-- A leading core whose word has not been compared, the abort service of a pair, an answer that has come to a service core. -/
theorem witness_BreakAndService_more :
    (let s := pairWorld (rich [])
     Slot s [] ∧ leadsPair (endCycle (setCore s (me s) (signed s (me s) (moved (mine s) .seq))) (me s)) (me s) = true ∧ holds (mine s) G0 = true) ∧
    (let s := onHall { regs [] with reply := some (some 7) }
     Slot s [] ∧ 256 ≤ me s ∧ (mine s).reply = some (some 7)) ∧
    (let s := onHall { regs [] with reply := some none }
     Slot s [] ∧ (mine s).reply = some none) :=
  ⟨⟨slot_of _ _ (by decide +kernel), by decide +kernel⟩, ⟨slot_of _ _ (by decide +kernel), by decide +kernel⟩,
    slot_of _ _ (by decide +kernel), by decide +kernel⟩

/-- Records 0 and 64 and a completion word of a page that is there, and a page that is not; a dependence on a launch not accepted yet, and on
one of the last 256; 63 and 64 pending, and one of them come back from a pre-emption. -/
theorem witness_Launches_more :
    (let s := on { rich [] with stcnt := (Vector.replicate 16 0).set 15 1 }
     Slot s [.reg 0] ∧ me s < 256 ∧ (mine s).stcnt[(15 : Fin 16)] ≠ 0 ∧ holds (mine s) G0 = true) ∧
    (let s := pairWorld { rich [] with sigs := [sig0] }
     Slot s [.reg 0] ∧ leadsPair s (me s) = true ∧ sig0 ∈ (mine s).sigs ∧ sig0.word = true) ∧
    (let s := world (rich []) (kern .running .running)
     let seen (va : Nat) : Bool := hPresent (bindOf s 0 va) && hRead (bindOf s 0 va)
     let dep (seq : Nat) : BitVec 512 := BitVec.ofNat 512 (3 * 2 ^ 128 + (seq + 3 * 2 ^ 32 + 2 ^ 63) * 2 ^ 256)
     descRec desc3 = 0 ∧ descCw desc3 = 0 ∧ seen 0 = true ∧ seen 0x3FFFFFF8 = true ∧ seen 0x40000000 = false ∧
      fld desc3 255 140 = 0 ∧ fld desc3 127 112 = 0 ∧ fld desc3 63 48 = 0 ∧ (∀ k, k < 4 → fld desc3 (317 + 64 * k) (292 + 64 * k) = 0) ∧
      queueIndex s 0 (descQueue desc3) = some 7 ∧ queueAt s 7 = some (queueOf .active []) ∧ (queueOf .active []).st ≠ .torn ∧ pendingOf s (queueOf .active []) < 64 ∧
      (dep 9).getLsbD 319 = true ∧ (queueOf .active []).nextSeq ≤ ((dep 9).extractLsb' 256 64).setWidth 32 ∧ fld ((dep 9).extractLsb' 256 64) 35 32 = 3 ∧
      (dep 5).getLsbD 319 = true ∧ ((dep 5).extractLsb' 256 64).setWidth 32 < (queueOf .active []).nextSeq ∧ isLive s 7 5 = true ∧
      acceptCode s 0 desc3 false = 0 ∧ acceptCode s 0 (dep 9) false = 4 ∧ acceptCode s 0 (dep 5) false = 0 ∧
      acceptCode s 0 (BitVec.ofNat 512 (3 * 2 ^ 128 + 0x40000000)) false = 5 ∧ acceptCode s 0 (BitVec.ofNat 512 (3 * 2 ^ 128 + 0x40000000 * 2 ^ 64)) false = 5) ∧
    (let s := { State.reset with kernels := [{ kern .queued .free with saved := true }] }
     let l (n : Nat) : List Launch := (List.range n).map fun i => launch0 (BitVec.ofNat 32 i)
     pendingOf s (queueOf .active (l 63)) < 64 ∧ 64 ≤ pendingOf s (queueOf .active (l 64)) ∧
      pendingOf s (queueOf .active ({ launch0 5 with kernel := some 0 } :: l 63)) = 63) :=
  ⟨⟨slot_of _ _ (by decide +kernel), by decide +kernel⟩, ⟨slot_of _ _ (by decide +kernel), by decide +kernel⟩, by decide +kernel, by decide +kernel⟩

/-- A stair in a delay word. -/
theorem witness_Stairs_delay :
    let s := on { regs [] with delay := some { left := 1, target := 5 } }
    Slot s [] ∧ me s < 256 ∧ (mine s).delay ≠ none := ⟨slot_of _ _ (by decide +kernel), by decide +kernel⟩

/-- A held cause 0x07 of the last call; a declared tile past the rows covered, the first of two. -/
theorem witness_MatrixCall_refusals :
    (let s := on (setStatus (setStatus withEntry 28 28 1) 27 20 7)
     Slot s [] ∧ (mine s).mx.run = none ∧ mHeld (mine s) = true ∧ mCause (mine s) = 0x07 ∧
      ∀ d ∈ declared (calledEntry (mine s) 2) (mine s).mp[0], let a := ((mine s).t.toList.getD d.2.1 TileReg.zero).a
        ¬ (tRows a ≠ 0 ∧ capRows s (me s) < tBase a + tRows a)) ∧
    (let s := on { withEntry with caps := Vector.replicate 6 3 }
     let e := calledEntry (mine s) 2
     let a (d : Nat × Nat × Nat) := ((mine s).t.toList.getD d.2.1 TileReg.zero).a
     Slot s [] ∧ mHeld (mine s) = false ∧ (declared e (mine s).mp[0]).length = 2 ∧
      ∀ d ∈ (declared e (mine s).mp[0]).take 1, tRows (a d) ≠ 0 ∧ capRows s (me s) < tBase (a d) + tRows (a d)) :=
  ⟨⟨slot_of _ _ (by decide +kernel), by decide +kernel⟩, slot_of _ _ (by decide +kernel), by decide +kernel⟩

/-- Rows past those covered; lanes that a load reads and one it does not. -/
theorem witness_VectorTileAccess_more :
    (let s := on { rich [] with caps := Vector.replicate 6 3 }
     Slot s [.reg 0, .reg 1] ∧ me s < 256 ∧ tileBusy (mine s) 4 = false ∧ capFails s (me s) tile4.a = true ∧ routineHolds (mine s) 4 = false) ∧
    (let p (j : Nat) : Option Nat := if j = 127 then none else some (4 * j)
     (∀ j x i, j < 128 → i < 4 → p j = some x → tileUndef (rich []) (x + i) = false ∧ beingWritten (rich []) 4 (x + i) = false) ∧ (rich []).tPoison = [] ∧
      p 0 = some 0 ∧ p 127 = none) := by
  refine ⟨⟨slot_of _ _ (by decide +kernel), by decide +kernel⟩, ?_, by decide +kernel, by decide +kernel, by decide +kernel⟩
  have hu : (rich []).undef = [] := by decide +kernel
  have ho : openOf (rich []) = [] := by decide +kernel
  intro j x i _ _ _
  constructor
  · simp [tileUndef, hu, spGet]
  · simp [beingWritten, ho, coverOf]

/-- SETF 7 takes the row format, of floating point and of integers. -/
theorem witness_MicroControl_setf :
    fmtInt (rowFmt routine) = false ∧ fmtInt (rowFmt { routine with cfg := BitVec.ofNat 24 ((encodeFmt .int8).toNat * 2 ^ 18) }) = true := by decide +kernel

/-- A page that holds a page table, and one that does not, under the same handle. -/
theorem witness_TileCopies_tables :
    (let s := world (rich [49152]) (kern .running .running)
     Slot s [.reg 0] ∧ tableFails s (me s) ((mine s).h[(1 : Fin 16)]) (outSpans 49152 tile4.a tile4.b) = true ∧ hPresent ((mine s).h[(1 : Fin 16)]) = true ∧
      tableFails s (me s) ((mine s).h[(1 : Fin 16)]) [(49152, 8)] = true) ∧
    tableFails (on (rich [])) 0 ((rich []).h[(1 : Fin 16)]) (outSpans 49152 tile4.a tile4.b) = false ∧
    tableFails (on (rich [])) 0 ((rich []).h[(1 : Fin 16)]) [(0, 723408)] = false :=
  ⟨⟨slot_of _ _ (by decide +kernel), by decide +kernel⟩, by decide +kernel, by decide +kernel⟩

/-- A poisoned word of the tile store, read by the hall of its core. -/
theorem witness_StateWindow_poison :
    let s := frozen { rich [] with tPoison := [8] } (rich [0x800001])
    Slot s [.reg 0, .reg 1] ∧ 256 ≤ me s ∧ reachable s 0 = true ∧ mapped s 0 0x800001 = true ∧ wordPoisoned (coreOf s 0) 0x800001 = true ∧
      wordPoisoned (coreOf s 0) 0x800000 = false := ⟨slot_of _ _ (by decide +kernel), by decide +kernel⟩

/-- A pair's leading core with a mismatch pending; a record of a pair that has left it, and one that has not. -/
theorem witness_TrapTaking_pair :
    (let s := pairWorld { rich [] with causes := [{ code := 0x0F, detail := 0, held := false }] }
     leadsPair s 0 = true ∧ (coreOf s 0).run = .running ∧ nextCause (coreOf s 0).causes = some { code := 0x0F, detail := 0, held := false }) ∧
    (let s := { modCore (pairWorld (rich [])) 256 (fun _ => { regs [] with run := .running, queue := [heldRec] }) with now := 100000 }
     leadsPair s 0 = true ∧ (coreOf s 256).request = none ∧ (coreOf s 256).reply = none ∧ (coreOf s 256).qTime + 2 * periodOf s 0 < s.now ∧
      ¬ (coreOf s 256).qTime + 2 * periodOf s 0 < 1) := by decide +kernel

/-- Each check of a bank command, its code taken from the table of R258. -/
theorem witness_BankCommands_checks :
    let k := { tileCopy (.bkc 4) with h := bankPage, a := tile4.a &&& ~~~ (BitVec.ofNat 64 (15 * 2 ^ 50)) }
    let s := bankWorld bankPage 6
    let c (r : BitVec 512) : Nat := bankRefusal s 0 k r
    c 0 = 1 ∧ c 7 = 1 ∧ c (bankRec 6 ||| (1 : BitVec 512) <<< 511) = 1 ∧ c (bankRec 6 ||| (1 : BitVec 512) <<< 12) = 1 ∧
      c (6 + (4 : BitVec 512) <<< 9) = 3 ∧ c (bankRec 2 ||| (1 : BitVec 512) <<< 13) = 3 ∧
      c (bankRec 6 ||| (7 : BitVec 512) <<< 5) = 4 ∧ c (bankRec 6 ||| (1 : BitVec 512) <<< 64) = 5 ∧ c (1 : BitVec 512) = 5 ∧
      bankRefusal s 0 { k with h := mkHandle 1 true true 0 0 0 } (bankRec 6) = 6 ∧
      bankRefusal s 0 { k with h := mkHandle 1 true false 0 (5 * 2 ^ 40) 0 } (bankRec 5) = 7 ∧ bankRefusal s 0 { k with h := mkHandle 2 true true 0 (5 * 2 ^ 40) 0 } (bankRec 6 ||| (0x1000 : BitVec 512) <<< 48) = 8 ∧
     
      c (bankRec 2) = 9 ∧ c (bankRec 6) = 0 ∧ c (bankRec 5) = 0 ∧ c (bankRec 1) = 0 := by decide +kernel

/-- An image that is none; a pre-emption that is urgent, an arrival standing. -/
theorem witness_Images_refused :
    (let d := toBytes 64 0
     let v (lo n : Nat) : Nat := ofBytes ((d.drop lo).take n)
     v 0 8 ≠ 0xC7E50714) ∧
    (let r : BitVec 64 := 0x0011000000000102
     let s := modCore (frozen { rich [] with abuf := [msg9] } (withCopy (rich []) { tileCopy (.csave 0) with h := bankPage })) 0 fun c =>
       { c with run := .trapped r, kernel := none }
     heldRecord s 0 = true ∧ (coreOf s 0).copies = [] ∧ messagesDone s 0 = true ∧ (coreOf s 0).abuf ≠ [] ∧ fld r 55 48 = 0x11 ∧ r.getLsbD 8 = true) := by
  decide +kernel

/-- The last word of an entry's read, clean and poisoned, and of its write; a failure that the other chips report. -/
theorem witness_Timetables_units :
    let x (b : FabBody) : FabReq := { id := 0, port := 0, src := 0, tag := 0, units := [(0x1078, 8, 120)], data := List.replicate 128 0, covers := [], raised := true, bad := false, body := b }
    let w (b : FabBody) : State := { runWorld (some 0) 2 hdrOf with fabric := [x b], nextReq := 1 }
    (∀ b ∈ [FabBody.entryRead 0 0, .entryWrite 0 0 true []],
      (w b).fabric.find? (fun y => y.id == 0) = some (x b) ∧ (x b).units = [(0x1078, 8, 120)] ∧ reqReady (w b) (x b) = true ∧ (0 : Nat) < (w b).nextReq) ∧
    findRun (w (.entryRead 0 0)) 0 = some (runOf (some 0) 2) ∧ (runOf (some 0) 2).ended = false ∧ memberCore (kern .running .running) (eDstMem (entryOf 2)) < 1000 ∧
      poisonedIn [0x1060] 0x1078 8 ≠ [] ∧ poisonedIn (w (.entryRead 0 0)).poison 0x1078 8 = [] ∧ (w (.entryWrite 0 0 true [])).replicas = [] ∧
    (let s := runWorld none 0 hdrOf
     entryLines s 0 0x40000000 1 false = none ∧ findRun s 0 = some (runOf none 0) ∧ 1 < chipsOf podKern ∧
      findKernel { s with kernels := [podKern] } (runOf none 0).kernel = some podKern) := by decide +kernel

/-- An access of a host over Ultra Ethernet, and of another device; a member that has left before a patch write reached it. -/
theorem witness_FabricTraffic_more :
    (let s := { world (rich []) (kern .running .running) with links := State.reset.links.set 16 { Link.zero with entry := BitVec.ofNat 64 (2 * 2 ^ 61) } }
     carries (linkAt s 16) = true ∧ s.boot ≠ .safe ∧ (0xFFFF : BitVec 16) = 0xFFFF ∧ 16 ≤ (16 : Fin 20).val) ∧
    (let s := modCore (world (rich []) (kern .running .running)) 0 fun c => { c with run := .vacant }
     isAway s 0 0 = true) ∧ isAway (world (rich []) (kern .running .running)) 0 0 = false ∧
    (let s := { linkUp (world (rich []) (kern .running .running)) with fabric := [{ reqOf .write 0 16 with src := 0xFFFF }] }
     ∃ y ∈ s.fabric, y.port = (viaOf 1 8 0xFFFF).port ∧ y.src = vSrc (viaOf 1 8 0xFFFF).hdr ∧ y.body = .write) := by
  refine ⟨by decide +kernel, by decide +kernel, by decide +kernel, _, List.mem_singleton.2 rfl, ?_⟩
  decide +kernel

/-- The link over which this chip is aligned, with two others nearer by their DEPTH, and with none; a PTP packet where none is looked for. -/
theorem witness_LinksAndTime_lost :
    let al (d : Nat) : Link := { Link.zero with entry := BitVec.ofNat 64 (3 * 2 ^ 61 + 5 * 2 ^ 40 + d * 2 ^ 32) }
    let s := { State.reset with links := ((State.reset.links.set 2 (al 1)).set 3 (al 2)).set 4 (al 4), upLink := some 2, depth := 1 }
    let near (o : Fin 20) : Prop := o ≠ 2 ∧ o.val < 16 ∧ fld (s.links[o]).entry 55 40 ≠ 0xFFFF ∧ fld (s.links[o]).entry 35 32 ≠ 0
    fld (s.links[(2 : Fin 20)]).entry 63 61 ≠ 0 ∧ near 3 ∧ near 4 ∧ fld (s.links[(3 : Fin 20)]).entry 35 32 ≤ fld (s.links[(4 : Fin 20)]).entry 35 32 ∧
      (∀ o : Fin 20, ¬ ((port 3 0).links[o]).entry.getLsbD 32) ∧ carries (linkAt s 2) = true ∧
      (2 : Fin 20).val ≠ 16 ∧ (2 : Fin 20).val ≠ 18 ∧ (0 : Fin 5) ∉ [(1 : Fin 5), 2, 4] ∧ (3 : Fin 5) ∉ [(1 : Fin 5), 2, 4] ∧ (4 : Fin 5) ∈ [(1 : Fin 5), 2, 4] := by
  decide +kernel

/-- A mailbox message from a scheduler, and from a chip of the pod. -/
theorem witness_StartUp_senders :
    let s := linkUp State.reset
    let v := viaOf 7 1 5
    carries (linkAt s v.port.val) = true ∧ vSrc v.hdr ≠ 0xFFFF ∧ senderVia (.scheduler v) = some v ∧ senderVia (.host v) = some v := by decide +kernel

/-- Nothing left of a Destroyed context, and every one of 256 queues taken, none by context 0. -/
theorem witness_Contexts_more :
    (ctx0 .destroyed).moves = [] ∧
    (let s := { ctx0 .ready with queues := Vector.replicate 256 (some { queueOf .empty [] with ctx := 1 }) }
     ctxLives s 0 = true ∧ ((allQueues s).filter fun q => q.2.ctx == 0).length < 16 ∧ ∀ i, i < 256 → queueAt s i ≠ none) := by decide +kernel

/-- The reports of a placement: without lock-step, and of the last member loaded with it. -/
theorem witness_KernelsRun_reports :
    let k := { kern .placed .held with record := BitVec.ofNat 1024 (2 ^ 75 + 2 ^ 96), loaded := [0] }
    let s := world (rich []) k
    recLock (kern .queued .free).record = false ∧ (kern .queued .free).launch.issuer = none ∧ (kern .queued .free).queue = 7 ∧
      queueAt headWorld 7 = some (queueOf .active [{ launch0 5 with kernel := some 0 }]) ∧
      recLock k.record = true ∧ k.launch.issuer = none ∧ queueAt s k.queue = some (queueOf .active []) ∧ residents k = [0] ∧ findKernel s k.id = some k ∧
      max ((s.now / 252 / 10 + 1) * 10) 0 < 2 ^ 64 := by decide +kernel

/-- A page whose tables are absent; a kept range with a page that moves, and with a Held page. -/
theorem witness_PageLife_more :
    (let s := world (rich []) (kern .running .running)
     entryPlace s 0 0x40000000 0 = none ∧ walk s 0 0x40000000 = none ∧ moveAt s 0 0x40000000 = none ∧ tableOf (readEntry s 8) 4096 = none ∧
      wrongPlace none 0x10000 0 = false) ∧
    (let r : BitVec 256 := BitVec.ofNat 256 (0x40000000 * 2 ^ 64 + 2 ^ 176 + (2 ^ 64 - 1) * 2 ^ 192)
     let s := world (rich []) (kern .running .running)
     let s := { s with contexts := s.contexts.set 0 { s.contexts[(0 : Fin 32)] with hints := [r] }
                       mem := memWrite [] (at_ 0 (toBytes 8 (leafWord 0 true true 2).toNat)) }
     let m : PageMove := { ctx := 0, va := 0, psz := 2, old := 0, frame := none, rebound := false, held := false }
     s.boot ≠ .safe ∧ ctxLives s 0 = true ∧ hintOf s 0 5 = some r ∧ hBaseVa r = 0 ∧ 0 + hLen r = 0x40000000 ∧ s.moves = [] ∧
      walk s 0 0 = some ⟨0, 2, leafWord 0 true true 2⟩ ∧ fld (leafWord 0 true true 2) 58 56 = 2 ∧ (s.contexts[(0 : Fin 32)]).root.toNat % 8 = 0 ∧
      m ∈ { s with moves := [m] }.moves ∧ m.ctx = 0 ∧ m.va.toNat < hBaseVa r + hLen r) := by decide +kernel

/-- A member made vacant before a step down; a member vacant and one frozen at a step up. -/
theorem witness_OperatingPoints_vacant :
    let k := kern .running .running
    isOff (modCore (opWorld []) 0 fun c => { c with run := .vacant, kernel := none }) k 0 = true ∧ isOff (opWorld []) k 0 = false ∧
      (∀ k' ∈ (opWorld []).kernels, k'.id ≠ k.id → 0 ∉ residents k') := by decide +kernel

/-- A pair frozen on a word whose signatures differ. -/
theorem witness_Reliability_differs :
    let s := modCore (pairWorld (rich [])) 0 fun c => { c with run := .exiting, differs := some 0 }
    leadsPair s 0 = true ∧ (coreOf s 0).differs ≠ none ∧ (coreOf s 0).run = .exiting ∧ (kernelAt s 0).all (fun k => k.group != .vacating) = true := by
  decide +kernel
/-! ### An image that `crest` accepts -/

theorem ofBytes_toBytes (n x : Nat) : ofBytes (toBytes n x) = x % 256 ^ n := by
  induction n generalizing x with
  | zero => simp [toBytes, ofBytes, Nat.mod_one]
  | succ n ih =>
    simp only [toBytes, ofBytes, ih, BitVec.toNat_ofNat, show (2 : Nat) ^ 8 = 256 from rfl]
    rw [Nat.pow_succ, Nat.mul_comm (256 ^ n) 256, Nat.mod_mul]

theorem toBytes_ofBytes (l : List Byte) : toBytes l.length (ofBytes l) = l := by
  induction l with
  | nil => rfl
  | cons b r ih =>
    have hb : b.toNat < 256 := b.isLt
    simp only [List.length_cons, toBytes, ofBytes]
    have h1 : (b.toNat + 256 * ofBytes r) / 256 = ofBytes r := by omega
    have h2 : BitVec.ofNat 8 (b.toNat + 256 * ofBytes r) = b := by
      apply BitVec.eq_of_toNat_eq; simp only [BitVec.toNat_ofNat]; omega
    rw [h1, h2, ih]

/-- Bytes written at an address are what a read of it gives. -/
theorem memRead_store (l : List Byte) (m : List Host.Cell) (a : Nat) : memRead (memWrite m (at_ a l)) a l.length = l := by
  apply List.ext_getElem
  · simp [memRead]
  · intro i h1 h2
    simp only [memRead, List.getElem_map, List.getElem_range]
    exact memByte_store l m a i h2

/-- The header of an image of no rows and no open segment, with checksum `x`. -/
def head (x : Nat) : List Byte :=
  [0x14, 0x07, 0xE5, 0xC7, 0, 0, 0, 0, 0xD0, 0x09, 0x0B, 0, 0, 0, 0, 0] ++ toBytes 4 x ++ List.replicate 44 0

theorem head_parts (x : Nat) (body : List Byte) :
    ((head x ++ body).drop 0).take 8 = toBytes 8 imageTag ∧ ((head x ++ body).drop 8).take 4 = toBytes 4 723408 ∧
    ((head x ++ body).drop 12).take 2 = toBytes 2 0 ∧ ((head x ++ body).drop 15).take 1 = toBytes 1 0 ∧ ((head x ++ body).drop 16).take 4 = toBytes 4 x ∧
    ((head x ++ body).drop 40).take 24 = toBytes 24 0 ∧ (head x ++ body).drop 64 = body := by
  refine ⟨rfl, rfl, rfl, rfl, rfl, rfl, rfl⟩

theorem crcBit_lt (c : Nat) (h : c < 2 ^ 32) : crcBit c < 2 ^ 32 := by
  unfold crcBit
  split
  · exact Nat.xor_lt_two_pow (by simp only [Nat.shiftRight_eq_div_pow]; omega) (by decide)
  · simp only [Nat.shiftRight_eq_div_pow]; omega

theorem crc32c_lt (l : List Byte) : crc32c l < 2 ^ 32 := by
  have h : ∀ (l : List Byte) (c : Nat), c < 2 ^ 32 → crcUpdate c l < 2 ^ 32 := by
    intro l
    induction l with
    | nil => exact fun c h => h
    | cons b r ih =>
      intro c hc
      refine ih _ ?_
      unfold crcByte
      have hb := b.isLt
      have h0 : c ^^^ b.toNat < 2 ^ 32 := Nat.xor_lt_two_pow hc (by omega)
      exact crcBit_lt _ (crcBit_lt _ (crcBit_lt _ (crcBit_lt _ (crcBit_lt _ (crcBit_lt _ (crcBit_lt _ (crcBit_lt _ h0)))))))
  exact Nat.xor_lt_two_pow (h l _ (by decide)) (by decide)

/-- The image with body `b`. -/
def image (b : List Byte) : List Byte := head (crc32c b) ++ b

theorem image_length (b : List Byte) (h : b.length = 723344) : (image b).length = 723408 := by
  simp [image, head, toBytes, h]

/-- Core 0 vacant, the image at the start of the page that the `crest` names. -/
def imageWorld (b : List Byte) : State :=
  let s := onHall (withCopy (rich []) { tileCopy (.crest 0) with h := bankPage })
  { s with mem := memWrite [] (at_ (hBase bankPage) (image b)) }

theorem imageWorld_mem (b : List Byte) : (imageWorld b).mem = memWrite [] (at_ (hBase bankPage) (image b)) := by
  simp only [imageWorld]

/-- The conditions of the image's own clauses, and the two before it that refuse it: a checksum that is not its body's, and more rows
than the core has. -/
theorem witness_Images_accepted (b : List Byte) (h : b.length = 723344) :
    let k := { tileCopy (.crest 0) with h := bankPage }
    let s := imageWorld b
    let lim := hSize k.h - k.off
    let pa := hBase k.h + k.off
    let len := min lim (ofBytes (memRead s.mem (pa + 8) 4))
    let d := toBytes (max 64 len) (ofBytes (memRead s.mem pa (max 64 len)))
    let v (lo n : Nat) : Nat := ofBytes ((d.drop lo).take n)
    refCopy s { agent := .service 0, id := 0 } = some k ∧ mayPerform s 256 k = true ∧ (coreOf s 0).run = .vacant ∧ len = 723408 ∧
      d = image b ∧ v 0 8 = 0xC7E50714 ∧ v 15 1 = 0 ∧ v 40 24 = 0 ∧ v 8 4 = 723408 + 4096 * v 12 2 ∧ v 8 4 ≤ lim ∧
      v 16 4 = crc32c ((d.take (v 8 4)).drop 64) ∧ v 12 2 ≤ capRows s 0 ∧ poisonedIn s.poison pa (max 64 len) = [] := by
  intro k s lim pa len d v
  have hp : pa = hBase bankPage := Nat.add_zero _
  have hm : s.mem = memWrite [] (at_ pa (image b)) := by rw [hp]; exact imageWorld_mem b
  have hl := image_length b h
  have hread : memRead s.mem pa 723408 = image b := by rw [hm, ← hl]; exact memRead_store _ _ _
  obtain ⟨p0, p8, p12, p15, p16, p40, p64⟩ := head_parts (crc32c b) b
  have h8 : memRead s.mem (pa + 8) 4 = toBytes 4 723408 := by
    rw [← p8]
    apply List.ext_getElem
    · rfl
    · intro i h1 h2
      have hi : i < 4 := by simpa [memRead] using h1
      simp only [memRead, List.getElem_map, List.getElem_range, List.getElem_take, List.getElem_drop]
      rw [hm, Nat.add_assoc]
      exact memByte_store (image b) [] pa (8 + i) (by omega)
  have hlim : lim = 2097152 := by show hSize ({ tileCopy (.crest 0) with h := bankPage } : Copy).h - ({ tileCopy (.crest 0) with h := bankPage } : Copy).off = _; decide +kernel
  have hlen : len = 723408 := by
    show min lim (ofBytes (memRead s.mem (pa + 8) 4)) = _
    rw [h8, ofBytes_toBytes, hlim]; rfl
  have hmax : max 64 len = 723408 := by rw [hlen]; rfl
  have hd : d = image b := by
    show toBytes (max 64 len) (ofBytes (memRead s.mem pa (max 64 len))) = _
    rw [hmax, hread, ← hl]; exact toBytes_ofBytes _
  have hv (lo n : Nat) : v lo n = ofBytes (((head (crc32c b) ++ b).drop lo).take n) := by
    show ofBytes ((d.drop lo).take n) = _
    rw [hd]; rfl
  have v8 : v 8 4 = 723408 := by rw [hv, p8]; exact (ofBytes_toBytes _ _).trans (by rfl)
  have v12 : v 12 2 = 0 := by rw [hv, p12]; exact (ofBytes_toBytes _ _).trans (by rfl)
  refine ⟨by rfl, by rfl, by rfl, hlen, hd, by rw [hv, p0]; exact (ofBytes_toBytes _ _).trans (by rfl), by rw [hv, p15]; exact (ofBytes_toBytes _ _).trans (by rfl), by rw [hv, p40]; exact (ofBytes_toBytes _ _).trans (by rfl),
    by rw [v8, v12], by rw [v8, hlim]; decide, ?_, by rw [v12]; exact Nat.zero_le _, by rfl⟩
  rw [hv, p16, ofBytes_toBytes, v8, hd, show (image b).take 723408 = image b from List.take_of_length_le (Nat.le_of_eq hl), image, p64]
  exact Nat.mod_eq_of_lt (crc32c_lt b)

/-- There is such an image. -/
theorem witness_Images_body : (List.replicate 723344 (0 : Byte)).length = 723344 := List.length_replicate


/-! ### Witnesses for the statements about numbers -/

/-- The largest term of log 5, another whose low bits a window of 4 cuts; a NaN, opposite infinities, one infinity, zeros
only; terms on the quantum 2^-2, their sum of 5 below 2^4, in one step; a cut sum of 0, a sum that is not, and one that
carries out of its window. -/
theorem witness_WindowSums :
    (let t : List Ext := [.num false 3 0, .num true 1 5]
     (∀ x ∈ t, ∃ n m e, x = .num n m e) ∧ Ext.num true 1 5 ∈ t ∧ 0 < 1 ∧ ((Nat.log2 1 : Nat) : Int) + 5 = 5 ∧ ((Nat.log2 3 : Nat) : Int) + 0 ≤ 5 ∧
       (0 : Int) < 5 - (4 : Nat) + 1 ∧ 3 % 2 ^ ((5 - (4 : Nat) + 1 : Int) - 0).toNat ≠ 0) ∧
    (∃ x ∈ [Ext.nan true, .num false 1 0], x.isNan = true) ∧ (∀ x ∈ [Ext.inf false, .inf true], x.isNan = false) ∧
    (∀ x ∈ [Ext.inf true, .num false 1 0], x.isNan = false) ∧ Ext.inf (!true) ∉ [Ext.inf true, .num false 1 0] ∧
    (∀ x ∈ [Ext.num true 0 3, .num false 0 1], ∃ n e, x = .num n 0 e) ∧
    ((∀ x ∈ [((Ext.num false 3 (-2)), (3 : Int)), (.num true 1 (-1), -2)], IsValue x.1 x.2 (-2)) ∧
      (([((Ext.num false 3 (-2)), (3 : Int)), (.num true 1 (-1), -2)].map fun x => x.2.natAbs).sum < 2 ^ 4) ∧
      [((Ext.num false 3 (-2)), (3 : Int)), (.num true 1 (-1), -2)].length ≤ 1 * 2) ∧
    (wstep 4 [.num false 1 5, .num true 1 5, .num false 3 0] = (.num false 0 0, true) ∧ (wstep 4 [.num false 15 0, .num false 15 0]).2 = false ∧
      (wstep 4 [.num false 15 0, .num false 14 0]).2 = true) := by
  refine ⟨⟨?_, by decide, by decide, by decide, by decide, by decide, by decide⟩, ⟨_, List.mem_cons_self, rfl⟩, by decide, by decide, by decide, ?_,
    ⟨?_, by decide, by decide⟩, by decide +kernel⟩ <;> intro x hx <;> simp only [List.mem_cons, List.not_mem_nil, or_false] at hx <;>
    rcases hx with rfl | rfl
  · exact ⟨_, _, _, rfl⟩
  · exact ⟨_, _, _, rfl⟩
  · exact ⟨_, _, rfl⟩
  · exact ⟨_, _, rfl⟩
  · exact ⟨false, 3, -2, rfl, by decide, by decide⟩
  · exact ⟨true, 1, -1, rfl, by decide, by decide⟩

/-- A rounding that loses nothing; magnitudes within each format and beyond it: 127.5 and 127.25 to INT8 either way, 448 and 512
to E4M3, 6 and 8 to E2M1, the greatest FP32 number and its double; 2^-149 below the least normal FP32 number. -/
theorem witness_Rounding_conversions :
    (roundAt .rn false 255 (-1) 0).1 = 128 ∧ (roundAt .rn true 255 (-1) 0).1 = 128 ∧ (roundAt .rn false 509 (-2) 0).1 = 127 ∧ (roundAt .rn true 300 0 0).1 = 300 ∧
    MagLe (roundAt .rn false 7 6 (8 - 3)).1 (8 - 3) 7 6 ∧ ¬ MagLe (roundAt .rn false 1 9 (9 - 3)).1 (9 - 3) 7 6 ∧
    MagLe (roundAt .rn false 6 0 (2 - 1)).1 (2 - 1) 3 1 ∧ ¬ MagLe (roundAt .rn false 8 0 (3 - 1)).1 (3 - 1) 3 1 ∧
    MagLe (roundAt .rn false (2 ^ 24 - 1) 104 104).1 104 (2 ^ 24 - 1) 104 ∧ ¬ MagLe (roundAt .rn false (2 ^ 24 - 1) 105 105).1 105 (2 ^ 24 - 1) 104 ∧
    (roundAt .rn false 3 (-150) (-149)).2 = true ∧ ¬ MagLe 1 (-126) (roundAt .rn false 3 (-150) (-172)).1 (-172) := by decide +kernel

/-- A NaN, a signalling one, and numbers of both signs. -/
theorem witness_VectorMasks_conditions :
    isNan32 0x7FC00000 = true ∧ isSig32 0x7FC00000 = false ∧ isSig32 0x7F800001 = true ∧ isNan32 0x3F800000 = false ∧
    units32 0xBF800000 < units32 0x3F800000 ∧ units32 0x80000000 = units32 0 := by decide +kernel

/-- Lanes: none, one that is a NaN, numbers only; operands of each exact case: 3, 128, 4, -8, 4, and the least subnormal. -/
theorem witness_VectorReduceTranscend_cases :
    (∀ j, ¬ (j < 128 ∧ (fun _ : Nat => false) j = true)) ∧ isNan32 (lane (BitVec.ofNat 4096 0x7F800001) 0) = true ∧
    isNan32 (lane (0 : Vec) 0) = false ∧ IsValue (fp 0x40400000) 3 0 ∧ 128 * 2 ^ 149 ≤ units32 0x43000000 ∧ isNan32 0x43000000 = false ∧
    IsValue (fp 0x40800000) 1 2 ∧ IsValue (fp 0xC1000000) (-1) 3 ∧ IsValue (fp 0x40800000) 1 (2 * 1) ∧ units32 0xC1000000 < 0 ∧
    units32 1 ≠ 0 ∧ -(2 ^ 23) < units32 1 ∧ units32 1 < 2 ^ 23 := by
  refine ⟨fun j h => (by simpa using h.2), by decide +kernel, by decide +kernel, ?_, by decide +kernel, by decide +kernel, ?_, ?_, ?_, by decide +kernel,
    by decide +kernel, by decide +kernel, by decide +kernel⟩
  · exact ⟨false, 0xC00000, -22, by decide +kernel, by decide +kernel, by decide⟩
  · exact ⟨false, 0x800000, -21, by decide +kernel, by decide +kernel, by decide⟩
  · exact ⟨true, 0x800000, -20, by decide +kernel, by decide +kernel, by decide⟩
  · exact ⟨false, 0x800000, -21, by decide +kernel, by decide +kernel, by decide⟩

/-- INT4 without its feature; a table whose second entry is 130; a block that an index fits, and one that none fits, of a NaN, an
infinity and numbers. -/
theorem witness_QuantiseDequantise_blocks :
    (Slot (on (vregs [])) [.reg 0] ∧ (mine (on (vregs []))).feat.getLsbD 7 = false) ∧
    (let tab : BitVec 128 := BitVec.ofNat 128 (127 + 130 * 256)
     tabValid tab = true ∧ (quant ([0x43FA0000, 0x7FC00000, 0x7F800000].map fp) .int8 tab).idx = 1 ∧
       (quant ([0x43FA0000].map fp) .int8 tab).sat = false ∧ (quant ([0x47C35000].map fp) .int8 tab).sat = true) :=
  ⟨⟨slot_of _ _ (by decide +kernel), by decide +kernel⟩, by decide +kernel⟩

/-! ### What the other changed statements need -/

/-- What is due came in this tick, and the agenda comes first; a cycle that comes before what is due. -/
theorem witness_StepRuns_agenda :
    (let s := { landWorld (some 0) with agenda := [.ev .thermalTrip] }
     settleStep s = none ∧ (dueStep s).isSome = true ∧ agendaFirst s = true) ∧
    (let s := modCore (stepWorld (encode (.add G0 (.reg 1) (.reg 2)))) 3 fun c => { c with await := [9] }
     settleStep s = none ∧ (dueStep s).isSome = true ∧ agendaFirst s = true ∧ nextAgent s = some 0 ∧ cycleFirst (timeTo s 0) 0 = true) := by
  decide +kernel

/-- A Ready and a Draining context, with a kernel placed and with none. -/
theorem witness_ContextLife_requests :
    let w (st : CtxSt) : State :=
      let s := world (rich []) (kern .placed .held)
      { s with contexts := s.contexts.set 0 { Context.zero with st := st } }
    (w .ready).boot ≠ .safe ∧ ((w .ready).contexts[(0 : Fin 32)]).st = .ready ∧ ((w .draining).contexts[(0 : Fin 32)]).st = .draining ∧
      (w .ready).kernels = [kern .placed .held] ∧ (kern .placed .held).ctx = 0 ∧ isPlaced (kern .placed .held) = true ∧
      isPlaced (kern .done .free) = false := by decide +kernel

/-- A lock-step pod group that ends while Held; a lock-step group inside the package; a completion word outside the page table, and
one within it. -/
theorem witness_KernelsRun_lock :
    (let k := { kern .placed .held with record := BitVec.ofNat 1024 (4 * 2 ^ 70 + 2 ^ 75 + 2 ^ 96) }
     let s := world (rich []) k
     findKernel s 0 = some k ∧ isPlaced k = true ∧ k.group = .held ∧ recLock k.record = true ∧ recLevel k.record = 4 ∧ k.launch.issuer = none ∧
       queueAt s k.queue = some (queueOf .active [])) ∧
    recLock (BitVec.ofNat 1024 (2 ^ 75 + 2 ^ 96)) = true ∧ recLevel (BitVec.ofNat 1024 (2 ^ 75 + 2 ^ 96)) ≠ 4 ∧
    (let s := world (rich []) (kern .running .running)
     let h := bindOf s 0 0x3FFFFFF8
     hPresent h = true ∧ hBase h + (0x3FFFFFF8 - hVa h) = 0x3FFFFFF8 ∧ inTables s 0x3FFFFFF8 8 = false ∧ inTables s 0x1FFFF8 8 = true) := by
  decide +kernel

/-- An access of one byte at the end of a space, which Ultra Ethernet alone serves; a state in which the
management core's row map is not early. -/
theorem witness_FabricTraffic_sizes :
    (16 ≤ (16 : Fin 20).val ∧ (15 : Fin 20).val < 16 ∧ offsetOf (populated 0 - 1) + 1 ≤ populated (spaceOf (populated 0 - 1)) ∧ ¬ (8 : Nat) ≤ 1) ∧
    ({ State.reset with boot := .operational }.boot ≠ .reset ∧ { State.reset with boot := .operational }.boot ≠ .newel ∧
      { State.reset with boot := .operational }.boot ≠ .selfTest ∧ fld (5 : BitVec 64) 63 8 = 0) := by decide +kernel

end Sys2Proof.Tests
end

section
/-!
The control registers: what `getc` and `setc` do by the access of each (05_word.md R83 to R86; 07_scalar.md R141, R142).
-/
namespace Sys2Proof.Machine

open Sys2Proof.Safety

/-! ### What `getc` reads -/

/-- Writing a core as it stands changes no core. -/
theorem coreOf_setCore_self (s : State) (n m : Nat) : coreOf (setCore s n (coreOf s n)) m = coreOf s m := by
  rw [coreOf_setCore]
  split
  · subst_vars; rfl
  · rfl

theorem capRows_setCore_self (s : State) (n m : Nat) : capRows (setCore s n (coreOf s n)) m = capRows s m := by
  simp only [capRows, ownCap, inPair, coreOf_setCore_self]
  rfl

/-- No control register turns on whether the core is listed. -/
theorem controlReg_setCore_self (s : State) (n m i : Nat) :
    controlReg (setCore s n (coreOf s n)) m i = controlReg s m i := by
  simp only [controlReg, coreOf_setCore_self, capRows_setCore_self]
  rfl

/-- A row of a vector that is read as a list. -/
theorem getD_toList {α : Type} {m : Nat} (v : Vector α m) (k : Fin m) (d : α) : v.toList.getD k d = v[k] := by
  rw [List.getD_eq_getElem?_getD, Vector.getElem?_toList, Vector.getElem?_eq_getElem k.isLt]
  rfl

/-- The six rows of SBASE stand at 0x02 to 0x07 (R83). -/
theorem controlReg_sbase (s : State) (n : Nat) (k : Fin 6) : controlReg s n (2 + k) = (coreOf s n).sbase[k] := by
  have hk : k.val < 6 := k.isLt
  have hin : (decide (0x02 ≤ 2 + k.val) && decide (2 + k.val < 0x08)) = true :=
    Bool.and_eq_true_iff.2 ⟨decide_eq_true (by omega), decide_eq_true (by omega)⟩
  unfold controlReg
  dsimp only
  rw [if_pos hin, Nat.add_sub_cancel_left]
  exact getD_toList _ k 0

/-- The six rows of SEXT stand at 0x08 to 0x0D (R83). -/
theorem controlReg_sext (s : State) (n : Nat) (k : Fin 6) : controlReg s n (8 + k) = (coreOf s n).sext[k] := by
  have hk : k.val < 6 := k.isLt
  have hout : ¬ (decide (0x02 ≤ 8 + k.val) && decide (8 + k.val < 0x08)) = true := fun h =>
    absurd (of_decide_eq_true (Bool.and_eq_true_iff.1 h).2) (by omega)
  have hin : (decide (0x08 ≤ 8 + k.val) && decide (8 + k.val < 0x0E)) = true :=
    Bool.and_eq_true_iff.2 ⟨decide_eq_true (by omega), decide_eq_true (by omega)⟩
  unfold controlReg
  dsimp only
  rw [if_neg hout, if_pos hin, Nat.add_sub_cancel_left]
  exact getD_toList _ k 0

/-- CAPROWS reads 0 while the device is in reset. -/
theorem controlReg_capRows (s : State) (n : Nat) :
    controlReg s n 0x0F = if s.boot = .reset then 0 else BitVec.ofNat 64 (capRows s n) := by
  have h : controlReg s n 0x0F = if (s.boot == .reset) = true then 0 else BitVec.ofNat 64 (capRows s n) := rfl
  rw [h]
  simp only [beq_iff_eq]

theorem controlReg_chklat (s : State) (n : Nat) :
    controlReg s n 0x17 = if (coreOf s n).chklat then 1 else 0 := by
  have h : controlReg s n 0x17 = (BitVec.ofBool (coreOf s n).chklat).setWidth 64 := rfl
  rw [h]
  cases (coreOf s n).chklat <;> rfl

/-! ### Access to TRAPREC (R83) -/

theorem traprecCheck_allowed {n : Nat} {i : Fin 26} (h : i ≠ 0x19 ∨ 256 ≤ n) : traprecCheck n i = [] := by
  refine if_neg fun hc => ?_
  obtain ⟨hi, hn⟩ := Bool.and_eq_true_iff.1 hc
  rcases h with h | h
  · exact h (Fin.ext (of_decide_eq_true hi))
  · exact absurd (of_decide_eq_true hn) (Nat.not_lt.2 h)

theorem traprecCheck_refused {n : Nat} (h : n < 256) : traprecCheck n 0x19 = [(0x03, 0)] :=
  if_pos (Bool.and_eq_true_iff.2 ⟨rfl, decide_eq_true h⟩)

/-! ### `getc` (R141) -/

theorem slotGetc_setCore_self (g : Guard) (d : Fin 32) (i : Fin 26) (s : State) :
    slotGetc g d i (setCore s (me s) (mine s)) (me s) = slotGetc g d i s (me s) := by
  simp only [slotGetc, controlReg_setCore_self]

/-- A scalar register holds what was written to it once the write has landed: nothing else of the cycle's end writes it. -/
theorem s_of_landed {fv : BitVec 32768} {c t : Core} {d : Fin 32} {v : BitVec 64} {w b : Nat}
    (h : tickStrip { t with pend := [] } = tickStrip { applyWrite fv c { when_ := w, by_ := b, act := .s d v } with pend := [] }) :
    t.s[d] = v := by
  have hs : t.s = c.s.set d v := congrArg Core.s h
  rw [hs]
  exact Vector.getElem_set_self d.isLt

/-- `getc` writes what its register reads to its scalar register. -/
theorem getc_writes (s : State) (g : Guard) (d : Fin 32) (i : Fin 26) (hi : Issues s)
    (ha : i ≠ 0x19 ∨ 256 ≤ me s) {v : BitVec 64} (hv : controlReg s (me s) i.val = v) :
    Writes (.getc g d i) s g (.s d v) 1 fun c => c.s[d] = v := by
  have hpre : (slotGetc g d i s (me s)).pre = [] := traprecCheck_allowed ha
  subst hv
  exact writes_of _ s (slotGetc g d i) g _ rfl hi (slotGetc_setCore_self g d i s)
    (plain_of rfl rfl hpre rfl rfl rfl) (readsPass_nil _) rfl rfl rfl rfl rfl _ fun _ _ _ _ h => s_of_landed h

theorem getc_traprec_traps (s : State) (g : Guard) (d : Fin 32) (hi : Issues s) (hm : me s < 256) :
    Traps (.getc g d 0x19) s 1 0x03 0 := by
  have hpre : (slotGetc g d 0x19 s (me s)).pre = [(0x03, 0)] := traprecCheck_refused hm
  exact traps_of _ s (slotGetc g d 0x19) 0x03 0 rfl hi (slotGetc_setCore_self g d _ s) rfl
    (slotStall_idle _ _ rfl rfl) rfl (readsPass_nil _) (by rw [hpre]; rfl)

/-! ### `setc` (R86, R142) -/

theorem slotSetc_setCore_self (g : Guard) (i : Fin 26) (b : Src) (s : State) :
    slotSetc g i b (setCore s (me s) (mine s)) (me s) = slotSetc g i b s (me s) := by
  simp only [slotSetc, sVal_setCore, coreOf_setCore_same]

theorem featureCheck_passes {c : Core} {k : Nat} (h : c.feat.getLsbD k = true) : featureCheck c k = [] :=
  if_pos h

theorem featureCheck_fails {c : Core} {k : Nat} (h : c.feat.getLsbD k = false) :
    featureCheck c k = [(0x02, BitVec.ofNat 32 k)] :=
  if_neg (by simp only [hasFeature, h, Bool.false_eq_true, not_false_iff])

/-- `setc` past its checks does to its core what the register's access says. -/
theorem setc_effects (s : State) (g : Guard) (i : Fin 26) (b : Src) (hi : Issues s) (hr : readsPass (mine s) [b])
    (ha : i ≠ 0x19 ∨ 256 ≤ me s)
    (hf : i ≠ 0x17 ∨ (sVal s (me s) 0 1 b).getLsbD 0 = false ∨ (mine s).feat.getLsbD 2 = true) :
    Effects (.setc g i b) s g (fun c => writeControl c i.val (sVal s (me s) 0 1 b)) .seq := by
  have hfeat : (if i.val = 0x17 && (sVal s (me s) 0 1 b).getLsbD 0 then featureCheck (mine s) 2 else []) = [] := by
    split
    · next h =>
      obtain ⟨h17, h1⟩ := Bool.and_eq_true_iff.1 h
      have hen := hf.resolve_left fun hne => hne (Fin.ext (of_decide_eq_true h17))
      exact featureCheck_passes (hen.resolve_left (by simp only [h1, Bool.true_eq_false, not_false_iff]))
    · rfl
  have hpre : (slotSetc g i b s (me s)).pre = [] :=
    List.append_eq_nil_iff.2 ⟨traprecCheck_allowed ha, hfeat⟩
  exact effects_of _ s (slotSetc g i b) g _ _ rfl hi (slotSetc_setCore_self g i b s)
    (plain_of rfl rfl hpre rfl rfl rfl) hr rfl rfl rfl rfl rfl

/-- EN = 1 where the checked-latency feature, bit 2 of FEAT, is absent or masked (R86). -/
theorem setc_chklat_traps (s : State) (g : Guard) (b : Src) (hi : Issues s) (hr : readsPass (mine s) [b])
    (h1 : (sVal s (me s) 0 1 b).getLsbD 0 = true) (h2 : (mine s).feat.getLsbD 2 = false) :
    Traps (.setc g 0x17 b) s 1 0x02 2 := by
  have hpre : (slotSetc g 0x17 b s (me s)).pre = [(0x02, 2)] := by
    simp only [slotSetc, h1, featureCheck_fails h2]
    rfl
  exact traps_of _ s (slotSetc g 0x17 b) 0x02 2 rfl hi (slotSetc_setCore_self g _ b s) rfl
    (slotStall_idle _ _ rfl rfl) rfl hr (by rw [hpre]; rfl)

theorem setc_traprec_traps (s : State) (g : Guard) (b : Src) (hi : Issues s) (hr : readsPass (mine s) [b])
    (hm : me s < 256) : Traps (.setc g 0x19 b) s 1 0x03 0 := by
  have hpre : (slotSetc g 0x19 b s (me s)).pre = [(0x03, 0)] :=
    (List.append_nil _).trans (traprecCheck_refused hm)
  exact traps_of _ s (slotSetc g 0x19 b) 0x03 0 rfl hi (slotSetc_setCore_self g _ b s) rfl
    (slotStall_idle _ _ rfl rfl) rfl hr (by rw [hpre]; rfl)

/-- A register that is not one of VFLAGS, BSAT, BZERO and CHKLAT ignores the write (R142). -/
theorem writeControl_readOnly (c : Core) (i : Nat) (v : BitVec 64) (h13 : i ≠ 0x13) (h14 : i ≠ 0x14) (h15 : i ≠ 0x15)
    (h17 : i ≠ 0x17) : writeControl c i v = c := by
  unfold writeControl
  split
  · exact absurd rfl h13
  · exact absurd rfl h14
  · exact absurd rfl h15
  · exact absurd rfl h17
  · rfl

/-- `setc` of a read-only register moves the sequencer and nothing else. -/
theorem setc_readOnly_effects (s : State) (g : Guard) (i : Fin 26) (b : Src) (hi : Issues s)
    (hr : readsPass (mine s) [b]) (h13 : i ≠ 0x13) (h14 : i ≠ 0x14) (h15 : i ≠ 0x15) (h17 : i ≠ 0x17)
    (ha : i ≠ 0x19 ∨ 256 ≤ me s) : Effects (.setc g i b) s g id .seq := by
  have ne (n : Fin 26) (h : i ≠ n) : i.val ≠ n.val := Fin.val_ne_of_ne h
  have hid : (fun c => writeControl c i.val (sVal s (me s) 0 1 b)) = id :=
    funext fun c => writeControl_readOnly c _ _ (ne _ h13) (ne _ h14) (ne _ h15) (ne _ h17)
  rw [← hid]
  exact setc_effects s g i b hi hr ha (.inl h17)

/-! ### The obligation -/

/-- Settles O9: `getc` reads `controlReg` (`getc_writes`), `setc` does what `writeControl` says (`setc_effects`), and
the two refusals are the checks before the guards that fail. -/
theorem controlRegisters : Obligations.ControlRegisters := by
  unfold Obligations.ControlRegisters
  refine ⟨fun s g d hi => ?_, fun s g b hi hr => ?_⟩
  · have read (i : Fin 26) (hne : i ≠ 0x19) {v : BitVec 64} (hv : controlReg s (me s) i.val = v) :
        Writes (.getc g d i) s g (.s d v) 1 fun c => c.s[d] = v :=
      getc_writes s g d i hi (.inl hne) hv
    exact ⟨read 0x00 (by decide) rfl, read 0x01 (by decide) rfl,
      fun k => read ⟨2 + k, _⟩ (Fin.ne_of_val_ne (show 2 + k.val ≠ 0x19 by omega)) (controlReg_sbase s _ k),
      fun k => read ⟨8 + k, _⟩ (Fin.ne_of_val_ne (show 8 + k.val ≠ 0x19 by omega)) (controlReg_sext s _ k),
      read 0x0E (by decide) rfl, read 0x0F (by decide) (controlReg_capRows s _), read 0x10 (by decide) rfl,
      read 0x11 (by decide) rfl, read 0x12 (by decide) rfl, read 0x13 (by decide) rfl, read 0x14 (by decide) rfl,
      read 0x15 (by decide) rfl, read 0x16 (by decide) rfl, read 0x17 (by decide) (controlReg_chklat s _),
      read 0x18 (by decide) rfl, fun hm => getc_writes s g d 0x19 hi (.inr hm) rfl,
      getc_traprec_traps s g d hi⟩
  · have write (i : Fin 26) (h17 : i ≠ 0x17) (h19 : i ≠ 0x19) :=
      setc_effects s g i b hi hr (.inl h19) (.inl h17)
    exact ⟨write 0x13 (by decide) (by decide), write 0x14 (by decide) (by decide), write 0x15 (by decide) (by decide),
      fun hen => setc_effects s g 0x17 b hi hr (.inl (by decide)) (.inr hen), rfl, setc_chklat_traps s g b hi hr,
      fun i => setc_readOnly_effects s g i b hi hr, setc_traprec_traps s g b hi hr⟩

end Sys2Proof.Machine
end

section
/-!
Words that move only the sequencer: NOP, `knop` and `ifence`, and what a slot with opcode 0 decodes to
(06_encoding.md R98, R101; 07_scalar.md R129, R134; 14_context.md R285).
-/
namespace Sys2Proof.Machine

open Sys2Proof.Safety

/-! ### Opcode 0 of each map (R98, R101) -/

theorem ifz_beq_zero {n : Nat} {α : Type} (w : BitVec n) (v : α) :
    ifz (w == 0) (some v) = if w = 0 then some v else none := by
  simp only [ifz, beq_iff_eq]

theorem decodeS_opcode_zero (k : Nat) (h : Header) {w : SlotBits} (ho : opOf w = 0) :
    decodeS k h w = ifz (w == 0) (some .nop) := by
  simp only [decodeS, ho]; rfl

theorem decodeV_opcode_zero (k : Nat) (h : Header) {w : SlotBits} (ho : opOf w = 0) :
    decodeV k h w = ifz (w == 0) (some .nop) := by
  simp only [decodeV, ho]; rfl

theorem decodeM_opcode_zero (k : Nat) (h : Header) {w : SlotBits} (ho : opOf w = 0) :
    decodeM k h w = ifz (w == 0) (some .nop) := by
  simp only [decodeM, ho]; rfl

theorem decodeC_opcode_zero (k : Nat) (h : Header) {w : SlotBits} (ho : opOf w = 0) :
    decodeC k h w = ifz (w == 0) (some .nop) := by
  simp only [decodeC, ho]; rfl

theorem decodeX_opcode_zero (k : Nat) (h : Header) {w : SlotBits} (ho : opOf w = 0) :
    decodeX k h w = ifz (w == 0) (some .nop) := by
  simp only [decodeX, ho]; rfl

/-- Opcode 0 in slots 0 to 6: whichever map the slot decodes, NOP with zeros only. -/
theorem decodeSlot_opcode_zero {k : Nat} (hk : k < 7) (h : Header) {w : SlotBits} (ho : opOf w = 0) :
    decodeSlot k h w = if w = 0 then some .nop else none := by
  rw [← ifz_beq_zero]
  match k, hk with
  | 0, _ => exact decodeS_opcode_zero 0 h ho
  | 1, _ => exact decodeV_opcode_zero 1 h ho
  | 2, _ => exact decodeV_opcode_zero 2 h ho
  | 3, _ => exact decodeM_opcode_zero 3 h ho
  | 4, _ => exact decodeC_opcode_zero 4 h ho
  | 5, _ => exact decodeC_opcode_zero 5 h ho
  | 6, _ => exact decodeX_opcode_zero 6 h ho

/-- A slot 7 whose mode and K opcode are zero is zero where its low 24 bits are. -/
theorem eq_zero_iff_low24 {w : SlotBits} (hm : w.extractLsb' 30 2 = 0) (ho : w.extractLsb' 24 6 = 0) :
    w.extractLsb' 0 24 = 0 ↔ w = 0 := by
  have hm' := congrArg BitVec.toNat hm
  have ho' := congrArg BitVec.toNat ho
  simp only [BitVec.extractLsb'_toNat, Nat.shiftRight_eq_div_pow, BitVec.ofNat_eq_ofNat, BitVec.toNat_ofNat] at hm' ho'
  rw [← BitVec.toNat_inj, ← BitVec.toNat_inj]
  simp only [BitVec.extractLsb'_toNat, Nat.shiftRight_eq_div_pow, BitVec.ofNat_eq_ofNat, BitVec.toNat_ofNat]
  have hw := w.isLt
  omega

/-- K opcode 0 in slot 7: `knop` with zeros only. -/
theorem decodeSlot_kOpcode_zero (h : Header) {w : SlotBits} (hm : w.extractLsb' 30 2 = 0)
    (ho : w.extractLsb' 24 6 = 0) : decodeSlot 7 h w = if w = 0 then some .knop else none := by
  have hk : decodeK w = ifz (w.extractLsb' 0 24 == 0) (some .knop) := by
    simp only [decodeK, ho]; rfl
  have hs : decodeSlot 7 h w = decodeK w := if_pos hm
  rw [hs, hk, ifz_beq_zero]
  simp only [eq_zero_iff_low24 hm ho]

theorem illegalEncoding_traps (s : State) (k : Fin 8) (hi : Issues s) :
    Traps (.illegalEncoding k) s (2 ^ k.val) 0x01 0 :=
  traps_of _ s (slotIllegal k) 0x01 0 rfl hi rfl rfl (slotStall_idle _ _ rfl rfl) rfl (readsPass_nil _) rfl

/-! ### The word that holds nothing (R98) -/

/-- The core after an empty word: the word is counted, and PROG of the next heartbeat (R396) is as it was. -/
def afterEmpty (c : Core) : Core := { moved c .seq with prog := c.prog }

/-- `moved_sign` for the empty word: a pair's signature and the move that keeps PROG do not meet. -/
theorem advance_signed_empty (s : State) (n : Nat) (c : Core) :
    { advance (signed s n c) .seq with
      words := (signed s n c).words + 1, prog := (signed s n c).prog || false, walked := [] } =
      signed s n (afterEmpty c) := by
  have h := moved_sign (isPaired s n) true (sentBytes s n) (coreOf s n) c .seq
  have hp : (signed s n c).prog = c.prog := by unfold signed; split <;> rfl
  rw [Bool.or_false, hp]
  have e : signed s n (afterEmpty c) = { signed s n (moved c .seq) with prog := c.prog } := by
    unfold signed; split <;> rfl
  rw [e]
  exact congrArg (fun x : Core => { x with prog := c.prog }) h

theorem commitWord_empty (s : State) (n : Nat) :
    commitWord s n false [] = endCycle (setCore s n (signed s n (afterEmpty (coreOf s n)))) n := by
  rw [← advance_signed_empty]
  simp only [commitWord, List.filter_nil, List.foldl_nil, List.find?_nil, Option.map_none, Option.getD_none, modCore_eq,
    signCycle_setCore, coreOf_setCore_same, setCore_setCore]
  rfl

/-- A word that holds nothing stalls for nothing and fails no check: it commits. -/
theorem runEmpty_commits (s : State) (hi : Issues s) :
    runEmpty s = .next (commitWord (setCore s (me s) (mine s)) (me s) false []) := by
  have hstall : (compatStall (mine s) [] || slotStall (mine s) []) = false := Bool.or_eq_false_iff.2 ⟨Bool.and_false _, rfl⟩
  unfold runEmpty runWord
  simp only [hi.running, hi.quiet, hi.free, hi.served, bne_self_eq_false, Bool.false_eq_true, if_false, Option.isSome_none,
    Bool.false_and, Bool.or_self]
  simp only [issueWord, hstall, Bool.false_eq_true, if_false, List.foldr_nil, rewalkCore, checkWord]
  rfl

/-- NOP and `knop` alike. -/
theorem empty_completes {i : Instr} (s : State) (hx : exec i s = runEmpty s) (hi : Issues s) :
    Completes i s fun c' _ => c' = afterEmpty (mine s) := by
  refine ⟨_, _, hx.trans (runEmpty_commits s hi), ?_, rfl⟩
  rw [commitWord_empty, coreOf_setCore_same, setCore_setCore, signed_setCore]

theorem completes_mono {i : Instr} {s : State} {P Q : Core → Core → Prop} (h : Completes i s P)
    (hPQ : ∀ c t, P c t → Q c t) : Completes i s Q := by
  obtain ⟨c, t, hx, ht, hP⟩ := h
  exact ⟨c, t, hx, ht, hPQ c _ hP⟩

/-- What holds of the core after an empty word is what NOP completes with. -/
theorem nop_completes {s : State} (hi : Issues s) {P : Core → Prop} (h : P (afterEmpty (mine s))) :
    Completes .nop s fun c' _ => P c' :=
  completes_mono (empty_completes s rfl hi) fun _ _ e => e ▸ h

/-! ### The words after a taken branch (R129, R285) -/

theorem afterEmpty_delay_two {c : Core} {t : BitVec 12} (h : c.delay = some { left := 2, target := t }) :
    (afterEmpty c).pc = inBank c (place c + 1) ∧ (afterEmpty c).delay = some { left := 1, target := t } := by
  unfold afterEmpty moved
  rw [advance_delay_first c .seq _ h (show ¬ (2 : BitVec 2).toNat ≤ 1 by decide)]
  exact ⟨rfl, rfl⟩

theorem afterEmpty_delay_one {c : Core} {t : BitVec 12} (h : c.delay = some { left := 1, target := t })
    (hr : c.returning = false) : (afterEmpty c).pc = t ∧ (afterEmpty c).delay = none := by
  unfold afterEmpty moved
  rw [advance_delay_last c .seq _ h (Nat.le_refl 1) hr]
  exact ⟨rfl, rfl⟩

theorem afterEmpty_handler_end {c : Core} {t : BitVec 12} {pc : BitVec 12} {d : Option Delay}
    (h : c.delay = some { left := 1, target := t }) (hr : c.returning = true) (hret : c.ret = some (pc, d)) :
    (afterEmpty c).pc = pc ∧ (afterEmpty c).delay = d ∧ (afterEmpty c).handler = false ∧
      (afterEmpty c).returning = false ∧ (afterEmpty c).ret = none := by
  unfold afterEmpty moved
  rw [advance_handler_end c .seq _ h (Nat.le_refl 1) hr]
  simp only [leaveHandler, hret, Option.map_some, Option.getD_some, and_self]

/-! ### `ifence` (R134) -/

/-- A copy into the instruction store that a fence waits for: a `tldi` or an `ipatch`. -/
def fenced (k : Copy) : Prop := (∃ b, k.kind = .tldi b) ∨ ∃ w p v, k.kind = .ipatch w p v

theorem slotIfence_stall_iff (g : Guard) (s : State) (n : Nat) :
    (slotIfence g s n).stall = true ↔ ∃ k ∈ (coreOf s n).copies, fenced k := by
  unfold slotIfence
  dsimp only
  rw [List.any_eq_true]
  refine exists_congr fun k => and_congr_right fun _ => ?_
  unfold fenced
  cases k.kind <;> simp

theorem slotIfence_setCore_self (g : Guard) (s : State) :
    slotIfence g (setCore s (me s) (mine s)) (me s) = slotIfence g s (me s) := by
  simp only [slotIfence, coreOf_setCore_same]

theorem ifence_effects (s : State) (g : Guard) (hi : Issues s) (h : ¬ ∃ k ∈ (mine s).copies, fenced k) :
    Effects (.ifence g) s g id .seq := by
  have hst : (slotIfence g s (me s)).stall = false :=
    Bool.eq_false_iff.2 fun hs => h ((slotIfence_stall_iff g s (me s)).1 hs)
  have hm := moves_of (.ifence g) s (slotIfence g) g .seq rfl hi (slotIfence_setCore_self g s)
    (plain_of rfl rfl rfl rfl hst rfl) (readsPass_nil _) rfl rfl rfl rfl rfl
  exact completes_mono hm fun _ _ e => by rw [e, id, ite_self, ite_self]

theorem ifence_stalls (s : State) (g : Guard) (hi : Issues s) (h : ∃ k ∈ (mine s).copies, fenced k)
    (hg : holds (mine s) g = true) : Stalls (.ifence g) s false :=
  stalls_of _ s (slotIfence g) g rfl hi rfl hg ((slotIfence_stall_iff g s (me s)).2 h) rfl

/-! ### The obligation -/

/-- Settles O5: NOP and `knop` run the empty word (`empty_completes`), opcode 0 decodes by `decodeSlot_opcode_zero` and
`decodeSlot_kOpcode_zero`, and `ifence` stalls on the copies of `slotIfence_stall_iff`. -/
theorem sequencerWords : Obligations.SequencerWords := by
  unfold Obligations.SequencerWords
  refine ⟨⟨fun s hi i hmem => ?_, fun k h w s => ?_, by decide +kernel, fun s t hi => ?_⟩, fun s g hi => ?_⟩
  · have hx : exec i s = runEmpty s := by
      rcases List.mem_cons.1 hmem with rfl | hmem
      · rfl
      · rw [List.mem_singleton.1 hmem]
        rfl
    exact empty_completes s hx hi
  · exact ⟨fun hk => decodeSlot_opcode_zero hk h, decodeSlot_kOpcode_zero h, illegalEncoding_traps s k⟩
  · exact ⟨fun h => nop_completes hi (afterEmpty_delay_two h),
      fun h hr => nop_completes hi (afterEmpty_delay_one h hr),
      fun pc d h hr hret => nop_completes hi (afterEmpty_handler_end h hr hret)⟩
  · exact ⟨ifence_effects s g hi, ifence_stalls s g hi⟩

end Sys2Proof.Machine
end

section
/-!
Scalar arithmetic: what the functions of slot 0 compute, said in the terms of bit vectors (07_scalar.md R116, R117).
-/
namespace Sys2Proof.Machine

open Sys2Proof.Safety

/-! ### Shifts, the lesser and the greater (R116) -/

/-- The shift count is B[5:0]. -/
theorem setWidth_six_toNat (y : BitVec 64) : (y.setWidth 6).toNat = shamt y := BitVec.toNat_setWidth 6 y

theorem shiftLeft_shamt (x y : BitVec 64) : x <<< shamt y = x <<< y.setWidth 6 := by
  rw [BitVec.shiftLeft_eq', setWidth_six_toNat]

theorem ushiftRight_shamt (x y : BitVec 64) : x >>> shamt y = x >>> y.setWidth 6 := by
  rw [BitVec.ushiftRight_eq', setWidth_six_toNat]

theorem sshiftRight_shamt (x y : BitVec 64) : x.sshiftRight (shamt y) = x.sshiftRight' (y.setWidth 6) := by
  rw [BitVec.sshiftRight_eq', setWidth_six_toNat]

/-- Two tests choose alike where they agree, or where it does not matter which value is chosen. -/
theorem ite_eq_ite_of_iff_or_eq {α : Type} {p q : Prop} [Decidable p] [Decidable q] {u v : α} (h : (p ↔ q) ∨ u = v) :
    (if p then u else v) = if q then u else v := by
  rcases h with h | rfl
  · simp only [h]
  · rw [ite_self, ite_self]

theorem ite_slt (x y : BitVec 64) {u v : BitVec 64} (h : x = y → u = v) :
    (if x.slt y then u else v) = if x.toInt ≤ y.toInt then u else v := by
  refine ite_eq_ite_of_iff_or_eq ((Decidable.em (x = y)).symm.imp (fun hne => ?_) h)
  have hn : x.toInt ≠ y.toInt := fun e => hne (BitVec.eq_of_toInt_eq e)
  exact BitVec.slt_iff_toInt_lt.trans (Int.lt_iff_le_and_ne.trans (and_iff_left hn))

theorem ite_ult (x y : BitVec 64) {u v : BitVec 64} (h : x = y → u = v) :
    (if x.ult y then u else v) = if x.toNat ≤ y.toNat then u else v := by
  refine ite_eq_ite_of_iff_or_eq ((Decidable.em (x = y)).symm.imp (fun hne => ?_) h)
  have hn : x.toNat ≠ y.toNat := fun e => hne (BitVec.eq_of_toNat_eq e)
  exact BitVec.ult_iff_lt.trans (Nat.lt_iff_le_and_ne.trans (and_iff_left hn))

/-! ### Products (R116) -/

/-- The upper half of a double word, read as a signed number. -/
theorem ofInt_toInt_div_two_pow (p : BitVec 128) : BitVec.ofInt 64 (p.toInt / 2 ^ 64) = p.extractLsb' 64 64 := by
  apply BitVec.eq_of_toNat_eq
  rw [BitVec.toNat_ofInt, BitVec.extractLsb'_toNat, Nat.shiftRight_eq_div_pow, BitVec.toInt_eq_toNat_cond]
  split <;> omega

/-- The upper half of a double word, read as an unsigned number. -/
theorem ofNat_toNat_div_two_pow (p : BitVec 128) : BitVec.ofNat 64 (p.toNat / 2 ^ 64) = p.extractLsb' 64 64 := by
  rw [← Nat.shiftRight_eq_div_pow]
  rfl

/-- A signed product of two words fits a double word. -/
theorem toInt_signExtend_mul (x y : BitVec 64) :
    (x.signExtend 128 * y.signExtend 128).toInt = x.toInt * y.toInt := by
  have hle : x.toInt * y.toInt ≤ 2 ^ 126 := BitVec.toInt_mul_toInt_le
  have hge : -(2 ^ 126) ≤ x.toInt * y.toInt := BitVec.le_toInt_mul_toInt
  rw [BitVec.toInt_mul, BitVec.toInt_signExtend_of_le (by decide), BitVec.toInt_signExtend_of_le (by decide)]
  exact Int.bmod_eq_of_le_mul_two (by omega) (by omega)

/-- An unsigned product of two words fits a double word. -/
theorem toNat_setWidth_mul (x y : BitVec 64) : (x.setWidth 128 * y.setWidth 128).toNat = x.toNat * y.toNat := by
  have hlt : x.toNat * y.toNat < 2 ^ 64 * 2 ^ 64 := Nat.mul_lt_mul'' x.isLt y.isLt
  rw [BitVec.toNat_mul, BitVec.toNat_setWidth_of_le (by decide), BitVec.toNat_setWidth_of_le (by decide)]
  exact Nat.mod_eq_of_lt hlt

theorem mulHigh_eq (x y : BitVec 64) : mulHigh x y = (x.signExtend 128 * y.signExtend 128).extractLsb' 64 64 := by
  rw [← ofInt_toInt_div_two_pow, toInt_signExtend_mul]
  rfl

theorem mulHighU_eq (x y : BitVec 64) : mulHighU x y = (x.setWidth 128 * y.setWidth 128).extractLsb' 64 64 := by
  rw [← ofNat_toNat_div_two_pow, toNat_setWidth_mul]
  rfl

/-! ### Quotients and remainders (R117) -/

/-- Truncation toward zero, the quotient 2^63 of -2^63 by -1 taken modulo 2^64. -/
theorem ofInt_toInt_tdiv (x y : BitVec 64) : BitVec.ofInt 64 (x.toInt.tdiv y.toInt) = x.sdiv y := by
  apply BitVec.eq_of_toInt_eq
  rw [BitVec.toInt_ofInt, BitVec.toInt_sdiv]

theorem divS_eq (x y : BitVec 64) : divS x y = if y = 0 then BitVec.allOnes 64 else x.sdiv y := by
  rw [← ofInt_toInt_tdiv]
  rfl

theorem remS_eq (x y : BitVec 64) : remS x y = if y = 0 then x else x.srem y := by
  rw [← BitVec.ofInt_toInt (x := x.srem y), BitVec.toInt_srem]
  rfl

theorem ofNat_toNat_quotient (x y : BitVec 64) : BitVec.ofNat 64 (x.toNat / y.toNat) = x / y := by
  rw [← BitVec.toNat_udiv, BitVec.ofNat_toNat, BitVec.setWidth_eq]

theorem ofNat_toNat_remainder (x y : BitVec 64) : BitVec.ofNat 64 (x.toNat % y.toNat) = x % y := by
  rw [← BitVec.toNat_umod, BitVec.ofNat_toNat, BitVec.setWidth_eq]

theorem divU_eq (x y : BitVec 64) : divU x y = if y = 0 then BitVec.allOnes 64 else x / y := by
  rw [← ofNat_toNat_quotient]
  rfl

theorem remU_eq (x y : BitVec 64) : remU x y = if y = 0 then x else x % y := by
  rw [← ofNat_toNat_remainder]
  rfl

/-! ### The obligation -/

/-- `alu2_deposits` with the result in the words of a statement. -/
theorem alu2_deposits_eq {i : Instr} {s : State} {g : Guard} {a b : Src} {lat : Nat}
    {f : BitVec 64 → BitVec 64 → BitVec 64} {v : BitVec 64} (hi : Issues s) (hr : readsPass (mine s) [a, b])
    (hx : exec i s = runSlot s (alu2 g a b lat f)) (hv : f (sVal s (me s) 0 0 a) (sVal s (me s) 0 1 b) = v) :
    Deposits i s .s g (v.setWidth 4096) lat :=
  hv ▸ alu2_deposits i s g a b lat f hx hi hr

/-- Settles O1: each instruction is an `alu2`, which deposits its function of the two sources (`alu2_deposits`); the
lemmas above say what that function is. -/
theorem scalarArithmetic : Obligations.ScalarArithmetic := by
  unfold Obligations.ScalarArithmetic
  refine ⟨⟨fun s g a b hi hr => ?_, fun s g a b hi hr => ?_⟩, fun s g a b hi hr => ?_⟩
  · have R {i lat f v} := @alu2_deposits_eq i s g a b lat f v hi hr
    exact ⟨R rfl rfl, R rfl rfl, R rfl rfl, R rfl rfl, R rfl rfl, R rfl rfl⟩
  · have R {i lat f v} := @alu2_deposits_eq i s g a b lat f v hi hr
    exact ⟨R rfl (shiftLeft_shamt _ _), R rfl (ushiftRight_shamt _ _), R rfl (sshiftRight_shamt _ _),
      R rfl (ite_slt _ _ id), R rfl (ite_slt _ _ Eq.symm), R rfl (ite_ult _ _ id), R rfl (ite_ult _ _ Eq.symm)⟩
  · have R {i lat f v} := @alu2_deposits_eq i s g a b lat f v hi hr
    exact ⟨R rfl rfl, R rfl (mulHigh_eq _ _), R rfl (mulHighU_eq _ _), R rfl (divS_eq _ _), R rfl (divU_eq _ _),
      R rfl (remS_eq _ _), R rfl (remU_eq _ _)⟩

end Sys2Proof.Machine
end

section
/-!
Slot 3's parameters, status, abort and wait: `mpset`, `mstat`, `mabort` and `mwait` (09_plane.md R198, R200, R201, R203).
-/
namespace Sys2Proof.Machine

open Sys2Proof.Safety

/-! ### What an instruction of slot 3 is on a compute core (R109) -/

theorem mSlot_compute {n : Nat} (h : n < 256) (g : Guard) : mSlot g n = guarded 3 g := computeOnly_eq h _

theorem slotMpset_setCore_self (g : Guard) (m : Fin 8) (a : Src) (s : State) :
    slotMpset g m a (setCore s (me s) (mine s)) (me s) = slotMpset g m a s (me s) := by
  simp only [slotMpset, sVal_setCore]

theorem slotMstat_setCore_self (g : Guard) (s : State) :
    slotMstat g (setCore s (me s) (mine s)) (me s) = slotMstat g s (me s) := by
  simp only [slotMstat, coreOf_setCore_same]

theorem slotMwait_setCore_self (g : Guard) (a : Src) (s : State) :
    slotMwait g a (setCore s (me s) (mine s)) (me s) = slotMwait g a s (me s) := by
  simp only [slotMwait, sVal_setCore, coreOf_setCore_same]

/-- An instruction of slot 3 that checks nothing, takes no latch and has its effect on its own core. -/
theorem matrixSlot_effects {i : Instr} {s : State} {op : State → Nat → SlotOp} {g : Guard} {reads : List Src}
    {f : Core → Core} (hx : exec i s = runSlot s op) (hi : Issues s) (hs : op (setCore s (me s) (mine s)) (me s) = op s (me s))
    (hop : op s (me s) = { guarded 3 g with reads := reads, eff := fun s' => modCore s' (me s) f })
    (hr : readsPass (mine s) reads) : Effects i s g f .seq :=
  effects_of i s op g f .seq hx hi hs (by rw [hop]; exact plain_of rfl rfl rfl rfl rfl rfl) (by rw [hop]; exact hr)
    (by rw [hop]; rfl) (by rw [hop]; rfl) (by rw [hop]; rfl) (by rw [hop]) (by rw [hop]; rfl)

/-- Of its function, an effect tells only what it does to the core as it stands. -/
theorem effects_congr {i : Instr} {s : State} {g : Guard} {f f' : Core → Core} {k : Ctl} (h : Effects i s g f k)
    (hf : f (mine s) = f' (mine s)) : Effects i s g f' k :=
  completes_mono h fun _ _ e => hf ▸ e

/-! ### `mpset` and `mstat` (R198, R201) -/

theorem mpset_effects (s : State) (g : Guard) (m : Fin 8) (a : Src) (hi : Issues s) (hm : me s < 256)
    (hr : readsPass (mine s) [a]) :
    Effects (.mpset g m a) s g (fun c => pending c (.mp m (sVal s (me s) 3 0 a)) 1) .seq :=
  matrixSlot_effects rfl hi (slotMpset_setCore_self g m a s) (by rw [slotMpset, mSlot_compute hm]; rfl) hr

/-- `mstat` reads the status of its issue cycle, running routine or not. -/
theorem mstat_deposits (s : State) (g : Guard) (hi : Issues s) (hm : me s < 256) :
    Deposits (.mstat g) s .m g ((mine s).mx.status.setWidth 4096) 1 := by
  have hop : slotMstat g s (me s) = { guarded 3 g with
      ring := some .m, eff := fun s' => modCore s' (me s) fun c => deposit64 c .m (mine s).mx.status 1 } := by
    rw [slotMstat, mSlot_compute hm]
  exact deposits_of _ s (slotMstat g) .m g _ 1 rfl hi (slotMstat_setCore_self g s)
    (by rw [hop]; exact plain_of rfl rfl rfl rfl rfl rfl) (by rw [hop]; exact readsPass_nil _) (by rw [hop]; rfl)
    (by rw [hop]) (by rw [hop]; rfl) (by rw [hop]; rfl) (by rw [hop]; rfl) (ringVal_64 .m rfl _)

/-! ### `mabort` (R203) -/

/-- What `mabort` does to its core. -/
def abortCall (c : Core) : Core :=
  if c.mx.run.isSome then modRun c fun r => { r with abort := true } else setStatus c 28 28 0

theorem mabort_effects (s : State) (g : Guard) (hi : Issues s) (hm : me s < 256) :
    Effects (.mabort g) s g abortCall .seq :=
  matrixSlot_effects (op := slotMabort g) rfl hi rfl (by rw [slotMabort, mSlot_compute hm]; rfl) (readsPass_nil _)

theorem abortCall_running {c : Core} (h : c.mx.run.isSome = true) :
    abortCall c = modRun c fun r => { r with abort := true } := if_pos h

theorem abortCall_idle {c : Core} (h : c.mx.run = none) : abortCall c = setStatus c 28 28 0 :=
  if_neg (by rw [h]; exact Bool.false_ne_true)

/-! ### The held cause (R200) -/

theorem heldCheck_none {c : Core} (h : mHeld c = false) (post : Bool) : heldCheck c post = [] := by
  rw [heldCheck, h, Bool.false_and, if_neg Bool.false_ne_true]

/-- Every held cause but 0x13 is raised before the guards. -/
theorem heldCheck_beforeGuards {c : Core} (h : mHeld c = true) (hc : mCause c ≠ 0x13) :
    heldCheck c false = [(mCause c, c.mx.heldDet)] := by
  rw [heldCheck, h, beq_false_of_ne hc]
  rfl

/-- A slot that fails one check is found at that check's stage. -/
theorem firstFail_single {fails : SlotOp → List (Nat × BitVec 32)} {o : SlotOp} {cause : Nat} {detail : BitVec 32}
    (h : fails o = [(cause, detail)]) {stages : List Nat} (hm : cause ∈ stages) :
    firstFail fails [o] stages = some (cause, 2 ^ o.k, detail) := by
  induction stages with
  | nil => exact absurd hm List.not_mem_nil
  | cons k r ih =>
    by_cases hk : cause = k
    · subst hk
      simp [firstFail, h]
    · have hr : cause ∈ r := (List.mem_cons.1 hm).resolve_left hk
      simp [firstFail, h, hk, ih hr]

/-- Where its ring reads pass, a slot fails the checks it names and no others. -/
theorem preFails_eq_pre {c : Core} {o : SlotOp} (hr : readsPass c o.reads) : preFails c o = o.pre := by
  have h : preFails c { o with pre := [] } = [] := preFails_nil c _ rfl hr
  have happ : preFails c o = o.pre ++ preFails c { o with pre := [] } := rfl
  rw [happ, h, List.append_nil]

/-- The trap of the matrix unit's held cause releases it. -/
theorem failTrap_held (s : State) (n : Nat) (o : SlotOp) (detail : BitVec 32) (hh : o.held = true) :
    failTrap s n [o] (mCause (coreOf s n)) (2 ^ o.k) detail =
      takeTrap (modCore s n fun c => { setStatus c 28 28 0 with walked := [] }) n (2 ^ o.k) (mCause (coreOf s n)) detail := by
  have held : ([o].any fun o' =>
      o'.held && (2 ^ o.k).testBit o'.k && mCause (coreOf s n) == mCause (coreOf s n)) = true := by
    simp only [List.any_cons, List.any_nil, hh, Nat.testBit_two_pow_self, beq_self_eq_true, Bool.and_self, Bool.or_false]
  simp only [failTrap, held, if_true]

/-- A slot whose one failing check before the guards is the held cause: it traps with that cause, which is released. -/
theorem traps_held (i : Instr) (s : State) (op : State → Nat → SlotOp) (detail : BitVec 32)
    (hx : exec i s = runSlot s op) (hi : Issues s) (hs : op (setCore s (me s) (mine s)) (me s) = op s (me s))
    (hr : readsPass (mine s) (op s (me s)).reads) (hst : slotStall (mine s) [op s (me s)] = false)
    (hw : (op s (me s)).rewalk = []) (hh : (op s (me s)).held = true)
    (hp : (op s (me s)).pre = [(mCause (mine s), detail)]) (hm : mCause (mine s) ∈ preStages) :
    exec i s = .next (takeTrap (setCore s (me s) { setStatus (mine s) 28 28 0 with walked := [] }) (me s)
      (2 ^ (op s (me s)).k) (mCause (mine s)) detail) := by
  have hread : compatStall (mine s) [op s (me s)] = false := compatStall_false (mine s) _ hr
  have hfail : firstFail (preFails (mine s)) [op s (me s)] preStages =
      some (mCause (mine s), 2 ^ (op s (me s)).k, detail) :=
    firstFail_single ((preFails_eq_pre hr).trans hp) hm
  have htrap := failTrap_held (setCore s (me s) (mine s)) (me s) (op s (me s)) detail hh
  rw [coreOf_setCore_same, modCore_setCore] at htrap
  rw [hx, ← htrap]
  unfold runSlot runWord
  simp only [hi.running, hi.quiet, hi.free, hi.served, bne_self_eq_false, Bool.false_eq_true, if_false, Option.isSome_none,
    Bool.false_and, Bool.or_self]
  simp only [issueWord, hread, hst, Bool.or_self, Bool.false_eq_true, if_false, List.foldr_cons, List.foldr_nil,
    List.append_nil, hw, rewalkCore, hs, checkWord, coreOf_setCore_same, hfail]

/-! ### `mwait` (R200) -/

/-- The ticket that `mwait` names is that of the last call. -/
def namesLastCall (s : State) (n : Nat) (a : Src) : Prop := (sVal s n 3 0 a).toNat % 2 ^ 32 = mSeq (coreOf s n)

/-- A ticket of an earlier call, or of none, asks nothing of the word. -/
theorem slotMwait_otherCall {n : Nat} (h : n < 256) {g : Guard} {a : Src} {s : State} (hc : ¬ namesLastCall s n a) :
    slotMwait g a s n = { guarded 3 g with reads := [a], held := true } := by
  rw [slotMwait, mSlot_compute h]
  simp only [beq_false_of_ne hc, Bool.and_false, Bool.false_eq_true, if_false]
  rfl

theorem slotMwait_lastCall {n : Nat} (h : n < 256) {g : Guard} {a : Src} {s : State} (hc : namesLastCall s n a) :
    slotMwait g a s n = { guarded 3 g with
      reads := [a], pre := heldCheck (coreOf s n) false, post := heldCheck (coreOf s n) true, held := true
      stall := (coreOf s n).mx.run.isSome } := by
  rw [slotMwait, mSlot_compute h]
  simp only [beq_iff_eq.2 hc, Bool.and_true, if_true]
  rfl

/-- `mwait` has nothing to wait for and nothing to raise. -/
theorem slotMwait_idle {n : Nat} (h : n < 256) {g : Guard} {a : Src} {s : State}
    (hc : ¬ namesLastCall s n a ∨ ((coreOf s n).mx.run = none ∧ mHeld (coreOf s n) = false)) :
    slotMwait g a s n = { guarded 3 g with reads := [a], held := true } := by
  by_cases hl : namesLastCall s n a
  · obtain ⟨hrun, hheld⟩ := hc.resolve_left (not_not_intro hl)
    rw [slotMwait_lastCall h hl, heldCheck_none hheld, heldCheck_none hheld, hrun]
    rfl
  · exact slotMwait_otherCall h hl

theorem mwait_effects (s : State) (g : Guard) (a : Src) (hi : Issues s) (hm : me s < 256) (hr : readsPass (mine s) [a])
    (hc : ¬ namesLastCall s (me s) a ∨ ((mine s).mx.run = none ∧ mHeld (mine s) = false)) :
    Effects (.mwait g a) s g id .seq := by
  have hop := slotMwait_idle hm (g := g) hc
  have hmove := moves_of (.mwait g a) s (slotMwait g a) g .seq rfl hi (slotMwait_setCore_self g a s)
    (by rw [hop]; exact plain_of rfl rfl rfl rfl rfl rfl) (by rw [hop]; exact hr) (by rw [hop]; rfl) (by rw [hop]; rfl)
    (by rw [hop]; rfl) (by rw [hop]; rfl) (by rw [hop]; rfl)
  exact completes_mono hmove fun _ _ e => by rw [e, id, ite_self, ite_self]

theorem mwait_stalls (s : State) (g : Guard) (a : Src) (hi : Issues s) (hm : me s < 256) (hc : namesLastCall s (me s) a)
    (hrun : (mine s).mx.run.isSome = true) (hg : holds (mine s) g = true) : Stalls (.mwait g a) s false := by
  have hop := slotMwait_lastCall hm (g := g) hc
  have hst := stalls_of (.mwait g a) s (slotMwait g a) g rfl hi (by rw [hop]; rfl) hg (by rw [hop]; exact hrun)
    (by rw [hop]; rfl)
  rwa [hop] at hst

/-- `mwait` of a call that ended with a cause held raises it, whatever its guard. -/
theorem mwait_raises (s : State) (g : Guard) (a : Src) (hi : Issues s) (hm : me s < 256) (hr : readsPass (mine s) [a])
    (hc : namesLastCall s (me s) a) (hrun : (mine s).mx.run = none) (hheld : mHeld (mine s) = true)
    (hcause : mCause (mine s) = 0x01 ∨ mCause (mine s) = 0x07) :
    exec (.mwait g a) s = .next (takeTrap (setCore s (me s) { setStatus (mine s) 28 28 0 with walked := [] }) (me s) 8
      (mCause (mine s)) (mine s).mx.heldDet) := by
  have hop := slotMwait_lastCall hm (g := g) hc
  have hstage : mCause (mine s) ∈ preStages ∧ mCause (mine s) ≠ 0x13 := by
    rcases hcause with h | h <;> rw [h] <;> decide
  have htrap := traps_held (.mwait g a) s (slotMwait g a) (mine s).mx.heldDet rfl hi (slotMwait_setCore_self g a s)
    (by rw [hop]; exact hr) (slotStall_idle _ _ (by rw [hop, hrun]; rfl) (by rw [hop]; rfl)) (by rw [hop]; rfl)
    (by rw [hop]) (by rw [hop]; exact heldCheck_beforeGuards hheld hstage.2) hstage.1
  rwa [hop] at htrap

/-! ### The obligation -/

/-- Settles O23: `mpset` and `mabort` have their effect on their own core and `mstat` deposits; `mwait` by whether its
ticket is the last call's, by whether that call still runs, and by whether a cause is held. -/
theorem matrixSlot : Obligations.MatrixSlot := by
  unfold Obligations.MatrixSlot
  intro s g m a hi hm hr
  refine ⟨mpset_effects s g m a hi hm hr, mstat_deposits s g hi hm, fun r hrun => ?_, fun hrun => ?_,
    mwait_effects s g a hi hm hr, mwait_stalls s g a hi hm, mwait_raises s g a hi hm hr⟩
  · exact effects_congr (mabort_effects s g hi hm) (abortCall_running (by rw [hrun]; rfl))
  · exact effects_congr (mabort_effects s g hi hm) (abortCall_idle hrun)

end Sys2Proof.Machine
end
